-- ==== Sys2Proof/Word.lean ====
section
/-! DEFINITION. The plain data words of the block (spec/00_scope.md R10): bytes, addresses, ports, micro-op words. -/

namespace Sys2Proof

/-- `u8` of R10. -/
abbrev Byte := BitVec 8

/-- A 16-bit memory address (`ADDR_WIDTH` = 16, R8) or port number (`PORT_WIDTH` = 16, R8). -/
abbrev Addr := BitVec 16

/-- `u64` of R10: the running counters. -/
abbrev U64 := BitVec 64

/-- A micro-op word (30_encoding.md R110). -/
abbrev UWord := BitVec 32

/-- `WINDOW_SIZE` of R8: bytes per paging window, and per bank. -/
abbrev windowSize : Nat := 16384

/-- `N_WIN` of R8, derived: 2^16 / `WINDOW_SIZE`. -/
abbrev nWin : Nat := 4

end Sys2Proof
end

