-- ==== Sys2Proof/Machine/Bits.lean ====
section
/-! DEFINITION. Bit fields and the byte views of 16-bit registers (00_scope.md R10, 10_state.md R22). -/

namespace Sys2Proof.Machine

/-- `v[15:8]`. -/
def hi8 (v : Addr) : Byte := v.extractLsb' 8 8

/-- `v[7:0]`. -/
def lo8 (v : Addr) : Byte := v.extractLsb' 0 8

/-- `a:b` of R10: `a * 256 + b`. -/
def join (a b : Byte) : Addr := a ++ b

/-- Bit `i` of a byte. -/
def bit (v : Byte) (i : Nat) : Bool := v.getLsbD i

/-- `v` with bit `i` set to 1. -/
def setBit (v : Byte) (i : Nat) : Byte := v ||| BitVec.ofNat 8 (2 ^ i)

/-- `v` with bit `i` set to 0. -/
def clearBit (v : Byte) (i : Nat) : Byte := v &&& ~~~(BitVec.ofNat 8 (2 ^ i))

/-- `win(a)` (20_memory.md R77). -/
def win (a : Addr) : Nat := a.toNat / windowSize

/-- `off(a)` (R77). -/
def off (a : Addr) : Nat := a.toNat % windowSize

end Sys2Proof.Machine
end

