-- ==== Sys2Proof/Syntax.lean ====
section
/-! DEFINITION. The instructions as syntax: the 19 micro-ops of 30_encoding.md R116 and the 18 REF opcodes of R129 and R122,
one constructor per row of spec/opcode_table.json, with their operand selectors (R114, R115). -/

namespace Sys2Proof

/-- A byte selector (30_encoding.md R114). `r i` is `R8[i]`, selector values 0x00 to 0x7F; it names a register only if
`i < N_REG8`, which `WellFormed` checks. Reserved values have no constructor. -/
inductive Sel8 where
  | r (i : BitVec 7)
  | pcl | pch | spl | sph | lat | wl | wh | flags
  deriving DecidableEq, Repr

/-- A pair selector (30_encoding.md R115). `map j` is `PAIR_MAP[j]`, selector values 0x00 to 0x3F, only if configured. -/
inductive PairSel where
  | map (j : BitVec 6)
  | pc | sp | w
  deriving DecidableEq, Repr

/-- Every row of spec/opcode_table.json. The first 19 are micro-ops (R116); the rest are opcode bytes of the REF
architecture (R129), whose operand bytes the opcode's own program reads (20_memory.md R97). -/
inductive Instr where
  | idle
  | fetch
  | fetchx (t : Byte)
  | dec16 (p : PairSel)
  | inc16 (p : PairSel)
  | rd (d : Sel8) (p : PairSel)
  | wr (a : Sel8) (p : PairSel)
  | mov (d a : Sel8)
  | setpc (p : PairSel)
  | setvec
  | irqchk
  | irqend
  | inp (d : Sel8) (p : PairSel)
  | outp (a : Sel8) (p : PairSel)
  | alu (d a : Sel8) (c : Byte)
  | ei
  | di
  | halt
  | setbug
  | refNop
  | refDecB
  | refBugnop
  | refLdANn
  | refLdNnA
  | refIncA
  | refDecA
  | refLdAN
  | refHalt
  | refLdAB
  | refJpNn
  | refRet
  | refPrefixCb
  | refOutNnA
  | refInANn
  | refDi
  | refEi
  /-- An undefined byte `b` of table `t` (R122): any byte of table 0 that R129 does not list, every byte of table 1. -/
  | refFallback (t b : Byte)
  deriving DecidableEq, Repr

/-- The two shapes an instruction is encoded in: a micro-op word (R110), or an opcode byte looked up in a REF table
(R120, R129). -/
inductive Code where
  | uop (w : UWord)
  | op8 (t b : Byte)
  deriving DecidableEq, Repr

end Sys2Proof
end

