-- ==== Sys2Proof/Config.lean ====
section
/-! DEFINITION. The configuration record `Cfg` of 00_scope.md R8 as plain data, the language its functions are written in,
and the two uninterpreted constants of the model. -/

namespace Sys2Proof

/-- Sparse bytes: (address, byte) pairs in one canonical form (Sys2Proof/Machine/Memory.lean says which). -/
abbrev Memory := List Host.Cell

/-- Operations of the configuration's function language, on natural numbers; `lt` and `eq` answer 1 or 0. -/
inductive FnOp where
  | add | sub | mul | div | mod | and | or | xor | shl | shr | eq | lt
  deriving DecidableEq, Repr

/-- The language in which a configuration writes the total functions that the spec leaves to it (`ALU_FN`,
`PAGING.update`, the board's and the peripherals' functions): DESIGN CHOICE, log entry 5. `α` names the function's
arguments, `κ` the lookups it may make. `ext` applies the uninterpreted `Config.ext`. -/
inductive Fn (α κ : Type) where
  | lit (n : Nat)
  | atom (a : α)
  | look (k : κ) (x y : Fn α κ)
  | op (o : FnOp) (x y : Fn α κ)
  | ite (c t e : Fn α κ)
  | ext (id : Nat) (x y : Fn α κ)
  deriving DecidableEq, Repr

/-- No lookups. -/
inductive NoLook
  deriving DecidableEq, Repr

/-- A function the configuration may use that the model knows nothing of: a statement holds whatever it is (log entry 5). -/
opaque Config.ext : Nat → Nat → Nat → Nat

/-- `ALU_FN[c]`'s arguments (R8): the destination byte, the source byte, FLAGS. -/
inductive AluAtom where
  | d | s | f
  deriving DecidableEq, Repr

abbrev AluFn := Fn AluAtom NoLook

/-- One entry of `ALU_FN` (R8, R156): the result and the new FLAGS, each taken modulo 256. -/
structure AluEntry where
  res : AluFn
  flags : AluFn
  deriving DecidableEq, Repr

/-- A port predicate's argument (42_ports.md R211: "a pure function of the port"). -/
inductive PortAtom where
  | port
  deriving DecidableEq, Repr

/-- An address-decode predicate: a port is matched when it evaluates to a number other than 0. -/
abbrev PortPred := Fn PortAtom NoLook

/-- `SEL[w]` (10_state.md R38). -/
inductive Sel where
  | rom (n : Nat)
  | ram (n : Nat)
  | unmapped
  deriving DecidableEq, Repr

/-- `PAGING.update`'s arguments: the paging control registers (20_memory.md R79). -/
inductive PageAtom where
  | reg (k : Nat)
  deriving DecidableEq, Repr

abbrev PageFn := Fn PageAtom NoLook

/-- `PAGING.update` for one window: `kind` 0 is `Rom(bank)`, 1 is `Ram(bank)`, anything else `Unmapped`; `cont` and
`vid` are set when not 0. -/
structure WindowFn where
  kind : PageFn
  bank : PageFn
  cont : PageFn
  vid : PageFn
  deriving DecidableEq, Repr

/-- The record `PAGING` (20_memory.md R79); `update` has one entry per window. -/
structure PagingCfg where
  nRegs : Nat
  initRegs : List Byte
  initSel : List Sel
  initCont : List Bool
  initVid : List Bool
  ports : List (PortPred × Nat)
  readback : Bool
  update : List WindowFn
  deriving DecidableEq, Repr

/-- One entry of the Contention Table (20_memory.md R85). -/
inductive CtEntry where
  | valid (wait floatOff : Nat)
  | sentinel
  deriving DecidableEq, Repr

/-- Arguments of a board function (43_board.md R231): the address or port, the value written, the board's registers. -/
inductive BoardAtom where
  | addr | value | bank | prot | key
  deriving DecidableEq, Repr

/-- Lookups of a board function (43_board.md R231): `XT[x]`, and base memory: a byte by bank and offset, `ROM[x][y]` or
`RAM[x][y]`, or the byte that SEL puts at address `x`, the board left aside (`base`). -/
inductive BoardLook where
  | xt | rom | ram | base
  deriving DecidableEq, Repr

abbrev BoardFn := Fn BoardAtom BoardLook

/-- What one action of a board write changes (43_board.md R235): a board register, or the RAM byte behind an address
of the board's bus window (R234). -/
inductive BoardTarget where
  | bank | prot | key
  | ram (addr : BoardFn)
  deriving DecidableEq, Repr

/-- One action of a board write, taken when `guard` is not 0. -/
structure BoardAct where
  guard : BoardFn
  target : BoardTarget
  value : BoardFn
  deriving DecidableEq, Repr

/-- The record `BOARD` (43_board.md R231); the bus window is the addresses `lo` to `hi`. -/
structure BoardCfg where
  lo : Nat
  hi : Nat
  portWindow : PortPred
  initBank : Byte
  initProt : Byte
  initKey : Byte
  xt : List Byte
  read : BoardFn
  writes : List BoardAct
  portOk : BoardFn
  portVal : BoardFn
  portWrites : List BoardAct
  deriving DecidableEq, Repr

/-- What a unit's port or reset function may read (42_ports.md R211): the port and the value, its arguments, and its own
state `PSTATE[k]`, by cell and number of cells. -/
inductive UnitAtom where
  | port | value
  | cell (i : Nat) | cells
  deriving DecidableEq, Repr

/-- Lookups of a unit's port or reset function (R211, R223): a cell of its state by computed index, a button and an analog
control of the input latch, `ReadBus`. -/
inductive UnitLook where
  | cellAt | button | axis | bus
  deriving DecidableEq, Repr

abbrev UnitFn := Fn UnitAtom UnitLook

/-- What a tick hook `PTICK_k(S)` may read (R222): its own state, and the fields of its argument `S` that are one number
each (log entry 8). -/
inductive TickAtom where
  | cell (i : Nat) | cells
  | pc | sp | flags | lat | w | ir | ime | halted | bug
  | progForm | progTable | progByte | progVariant | cursor
  | icState | irqFlags | irqEnable | icSrc
  | bank | prot | key
  | cycles | framePos | frame
  deriving DecidableEq, Repr

/-- Lookups of a tick hook: the fields of `S` that are indexed. A button or control of INPUT or of INPUT_NEXT, `ReadBus`,
R8, PREG, the kind and the bank of SEL, CONT, VID, a RAM or ROM byte by bank and offset, BUSLOG, and the number of cells and
a cell of the `PSTATE` of any peripheral or observer (log entry 8). -/
inductive TickLook where
  | cellAt | button | axis | nextButton | nextAxis | bus
  | r8 | preg | selKind | selBank | cont | vid | ram | rom | buslog
  | periphCells | periphCell | observerCells | observerCell
  deriving DecidableEq, Repr

abbrev TickFn := Fn TickAtom TickLook

/-- One change of a unit's state `PSTATE[k]`, a list of numbers, by functions of type `φ`. -/
inductive StateAct (φ : Type) where
  | setCell (i v : φ)
  | push (v : φ)
  | dropFirst (n : φ)
  deriving DecidableEq, Repr

/-- A state change taken when `guard` is not 0. -/
structure DevAct (φ : Type) where
  guard : φ
  act : StateAct φ
  deriving DecidableEq, Repr

/-- What a tick hook does to one interrupt source it is wired to (42_ports.md R222): when `guard` is not 0, `IF[source]`
becomes 1 if `level` is not 0 and 0 otherwise. -/
structure LineAct where
  source : Nat
  guard : TickFn
  level : TickFn
  deriving DecidableEq, Repr

/-- A configured peripheral (42_ports.md R211, R222): its claim predicate, its read, write, tick and reset functions, and
its initial state. A `fail` function that is not 0 reports failure (60_exceptions.md R293, R294). -/
structure Device where
  claims : PortPred
  readFail : UnitFn
  readOk : UnitFn
  readVal : UnitFn
  readActs : List (DevAct UnitFn)
  writeFail : UnitFn
  writeActs : List (DevAct UnitFn)
  tickFail : TickFn
  tickActs : List (DevAct TickFn)
  tickLines : List LineAct
  presetActs : List (DevAct UnitFn)
  init : List Nat
  deriving DecidableEq, Repr

/-- A passive observer (42_ports.md R218): it sees writes and ticks, changes only its own state, and reports no failure
(only a peripheral's function does, 60_exceptions.md R293, R294). -/
structure Observer where
  writeActs : List (DevAct UnitFn)
  tickActs : List (DevAct TickFn)
  presetActs : List (DevAct UnitFn)
  init : List Nat
  deriving DecidableEq, Repr

/-- An entry of `PERIPH`: the interrupt controller's registers, the paging control registers (42_ports.md R213), or a
configured peripheral. -/
inductive Periph where
  | ic
  | paging
  | device (d : Device)
  deriving DecidableEq, Repr

/-- One program table `PROG[t]` (30_encoding.md R120): a program, a list of micro-op words, for each opcode byte. -/
structure ProgTable where
  id : Byte
  entries : List (List UWord)
  deriving DecidableEq, Repr

/-- One configured pair `PAIR_MAP[j]` (30_encoding.md R115). -/
structure PairEntry where
  j : BitVec 6
  hi : Sel8
  lo : Sel8
  deriving DecidableEq, Repr

/-- The configuration record `Cfg` (00_scope.md R8). `N_REG8` is the number of reset values `resetR8`; `alu` holds the
entries of `ALU_FN` that differ from `aluElse`. -/
structure Cfg where
  resetR8 : List Byte
  resetFlags : Byte
  resetSp : Addr
  resetLat : Byte
  resetW : Addr
  pairMap : List PairEntry
  alu : List (Byte × AluEntry)
  aluElse : AluEntry
  tables : List ProgTable
  nIrq : Nat
  vector : List Addr
  irqVariant : Nat
  frameCycles : Nat
  ct : List CtEntry
  romBanks : Nat
  ramBanks : Nat
  rom : Memory
  ramInit : Memory
  paging : PagingCfg
  periph : List Periph
  observers : List Observer
  board : Option BoardCfg
  iePort : Addr
  ifPort : Addr
  deriving DecidableEq, Repr

/-- The digest of a configuration (10_state.md R54, "a digest of `Cfg` including ROM contents"): the spec does not give
the function, so it has no body here and a statement holds whatever it is (log entry 7). -/
opaque Config.digest : Cfg → U64

/-- The named checks of 30_encoding.md R127, and `change` for a reconfiguration of a unit that is not configured (44_host.md
R257; log entry 12). -/
inductive Check where
  | wfTag | wfSel | wfPlace | wfTables | wfIrq | wfCt | wfPaging | wfPorts | wfBoard
  | change
  deriving DecidableEq, Repr

/-- The section names of a snapshot (10_state.md R54); `unknown n` is any other tag. -/
inductive Tag where
  | cfg | cpu | seq | ic | paging | board | periph | timing | input | fail
  | unknown (n : Nat)
  deriving DecidableEq, Repr

/-- The errors of 60_exceptions.md R294 with what each records. -/
inductive Error where
  | config (c : Check)
  | snapFormat (expected found : Option Tag)
  | snapMismatch (expected found : U64)
  | step (periph : Nat)
  deriving DecidableEq, Repr

/-- The error code of R294. -/
def Error.code : Error → Nat
  | .config _ => 1
  | .snapFormat _ _ => 2
  | .snapMismatch _ _ => 3
  | .step _ => 4

end Sys2Proof
end

