-- ==== Sys2Proof/Machine/Fn.lean ====
section
/-! DEFINITION. Evaluation of the configuration's function language `Fn` (log entry 5), and of the port predicates and
`PAGING.update` written in it. -/

namespace Sys2Proof

/-- The value of one operation; subtraction stops at 0, division by 0 gives 0, as on Lean's natural numbers. -/
def FnOp.eval (o : FnOp) (x y : Nat) : Nat :=
  match o with
  | .add => x + y
  | .sub => x - y
  | .mul => x * y
  | .div => x / y
  | .mod => x % y
  | .and => x &&& y
  | .or => x ||| y
  | .xor => x ^^^ y
  | .shl => x <<< y
  | .shr => x >>> y
  | .eq => if x = y then 1 else 0
  | .lt => if x < y then 1 else 0

/-- The value of a function, given its arguments and lookups. -/
def Fn.eval {α κ : Type} (arg : α → Nat) (look : κ → Nat → Nat → Nat) : Fn α κ → Nat
  | .lit n => n
  | .atom a => arg a
  | .look k x y => look k (x.eval arg look) (y.eval arg look)
  | .op o x y => o.eval (x.eval arg look) (y.eval arg look)
  | .ite c t e => if c.eval arg look = 0 then e.eval arg look else t.eval arg look
  | .ext id x y => Config.ext id (x.eval arg look) (y.eval arg look)

/-- Every argument the function names satisfies `p`. -/
def Fn.allAtoms {α κ : Type} (p : α → Bool) : Fn α κ → Bool
  | .lit _ => true
  | .atom a => p a
  | .look _ x y => x.allAtoms p && y.allAtoms p
  | .op _ x y => x.allAtoms p && y.allAtoms p
  | .ite c t e => c.allAtoms p && t.allAtoms p && e.allAtoms p
  | .ext _ x y => x.allAtoms p && y.allAtoms p

/-- Every lookup the function makes satisfies `p`. -/
def Fn.allLooks {α κ : Type} (p : κ → Bool) : Fn α κ → Bool
  | .lit _ => true
  | .atom _ => true
  | .look k x y => p k && x.allLooks p && y.allLooks p
  | .op _ x y => x.allLooks p && y.allLooks p
  | .ite c t e => c.allLooks p && t.allLooks p && e.allLooks p
  | .ext _ x y => x.allLooks p && y.allLooks p

/-- A function that makes no lookups. -/
def noLook (k : NoLook) (_ _ : Nat) : Nat := nomatch k

/-- Whether a predicate matches a port (42_ports.md R211). -/
def PortPred.holds (p : PortPred) (q : Addr) : Bool :=
  Fn.eval (fun _ => q.toNat) noLook p != 0

/-- A value for each of the four windows (`N_WIN` = 4, 20_memory.md R77). -/
structure Quad (α : Type) where
  w0 : α
  w1 : α
  w2 : α
  w3 : α
  deriving DecidableEq, Repr

/-- The value of window `w`. -/
def Quad.get {α : Type} (q : Quad α) (w : Nat) : α :=
  match w with
  | 0 => q.w0
  | 1 => q.w1
  | 2 => q.w2
  | _ => q.w3

def Quad.ofList {α : Type} (d : α) (l : List α) : Quad α :=
  ⟨l.getD 0 d, l.getD 1 d, l.getD 2 d, l.getD 3 d⟩

def Quad.map {α β : Type} (f : α → β) (q : Quad α) : Quad β := ⟨f q.w0, f q.w1, f q.w2, f q.w3⟩

def Quad.toList {α : Type} (q : Quad α) : List α := [q.w0, q.w1, q.w2, q.w3]

/-- The bank `n` of a kind with `banks` banks (20_memory.md R82): reduced modulo the count, `Unmapped` when there is none. -/
def reduceBank (mk : Nat → Sel) (banks n : Nat) : Sel :=
  if banks = 0 then .unmapped else mk (n % banks)

/-- `SEL`, `CONT` and `VID` of one window, as `PAGING.update` gives them from PREG (20_memory.md R79, R82). -/
def WindowFn.eval (c : Cfg) (preg : List Byte) (f : WindowFn) : Sel × Bool × Bool :=
  let arg : PageAtom → Nat := fun | .reg k => (preg.getD k 0).toNat
  let bank := f.bank.eval arg noLook
  let sel := match f.kind.eval arg noLook with
    | 0 => reduceBank .rom c.romBanks bank
    | 1 => reduceBank .ram c.ramBanks bank
    | _ => .unmapped
  (sel, f.cont.eval arg noLook != 0, f.vid.eval arg noLook != 0)

/-- `PAGING.update` of a configuration (20_memory.md R79): SEL, CONT and VID for every window. -/
def Cfg.pagingUpdate (c : Cfg) (preg : List Byte) : Quad (Sel × Bool × Bool) :=
  Quad.ofList (.unmapped, false, false) (c.paging.update.map (WindowFn.eval c preg))

/-- `ALU_FN[c]` of a configuration on the destination byte, the source byte and FLAGS (40_microops.md R156). -/
def Cfg.aluFn (cf : Cfg) (c d s f : Byte) : Byte × Byte :=
  let e := (cf.alu.lookup c).getD cf.aluElse
  let arg : AluAtom → Nat := fun | .d => d.toNat | .s => s.toNat | .f => f.toNat
  (BitVec.ofNat 8 (e.res.eval arg noLook), BitVec.ofNat 8 (e.flags.eval arg noLook))

/-- The table of id `t` (30_encoding.md R120). -/
def Cfg.table? (c : Cfg) (t : Byte) : Option ProgTable := c.tables.find? fun p => p.id == t

/-- `PROG[t][b]` (R120): the program of byte `b` in table `t`. -/
def Cfg.prog? (c : Cfg) (t b : Byte) : Option (List UWord) :=
  (c.table? t).bind fun p => p.entries[b.toNat]?

/-- `PAIR_MAP[j]` (R115). -/
def Cfg.pair? (c : Cfg) (j : BitVec 6) : Option (Sel8 × Sel8) :=
  (c.pairMap.find? fun e => e.j == j).map fun e => (e.hi, e.lo)

/-- `N_REG8` (R8). -/
abbrev Cfg.nReg8 (c : Cfg) : Nat := c.resetR8.length

/-- The mask of the implemented interrupt sources, `(1 << N_IRQ) - 1` (60_exceptions.md R283). -/
def Cfg.irqMask (c : Cfg) : Byte := BitVec.ofNat 8 (2 ^ c.nIrq - 1)

end Sys2Proof
end

