-- ==== Sys2Proof/Machine/Programs.lean ====
section
/-! DEFINITION. The fixed interrupt-entry programs (30_encoding.md R123) and the names of programs (10_state.md R31). -/

namespace Sys2Proof.Machine

/-- `PROG_ID` (10_state.md R31). -/
inductive ProgId where
  | table (t b : Byte)
  | dispatch (v : Nat)
  | cancelled (v : Nat)
  | empty
  deriving DecidableEq, Repr

/-- `PROG_ID` as numbers: its form (`Table` 0, `Dispatch` 1, `Cancelled` 2, `Empty` 3: DESIGN CHOICE, log entry 9), table,
opcode byte, variant; 0 for what the form has not. -/
def ProgId.fields : ProgId → Byte × Byte × Byte × Nat
  | .table t b => (0, t, b, 0)
  | .dispatch v => (1, 0, 0, v)
  | .cancelled v => (2, 0, 0, v)
  | .empty => (3, 0, 0, 0)

/-- `Dispatch(0)` of R123: `DEC16 SP`, `WR PCH,SP`, `IRQCHK`, `DEC16 SP`, `WR PCL,SP`, `SETVEC`, `FETCH`. -/
def dispatchWords : List UWord :=
  [0x03810000, 0x06F18100, 0x0A000000, 0x03810000, 0x06F08100, 0x09000000, 0x01000000]

/-- `Cancelled(0)` of R123: `SETVEC` replaced by `IRQEND`. -/
def cancelledWords : List UWord :=
  [0x03810000, 0x06F18100, 0x0A000000, 0x03810000, 0x06F08100, 0x0B000000, 0x01000000]

/-- The words before the entry proper: variant 1 has one leading `IDLE` (R123, 60_exceptions.md R284), and so has a variant above
1, which only Restore can leave in PROG_ID (DESIGN CHOICE, log entry 32). -/
def variantPrefix (v : Nat) : List UWord := if v = 0 then [] else [0x00000000]

/-- The micro-op list a `PROG_ID` names under a configuration (10_state.md R31); a table entry that is not configured
names no program, which `wf_tables` (30_encoding.md R127) rules out. -/
def ProgId.prog (c : Cfg) : ProgId → List UWord
  | .table t b => (c.prog? t b).getD []
  | .dispatch v => variantPrefix v ++ dispatchWords
  | .cancelled v => variantPrefix v ++ cancelledWords
  | .empty => []

end Sys2Proof.Machine
end

