-- ==== Sys2Proof/Machine/Memory.lean ====
section
/-! DEFINITION. Sparse bytes: RAM and ROM (10_state.md R40) and the bus log (R48) as lists of (address, byte) pairs in one
canonical form: addresses strictly rising, no entry equal to what an unlisted address reads as. -/

namespace Sys2Proof.Machine

/-- What a RAM or ROM byte that is not listed reads as: DESIGN CHOICE 0x00, REF's `RAM_INIT` (30_encoding.md R128, log
entry 3). Any other initial contents are listed. -/
def Memory.unlisted : Byte := 0x00

/-- What a bus log offset that is not listed holds: 0xFF (10_state.md R48). -/
def BusLog.unlisted : Byte := 0xFF

/-- The byte at `a`, `d` where it is not listed. -/
def Memory.read (d : Byte) : Memory → Nat → Byte
  | [], _ => d
  | c :: m, a => if c.1 = a then c.2 else Memory.read d m a

/-- The cells other than `a`. -/
def Memory.erase (m : Memory) (a : Nat) : Memory := m.filter fun c => c.1 != a

/-- `m` with the cell `(a, v)` put before the first greater address. -/
def Memory.insert (a : Nat) (v : Byte) : Memory → Memory
  | [] => [(a, v)]
  | c :: m => if a < c.1 then (a, v) :: c :: m else c :: Memory.insert a v m

/-- `m` with `v` at `a`: the value an unlisted address reads as removes the entry. -/
def Memory.write (d : Byte) (m : Memory) (a : Nat) (v : Byte) : Memory :=
  if v = d then Memory.erase m a else Memory.insert a v (Memory.erase m a)

/-- The canonical form. -/
def Memory.wf (d : Byte) : Memory → Bool
  | [] => true
  | c :: m => c.2 != d && m.all (fun e => decide (c.1 < e.1)) && Memory.wf d m

/-- Every listed address is below `n`. -/
def Memory.below (n : Nat) (m : Memory) : Bool := m.all fun c => decide (c.1 < n)

/-- The key of byte `o` of bank `n`: banks stand one after the other. -/
def bankKey (n o : Nat) : Nat := n * windowSize + o

/-- `m` with the bytes `bs` written from address `a` on: a bank array of the media loader (44_host.md R256). -/
def Memory.load (d : Byte) (m : Memory) (a : Nat) : List Byte → Memory
  | [] => m
  | b :: bs => Memory.load d (Memory.write d m a b) (a + 1) bs

end Sys2Proof.Machine
end

