-- ==== Sys2Proof/Machine/Ref.lean ====
section
/-! DEFINITION. The configurations the spec decides in full: REF (30_encoding.md R128, R129; 20_memory.md R84, R91;
43_board.md R240, R241) and REF16 (95_test_vectors.md section 1), and the shapes of the four paging variants
(20_memory.md R83). -/

namespace Sys2Proof.Machine.Ref

/-! ## Programs (R129) -/

/-- `FALLBACK` = `[FETCH]` (R129). -/
def fallback : List UWord := [0x01000000]

/-- `RD WL,PC; INC16 PC; RD WH,PC; INC16 PC`: the little-endian operand of R126 and R129. -/
def imm16 : List UWord := [0x05F58000, 0x04800000, 0x05F68000, 0x04800000]

/-- The program of byte `b` of table 0 (R129). -/
def program (b : Nat) : List UWord :=
  match b with
  | 0x00 => [0x01000000]
  | 0x05 => [0x0E010100, 0x01000000]
  | 0x08 => [0x12000000, 0x01000000]
  | 0x3A => imm16 ++ [0x05008200, 0x01000000]
  | 0x32 => imm16 ++ [0x06008200, 0x01000000]
  | 0x3C => [0x0E000001, 0x01000000]
  | 0x3D => [0x0E000000, 0x01000000]
  | 0x3E => [0x05008000, 0x04800000, 0x01000000]
  | 0x76 => [0x11000000, 0x01000000]
  | 0x78 => [0x07000100, 0x01000000]
  | 0xC3 => imm16 ++ [0x08820000, 0x01000000]
  | 0xC9 => [0x05F58100, 0x04810000, 0x05F68100, 0x04810000, 0x08820000, 0x01000000]
  | 0xCB => [0x02010000]
  | 0xD3 => imm16 ++ [0x0D008200, 0x01000000]
  | 0xDB => imm16 ++ [0x0C008200, 0x01000000]
  | 0xF3 => [0x10000000, 0x01000000]
  | 0xFB => [0x0F000000, 0x01000000]
  | _ => fallback

def table0 : ProgTable := ⟨0, (List.range 256).map program⟩

/-- Every byte of table 1 maps to `[FETCH]` (R129). -/
def table1 : ProgTable := ⟨1, List.replicate 256 fallback⟩

/-! ## ALU_FN (R128) -/

/-- `f' = 0x80 if r = 0 else 0x00`. -/
def zeroFlag (r : AluFn) : AluFn := .ite (.op .mod r (.lit 256)) (.lit 0x00) (.lit 0x80)

/-- DEC: `r = d - 1` modulo 256. -/
def aluDec : AluEntry :=
  let r : AluFn := .op .add (.atom .d) (.lit 255)
  ⟨r, zeroFlag r⟩

/-- INC: `r = d + 1` modulo 256. -/
def aluInc : AluEntry :=
  let r : AluFn := .op .add (.atom .d) (.lit 1)
  ⟨r, zeroFlag r⟩

/-- Every other function: `r = d`, `f' = f`. -/
def aluId : AluEntry := ⟨.atom .d, .atom .f⟩

/-! ## Paging (R84) and its variants (R83) -/

/-- A window backed by a constant kind and a computed bank. -/
def windowFn (kind : Nat) (bank : PageFn) (cont vid : Nat) : WindowFn := ⟨.lit kind, bank, .lit cont, .lit vid⟩

/-- The port predicate "the port is `q`". -/
def onPort (q : Nat) : PortPred := .op .eq (.atom .port) (.lit q)

/-- Variants V0 (no paging) and V1 (ROM/RAM split) of R83: no registers, no ports, SEL constant. R83 and 91_not_in_source.md N9 give
no CONT or VID: both are 0 in every window here (DESIGN CHOICE, log entry 29). -/
def pagingFixed (sel : Quad Sel) : PagingCfg where
  nRegs := 0
  initRegs := []
  initSel := sel.toList
  initCont := [false, false, false, false]
  initVid := [false, false, false, false]
  ports := []
  readback := false
  update := sel.toList.map fun
    | .rom n => windowFn 0 (.lit n) 0 0
    | .ram n => windowFn 1 (.lit n) 0 0
    | .unmapped => windowFn 2 (.lit 0) 0 0

/-- REF's paging (R84), of variant V2: one register selects the RAM bank of window 3. -/
def paging : PagingCfg where
  nRegs := 1
  initRegs := [0x00]
  initSel := [.rom 0, .ram 5, .ram 2, .ram 0]
  initCont := [false, true, false, false]
  initVid := [false, true, false, false]
  ports := [(onPort 0x0020, 0)]
  readback := false
  update := [windowFn 0 (.lit 0) 0 0, windowFn 1 (.lit 5) 1 1, windowFn 1 (.lit 2) 0 0,
    windowFn 1 (.op .mod (.atom (.reg 0)) (.lit 8)) 0 0]

/-- The shape of variant V3 (R83), dual ROM with shadow screen: bit `romBit` of the register selects ROM bank 0 or 1, and bit
`vidBit` which RAM window carries VID. The register's bits and its port are arguments: the source gives none
(91_not_in_source.md N9). It gives no windows, CONT, read-back or initial register either: ROM stands in window 0, VID in window
1 or 3, CONT is 0 in every window, the register starts as 0x00 and is not read back (DESIGN CHOICE, log entry 29). -/
def pagingV3 (port romBit vidBit : Nat) (ramA ramB ramC : Nat) : PagingCfg :=
  let bit (k : Nat) : PageFn := .op .mod (.op .shr (.atom (.reg 0)) (.lit k)) (.lit 2)
  { nRegs := 1
    initRegs := [0x00]
    initSel := [.rom 0, .ram ramA, .ram ramB, .ram ramC]
    initCont := [false, false, false, false]
    initVid := [false, true, false, false]
    ports := [(onPort port, 0)]
    readback := false
    update := [windowFn 0 (bit romBit) 0 0, ⟨.lit 1, .lit ramA, .lit 0, .op .eq (bit vidBit) (.lit 0)⟩,
      windowFn 1 (.lit ramB) 0 0, ⟨.lit 1, .lit ramC, .lit 0, bit vidBit⟩] }

/-! ## Contention (R91) -/

/-- `CT[0] = Valid(1, 15)`; `CT[f] = Valid(2, f - 1)` for f in 1..7; `Sentinel` for f in 8..15. -/
def ct : List CtEntry :=
  [.valid 1 15, .valid 2 0, .valid 2 1, .valid 2 2, .valid 2 3, .valid 2 4, .valid 2 5, .valid 2 6] ++
    List.replicate 8 .sentinel

/-! ## The board (R240, R241) -/

def atAddr (a : Nat) : BoardFn := .op .eq (.atom .addr) (.lit a)

def board : BoardCfg where
  lo := 0x2000
  hi := 0x3FFF
  portWindow := onPort 0x00F0
  initBank := 0x00
  initProt := 0x00
  initKey := 0x00
  xt := (List.range 256).map fun k => BitVec.ofNat 8 k ^^^ 0x5A
  read :=
    .ite (atAddr 0x3FFE) (.atom .prot)
      (.ite (atAddr 0x3FFC) (.op .xor (.atom .prot) (.lit 0xFF))
        (.look .rom (.atom .bank) (.op .mod (.atom .addr) (.lit 16384))))
  writes := [⟨atAddr 0x3FFF, .bank, .atom .value⟩,
    ⟨atAddr 0x3FFE, .prot, .op .xor (.atom .value) (.look .xt (.atom .key) (.lit 0))⟩,
    ⟨atAddr 0x3FFD, .key, .atom .value⟩]
  portOk := .lit 1
  portVal := .atom .bank
  portWrites := [⟨.lit 1, .key, .atom .value⟩]

/-! ## The configurations -/

/-- REF's observer (R128): "a beeper that records bit 4 of every write to a port p with p[0] = 0". -/
def beeper : Observer where
  writeActs := [⟨.op .eq (.op .mod (.atom .port) (.lit 2)) (.lit 0), .push (.op .mod (.op .shr (.atom .value) (.lit 4)) (.lit 2))⟩]
  tickActs := []
  presetActs := []
  init := []

/-- REF (30_encoding.md R128). -/
def cfg : Cfg where
  resetR8 := [0x00, 0x00]
  resetFlags := 0x00
  resetSp := 0x0000
  resetLat := 0x00
  resetW := 0x0000
  pairMap := []
  alu := [(0x00, aluDec), (0x01, aluInc)]
  aluElse := aluId
  tables := [table0, table1]
  nIrq := 2
  vector := [0x0040, 0x0048]
  irqVariant := 0
  frameCycles := 16
  ct := ct
  romBanks := 2
  ramBanks := 8
  rom := []
  ramInit := []
  paging := paging
  periph := [.ic, .paging]
  observers := [beeper]
  board := some board
  iePort := 0x0010
  ifPort := 0x0011

/-- REF16 (95_test_vectors.md section 1): the 16 KiB ROM-only machine. -/
def cfg16 : Cfg :=
  { cfg with
    romBanks := 1
    ramBanks := 0
    paging := pagingFixed ⟨.rom 0, .unmapped, .unmapped, .unmapped⟩
    board := none }

end Sys2Proof.Machine.Ref
end

