-- ==== Sys2Proof/Machine/State.lean ====
section
/-! DEFINITION. The engine state `S` (spec/10_state.md), one record per group of its sections, the reasons a step stops,
and the state after construction (70_reset_and_hazards.md R311). -/

namespace Sys2Proof.Machine

/-- The CPU register file (10_state.md R20 to R30). `r8` holds R8[0] to R8[N_REG8-1]. -/
structure Cpu where
  pc : Addr
  sp : Addr
  flags : Byte
  r8 : List Byte
  lat : Byte
  w : Addr
  ir : Byte
  ime : Bool
  halted : Bool
  bug : Bool
  deriving DecidableEq, Repr

/-- The sequencer (R31, R32): the in-flight program, by name, and the index of its next word. -/
structure Seq where
  progId : ProgId
  cursor : Nat
  deriving DecidableEq, Repr

/-- `IC_STATE` (R34). -/
inductive IcState where
  | idle | pending | dispatching
  deriving DecidableEq, Repr

/-- The interrupt controller (R34 to R37): `ifr` is IF, `ier` is IE, `src` is IC_SRC. -/
structure Ic where
  st : IcState
  ifr : Byte
  ier : Byte
  src : Nat
  deriving DecidableEq, Repr

/-- The paging unit (R38 to R40): PREG, SEL, CONT, VID, and the RAM banks (keys by `bankKey`). -/
structure Paging where
  preg : List Byte
  sel : Quad Sel
  cont : Quad Bool
  vid : Quad Bool
  ram : Memory
  deriving DecidableEq, Repr

/-- The board's registers B_BANK, B_PROT, B_KEY (R41). -/
structure BoardRegs where
  bank : Byte
  prot : Byte
  key : Byte
  deriving DecidableEq, Repr

/-- `PSTATE[k]` of each peripheral and of each observer, in configuration order (R42): opaque to the spec, a list of
numbers here (log entry 8). -/
structure Units where
  periph : List (List Nat)
  observer : List (List Nat)
  deriving DecidableEq, Repr

/-- CYCLES, FRAME_POS, FRAME and BUSLOG (R44 to R48). -/
structure Timing where
  cycles : U64
  framePos : Nat
  frame : U64
  buslog : Memory
  deriving DecidableEq, Repr

/-- An input snapshot (R43): which buttons are pressed and the value of each analog control (log entry 4). -/
structure Input where
  buttons : List Bool
  axes : List Int
  deriving DecidableEq, Repr

/-- INPUT and INPUT_NEXT (R43). -/
structure InputLatch where
  cur : Input
  next : Input
  deriving DecidableEq, Repr

/-- A change queued by `Reconfigure` (44_host.md R257): to the peripheral list and its order, a peripheral's configuration
(42_ports.md R221), or the observers. `movePeriph k j` and `moveObserver k j` take unit `k` out and put it in at position `j`.
`icPorts` and `pagingPorts` configure the two peripherals of the block (42_ports.md R213): IC_IE_PORT and IC_IF_PORT, and
`PAGING.ports` with `readback`. An added unit starts in its initial state; a unit whose configuration is replaced, or that is
moved, keeps its state (DESIGN CHOICE, log entry 12). -/
inductive Change where
  | insertPeriph (k : Nat) (p : Periph)
  | removePeriph (k : Nat)
  | replacePeriph (k : Nat) (p : Periph)
  | movePeriph (k j : Nat)
  | insertObserver (k : Nat) (o : Observer)
  | removeObserver (k : Nat)
  | replaceObserver (k : Nat) (o : Observer)
  | moveObserver (k j : Nat)
  | icPorts (ie irf : Addr)
  | pagingPorts (ports : List (PortPred × Nat)) (readback : Bool)
  deriving DecidableEq, Repr

/-- The claimant of a port access (R52). -/
inductive Claimant where
  | periph (k : Nat)
  | board
  | none
  deriving DecidableEq, Repr

/-- An event of the transaction trace (R52). -/
inductive Event where
  | memR (a : Addr) (v : Byte) (wait : Nat)
  | memW (a : Addr) (v : Byte) (stored : Bool) (wait : Nat)
  | fetch (a : Addr) (v : Byte) (wait : Nat)
  | portR (q : Addr) (v : Byte) (c : Claimant)
  | portW (q : Addr) (v : Byte) (c : Claimant)
  | videoW (a : Addr) (v : Byte) (framePos : Nat)
  | splice (src : Nat)
  | cancel (src : Nat)
  | ack (src : Nat)
  deriving DecidableEq, Repr

/-- The whole engine: the groups of 10_state.md, FAILED with ERR (`failed`, R49), the queued reconfigurations
(44_host.md R266), the trace (R52), and the configuration (00_scope.md R8, log entry 1). -/
structure State where
  cpu : Cpu
  seq : Seq
  ic : Ic
  paging : Paging
  board : BoardRegs
  units : Units
  timing : Timing
  input : InputLatch
  failed : Option Error
  queue : List Change
  trace : List Event
  cfg : Cfg
  deriving DecidableEq, Repr

/-- Why the machine stops. -/
inductive Fault where
  /-- `Step()` with FAILED = 1 changes nothing and reports ERR (60_exceptions.md R295: "A model treats a FAILED state as
  a fault: never final, never cleared by a step"). Raised by `step` and by a REF program one of whose ticks failed. Safe. -/
  | failed (e : Error)
  /-- An interrupt entry with no enabled pending source: the minimum of R276 is over an empty set. Raised by `splice`,
  in no state the engine reaches (Safety.lean, `PendingHasRequest`). Safe. -/
  | spliceWithoutSource
  deriving DecidableEq, Repr

/-- Why the machine has no meaning for what it is asked to run. -/
inductive Refusal where
  /-- The instruction has no meaning in the model yet. Raised by `exec` alone; safe. -/
  | notModelled (mnemonic : String)
  /-- A word of a program that is no micro-op: only an ill-formed configuration holds one (30_encoding.md R117, R127:
  refused at load, "never reaches `Step()`"). Raised by `step`. Safe. -/
  | illFormedWord (w : UWord)
  /-- An operand that names no register, pair, table or vector: only an ill-formed configuration holds one (R114, R115,
  R127). Raised by the meanings. Safe. -/
  | illFormedConfig (c : Check)
  deriving DecidableEq, Repr

/-- The outcome of a step of this machine. -/
abbrev Outcome := Host.Outcome State Fault Refusal

/-- The state of a new engine (R311, "after construction"; 44_host.md R255): the configuration, the RAM the media loader
leaves, and the host's first input. R311 gives B_BANK, B_PROT and B_KEY the values of `BOARD.init`, and no value where no board
is configured: each is 0x00 there (DESIGN CHOICE, log entry 31). -/
def State.init (c : Cfg) (ram : Memory) (x : Input) : State where
  cpu :=
    { pc := 0x0000, sp := c.resetSp, flags := c.resetFlags, r8 := c.resetR8, lat := c.resetLat, w := c.resetW
      ir := 0x00, ime := false, halted := false, bug := false }
  seq := { progId := .empty, cursor := 0 }
  ic := { st := .idle, ifr := 0x00, ier := 0x00, src := 0 }
  paging :=
    { preg := c.paging.initRegs, sel := Quad.ofList .unmapped c.paging.initSel
      cont := Quad.ofList false c.paging.initCont, vid := Quad.ofList false c.paging.initVid, ram := ram }
  board :=
    match c.board with
    | some b => { bank := b.initBank, prot := b.initProt, key := b.initKey }
    | none => { bank := 0, prot := 0, key := 0 }
  units :=
    { periph := c.periph.map fun | .device d => d.init | .ic => [] | .paging => []
      observer := c.observers.map fun o => o.init }
  timing := { cycles := 0, framePos := 0, frame := 0, buslog := [] }
  input := { cur := x, next := x }
  failed := none
  queue := []
  trace := []
  cfg := c

/-- The machine right after reset: construction (R311) with REF, the one configuration the spec decides in full, no media
and an empty first input (log entries 2 and 4). -/
def State.reset : State := State.init Ref.cfg Ref.cfg.ramInit { buttons := [], axes := [] }

end Sys2Proof.Machine
end

