-- ==== Sys2Proof/Machine/Operands.lean ====
section
/-! DEFINITION. The operand forms: byte selectors `x[s]` and pair selectors `pair[p]` (00_scope.md R11, 30_encoding.md R114,
R115). Whether an operand exists is asked first (`hasSel`, `hasPair`): a program that names one that does not is
ill-formed (R127) and its meaning is refused (log entry 6). -/

namespace Sys2Proof.Machine

/-- The selector names a register of this machine (R114: `R8[i]` only for `i < N_REG8`). -/
def State.hasSel (s : State) : Sel8 → Bool
  | .r i => decide (i.toNat < s.cpu.r8.length)
  | _ => true

/-- `x[d]`: the byte the selector names (R11, R114). -/
def Cpu.readSel (c : Cpu) : Sel8 → Byte
  | .r i => c.r8.getD i.toNat 0
  | .pcl => lo8 c.pc
  | .pch => hi8 c.pc
  | .spl => lo8 c.sp
  | .sph => hi8 c.sp
  | .lat => c.lat
  | .wl => lo8 c.w
  | .wh => hi8 c.w
  | .flags => c.flags

/-- `x[d] <- v` (R11, R114): a byte view of PC, SP or W leaves the other byte unchanged. -/
def Cpu.writeSel (c : Cpu) (d : Sel8) (v : Byte) : Cpu :=
  match d with
  | .r i => { c with r8 := c.r8.set i.toNat v }
  | .pcl => { c with pc := join (hi8 c.pc) v }
  | .pch => { c with pc := join v (lo8 c.pc) }
  | .spl => { c with sp := join (hi8 c.sp) v }
  | .sph => { c with sp := join v (lo8 c.sp) }
  | .lat => { c with lat := v }
  | .wl => { c with w := join (hi8 c.w) v }
  | .wh => { c with w := join v (lo8 c.w) }
  | .flags => { c with flags := v }

def State.readSel (s : State) (d : Sel8) : Byte := s.cpu.readSel d

def State.writeSel (s : State) (d : Sel8) (v : Byte) : State := { s with cpu := s.cpu.writeSel d v }

/-- The two byte selectors of a pair (R115), `none` for a pair that is not configured. -/
def State.pairSels (s : State) : PairSel → Option (Sel8 × Sel8)
  | .map j => s.cfg.pair? j
  | .pc => some (.pch, .pcl)
  | .sp => some (.sph, .spl)
  | .w => some (.wh, .wl)

/-- The pair is configured and both its bytes exist. -/
def State.hasPair (s : State) (p : PairSel) : Bool :=
  match s.pairSels p with
  | some (hi, lo) => s.hasSel hi && s.hasSel lo
  | none => false

/-- `pair[p]` = `x[hi]:x[lo]` (R11). -/
def State.readPair (s : State) (p : PairSel) : Addr :=
  match s.pairSels p with
  | some (hi, lo) => join (s.readSel hi) (s.readSel lo)
  | none => 0

/-- `pair[p] <- v`: `x[hi] <- v[15:8]` then `x[lo] <- v[7:0]` (R11). -/
def State.writePair (s : State) (p : PairSel) (v : Addr) : State :=
  match s.pairSels p with
  | some (hi, lo) => (s.writeSel hi (hi8 v)).writeSel lo (lo8 v)
  | none => s

/-- `PC <- v` (R11). -/
def State.setPc (s : State) (v : Addr) : State := { s with cpu := { s.cpu with pc := v } }

/-- The refusal of an operand that only an ill-formed configuration names (R127, `wf_sel`). -/
def noOperand : Outcome := .refused (.illFormedConfig .wfSel)

end Sys2Proof.Machine
end

