-- ==== Sys2Proof/Machine/Ops.lean ====
section
/-! DEFINITION. The shared operations: the trace, time and frame boundaries (10_state.md R47, 44_host.md R258), the bus log
and the floating bus, the board's memory side (43_board.md), translation and the four bus operations (20_memory.md R78,
41_bus.md R190 to R198), and interrupt entry with what leaves it (60_exceptions.md R273 to R281). -/

namespace Sys2Proof.Machine

/-! ## Trace -/

/-- `emit <Event>` (00_scope.md R11): append to the trace (10_state.md R52). -/
def State.emit (s : State) (e : Event) : State := { s with trace := s.trace ++ [e] }

/-! ## Time -/

/-- `l` with `x` put at position `k`. -/
def insertAt {α : Type} (l : List α) (k : Nat) (x : α) : List α := l.take k ++ x :: l.drop k

/-- `l` with the entry at position `k`, if there is one, taken out and put in at position `j`. -/
def moveAt {α : Type} (l : List α) (k j : Nat) : List α :=
  match l[k]? with
  | some x => insertAt (l.eraseIdx k) j x
  | none => l

/-- The state a unit starts in (44_host.md R255): the IC registers and the paging control registers have no `PSTATE` of
their own. -/
def Periph.init : Periph → List Nat
  | .device d => d.init
  | .ic => []
  | .paging => []

/-- The configuration a reconfiguration leaves (44_host.md R257). -/
def Change.applyCfg (c : Cfg) : Change → Cfg
  | .insertPeriph k p => { c with periph := insertAt c.periph k p }
  | .removePeriph k => { c with periph := c.periph.eraseIdx k }
  | .replacePeriph k p => { c with periph := c.periph.set k p }
  | .movePeriph k j => { c with periph := moveAt c.periph k j }
  | .insertObserver k o => { c with observers := insertAt c.observers k o }
  | .removeObserver k => { c with observers := c.observers.eraseIdx k }
  | .replaceObserver k o => { c with observers := c.observers.set k o }
  | .moveObserver k j => { c with observers := moveAt c.observers k j }
  | .icPorts ie irf => { c with iePort := ie, ifPort := irf }
  | .pagingPorts ps rb => { c with paging := { c.paging with ports := ps, readback := rb } }

/-- The configuration in force once the queued changes are applied (44_host.md R257, R258). -/
def State.queuedCfg (s : State) : Cfg := s.queue.foldl Change.applyCfg s.cfg

/-- The unit states a reconfiguration leaves (log entry 12). -/
def Change.applyUnits (u : Units) : Change → Units
  | .insertPeriph k p => { u with periph := insertAt u.periph k (Periph.init p) }
  | .removePeriph k => { u with periph := u.periph.eraseIdx k }
  | .replacePeriph _ _ => u
  | .movePeriph k j => { u with periph := moveAt u.periph k j }
  | .insertObserver k o => { u with observer := insertAt u.observer k o.init }
  | .removeObserver k => { u with observer := u.observer.eraseIdx k }
  | .replaceObserver _ _ => u
  | .moveObserver k j => { u with observer := moveAt u.observer k j }
  | .icPorts _ _ => u
  | .pagingPorts _ _ => u

/-- One queued reconfiguration applied. -/
def State.applyChange (s : State) (ch : Change) : State :=
  { s with cfg := ch.applyCfg s.cfg, units := ch.applyUnits s.units }

/-- `frame_boundary()` (44_host.md R258): `INPUT <- INPUT_NEXT`, then the queued reconfigurations in the order they were
requested. -/
def State.frameBoundary (s : State) : State :=
  let s1 := { s with input := { s.input with cur := s.input.next }, queue := [] }
  s.queue.foldl State.applyChange s1

/-- `k` wraps of FRAME_POS (10_state.md R47): `FRAME <- FRAME + 1` and the frame boundary, each time. -/
def State.wraps : Nat → State → State
  | 0, s => s
  | k + 1, s => State.wraps k { s with timing := { s.timing with frame := s.timing.frame + 1 } }.frameBoundary

/-- `advance(n)`, also written `wait(n)` (R47). The loop that subtracts FRAME_CYCLES from FRAME_POS is written with
quotient and remainder (DEDUCED, log entry 20). -/
def State.advance (s : State) (n : Nat) : State :=
  let total := s.timing.framePos + n
  State.wraps (total / s.cfg.frameCycles)
    { s with timing :=
        { s.timing with cycles := s.timing.cycles + BitVec.ofNat 64 n, framePos := total % s.cfg.frameCycles } }

/-! ## Bus log, contention and floating bus -/

/-- `BUSLOG[FRAME_POS] <- v` (20_memory.md R92). -/
def State.logBus (s : State) (v : Byte) : State :=
  { s with timing :=
      { s.timing with buslog := Memory.write BusLog.unlisted s.timing.buslog s.timing.framePos v } }

/-- `CT[FRAME_POS]` (20_memory.md R85). -/
def State.ctNow (s : State) : CtEntry := (s.cfg.ct[s.timing.framePos]?).getD .sentinel

/-- `floating()` (42_ports.md R216). -/
def State.floating (s : State) : Byte :=
  match s.ctNow with
  | .sentinel => 0xFF
  | .valid _ f => Memory.read BusLog.unlisted s.timing.buslog f

/-- `memWait(a)` (20_memory.md R86). -/
def State.memWait (s : State) (a : Addr) : Nat :=
  match s.paging.cont.get (win a), s.ctNow with
  | true, .valid w _ => w
  | _, _ => 0

/-! ## Physical bytes -/

def State.readRom (s : State) (n o : Nat) : Byte := Memory.read Memory.unlisted s.cfg.rom (bankKey n o)

def State.readRam (s : State) (n o : Nat) : Byte := Memory.read Memory.unlisted s.paging.ram (bankKey n o)

def State.writeRam (s : State) (n o : Nat) (v : Byte) : State :=
  { s with paging := { s.paging with ram := Memory.write Memory.unlisted s.paging.ram (bankKey n o) v } }

/-! ## Translation (20_memory.md R78) -/

/-- What an address resolves to. -/
inductive Backing where
  | board (b : BoardCfg)
  | romByte (n o : Nat)
  | ramByte (n o : Nat)
  | none
  deriving DecidableEq, Repr

/-- The board that owns the address, if any. -/
def State.boardAt (s : State) (a : Addr) : Option BoardCfg :=
  s.cfg.board.filter fun b => decide (b.lo ≤ a.toNat) && decide (a.toNat ≤ b.hi)

/-- The base memory behind an address, the board left aside: the `case SEL[win(a)]` of R78. -/
def State.base (s : State) (a : Addr) : Backing :=
  match s.paging.sel.get (win a) with
  | .rom n => .romByte n (off a)
  | .ram n => .ramByte n (off a)
  | .unmapped => .none

/-- `resolve(a)` (R78): the board first, then SEL. -/
def State.resolve (s : State) (a : Addr) : Backing :=
  match s.boardAt a with
  | some b => .board b
  | none => s.base a

/-! ## The board's functions (43_board.md R231 to R237) -/

/-- A board function's arguments: the address or port, the value written (0 in a read), the board's registers. -/
def State.boardArg (s : State) (addr value : Nat) : BoardAtom → Nat
  | .addr => addr
  | .value => value
  | .bank => s.board.bank.toNat
  | .prot => s.board.prot.toNat
  | .key => s.board.key.toNat

/-- The byte of base memory behind an address, the board left aside (R231, R234): the ROM or RAM byte that SEL puts there; of
an unmapped window the floating-bus value, as any read of it gives (41_bus.md R192; for a board DESIGN CHOICE, log entry 17). -/
def State.baseRead (s : State) (a : Addr) : Byte :=
  match s.base a with
  | .romByte n o => s.readRom n o
  | .ramByte n o => s.readRam n o
  | .board _ => s.floating
  | .none => s.floating

/-- A board function's lookups: `XT`; base memory by bank, the bank reduced modulo the count (20_memory.md R82), and with no
bank of the kind the floating-bus value; base memory by address, modulo 2^16 (DESIGN CHOICE, log entry 17). -/
def State.boardLook (s : State) (b : BoardCfg) (k : BoardLook) (x y : Nat) : Nat :=
  match k with
  | .xt => (b.xt.getD (x % 256) 0).toNat
  | .rom => if s.cfg.romBanks = 0 then s.floating.toNat else (s.readRom (x % s.cfg.romBanks) (y % windowSize)).toNat
  | .ram => if s.cfg.ramBanks = 0 then s.floating.toNat else (s.readRam (x % s.cfg.ramBanks) (y % windowSize)).toNat
  | .base => (s.baseRead (BitVec.ofNat 16 x)).toNat

/-- The value of a board function. -/
def State.boardEval (s : State) (b : BoardCfg) (addr value : Nat) (f : BoardFn) : Nat :=
  f.eval (s.boardArg addr value) (s.boardLook b)

/-- `board_read(a)` (R236): changes no state. -/
def State.boardRead (s : State) (b : BoardCfg) (a : Addr) : Byte :=
  BitVec.ofNat 8 (s.boardEval b a.toNat 0 b.read)

/-- The RAM byte a board may write at an address (R234, R235): one inside the bus window that SEL backs with RAM (log
entry 17). -/
def State.boardRamAt (s : State) (b : BoardCfg) (addr : Nat) : Option (Nat × Nat) :=
  if b.lo ≤ addr ∧ addr ≤ b.hi then
    match s.base (BitVec.ofNat 16 addr) with
    | .ramByte n o => some (n, o)
    | _ => none
  else none

/-- A board's write to a RAM byte; no VideoW event, whatever VID says (DESIGN CHOICE, log entry 17). -/
def State.boardRamWrite (s : State) (b : BoardCfg) (addr : Nat) (v : Byte) : State :=
  match s.boardRamAt b addr with
  | some (n, o) => s.writeRam n o v
  | none => s

/-- One action of a board write (R235), on the state the actions before it left. -/
def State.boardAct (s : State) (b : BoardCfg) (addr value : Nat) (t : BoardAct) : State :=
  if s.boardEval b addr value t.guard = 0 then s
  else
    let v : Byte := BitVec.ofNat 8 (s.boardEval b addr value t.value)
    match t.target with
    | .bank => { s with board := { s.board with bank := v } }
    | .prot => { s with board := { s.board with prot := v } }
    | .key => { s with board := { s.board with key := v } }
    | .ram f => s.boardRamWrite b (s.boardEval b addr value f) v

/-- The action writes a byte of memory or board state (41_bus.md R193): it is taken, and a RAM target is not dropped. -/
def State.boardActStores (s : State) (b : BoardCfg) (addr value : Nat) (t : BoardAct) : Bool :=
  s.boardEval b addr value t.guard != 0 &&
    match t.target with
    | .ram f => (s.boardRamAt b (s.boardEval b addr value f)).isSome
    | .bank => true
    | .prot => true
    | .key => true

/-- The actions of a board write, in order. -/
def State.boardActs (s : State) (b : BoardCfg) (addr value : Nat) (l : List BoardAct) : State :=
  l.foldl (fun t x => t.boardAct b addr value x) s

/-- Some action of a board write writes a byte of memory or board state (41_bus.md R193). -/
def State.boardStores (s : State) (b : BoardCfg) (addr value : Nat) : List BoardAct → Bool
  | [] => false
  | x :: l => s.boardActStores b addr value x || (s.boardAct b addr value x).boardStores b addr value l

/-- `board_write(a, v)` (R235): the new state and `stored`, "1 if a byte of memory or board state was written" (41_bus.md
R193). -/
def State.boardWrite (s : State) (b : BoardCfg) (a : Addr) (v : Byte) : State × Bool :=
  (s.boardActs b a.toNat v.toNat b.writes, s.boardStores b a.toNat v.toNat b.writes)

/-! ## The four bus operations (41_bus.md) -/

/-- `ReadBus(a)` (R190): changes no state (R191). -/
def State.readBus (s : State) (a : Addr) : Byte :=
  match s.resolve a with
  | .board b => s.boardRead b a
  | .romByte n o => s.readRom n o
  | .ramByte n o => s.readRam n o
  | .none => s.floating

/-- `WriteBus(a, v)` (R193), with `stored`; a store to RAM through a `VID` window notifies the renderer (R196). -/
def State.writeBus (s : State) (a : Addr) (v : Byte) : State × Bool :=
  match s.resolve a with
  | .board b => s.boardWrite b a v
  | .romByte _ _ => (s, false)
  | .ramByte n o =>
    let t := s.writeRam n o v
    (if t.paging.vid.get (win a) then t.emit (.videoW a v t.timing.framePos) else t, true)
  | .none => (s, false)

/-- `ReadMemory(a)` (R197): the wait first, then the read, the bus log and the event, which is `Fetch` for a fetch. -/
def State.readMemory (s : State) (fetch : Bool) (a : Addr) : State × Byte :=
  let w := s.memWait a
  let s1 := s.advance w
  let v := s1.readBus a
  ((s1.logBus v).emit (if fetch then .fetch a v w else .memR a v w), v)

/-- `WriteMemory(a, v)` (R198): the wait and the bus cycle happen even when the write is discarded. -/
def State.writeMemory (s : State) (a : Addr) (v : Byte) : State :=
  let w := s.memWait a
  let r := ((s.advance w).logBus v).writeBus a v
  r.1.emit (.memW a v r.2 w)

/-! ## The sequencer's program -/

/-- `prog(S)` (10_state.md R31). -/
def State.prog (s : State) : List UWord := s.seq.progId.prog s.cfg

/-- What a fetch of opcode byte `b` in table `t` loads (40_microops.md R146, R147): `IR <- b`, `PROG_ID <- Table(t, b)`,
`CURSOR <- 0`. -/
def State.load (s : State) (t b : Byte) : State :=
  { s with cpu := { s.cpu with ir := b }, seq := { progId := .table t b, cursor := 0 } }

/-- The part `FETCH` and `FETCHX` share (R146, R147): a timed read at PC, PC advanced unless BUG is set, BUG consumed,
and the program loaded from table `t`. -/
def State.fetchFrom (s : State) (t : Byte) : State :=
  let (s1, b) := s.readMemory true s.cpu.pc
  let cpu := if s1.cpu.bug then { s1.cpu with bug := false } else { s1.cpu with pc := s1.cpu.pc + 1 }
  { s1 with cpu := cpu }.load t b

/-! ## The interrupt controller: requests, entry, and what leaves it (60_exceptions.md) -/

/-- `IF & IE & ((1 << N_IRQ) - 1)` (R273). -/
def State.requests (s : State) : Byte := s.ic.ifr &&& s.ic.ier &&& s.cfg.irqMask

/-- `req` of R273: IME and a request. -/
def State.requesting (s : State) : Bool := s.cpu.ime && s.requests != 0

/-- `ic_update()` (R273). -/
def State.icUpdate (s : State) : State :=
  match s.ic.st with
  | .idle => if s.requesting then { s with ic := { s.ic with st := .pending } } else s
  | .pending => if s.requesting then s else { s with ic := { s.ic with st := .idle } }
  | .dispatching => s

/-- The winner of R275: the least source below N_IRQ with IF and IE set. -/
def State.winner (s : State) : Option Nat :=
  (List.range s.cfg.nIrq).find? fun j => bit s.ic.ifr j && bit s.ic.ier j

/-- The state an interrupt entry of source `i` leaves (R276): PC and BUG unchanged, no bus access. -/
def State.enter (s : State) (i : Nat) : State :=
  { s with
    cpu := { s.cpu with ime := false }
    seq := { progId := .dispatch s.cfg.irqVariant, cursor := 0 }
    ic := { s.ic with st := .dispatching, src := i } }.emit (.splice i)

/-- `splice()` (R276): taking an interrupt, in place of an opcode fetch or from the halt state. -/
def State.splice (s : State) : Outcome :=
  match s.winner with
  | some i => .next (s.enter i)
  | none => .fault .spliceWithoutSource

/-- The "still pending" predicate of the dispatched source (R271, R279). -/
def State.stillPending (s : State) : Bool := bit s.ic.ifr s.ic.src && bit s.ic.ier s.ic.src

/-- The cancellation of R279: the rest of the program becomes the cancelled tail, CURSOR unchanged. -/
def State.cancel (s : State) : State :=
  { s with seq := { s.seq with progId := .cancelled s.cfg.irqVariant } }.emit (.cancel s.ic.src)

/-- The end of an entry that was not cancelled (R280): PC to the vector, the source acknowledged, the controller Idle. -/
def State.acknowledge (s : State) (v : Addr) : State :=
  { s with
    cpu := { s.cpu with pc := v }
    ic := { s.ic with st := .idle, ifr := clearBit s.ic.ifr s.ic.src } }.emit (.ack s.ic.src)

/-- The end of a cancelled entry (R281): the controller Idle; PC, IF and IME unchanged. -/
def State.endCancelled (s : State) : State := { s with ic := { s.ic with st := .idle } }

/-! ## Failure -/

/-- `raise E(info)` (60_exceptions.md R295) on the state to which the tick is rolled back. -/
def State.raise (s : State) (e : Error) : State := { s with failed := some e }

end Sys2Proof.Machine
end

