-- ==== Sys2Proof/Machine/Control.lean ====
section
/-! DEFINITION. The control micro-ops (40_microops.md R160 to R162). -/

namespace Sys2Proof.Machine

/-- `EI` (R160). -/
def execEi (s : State) : Outcome := .next { s with cpu := { s.cpu with ime := true } }

/-- `DI` (R160). -/
def execDi (s : State) : Outcome := .next { s with cpu := { s.cpu with ime := false } }

/-- `HALT` (R161). -/
def execHalt (s : State) : Outcome := .next { s with cpu := { s.cpu with halted := true } }

/-- `SETBUG` (R162). -/
def execSetbug (s : State) : Outcome := .next { s with cpu := { s.cpu with bug := true } }

end Sys2Proof.Machine
end

