-- ==== Sys2Proof/Machine/Flags.lean ====
section
/-! DEFINITION. The flag computation: FLAGS is one opaque byte (10_state.md R24), written whole by `ALU` from the
configured function (40_microops.md R156); no other rule computes a flag. -/

namespace Sys2Proof.Machine

/-- The result and the new FLAGS of `ALU d, a, c`: `ALU_FN[c](x[d], x[a], FLAGS)` (R156). -/
def State.aluResult (s : State) (d a : Sel8) (c : Byte) : Byte × Byte :=
  s.cfg.aluFn c (s.readSel d) (s.readSel a) s.cpu.flags

/-- `FLAGS <- f` (R156). -/
def State.setFlags (s : State) (f : Byte) : State := { s with cpu := { s.cpu with flags := f } }

end Sys2Proof.Machine
end

