-- ==== Sys2Proof/Machine/Data.lean ====
section
/-! DEFINITION. The data and address micro-ops (40_microops.md R150 to R157). Operands are read before any result is
written (R145). -/

namespace Sys2Proof.Machine

/-- `IDLE` (R150). -/
def execIdle (s : State) : Outcome := .next s

/-- `DEC16 p` (R151): modulo 2^16. -/
def execDec16 (p : PairSel) (s : State) : Outcome :=
  if s.hasPair p then .next (s.writePair p (s.readPair p - 1)) else noOperand

/-- `INC16 p` (R152): modulo 2^16. -/
def execInc16 (p : PairSel) (s : State) : Outcome :=
  if s.hasPair p then .next (s.writePair p (s.readPair p + 1)) else noOperand

/-- `RD d, p` (R153): a timed read at the pair's address into a byte register. -/
def execRd (d : Sel8) (p : PairSel) (s : State) : Outcome :=
  if s.hasSel d && s.hasPair p then
    let r := s.readMemory false (s.readPair p)
    .next (r.1.writeSel d r.2)
  else noOperand

/-- `WR a, p` (R154): a timed write of a byte register at the pair's address. -/
def execWr (a : Sel8) (p : PairSel) (s : State) : Outcome :=
  if s.hasSel a && s.hasPair p then .next (s.writeMemory (s.readPair p) (s.readSel a)) else noOperand

/-- `MOV d, a` (R155). -/
def execMov (d a : Sel8) (s : State) : Outcome :=
  if s.hasSel d && s.hasSel a then .next (s.writeSel d (s.readSel a)) else noOperand

/-- `ALU d, a, c` (R156): FLAGS written last. -/
def execAlu (d a : Sel8) (c : Byte) (s : State) : Outcome :=
  if s.hasSel d && s.hasSel a then
    let r := s.aluResult d a c
    .next ((s.writeSel d r.1).setFlags r.2)
  else noOperand

/-- `SETPC p` (R157). -/
def execSetpc (p : PairSel) (s : State) : Outcome :=
  if s.hasPair p then .next (s.setPc (s.readPair p)) else noOperand

end Sys2Proof.Machine
end

