-- ==== Sys2Proof/Machine/Fetch.lean ====
section
/-! DEFINITION. The fetch micro-ops (40_microops.md R146, R147). -/

namespace Sys2Proof.Machine

/-- `FETCH` (R146): the opcode boundary. A pending interrupt is taken instead of the fetch. -/
def execFetch (s : State) : Outcome :=
  if s.ic.st = .pending then s.splice
  else if (s.cfg.table? 0).isSome then .next (s.fetchFrom 0)
  else .refused (.illFormedConfig .wfTables)

/-- `FETCHX t` (R147): the prefix fetch, no opcode boundary. -/
def execFetchx (t : Byte) (s : State) : Outcome :=
  if (s.cfg.table? t).isSome then .next (s.fetchFrom t) else .refused (.illFormedConfig .wfTables)

end Sys2Proof.Machine
end

