-- ==== Sys2Proof/Machine/Irq.lean ====
section
/-! DEFINITION. The micro-ops of the interrupt-entry programs (60_exceptions.md R279 to R281). -/

namespace Sys2Proof.Machine

/-- `IRQCHK` (R279): the cancellation checkpoint. -/
def execIrqchk (s : State) : Outcome := if s.stillPending then .next s else .next s.cancel

/-- `SETVEC` (R280): PC to `VECTOR[IC_SRC]`, from the configuration; no memory is read. -/
def execSetvec (s : State) : Outcome :=
  match s.cfg.vector[s.ic.src]? with
  | some v => .next (s.acknowledge v)
  | none => .refused (.illFormedConfig .wfIrq)

/-- `IRQEND` (R281). -/
def execIrqend (s : State) : Outcome := .next s.endCancelled

end Sys2Proof.Machine
end

