-- ==== Sys2Proof/Machine/Ports.lean ====
section
/-! DEFINITION. The port dispatcher (spec/42_ports.md): the claimant search, the units' read, write, tick and reset
functions, PortRead and PortWrite. A peripheral that reports failure answers the error E_STEP (60_exceptions.md R293, R294). -/

namespace Sys2Proof.Machine

/-- `PORT_WAIT(q, FRAME_POS)` is 0 for every port and offset (20_memory.md R89). -/
def portWait (_q : Addr) (_framePos : Nat) : Nat := 0

/-! ## A configured unit's functions (42_ports.md R211, R222; log entry 8) -/

/-- A button of an input snapshot: 1 when pressed. -/
def Input.button (x : Input) (i : Nat) : Nat := if x.buttons.getD i false then 1 else 0

/-- An analog control of an input snapshot: its magnitude for `part` 0, otherwise 1 when it is negative. -/
def Input.axis (x : Input) (i part : Nat) : Nat :=
  let a := x.axes.getD i 0
  if part = 0 then a.natAbs else if a < 0 then 1 else 0

/-- The arguments of a port or reset function: the port and value (0 where the call has none), its own state `ps`. -/
def unitArg (ps : List Nat) (q v : Nat) : UnitAtom → Nat
  | .port => q
  | .value => v
  | .cell i => ps.getD i 0
  | .cells => ps.length

/-- The lookups of a port or reset function: a cell of its state, INPUT (10_state.md R43), `ReadBus` (R223). An index past the
end gives 0 (DESIGN CHOICE, log entry 28). -/
def State.unitLook (s : State) (ps : List Nat) (k : UnitLook) (x y : Nat) : Nat :=
  match k with
  | .cellAt => ps.getD x 0
  | .button => s.input.cur.button x
  | .axis => s.input.cur.axis x y
  | .bus => (s.readBus (BitVec.ofNat 16 x)).toNat

/-- The value of a unit's port or reset function (R211). -/
def State.devEval (s : State) (ps : List Nat) (q v : Nat) (f : UnitFn) : Nat := f.eval (unitArg ps q v) (s.unitLook ps)

/-- `IC_STATE` as a number: `Idle` 0, `Pending` 1, `Dispatching` 2 (DESIGN CHOICE, log entry 9). -/
def IcState.num : IcState → Byte
  | .idle => 0
  | .pending => 1
  | .dispatching => 2

/-- `SEL[w]` as numbers: its kind (`Rom` 0, `Ram` 1, `Unmapped` 2: DESIGN CHOICE, log entry 9) and bank, 0 for `Unmapped`. -/
def selFields : Sel → Byte × Nat
  | .rom n => (0, n)
  | .ram n => (1, n)
  | .unmapped => (2, 0)

/-- 1 for true, 0 for false. -/
def bitNum (b : Bool) : Nat := if b then 1 else 0

/-- The arguments of a tick hook: its own state `ps`, and the fields of `S` that are one number. -/
def State.tickArg (s : State) (ps : List Nat) : TickAtom → Nat
  | .cell i => ps.getD i 0
  | .cells => ps.length
  | .pc => s.cpu.pc.toNat
  | .sp => s.cpu.sp.toNat
  | .flags => s.cpu.flags.toNat
  | .lat => s.cpu.lat.toNat
  | .w => s.cpu.w.toNat
  | .ir => s.cpu.ir.toNat
  | .ime => bitNum s.cpu.ime
  | .halted => bitNum s.cpu.halted
  | .bug => bitNum s.cpu.bug
  | .progForm => s.seq.progId.fields.1.toNat
  | .progTable => s.seq.progId.fields.2.1.toNat
  | .progByte => s.seq.progId.fields.2.2.1.toNat
  | .progVariant => s.seq.progId.fields.2.2.2
  | .cursor => s.seq.cursor
  | .icState => s.ic.st.num.toNat
  | .irqFlags => s.ic.ifr.toNat
  | .irqEnable => s.ic.ier.toNat
  | .icSrc => s.ic.src
  | .bank => s.board.bank.toNat
  | .prot => s.board.prot.toNat
  | .key => s.board.key.toNat
  | .cycles => s.timing.cycles.toNat
  | .framePos => s.timing.framePos
  | .frame => s.timing.frame.toNat

/-- The lookups of a tick hook: the indexed fields of `S`. Where an index names nothing (DESIGN CHOICE, log entry 28): past the
end of a list, 0; a window of 4 or more is read as window 3; an offset of BUSLOG outside the frame gives 0xFF, as an unlogged
one; an offset of a RAM or ROM bank is taken modulo WINDOW_SIZE, and a bank that does not exist reads 0x00. -/
def State.tickLook (s : State) (ps : List Nat) (k : TickLook) (x y : Nat) : Nat :=
  match k with
  | .cellAt => ps.getD x 0
  | .button => s.input.cur.button x
  | .axis => s.input.cur.axis x y
  | .nextButton => s.input.next.button x
  | .nextAxis => s.input.next.axis x y
  | .bus => (s.readBus (BitVec.ofNat 16 x)).toNat
  | .r8 => (s.cpu.r8.getD x 0).toNat
  | .preg => (s.paging.preg.getD x 0).toNat
  | .selKind => (selFields (s.paging.sel.get x)).1.toNat
  | .selBank => (selFields (s.paging.sel.get x)).2
  | .cont => bitNum (s.paging.cont.get x)
  | .vid => bitNum (s.paging.vid.get x)
  | .ram => (s.readRam x (y % windowSize)).toNat
  | .rom => (s.readRom x (y % windowSize)).toNat
  | .buslog => (Memory.read BusLog.unlisted s.timing.buslog x).toNat
  | .periphCells => (s.units.periph.getD x []).length
  | .periphCell => (s.units.periph.getD x []).getD y 0
  | .observerCells => (s.units.observer.getD x []).length
  | .observerCell => (s.units.observer.getD x []).getD y 0

/-- The value of a tick hook's function (R222). -/
def State.tickEval (s : State) (ps : List Nat) (f : TickFn) : Nat := f.eval (s.tickArg ps) (s.tickLook ps)

/-- One change of a unit's state, its functions evaluated by `ev`. A cell past the end is not set, and dropping more cells than
there are leaves none (DESIGN CHOICE, log entry 28). -/
def applyAct {φ : Type} (ev : List Nat → φ → Nat) (ps : List Nat) (a : DevAct φ) : List Nat :=
  if ev ps a.guard = 0 then ps
  else match a.act with
    | .setCell i x => ps.set (ev ps i) (ev ps x)
    | .push x => ps ++ [ev ps x]
    | .dropFirst n => ps.drop (ev ps n)

/-- The state changes of a port or reset function, in order. -/
def State.devActs (s : State) (q v : Nat) (l : List (DevAct UnitFn)) (ps : List Nat) : List Nat :=
  l.foldl (applyAct fun ps f => s.devEval ps q v f) ps

/-- The state changes of a tick hook, in order. -/
def State.tickActs (s : State) (l : List (DevAct TickFn)) (ps : List Nat) : List Nat := l.foldl (applyAct s.tickEval) ps

/-- `PSTATE[k]` of peripheral `k`, and of observer `k`. -/
def State.pstate (s : State) (k : Nat) : List Nat := s.units.periph.getD k []

def State.ostate (s : State) (k : Nat) : List Nat := s.units.observer.getD k []

def State.setPstate (s : State) (k : Nat) (ps : List Nat) : State :=
  { s with units := { s.units with periph := s.units.periph.set k ps } }

def State.setOstate (s : State) (k : Nat) (ps : List Nat) : State :=
  { s with units := { s.units with observer := s.units.observer.set k ps } }

/-- What a tick hook does to the sources it is wired to (R222): only sources below N_IRQ exist (10_state.md R35). -/
def State.driveLine (s : State) (ps : List Nat) (l : LineAct) : State :=
  if s.tickEval ps l.guard = 0 ∨ s.cfg.nIrq ≤ l.source then s
  else if s.tickEval ps l.level = 0 then { s with ic := { s.ic with ifr := clearBit s.ic.ifr l.source } }
  else { s with ic := { s.ic with ifr := setBit s.ic.ifr l.source } }

/-! ## Claims (R210, R212, R213) -/

/-- `ClaimsPort_k(q)`: the interrupt controller's two ports (60_exceptions.md R283), the ports of `PAGING.ports`
(20_memory.md R80), or the configured predicate. -/
def Periph.claims (c : Cfg) (q : Addr) : Periph → Bool
  | .ic => q == c.iePort || q == c.ifPort
  | .paging => c.paging.ports.any fun e => e.1.holds q
  | .device d => d.claims.holds q

/-- The board, when it claims port `q` (R212). -/
def State.boardPort (s : State) (q : Addr) : Option BoardCfg := s.cfg.board.filter fun b => b.portWindow.holds q

/-- `claimant(q)` (R212): the board first, then the first peripheral in priority order. -/
def State.claimant (s : State) (q : Addr) : Claimant :=
  match s.boardPort q with
  | some _ => .board
  | none =>
    match s.cfg.periph.findIdx? (Periph.claims s.cfg q) with
    | some k => .periph k
    | none => .none

/-! ## Reads (R214 to R216) -/

/-- The interrupt controller's read (60_exceptions.md R283). -/
def State.icRead (s : State) (q : Addr) : Byte :=
  if q = s.cfg.iePort then s.ic.ier &&& s.cfg.irqMask else s.ic.ifr &&& s.cfg.irqMask

/-- The paging register of port `q` (20_memory.md R79, R80): of several entries of `PAGING.ports` that match, the first in
the list (DESIGN CHOICE, log entry 25). -/
def Cfg.pagingReg (c : Cfg) (q : Addr) : Option Nat := (c.paging.ports.find? fun e => e.1.holds q).map (·.2)

/-- The paging unit's read (R80): PREG[k] with `readback`, otherwise false. -/
def State.pagingRead (s : State) (q : Addr) : Option Byte :=
  if s.cfg.paging.readback then (Cfg.pagingReg s.cfg q).bind fun k => s.paging.preg[k]? else none

/-- `ReadPort_c(q)` of the claimant (R211): the state after it and its value, `none` when it returns false. -/
def State.unitRead (s : State) (c : Claimant) (q : Addr) : Except Error (State × Option Byte) :=
  match c with
  | .none => .ok (s, none)
  | .board =>
    match s.boardPort q with
    | some b =>
      .ok (s, if s.boardEval b q.toNat 0 b.portOk = 0 then none
        else some (BitVec.ofNat 8 (s.boardEval b q.toNat 0 b.portVal)))
    | none => .ok (s, none)
  | .periph k =>
    match s.cfg.periph[k]? with
    | some .ic => .ok (s, some (s.icRead q))
    | some .paging => .ok (s, s.pagingRead q)
    | some (.device d) =>
      let ps := s.pstate k
      if s.devEval ps q.toNat 0 d.readFail ≠ 0 then .error (.step k)
      else
        let v := if s.devEval ps q.toNat 0 d.readOk = 0 then none
          else some (BitVec.ofNat 8 (s.devEval ps q.toNat 0 d.readVal))
        .ok (s.setPstate k (s.devActs q.toNat 0 d.readActs ps), v)
    | none => .ok (s, none)

/-- `PortRead(q)` (R214): a false `ReadPort` and an unclaimed port give the floating-bus value (R215). -/
def State.portRead (s : State) (q : Addr) : Except Error (State × Byte) :=
  let s1 := s.advance (portWait q s.timing.framePos)
  let c := s1.claimant q
  match s1.unitRead c q with
  | .error e => .error e
  | .ok (s2, r) =>
    let v := r.getD s2.floating
    .ok ((s2.logBus v).emit (.portR q v c), v)

/-! ## Writes (R217 to R219) -/

/-- The interrupt controller's write (60_exceptions.md R283). -/
def State.icWrite (s : State) (q : Addr) (v : Byte) : State :=
  if q = s.cfg.iePort then { s with ic := { s.ic with ier := v &&& s.cfg.irqMask } }
  else { s with ic := { s.ic with ifr := v &&& s.cfg.irqMask } }

/-- SEL, CONT and VID from `PAGING.update(PREG)` (20_memory.md R80). -/
def State.remap (s : State) : State :=
  let u := s.cfg.pagingUpdate s.paging.preg
  { s with paging := { s.paging with sel := u.map (·.1), cont := u.map (·.2.1), vid := u.map (·.2.2) } }

/-- The paging control write (R80). -/
def State.pagingWrite (s : State) (q : Addr) (v : Byte) : State :=
  match Cfg.pagingReg s.cfg q with
  | some k => { s with paging := { s.paging with preg := s.paging.preg.set k v } }.remap
  | none => s

/-- `WritePort_c(q, v)` of the claimant (R211). -/
def State.unitWrite (s : State) (c : Claimant) (q : Addr) (v : Byte) : Except Error State :=
  match c with
  | .none => .ok s
  | .board =>
    match s.boardPort q with
    | some b => .ok (s.boardActs b q.toNat v.toNat b.portWrites)
    | none => .ok s
  | .periph k =>
    match s.cfg.periph[k]? with
    | some .ic => .ok (s.icWrite q v)
    | some .paging => .ok (s.pagingWrite q v)
    | some (.device d) =>
      let ps := s.pstate k
      if s.devEval ps q.toNat v.toNat d.writeFail ≠ 0 then .error (.step k)
      else .ok (s.setPstate k (s.devActs q.toNat v.toNat d.writeActs ps))
    | none => .ok s

/-- The observers from index `k` on see the write, in order (R218): each changes only its own state. -/
def State.observe (s : State) (q : Addr) (v : Byte) (k : Nat) : List Observer → State
  | [] => s
  | o :: os => (s.setOstate k (s.devActs q.toNat v.toNat o.writeActs (s.ostate k))).observe q v (k + 1) os

/-- `PortWrite(q, v)` (R217). -/
def State.portWrite (s : State) (q : Addr) (v : Byte) : Except Error State :=
  let s1 := (s.advance (portWait q s.timing.framePos)).logBus v
  let c := s1.claimant q
  match s1.unitWrite c q v with
  | .error e => .error e
  | .ok s2 => .ok ((s2.observe q v 0 s2.cfg.observers).emit (.portW q v c))

/-! ## Tick hooks (R222) and reset hooks (R211) -/

/-- `PTICK_k(S)` of a peripheral: its state changes, then its interrupt lines. -/
def State.tickPeriph (s : State) (k : Nat) (p : Periph) : Except Error State :=
  match p with
  | .ic => .ok s
  | .paging => .ok s
  | .device d =>
    let ps := s.pstate k
    if s.tickEval ps d.tickFail ≠ 0 then .error (.step k)
    else
      let ps1 := s.tickActs d.tickActs ps
      .ok (d.tickLines.foldl (fun t l => t.driveLine ps1 l) (s.setPstate k ps1))

/-- The hooks of the peripherals from index `k` on, in order. -/
def State.tickPeriphs (s : State) (k : Nat) : List Periph → Except Error State
  | [] => .ok s
  | p :: ps =>
    match s.tickPeriph k p with
    | .error e => .error e
    | .ok t => t.tickPeriphs (k + 1) ps

/-- The hooks of the observers from index `k` on, in order (R218: each changes only its own state). -/
def State.tickObservers (s : State) (k : Nat) : List Observer → State
  | [] => s
  | o :: os => (s.setOstate k (s.tickActs o.tickActs (s.ostate k))).tickObservers (k + 1) os

/-- `PRESET_k` of the peripherals from index `k` on (R211, 70_reset_and_hazards.md R311). -/
def State.presetPeriphs (s : State) (k : Nat) : List Periph → State
  | [] => s
  | .device d :: ps => (s.setPstate k (s.devActs 0 0 d.presetActs (s.pstate k))).presetPeriphs (k + 1) ps
  | .ic :: ps => s.presetPeriphs (k + 1) ps
  | .paging :: ps => s.presetPeriphs (k + 1) ps

/-- `PRESET` of the observers from index `k` on. -/
def State.presetObservers (s : State) (k : Nat) : List Observer → State
  | [] => s
  | o :: os => (s.setOstate k (s.devActs 0 0 o.presetActs (s.ostate k))).presetObservers (k + 1) os

end Sys2Proof.Machine
end

