-- ==== Sys2Proof/Machine/PortOps.lean ====
section
/-! DEFINITION. The port micro-ops (40_microops.md R158, R159). A peripheral that reports failure raises E_STEP
(60_exceptions.md R293, R295). -/

namespace Sys2Proof.Machine

/-- `IN d, p` (R158). -/
def execInp (d : Sel8) (p : PairSel) (s : State) : Outcome :=
  if s.hasSel d && s.hasPair p then
    match s.portRead (s.readPair p) with
    | .ok r => .next (r.1.writeSel d r.2)
    | .error e => .next (s.raise e)
  else noOperand

/-- `OUT a, p` (R159). -/
def execOutp (a : Sel8) (p : PairSel) (s : State) : Outcome :=
  if s.hasSel a && s.hasPair p then
    match s.portWrite (s.readPair p) (s.readSel a) with
    | .ok t => .next t
    | .error e => .next (s.raise e)
  else noOperand

end Sys2Proof.Machine
end

