-- ==== Sys2Proof/Decode.lean ====
section
/-! DEFINITION. Decoding and encoding: micro-op words (30_encoding.md R110, R114 to R117) and REF opcode bytes (R129, R122).
Decoding is total and answers `none` for a word or byte that is no instruction. -/

namespace Sys2Proof

/-! ## Fields of a micro-op word (R110) -/

def uTag (w : UWord) : Byte := w.extractLsb' 24 8
def uA (w : UWord) : Byte := w.extractLsb' 16 8
def uB (w : UWord) : Byte := w.extractLsb' 8 8
def uC (w : UWord) : Byte := w.extractLsb' 0 8

/-- The word with these four fields (R110). -/
def mkWord (tag a b c : Byte) : UWord := tag ++ a ++ b ++ c

/-- Which fields a tag uses (R116), in the order A, B, C. -/
inductive Shape where
  | none | tbl | pair | selPair | selSel | selSelFn
  deriving DecidableEq, Repr

/-- The opcode map of R116: the tags 0x00 to 0x12 with their operand fields; every other tag is reserved. -/
def tagShape (t : Byte) : Option Shape :=
  match t.toNat with
  | 0x00 | 0x01 | 0x09 | 0x0A | 0x0B | 0x0F | 0x10 | 0x11 | 0x12 => some .none
  | 0x02 => some .tbl
  | 0x03 | 0x04 | 0x08 => some .pair
  | 0x05 | 0x06 | 0x0C | 0x0D => some .selPair
  | 0x07 => some .selSel
  | 0x0E => some .selSelFn
  | _ => none

/-- The tag is one of R116 and every field it does not use is 0x00 (R110, R117): the check `wf_tag` of one word. -/
def tagOk (w : UWord) : Bool :=
  match tagShape (uTag w) with
  | some .none => uA w == 0 && uB w == 0 && uC w == 0
  | some .tbl | some .pair => uB w == 0 && uC w == 0
  | some .selPair | some .selSel => uC w == 0
  | some .selSelFn => true
  | none => false

/-! ## Selectors (R114, R115) -/

def decodeSel8 (b : Byte) : Option Sel8 :=
  if b.toNat < 0x80 then some (.r (b.setWidth 7))
  else match b.toNat with
    | 0xF0 => some .pcl
    | 0xF1 => some .pch
    | 0xF2 => some .spl
    | 0xF3 => some .sph
    | 0xF4 => some .lat
    | 0xF5 => some .wl
    | 0xF6 => some .wh
    | 0xF7 => some .flags
    | _ => none

def encodeSel8 : Sel8 → Byte
  | .r i => i.setWidth 8
  | .pcl => 0xF0
  | .pch => 0xF1
  | .spl => 0xF2
  | .sph => 0xF3
  | .lat => 0xF4
  | .wl => 0xF5
  | .wh => 0xF6
  | .flags => 0xF7

def decodePair (b : Byte) : Option PairSel :=
  if b.toNat < 0x40 then some (.map (b.setWidth 6))
  else match b.toNat with
    | 0x80 => some .pc
    | 0x81 => some .sp
    | 0x82 => some .w
    | _ => none

def encodePair : PairSel → Byte
  | .map j => j.setWidth 8
  | .pc => 0x80
  | .sp => 0x81
  | .w => 0x82

/-! ## Micro-op words (R116) -/

/-- The micro-op a tag and its fields name, once `tagOk` has been checked. -/
def decodeFields (t a b c : Byte) : Option Instr :=
  match t.toNat with
  | 0x00 => some .idle
  | 0x01 => some .fetch
  | 0x02 => some (.fetchx a)
  | 0x03 => (decodePair a).map .dec16
  | 0x04 => (decodePair a).map .inc16
  | 0x05 => (decodeSel8 a).bind fun d => (decodePair b).map (.rd d)
  | 0x06 => (decodeSel8 a).bind fun x => (decodePair b).map (.wr x)
  | 0x07 => (decodeSel8 a).bind fun d => (decodeSel8 b).map (.mov d)
  | 0x08 => (decodePair a).map .setpc
  | 0x09 => some .setvec
  | 0x0A => some .irqchk
  | 0x0B => some .irqend
  | 0x0C => (decodeSel8 a).bind fun d => (decodePair b).map (.inp d)
  | 0x0D => (decodeSel8 a).bind fun x => (decodePair b).map (.outp x)
  | 0x0E => (decodeSel8 a).bind fun d => (decodeSel8 b).map fun x => .alu d x c
  | 0x0F => some .ei
  | 0x10 => some .di
  | 0x11 => some .halt
  | 0x12 => some .setbug
  | _ => none

/-- A micro-op word's instruction; `none` is "not a micro-op" (R117): a reserved tag, a non-zero unused field or a
reserved selector. -/
def decodeUop (w : UWord) : Option Instr :=
  if tagOk w then decodeFields (uTag w) (uA w) (uB w) (uC w) else none

/-! ## REF opcode bytes (R129, R122) -/

/-- The opcode of byte `b` in REF's table `t`: table 0 is R129's, table 1 maps every byte to its fallback, and REF has
no other table. -/
def decodeRef (t b : Byte) : Option Instr :=
  if t = 0 then
    match b.toNat with
    | 0x00 => some .refNop
    | 0x05 => some .refDecB
    | 0x08 => some .refBugnop
    | 0x3A => some .refLdANn
    | 0x32 => some .refLdNnA
    | 0x3C => some .refIncA
    | 0x3D => some .refDecA
    | 0x3E => some .refLdAN
    | 0x76 => some .refHalt
    | 0x78 => some .refLdAB
    | 0xC3 => some .refJpNn
    | 0xC9 => some .refRet
    | 0xCB => some .refPrefixCb
    | 0xD3 => some .refOutNnA
    | 0xDB => some .refInANn
    | 0xF3 => some .refDi
    | 0xFB => some .refEi
    | _ => some (.refFallback 0 b)
  else if t = 1 then some (.refFallback 1 b)
  else none

/-- The instruction of a code of either shape. -/
def decode : Code → Option Instr
  | .uop w => decodeUop w
  | .op8 t b => decodeRef t b

/-! ## The encoder, from the same tables -/

/-- The code of an instruction: of a micro-op its word (R116), of a REF opcode its byte and table (R129). -/
def encode : Instr → Code
  | .idle => .uop (mkWord 0x00 0 0 0)
  | .fetch => .uop (mkWord 0x01 0 0 0)
  | .fetchx t => .uop (mkWord 0x02 t 0 0)
  | .dec16 p => .uop (mkWord 0x03 (encodePair p) 0 0)
  | .inc16 p => .uop (mkWord 0x04 (encodePair p) 0 0)
  | .rd d p => .uop (mkWord 0x05 (encodeSel8 d) (encodePair p) 0)
  | .wr a p => .uop (mkWord 0x06 (encodeSel8 a) (encodePair p) 0)
  | .mov d a => .uop (mkWord 0x07 (encodeSel8 d) (encodeSel8 a) 0)
  | .setpc p => .uop (mkWord 0x08 (encodePair p) 0 0)
  | .setvec => .uop (mkWord 0x09 0 0 0)
  | .irqchk => .uop (mkWord 0x0A 0 0 0)
  | .irqend => .uop (mkWord 0x0B 0 0 0)
  | .inp d p => .uop (mkWord 0x0C (encodeSel8 d) (encodePair p) 0)
  | .outp a p => .uop (mkWord 0x0D (encodeSel8 a) (encodePair p) 0)
  | .alu d a c => .uop (mkWord 0x0E (encodeSel8 d) (encodeSel8 a) c)
  | .ei => .uop (mkWord 0x0F 0 0 0)
  | .di => .uop (mkWord 0x10 0 0 0)
  | .halt => .uop (mkWord 0x11 0 0 0)
  | .setbug => .uop (mkWord 0x12 0 0 0)
  | .refNop => .op8 0 0x00
  | .refDecB => .op8 0 0x05
  | .refBugnop => .op8 0 0x08
  | .refLdANn => .op8 0 0x3A
  | .refLdNnA => .op8 0 0x32
  | .refIncA => .op8 0 0x3C
  | .refDecA => .op8 0 0x3D
  | .refLdAN => .op8 0 0x3E
  | .refHalt => .op8 0 0x76
  | .refLdAB => .op8 0 0x78
  | .refJpNn => .op8 0 0xC3
  | .refRet => .op8 0 0xC9
  | .refPrefixCb => .op8 0 0xCB
  | .refOutNnA => .op8 0 0xD3
  | .refInANn => .op8 0 0xDB
  | .refDi => .op8 0 0xF3
  | .refEi => .op8 0 0xFB
  | .refFallback t b => .op8 t b

/-- The word of a micro-op; a REF opcode has none. -/
def encodeUop (i : Instr) : Option UWord :=
  match encode i with
  | .uop w => some w
  | .op8 _ _ => none

/-- The instruction the decoder reads from an instruction whose bits are `w`, numbered as spec/opcode_table.json numbers
them: a 32-bit row is a micro-op word, a shorter row is an opcode byte of table 0 (its first byte), whose operand bytes
are no part of the decoded instruction (20_memory.md R97, log entry 11). -/
def decodeTableWord (nbits w : Nat) : Option Instr :=
  if nbits = 32 then decode (.uop (BitVec.ofNat 32 w)) else decode (.op8 0 (BitVec.ofNat 8 w))

end Sys2Proof
end

