-- ==== Sys2Proof/Machine/Tick.lean ====
section
/-! DEFINITION. What surrounds a retired micro-op in a tick: the end of the tick (40_microops.md R142), the roll-back of a
tick that failed (60_exceptions.md R295), and a run of several ticks. -/

namespace Sys2Proof.Machine

/-- `end_tick()` (R142): one cycle, the hooks of the peripherals and then of the observers, `ic_update`. -/
def State.endTick (s : State) : Except Error State :=
  let s1 := s.advance 1
  match s1.tickPeriphs 0 s1.cfg.periph with
  | .error e => .error e
  | .ok s2 => .ok (s2.tickObservers 0 s2.cfg.observers).icUpdate

/-- The tick that began in `s` and whose micro-op or halt tick answered `o` (R141, R142, R295): where a peripheral
reported failure, in the micro-op or in a hook, the tick's writes are discarded and FAILED and ERR are set (log entry 14). -/
def State.commit (s : State) (o : Outcome) : Outcome :=
  match o with
  | .next t =>
    match t.failed with
    | some e => .next (s.raise e)
    | none =>
      match t.endTick with
      | .ok u => .next u
      | .error e => .next (s.raise e)
  | .fault f => .fault f
  | .refused r => .refused r

/-- `CURSOR <- CURSOR + 1` (R141). -/
def State.bumpCursor (s : State) : State := { s with seq := { s.seq with cursor := s.seq.cursor + 1 } }

/-- A whole tick that retires an explicit word whose meaning is `m` (R141), HALTED aside. -/
def State.tick (s : State) (m : State → Outcome) : Outcome :=
  match s.failed with
  | some e => .fault (.failed e)
  | none => s.commit (m s.bumpCursor)

/-- The ticks that retire the words with these meanings, one after the other; it stops at the first that does not give a
next state. -/
def State.ticks (s : State) : List (State → Outcome) → Outcome
  | [] => .next s
  | m :: ms =>
    match s.tick m with
    | .next t => t.ticks ms
    | .fault f => .fault f
    | .refused r => .refused r

/-- `halt_tick()` (60_exceptions.md R288), the halt state's own resume rule. -/
def State.haltTick (s : State) : Outcome :=
  let awake := { s with cpu := { s.cpu with halted := false } }
  if s.ic.st = .pending then awake.splice
  else if s.requests ≠ 0 then .next awake
  else .next s

/-- The word the sequencer retires next: `prog(S)[CURSOR]`, none when the program is exhausted (R141). A CURSOR beyond the end,
which 10_state.md R32 rules out and only Restore can leave, counts as exhausted, so the tick makes the implicit `FETCH` (DESIGN
CHOICE, log entry 32). -/
def State.nextWord (s : State) : Option UWord := s.prog[s.seq.cursor]?

/-- `Step()` (R141), given the meanings: a failed engine reports, a halted one makes a halt tick, an exhausted program
makes the implicit `FETCH` (R148), and otherwise the next word is retired. -/
def State.stepWith (exec : Instr → State → Outcome) (s : State) : Outcome :=
  match s.failed with
  | some e => .fault (.failed e)
  | none =>
    if s.cpu.halted then s.commit s.haltTick
    else
      match s.nextWord with
      | none => s.commit (exec .fetch s)
      | some w =>
        match decodeUop w with
        | some i => s.tick (exec i)
        | none => .refused (.illFormedWord w)

end Sys2Proof.Machine
end

