-- ==== Sys2Proof/Machine/RefOps.lean ====
section
/-! DEFINITION. The REF opcodes (30_encoding.md R129). An opcode means its program: its meaning runs, from the state the
opcode fetch leaves, one whole tick (40_microops.md R141, R142) for each word up to its final `FETCH`, which is the next
opcode's fetch (R148). `step` runs the same words one a call (log entry 13). -/

namespace Sys2Proof.Machine

/-- REF's register A, `R8[0]` (R128). -/
def refA : Sel8 := .r 0

/-- REF's register B, `R8[1]` (R128). -/
def refB : Sel8 := .r 1

/-- The ticks of an opcode's program: byte `b` of table `t` loaded by its fetch (R146), then one tick a word. -/
def State.runProgram (s : State) (t b : Byte) (ms : List (State → Outcome)) : Outcome := (s.load t b).ticks ms

/-- `RD WL,PC; INC16 PC; RD WH,PC; INC16 PC` (R126, R129): a little-endian operand word into W. -/
def imm16Ticks : List (State → Outcome) := [execRd .wl .pc, execInc16 .pc, execRd .wh .pc, execInc16 .pc]

/-- `NOP`: `FETCH`. -/
def execRefNop (s : State) : Outcome := s.runProgram 0 0x00 []

/-- `DEC B`: `ALU B,B,0x00; FETCH`. -/
def execRefDecB (s : State) : Outcome := s.runProgram 0 0x05 [execAlu refB refB 0x00]

/-- `BUGNOP`: `SETBUG; FETCH`. -/
def execRefBugnop (s : State) : Outcome := s.runProgram 0 0x08 [execSetbug]

/-- `LD A,(nn)`: the operand into W; `RD A,W; FETCH`. -/
def execRefLdANn (s : State) : Outcome := s.runProgram 0 0x3A (imm16Ticks ++ [execRd refA .w])

/-- `LD (nn),A`: the operand into W; `WR A,W; FETCH`. -/
def execRefLdNnA (s : State) : Outcome := s.runProgram 0 0x32 (imm16Ticks ++ [execWr refA .w])

/-- `INC A`: `ALU A,A,0x01; FETCH`. -/
def execRefIncA (s : State) : Outcome := s.runProgram 0 0x3C [execAlu refA refA 0x01]

/-- `DEC A`: `ALU A,A,0x00; FETCH`. -/
def execRefDecA (s : State) : Outcome := s.runProgram 0 0x3D [execAlu refA refA 0x00]

/-- `LD A,n`: `RD A,PC; INC16 PC; FETCH`. -/
def execRefLdAN (s : State) : Outcome := s.runProgram 0 0x3E [execRd refA .pc, execInc16 .pc]

/-- `HALT`: `HALT; FETCH`. -/
def execRefHalt (s : State) : Outcome := s.runProgram 0 0x76 [execHalt]

/-- `LD A,B`: `MOV A,B; FETCH`. -/
def execRefLdAB (s : State) : Outcome := s.runProgram 0 0x78 [execMov refA refB]

/-- `JP nn`: the operand into W; `SETPC W; FETCH`. -/
def execRefJpNn (s : State) : Outcome := s.runProgram 0 0xC3 (imm16Ticks ++ [execSetpc .w])

/-- `RET`: `RD WL,SP; INC16 SP; RD WH,SP; INC16 SP; SETPC W; FETCH`. -/
def execRefRet (s : State) : Outcome :=
  s.runProgram 0 0xC9 [execRd .wl .sp, execInc16 .sp, execRd .wh .sp, execInc16 .sp, execSetpc .w]

/-- The prefix: `FETCHX 0x01`, after which the next byte's program of table 1 is loaded (its `[FETCH]` is the next
opcode's fetch). -/
def execRefPrefixCb (s : State) : Outcome := s.runProgram 0 0xCB [execFetchx 0x01]

/-- `OUT (nn),A`: the operand into W; `OUT A,W; FETCH`. -/
def execRefOutNnA (s : State) : Outcome := s.runProgram 0 0xD3 (imm16Ticks ++ [execOutp refA .w])

/-- `IN A,(nn)`: the operand into W; `IN A,W; FETCH`. -/
def execRefInANn (s : State) : Outcome := s.runProgram 0 0xDB (imm16Ticks ++ [execInp refA .w])

/-- `DI`: `DI; FETCH`. -/
def execRefDi (s : State) : Outcome := s.runProgram 0 0xF3 [execDi]

/-- `EI`: `EI; FETCH`. -/
def execRefEi (s : State) : Outcome := s.runProgram 0 0xFB [execEi]

/-- An undefined byte: `FALLBACK` = `[FETCH]`, "a one-byte no-operation" (R122, R129). -/
def execRefFallback (t b : Byte) (s : State) : Outcome := s.runProgram t b []

end Sys2Proof.Machine
end

