-- ==== Sys2Proof/Machine/Dispatch.lean ====
section
/-! DEFINITION. One arm per instruction: the micro-ops of 30_encoding.md R116 in tag order, then the REF opcodes of R129. -/

namespace Sys2Proof.Machine

def exec (i : Instr) (s : State) : Host.Outcome State Fault Refusal :=
  match i with
  | .idle => Sys2Proof.Machine.execIdle s
  | .fetch => Sys2Proof.Machine.execFetch s
  | .fetchx t => Sys2Proof.Machine.execFetchx t s
  | .dec16 p => Sys2Proof.Machine.execDec16 p s
  | .inc16 p => Sys2Proof.Machine.execInc16 p s
  | .rd d p => Sys2Proof.Machine.execRd d p s
  | .wr a p => Sys2Proof.Machine.execWr a p s
  | .mov d a => Sys2Proof.Machine.execMov d a s
  | .setpc p => Sys2Proof.Machine.execSetpc p s
  | .setvec => Sys2Proof.Machine.execSetvec s
  | .irqchk => Sys2Proof.Machine.execIrqchk s
  | .irqend => Sys2Proof.Machine.execIrqend s
  | .inp d p => Sys2Proof.Machine.execInp d p s
  | .outp a p => Sys2Proof.Machine.execOutp a p s
  | .alu d a c => Sys2Proof.Machine.execAlu d a c s
  | .ei => Sys2Proof.Machine.execEi s
  | .di => Sys2Proof.Machine.execDi s
  | .halt => Sys2Proof.Machine.execHalt s
  | .setbug => Sys2Proof.Machine.execSetbug s
  | .refNop => Sys2Proof.Machine.execRefNop s
  | .refDecB => Sys2Proof.Machine.execRefDecB s
  | .refBugnop => Sys2Proof.Machine.execRefBugnop s
  | .refLdANn => Sys2Proof.Machine.execRefLdANn s
  | .refLdNnA => Sys2Proof.Machine.execRefLdNnA s
  | .refIncA => Sys2Proof.Machine.execRefIncA s
  | .refDecA => Sys2Proof.Machine.execRefDecA s
  | .refLdAN => Sys2Proof.Machine.execRefLdAN s
  | .refHalt => Sys2Proof.Machine.execRefHalt s
  | .refLdAB => Sys2Proof.Machine.execRefLdAB s
  | .refJpNn => Sys2Proof.Machine.execRefJpNn s
  | .refRet => Sys2Proof.Machine.execRefRet s
  | .refPrefixCb => Sys2Proof.Machine.execRefPrefixCb s
  | .refOutNnA => Sys2Proof.Machine.execRefOutNnA s
  | .refInANn => Sys2Proof.Machine.execRefInANn s
  | .refDi => Sys2Proof.Machine.execRefDi s
  | .refEi => Sys2Proof.Machine.execRefEi s
  | .refFallback t b => Sys2Proof.Machine.execRefFallback t b s

end Sys2Proof.Machine
end

