-- ==== Sys2Proof/Machine/Place.lean ====
section
/-! DEFINITION. Placing one instruction where `step` takes its next from (log entry 19): a micro-op word as the in-flight
program's next word, an opcode byte in the memory at PC. A program comes to run by configuration and media, which the
host loads (44_host.md R255, R256); these functions stand for that load. -/

namespace Sys2Proof.Machine

/-- The engine ready to take the next instruction of program `p` at index `k`: not failed, not halted. -/
def State.at (s : State) (p : ProgId) (k : Nat) : State :=
  { s with
    cpu := { s.cpu with halted := false }
    seq := { progId := p, cursor := k }
    failed := none }

/-- The configuration with `[w]` as program 0x00 of table 0. -/
def Cfg.withWord (c : Cfg) (w : UWord) : Cfg :=
  { c with tables := c.tables.map fun t => if t.id = 0 then { t with entries := t.entries.set 0 [w] } else t }

/-- The machine with `R8[i]` present: registers up to it are added, 0x00 each. -/
def State.withReg (s : State) (i : Nat) : State :=
  { s with
    cpu := { s.cpu with r8 := s.cpu.r8 ++ List.replicate (i + 1 - s.cpu.r8.length) 0 }
    cfg := { s.cfg with resetR8 := s.cfg.resetR8 ++ List.replicate (i + 1 - s.cfg.resetR8.length) 0 } }

/-- The machine with the register a byte selector names. -/
def State.withSel (s : State) : Sel8 → State
  | .r i => s.withReg i.toNat
  | _ => s

/-- The machine with the pair a pair selector names: `PAIR_MAP[j]` is W where it is not configured. -/
def State.withPair (s : State) : PairSel → State
  | .map j => if (s.cfg.pair? j).isSome then s else { s with cfg := { s.cfg with pairMap := s.cfg.pairMap ++ [⟨j, .wh, .wl⟩] } }
  | _ => s

/-- The machine with table `t`: every byte `[FETCH]` where it is not configured. -/
def State.withTable (s : State) (t : Byte) : State :=
  if (s.cfg.table? t).isSome then s
  else { s with cfg := { s.cfg with tables := s.cfg.tables ++ [⟨t, List.replicate 256 [0x01000000]⟩] } }

/-- The machine in which the operands of `i` exist (R127): a configuration that holds the word is well-formed only then. -/
def State.withOperands (s : State) : Instr → State
  | .fetchx t => s.withTable t
  | .dec16 p => s.withPair p
  | .inc16 p => s.withPair p
  | .setpc p => s.withPair p
  | .rd d p => (s.withSel d).withPair p
  | .wr a p => (s.withSel a).withPair p
  | .inp d p => (s.withSel d).withPair p
  | .outp a p => (s.withSel a).withPair p
  | .mov d a => (s.withSel d).withSel a
  | .alu d a _ => (s.withSel d).withSel a
  | _ => s

/-- The machine whose next word is `w`: the words of R118 that stand only in the interrupt-entry programs at their place
there (30_encoding.md R123), any other as a program of table 0. -/
def State.placeWord (s : State) (w : UWord) : State :=
  if w = 0x0A000000 then s.at (.dispatch 0) 2
  else if w = 0x09000000 then s.at (.dispatch 0) 5
  else if w = 0x0B000000 then s.at (.cancelled 0) 5
  else
    let t := (s.withTable 0).at (.table 0 0x00) 0
    let u := { t with cfg := Cfg.withWord t.cfg w }
    match decodeUop w with
    | some i => u.withOperands i
    | none => u

/-- `v` in the ROM or RAM byte behind address `a`; a board over it, or an unmapped window, gives way to base memory. -/
def State.placeByte (s : State) (a : Addr) (v : Byte) : State :=
  let t := match s.boardAt a with
    | some _ => { s with cfg := { s.cfg with board := none } }
    | none => s
  match t.base a with
  | .ramByte n o => t.writeRam n o v
  | .romByte n o => { t with cfg := { t.cfg with rom := Memory.write Memory.unlisted t.cfg.rom (bankKey n o) v } }
  | _ =>
    let q := t.paging.sel
    let sel : Quad Sel := match win a with
      | 0 => { q with w0 := .rom 0 }
      | 1 => { q with w1 := .rom 0 }
      | 2 => { q with w2 := .rom 0 }
      | _ => { q with w3 := .rom 0 }
    { t with
      paging := { t.paging with sel := sel }
      cfg := { t.cfg with rom := Memory.write Memory.unlisted t.cfg.rom (bankKey 0 (off a)) v } }

/-- The machine at an opcode boundary whose next fetch reads the opcode byte `v[7:0]`; the two bytes after it are the
operand bytes `v[15:8]` and `v[23:16]` (the longest REF instruction has three bytes, R129). -/
def State.placeOpcode (s : State) (v : Nat) : State :=
  let t := s.at .empty 0
  let u : State := { t with ic := { t.ic with st := if t.ic.st = IcState.pending then IcState.idle else t.ic.st } }
  let pc := u.cpu.pc
  ((u.placeByte pc (BitVec.ofNat 8 v)).placeByte (pc + 1) (BitVec.ofNat 8 (v / 256))).placeByte (pc + 2)
    (BitVec.ofNat 8 (v / 65536))

end Sys2Proof.Machine
end

