-- ==== Sys2Proof/Machine/Step.lean ====
section
/-! DEFINITION. One call of `Step()` (40_microops.md R141), and placing an instruction where it takes its next from. -/

namespace Sys2Proof.Machine

/-- `Step()` (R141). -/
def step (s : State) : Host.Outcome State Fault Refusal := s.stepWith exec

/-- `s` with the instruction whose bits are `w`, numbered as spec/opcode_table.json numbers them, stored where `step`
takes its next instruction: a 32-bit row as the next micro-op word, a shorter row as the opcode byte at PC with its
operand bytes after it (log entry 19). -/
def State.withFetchWord (s : State) (nbits w : Nat) : State :=
  if nbits = 32 then s.placeWord (BitVec.ofNat 32 w) else s.placeOpcode (w % 2 ^ nbits)

end Sys2Proof.Machine
end

