-- ==== Sys2Proof/Machine/Codec.lean ====
section
/-! DEFINITION. Writing values as bytes and reading them back, for the sections of a snapshot (10_state.md R54: "each
section a tag then its fields in the order listed", "multi-byte integers ... little-endian"). Numbers without a width in
the spec are written as a count of bytes and then the bytes, little-endian (DESIGN CHOICE, log entry 9). -/

namespace Sys2Proof.Machine

/-- A way to write a value as bytes and to read it from the front of a byte list. -/
structure Codec (α : Type) where
  put : α → List Byte
  get : List Byte → Option (α × List Byte)

/-- `k` bytes of a number, little-endian. -/
def putLe : Nat → Nat → List Byte
  | 0, _ => []
  | k + 1, n => BitVec.ofNat 8 n :: putLe k (n / 256)

def getLe : Nat → List Byte → Option (Nat × List Byte)
  | 0, l => some (0, l)
  | _ + 1, [] => none
  | k + 1, b :: l => (getLe k l).map fun p => (b.toNat + 256 * p.1, p.2)

/-- A `w`-bit integer as `k` little-endian bytes. -/
def Codec.uint (w k : Nat) : Codec (BitVec w) where
  put v := putLe k v.toNat
  get l := (getLe k l).map fun p => (BitVec.ofNat w p.1, p.2)

def Codec.u8 : Codec Byte := .uint 8 1
def Codec.u16 : Codec Addr := .uint 16 2
def Codec.u64 : Codec U64 := .uint 64 8

/-- The number of bytes a number without a fixed width takes, at least one. -/
def byteCount (n : Nat) : Nat := n.log2 / 8 + 1

/-- A count of bytes: a byte 0xFF for each whole 255, then a byte for the rest. -/
def putCount (k : Nat) : List Byte := List.replicate (k / 255) 0xFF ++ [BitVec.ofNat 8 (k % 255)]

def getCount : List Byte → Option (Nat × List Byte)
  | [] => none
  | b :: l => if b = 0xFF then (getCount l).map fun p => (p.1 + 255, p.2) else some (b.toNat, l)

/-- A number without a fixed width: a count of bytes, then that many bytes, little-endian (DESIGN CHOICE, log entry 9). -/
def Codec.nat : Codec Nat where
  put n := putCount (byteCount n) ++ putLe (byteCount n) n
  get l := (getCount l).bind fun p => getLe p.1 p.2

/-- A type written through another: `g` reads what `f` writes, and refuses what `f` never writes. -/
def Codec.part {α β : Type} (f : α → β) (g : β → Option α) (c : Codec β) : Codec α where
  put x := c.put (f x)
  get l := (c.get l).bind fun p => (g p.1).map fun x => (x, p.2)

def Codec.pair {α β : Type} (c : Codec α) (d : Codec β) : Codec (α × β) where
  put x := c.put x.1 ++ d.put x.2
  get l := (c.get l).bind fun p => (d.get p.2).map fun q => ((p.1, q.1), q.2)

def Codec.getMany {α : Type} (c : Codec α) : Nat → List Byte → Option (List α × List Byte)
  | 0, l => some ([], l)
  | k + 1, l => (c.get l).bind fun p => (Codec.getMany c k p.2).map fun q => (p.1 :: q.1, q.2)

def Codec.putMany {α : Type} (c : Codec α) : List α → List Byte
  | [] => []
  | x :: xs => c.put x ++ Codec.putMany c xs

/-- A list: its length, then its elements (DESIGN CHOICE, log entry 9). -/
def Codec.list {α : Type} (c : Codec α) : Codec (List α) where
  put l := Codec.nat.put l.length ++ c.putMany l
  get l := (Codec.nat.get l).bind fun p => c.getMany p.1 p.2

/-- One bit as a byte 0 or 1 (DESIGN CHOICE, log entry 9). -/
def Codec.bool : Codec Bool :=
  .part (fun b => if b then 1 else 0) (fun v => if v = 0 then some false else if v = 1 then some true else none) .u8

/-- A sign, 1 for a negative number, then the magnitude, less one when negative (DESIGN CHOICE, log entry 9). -/
def Codec.int : Codec Int :=
  .part (fun | .ofNat n => (false, n) | .negSucc n => (true, n))
    (fun | (false, n) => some (.ofNat n) | (true, n) => some (.negSucc n)) (.pair .bool .nat)

/-- The value of a section's blob: nothing may follow its last field. -/
def Codec.whole {α : Type} (c : Codec α) (l : List Byte) : Option α :=
  match c.get l with
  | some (x, []) => some x
  | _ => none

end Sys2Proof.Machine
end

