-- ==== Sys2Proof/WellFormed.lean ====
section
/-! DEFINITION. Well-formedness of instructions under a configuration, and the named checks of a configuration
(30_encoding.md R127). -/

namespace Sys2Proof

/-! ## Operands that exist (R114, R115) -/

def Sel8.wf (c : Cfg) : Sel8 → Bool
  | .r i => decide (i.toNat < c.nReg8)
  | _ => true

def PairSel.wf (c : Cfg) : PairSel → Bool
  | .map j => (c.pair? j).isSome
  | _ => true

/-- A fallback byte is one R129 does not list in table 0, or any byte of table 1 (R122). -/
def fallbackOk (t b : Byte) : Bool := decide (decodeRef t b = some (.refFallback t b))

/-- Every operand of the instruction names a register, pair or table that exists: the checks `wf_sel` and `wf_tables` of
one instruction. A REF opcode has no operand but the byte of a fallback. -/
def Instr.wf (c : Cfg) : Instr → Bool
  | .fetchx t => (c.table? t).isSome
  | .dec16 p => p.wf c
  | .inc16 p => p.wf c
  | .setpc p => p.wf c
  | .rd d p => d.wf c && p.wf c
  | .wr a p => a.wf c && p.wf c
  | .inp d p => d.wf c && p.wf c
  | .outp a p => a.wf c && p.wf c
  | .mov d a => d.wf c && a.wf c
  | .alu d a _ => d.wf c && a.wf c
  | .refFallback t b => fallbackOk t b
  | .idle => true
  | .fetch => true
  | .setvec => true
  | .irqchk => true
  | .irqend => true
  | .ei => true
  | .di => true
  | .halt => true
  | .setbug => true
  | .refNop => true
  | .refDecB => true
  | .refBugnop => true
  | .refLdANn => true
  | .refLdNnA => true
  | .refIncA => true
  | .refDecA => true
  | .refLdAN => true
  | .refHalt => true
  | .refLdAB => true
  | .refJpNn => true
  | .refRet => true
  | .refPrefixCb => true
  | .refOutNnA => true
  | .refInANn => true
  | .refDi => true
  | .refEi => true

/-! ## The nine checks of a configuration (R127) -/

/-- Every program of every table. -/
def Cfg.programs (c : Cfg) : List (List UWord) := c.tables.flatMap fun t => t.entries

/-- 1. `wf_tag`: every word has a tag of R116 and zero unused fields. -/
def Cfg.wfTag (c : Cfg) : Bool := c.programs.all fun p => p.all tagOk

/-- The selectors of one word name registers that exist; a word with a bad tag is left to `wf_tag`. -/
def wordSelOk (c : Cfg) (w : UWord) : Bool :=
  match tagShape (uTag w) with
  | some .pair => ((decodePair (uA w)).map (PairSel.wf c)).getD false
  | some .selPair => ((decodeSel8 (uA w)).map (Sel8.wf c)).getD false && ((decodePair (uB w)).map (PairSel.wf c)).getD false
  | some .selSel | some .selSelFn =>
    ((decodeSel8 (uA w)).map (Sel8.wf c)).getD false && ((decodeSel8 (uB w)).map (Sel8.wf c)).getD false
  | some .none | some .tbl | none => true

/-- A configured pair has two distinct byte selectors that exist (R115). -/
def PairEntry.wf (c : Cfg) (e : PairEntry) : Bool := e.hi.wf c && e.lo.wf c && decide (e.hi ≠ e.lo)

/-- 2. `wf_sel`: every operand names a register that exists; the pairs of `PAIR_MAP` do too; at most 128 byte registers (R8). -/
def Cfg.wfSel (c : Cfg) : Bool :=
  c.programs.all (fun p => p.all (wordSelOk c)) && c.pairMap.all (PairEntry.wf c) && decide (c.nReg8 ≤ 128)

/-- R118 for one program of a table: no `SETVEC`, `IRQCHK` or `IRQEND`; `FETCH` and `FETCHX` only as the last word. -/
def programPlaceOk (p : List UWord) : Bool :=
  p.all (fun w => decide (uTag w ≠ 0x09 ∧ uTag w ≠ 0x0A ∧ uTag w ≠ 0x0B)) &&
    p.dropLast.all fun w => decide (uTag w ≠ 0x01 ∧ uTag w ≠ 0x02)

/-- 3. `wf_place`: R118 holds. -/
def Cfg.wfPlace (c : Cfg) : Bool := c.programs.all programPlaceOk

/-- 4. `wf_tables`: table 0 exists, every `FETCHX t` names an existing table, each table has 256 entries. -/
def Cfg.wfTables (c : Cfg) : Bool :=
  (c.table? 0).isSome && c.tables.all (fun t => decide (t.entries.length = 256)) &&
    c.programs.all fun p => p.all fun w => uTag w != 0x02 || (c.table? (uA w)).isSome

/-- 5. `wf_irq`: 1 to 8 sources, a vector for each, variant 0 or 1. -/
def Cfg.wfIrq (c : Cfg) : Bool :=
  decide (1 ≤ c.nIrq) && decide (c.nIrq ≤ 8) && decide (c.vector.length = c.nIrq) && decide (c.irqVariant ≤ 1)

/-- 6. `wf_ct`: at least one cycle a frame, an entry for each, every `float_off` in the frame. -/
def Cfg.wfCt (c : Cfg) : Bool :=
  decide (1 ≤ c.frameCycles) && decide (c.ct.length = c.frameCycles) &&
    c.ct.all fun
      | .valid _ f => decide (f < c.frameCycles)
      | .sentinel => true

/-- 7. `wf_paging`: `update` gives every window a value from registers that exist; the initial values have an entry for
each window and are what `update` gives; every paging port names an existing register; ROM and initial RAM lie in their
banks and are in canonical form (DEDUCED from R39, R79 for the registers and ports, log entry 10). -/
def Cfg.wfPaging (c : Cfg) : Bool :=
  let p := c.paging
  let u := c.pagingUpdate p.initRegs
  let known : PageAtom → Bool := fun | .reg k => decide (k < p.nRegs)
  decide (p.initRegs.length = p.nRegs) && decide (p.update.length = nWin) &&
    decide (p.initSel = (u.map (·.1)).toList) && decide (p.initCont = (u.map (·.2.1)).toList) &&
    decide (p.initVid = (u.map (·.2.2)).toList) &&
    p.update.all (fun f => f.kind.allAtoms known && f.bank.allAtoms known && f.cont.allAtoms known && f.vid.allAtoms known) &&
    p.ports.all (fun e => decide (e.2 < p.nRegs)) &&
    Machine.Memory.wf Machine.Memory.unlisted c.rom && Machine.Memory.below (c.romBanks * windowSize) c.rom &&
    Machine.Memory.wf Machine.Memory.unlisted c.ramInit && Machine.Memory.below (c.ramBanks * windowSize) c.ramInit

/-- 8. `wf_ports`: the two interrupt controller ports differ; the interrupt controller's registers and the paging control
registers each stand in `PERIPH`, once (DEDUCED from 42_ports.md R213, log entry 10). -/
def Cfg.wfPorts (c : Cfg) : Bool :=
  decide (c.iePort ≠ c.ifPort) && decide (c.periph.count .ic = 1) && decide (c.periph.count .paging = 1)

/-- 9. `wf_board`: the bus window lies inside the memory space; `XT` has 256 entries (43_board.md R231). -/
def Cfg.wfBoard (c : Cfg) : Bool :=
  match c.board with
  | none => true
  | some b => decide (b.lo ≤ b.hi) && decide (b.hi < 65536) && decide (b.xt.length = 256)

/-- The check whose name E_CONFIG records: where several fail, the first in R127's order, for R127 and 60_exceptions.md R294 do
not say which (DESIGN CHOICE, log entry 27). `arrays` says that every bank array has WINDOW_SIZE bytes, which is part of
check 7. -/
def Cfg.checkWith (c : Cfg) (arrays : Bool) : Option Check :=
  if !c.wfTag then some .wfTag
  else if !c.wfSel then some .wfSel
  else if !c.wfPlace then some .wfPlace
  else if !c.wfTables then some .wfTables
  else if !c.wfIrq then some .wfIrq
  else if !c.wfCt then some .wfCt
  else if !(c.wfPaging && arrays) then some .wfPaging
  else if !c.wfPorts then some .wfPorts
  else if !c.wfBoard then some .wfBoard
  else none

/-- The first check that the record itself fails. -/
def Cfg.check (c : Cfg) : Option Check := c.checkWith true

/-- A configuration is well-formed iff every named check passes (R127). -/
def Cfg.wf (c : Cfg) : Bool := c.check.isNone

end Sys2Proof
end

