-- ==== Sys2Proof/Machine/HostOps.lean ====
section
/-! DEFINITION. The host's operations between ticks (spec/44_host.md R250 to R259, R263): construction with media, CPU
reset, interrupt lines, input, reconfiguration, inspection. Save and Restore are in Snapshot.lean. -/

namespace Sys2Proof.Machine

/-! ## Construction (R255, R256) -/

/-- What the media loader supplies: flat byte arrays by bank number (R256). -/
structure Media where
  rom : List (Nat × List Byte)
  ram : List (Nat × List Byte)
  deriving DecidableEq, Repr

/-- Every array has WINDOW_SIZE bytes (30_encoding.md R127, check 7) and, DESIGN CHOICE (log entry 24), names a bank that
exists. -/
def banksOk (banks : Nat) (l : List (Nat × List Byte)) : Bool :=
  l.all fun e => decide (e.1 < banks) && decide (e.2.length = windowSize)

/-- A memory with the supplied banks in place of what it held there; of two arrays for one bank the later stands (DESIGN
CHOICE, log entry 24). -/
def loadBanks (m : Memory) (l : List (Nat × List Byte)) : Memory :=
  l.foldl (fun m e => Memory.load Memory.unlisted m (bankKey e.1 0) e.2) m

/-- A new engine (R255): refused with E_CONFIG and the name of the check that fails (30_encoding.md R127, R256; 60_exceptions.md
R294), the size of the bank arrays being part of check 7. ROM contents become part of the configuration; supplied RAM banks
replace `RAM_INIT`. -/
def construct (c : Cfg) (m : Media) (x : Input) : Except Error State :=
  match c.checkWith (banksOk c.romBanks m.rom && banksOk c.ramBanks m.ram) with
  | some k => .error (.config k)
  | none => .ok (State.init { c with rom := loadBanks c.rom m.rom } (loadBanks c.ramInit m.ram) x)

/-! ## CPU reset (R251, R252) -/

/-- `Reset()` (R251): the left column of 70_reset_and_hazards.md R311. RAM, the board, time, the bus log, the input latch,
FAILED and TRACE are unchanged. The `PRESET` hooks run last, on the state with all else reset (DESIGN CHOICE, log entry
26). -/
def State.cpuReset (s : State) : State :=
  let c := s.cfg
  let u := c.pagingUpdate c.paging.initRegs
  let t : State :=
    { s with
      cpu :=
        { pc := 0x0000, sp := c.resetSp, flags := c.resetFlags, r8 := c.resetR8, lat := c.resetLat, w := c.resetW
          ir := 0x00, ime := false, halted := false, bug := false }
      seq := { progId := .empty, cursor := 0 }
      ic := { st := .idle, ifr := 0x00, ier := 0x00, src := 0 }
      paging :=
        { s.paging with
          preg := c.paging.initRegs, sel := u.map (·.1), cont := u.map (·.2.1), vid := u.map (·.2.2) } }
  (t.presetPeriphs 0 c.periph).presetObservers 0 c.observers

/-- The next retirement is a `FETCH` and the engine is not halted: where a host that resets only at opcode boundaries
resets (R252). A CURSOR beyond the end counts as the end (DESIGN CHOICE, log entry 32). -/
def State.atOpcodeBoundary (s : State) : Bool :=
  !s.cpu.halted && (s.nextWord == none || s.nextWord == some 0x01000000)

/-! ## Interrupt lines (R253, R254) -/

/-- `AssertIrq(i)` (R253); the host owes `i < N_IRQ` (R266), and a bit at or above N_IRQ ignores writes (10_state.md R35). -/
def State.assertIrq (s : State) (i : Nat) : State :=
  { s with ic := { s.ic with ifr := if i < s.cfg.nIrq then setBit s.ic.ifr i else s.ic.ifr } }.icUpdate

/-- `ClearIrq(i)` (R254). -/
def State.clearIrq (s : State) (i : Nat) : State :=
  { s with ic := { s.ic with ifr := if i < s.cfg.nIrq then clearBit s.ic.ifr i else s.ic.ifr } }.icUpdate

/-! ## Input and reconfiguration (R257, R259) -/

/-- `SetInput(x)` (R259). -/
def State.setInput (s : State) (x : Input) : State := { s with input := { s.input with next := x } }

/-- The unit a change names exists, or its place does (log entry 12). The two peripherals of the block stand in every `PERIPH`
(42_ports.md R213). -/
def Change.names (c : Cfg) : Change → Bool
  | .insertPeriph k _ => decide (k ≤ c.periph.length)
  | .removePeriph k => decide (k < c.periph.length)
  | .replacePeriph k _ => decide (k < c.periph.length)
  | .movePeriph k j => decide (k < c.periph.length) && decide (j < c.periph.length)
  | .insertObserver k _ => decide (k ≤ c.observers.length)
  | .removeObserver k => decide (k < c.observers.length)
  | .replaceObserver k _ => decide (k < c.observers.length)
  | .moveObserver k j => decide (k < c.observers.length) && decide (j < c.observers.length)
  | .icPorts _ _ => true
  | .pagingPorts _ _ => true

/-- `Reconfigure(change)` (R257): queued for the next frame boundary; refused with E_CONFIG, and never queued, when it
would make the configuration ill-formed or names no unit. -/
def State.reconfigure (s : State) (ch : Change) : Except Error State :=
  if Change.names s.queuedCfg ch then
    match (ch.applyCfg s.queuedCfg).check with
    | some k => .error (.config k)
    | none => .ok { s with queue := s.queue ++ [ch] }
  else .error (.config .change)

/-- Inspection (R263): the host reads a byte of the memory space by `ReadBus`; nothing changes. -/
def State.inspect (s : State) (a : Addr) : Byte := s.readBus a

end Sys2Proof.Machine
end

