-- ==== Sys2Proof/Machine/Snapshot.lean ====
section
/-! DEFINITION. Save and Restore (44_host.md R260, R261) with the section order of 10_state.md R54. -/

namespace Sys2Proof.Machine

/-- One named section: "a tagged byte blob" (10_state.md R53). -/
structure Section where
  tag : Tag
  blob : List Byte
  deriving DecidableEq, Repr

abbrev Snapshot := List Section

/-! ## The fields of each section, in the order of R54 -/

/-- `PROG_ID`: the numbers of `ProgId.fields`, the form, the table and the opcode byte in one byte each (DESIGN CHOICE, log
entry 9). -/
def progIdCodec : Codec ProgId :=
  .part ProgId.fields
    (fun (f, t, b, v) =>
      if f = 0 then some (.table t b)
      else if f = 1 then some (.dispatch v)
      else if f = 2 then some (.cancelled v)
      else if f = 3 then some .empty
      else none)
    (.pair .u8 <| .pair .u8 <| .pair .u8 .nat)

/-- `IC_STATE`: the number of `IcState.num` in one byte (DESIGN CHOICE, log entry 9). -/
def icStateCodec : Codec IcState :=
  .part IcState.num
    (fun v => if v = 0 then some .idle else if v = 1 then some .pending else if v = 2 then some .dispatching else none) .u8

/-- `SEL[w]`: the kind of `selFields` in one byte, then the bank (DESIGN CHOICE, log entry 9). -/
def selCodec : Codec Sel :=
  .part selFields
    (fun (k, n) =>
      if k = 0 then some (.rom n) else if k = 1 then some (.ram n) else if k = 2 then some .unmapped else none)
    (.pair .u8 .nat)

def quadCodec {α : Type} (c : Codec α) : Codec (Quad α) :=
  .part (fun q => (q.w0, q.w1, q.w2, q.w3)) (fun p => some ⟨p.1, p.2.1, p.2.2.1, p.2.2.2⟩) (.pair c (.pair c (.pair c c)))

/-- RAM and BUSLOG: the list of the bytes that differ from what an unlisted address reads as, each its address and value
(DESIGN CHOICE, log entry 9). -/
def memoryCodec : Codec Memory := .list (.pair .nat .u8)

/-- `CPU`: PC, SP, FLAGS, R8, LAT, W, IR, IME, HALTED, BUG. -/
def cpuCodec : Codec Cpu :=
  .part (fun c => (c.pc, c.sp, c.flags, c.r8, c.lat, c.w, c.ir, c.ime, c.halted, c.bug))
    (fun (pc, sp, flags, r8, lat, w, ir, ime, halted, bug) => some ⟨pc, sp, flags, r8, lat, w, ir, ime, halted, bug⟩)
    (.pair .u16 <| .pair .u16 <| .pair .u8 <| .pair (.list .u8) <| .pair .u8 <| .pair .u16 <| .pair .u8 <| .pair .bool <|
      .pair .bool .bool)

/-- `SEQ`: PROG_ID, CURSOR. -/
def seqCodec : Codec Seq := .part (fun q => (q.progId, q.cursor)) (fun p => some ⟨p.1, p.2⟩) (.pair progIdCodec .nat)

/-- `IC`: IC_STATE, IF, IE, IC_SRC. -/
def icCodec : Codec Ic :=
  .part (fun i => (i.st, i.ifr, i.ier, i.src)) (fun (st, ifr, ier, src) => some ⟨st, ifr, ier, src⟩)
    (.pair icStateCodec <| .pair .u8 <| .pair .u8 .nat)

/-- `PAGING`: PREG, SEL, CONT, VID, RAM. -/
def pagingCodec : Codec Paging :=
  .part (fun p => (p.preg, p.sel, p.cont, p.vid, p.ram)) (fun (preg, sel, cont, vid, ram) => some ⟨preg, sel, cont, vid, ram⟩)
    (.pair (.list .u8) <| .pair (quadCodec selCodec) <| .pair (quadCodec .bool) <| .pair (quadCodec .bool) memoryCodec)

/-- `BOARD`: B_BANK, B_PROT, B_KEY. -/
def boardCodec : Codec BoardRegs :=
  .part (fun b => (b.bank, b.prot, b.key)) (fun (bank, prot, key) => some ⟨bank, prot, key⟩) (.pair .u8 <| .pair .u8 .u8)

/-- `PERIPH`: PSTATE of each peripheral, then of each observer. -/
def unitsCodec : Codec Units :=
  .part (fun u => (u.periph, u.observer)) (fun p => some ⟨p.1, p.2⟩) (.pair (.list (.list .nat)) (.list (.list .nat)))

/-- `TIMING`: CYCLES, FRAME_POS, FRAME, BUSLOG. -/
def timingCodec : Codec Timing :=
  .part (fun t => (t.cycles, t.framePos, t.frame, t.buslog))
    (fun (cycles, framePos, frame, buslog) => some ⟨cycles, framePos, frame, buslog⟩)
    (.pair .u64 <| .pair .nat <| .pair .u64 memoryCodec)

def inputCodec : Codec Input :=
  .part (fun x => (x.buttons, x.axes)) (fun p => some ⟨p.1, p.2⟩) (.pair (.list .bool) (.list .int))

/-- `INPUT`: INPUT, INPUT_NEXT. -/
def inputLatchCodec : Codec InputLatch := .part (fun x => (x.cur, x.next)) (fun p => some ⟨p.1, p.2⟩) (.pair inputCodec inputCodec)

/-- The number of a check in ERR: R127's, 1 to 9, and 10 for `change` (DESIGN CHOICE, log entry 9). -/
def checkNum : Check → Byte
  | .wfTag => 1
  | .wfSel => 2
  | .wfPlace => 3
  | .wfTables => 4
  | .wfIrq => 5
  | .wfCt => 6
  | .wfPaging => 7
  | .wfPorts => 8
  | .wfBoard => 9
  | .change => 10

def checkOf (v : Byte) : Option Check :=
  [Check.wfTag, .wfSel, .wfPlace, .wfTables, .wfIrq, .wfCt, .wfPaging, .wfPorts, .wfBoard, .change].find? fun k =>
    checkNum k == v

/-- The number of a section name in ERR: R54's, 1 to 10, and 0 for no section (DESIGN CHOICE, log entry 9). -/
def tagNum : Option Tag → Nat
  | none => 0
  | some .cfg => 1
  | some .cpu => 2
  | some .seq => 3
  | some .ic => 4
  | some .paging => 5
  | some .board => 6
  | some .periph => 7
  | some .timing => 8
  | some .input => 9
  | some .fail => 10
  | some (.unknown n) => n + 11

def tagOf : Nat → Option Tag
  | 0 => none
  | 1 => some .cfg
  | 2 => some .cpu
  | 3 => some .seq
  | 4 => some .ic
  | 5 => some .paging
  | 6 => some .board
  | 7 => some .periph
  | 8 => some .timing
  | 9 => some .input
  | 10 => some .fail
  | n + 11 => some (.unknown n)

/-- The fields of ERR: the code of 60_exceptions.md R294, then what the errors record, each in a field of its own: the check,
the expected and found section names, the expected and found digests, the peripheral; 0 for what the error has not (DESIGN
CHOICE, log entry 9). -/
def errFields : Error → Byte × Byte × Nat × Nat × U64 × U64 × Nat
  | .config c => (1, checkNum c, 0, 0, 0, 0, 0)
  | .snapFormat e f => (2, 0, tagNum e, tagNum f, 0, 0, 0)
  | .snapMismatch e f => (3, 0, 0, 0, e, f, 0)
  | .step k => (4, 0, 0, 0, 0, 0, k)

/-- `FAIL`: FAILED, then ERR, all 0 while FAILED is 0. -/
def failCodec : Codec (Option Error) :=
  .part
    (fun
      | none => (false, 0, 0, 0, 0, 0, 0, 0)
      | some e => (true, errFields e))
    (fun (failed, code, c, e, f, d, g, k) =>
      if failed then
        if code = 1 then (checkOf c).map fun c => some (.config c)
        else if code = 2 then some (some (.snapFormat (tagOf e) (tagOf f)))
        else if code = 3 then some (some (.snapMismatch d g))
        else if code = 4 then some (some (.step k))
        else none
      else some none)
    (.pair .bool <| .pair .u8 <| .pair .u8 <| .pair .nat <| .pair .nat <| .pair .u64 <| .pair .u64 .nat)

/-! ## Save (R260) -/

/-- The section names in order (R54); `BOARD` iff a board is configured. -/
def sectionNames (c : Cfg) : List Tag :=
  [.cfg, .cpu, .seq, .ic, .paging] ++ (if c.board.isSome then [.board] else []) ++ [.periph, .timing, .input, .fail]

/-- A section's blob. -/
def State.blob (s : State) : Tag → List Byte
  | .cfg => Codec.u64.put (Config.digest s.cfg)
  | .cpu => cpuCodec.put s.cpu
  | .seq => seqCodec.put s.seq
  | .ic => icCodec.put s.ic
  | .paging => pagingCodec.put s.paging
  | .board => boardCodec.put s.board
  | .periph => unitsCodec.put s.units
  | .timing => timingCodec.put s.timing
  | .input => inputLatchCodec.put s.input
  | .fail => failCodec.put s.failed
  | .unknown _ => []

/-- `Save(sink)` (R260): changes no state. -/
def State.save (s : State) : Snapshot := (sectionNames s.cfg).map fun t => ⟨t, s.blob t⟩

/-! ## Restore (R261) -/

/-- The tags of a snapshot against the names expected: the first difference, if any, is E_SNAP_FORMAT. -/
def checkTags : List Tag → Snapshot → Option Error
  | [], [] => none
  | [], x :: _ => some (.snapFormat none (some x.tag))
  | t :: _, [] => some (.snapFormat (some t) none)
  | t :: ts, x :: xs => if x.tag = t then checkTags ts xs else some (.snapFormat (some t) (some x.tag))

/-- The fields of the section named `t`. A section whose bytes do not decode is E_SNAP_FORMAT with the section's own name as both
the expected and the found one: 60_exceptions.md R294 speaks of missing, extra, misordered and wrongly tagged sections only
(DESIGN CHOICE, log entry 30). -/
def readSection {α : Type} (src : Snapshot) (t : Tag) (c : Codec α) : Except Error α :=
  match (src.find? fun x => x.tag == t).bind fun x => c.whole x.blob with
  | some v => .ok v
  | none => .error (.snapFormat (some t) (some t))

/-- The fields of a snapshot put into the state, all or nothing. The queued reconfigurations, TRACE and the configuration
are no fields of a snapshot (R54, R52) and stay (log entry 18). A section that decodes is taken as it is, also where it does not
fit the configuration, so `State.Inv` need not hold after it (DESIGN CHOICE, log entry 30). -/
def State.readFields (s : State) (src : Snapshot) : Except Error State := do
  let cpu ← readSection src .cpu cpuCodec
  let seq ← readSection src .seq seqCodec
  let ic ← readSection src .ic icCodec
  let paging ← readSection src .paging pagingCodec
  let board ← if s.cfg.board.isSome then readSection src .board boardCodec else .ok s.board
  let units ← readSection src .periph unitsCodec
  let timing ← readSection src .timing timingCodec
  let input ← readSection src .input inputLatchCodec
  let failed ← readSection src .fail failCodec
  .ok { s with
    cpu := cpu, seq := seq, ic := ic, paging := paging, board := board, units := units, timing := timing, input := input
    failed := failed }

/-- `Restore(source)` (R261): the tags, then the digest, then the fields. An error leaves the engine as it was: the caller
keeps `s`. -/
def State.restore (s : State) (src : Snapshot) : Except Error State :=
  match checkTags (sectionNames s.cfg) src with
  | some e => .error e
  | none =>
    match readSection src .cfg Codec.u64 with
    | .error e => .error e
    | .ok d => if d = Config.digest s.cfg then s.readFields src else .error (.snapMismatch (Config.digest s.cfg) d)

/-! ## The host's operations as one type (R266) -/

/-- What the host may do between two ticks. -/
inductive HostOp where
  | reset
  | assertIrq (i : Nat)
  | clearIrq (i : Nat)
  | setInput (x : Input)
  | reconfigure (c : Change)
  | restore (src : Snapshot)
  deriving DecidableEq, Repr

/-- The engine after a host operation, or the error reported to the caller, which leaves the engine as it was. -/
def State.host (s : State) : HostOp → Except Error State
  | .reset => .ok s.cpuReset
  | .assertIrq i => .ok (s.assertIrq i)
  | .clearIrq i => .ok (s.clearIrq i)
  | .setInput x => .ok (s.setInput x)
  | .reconfigure c => s.reconfigure c
  | .restore src => s.restore src

end Sys2Proof.Machine
end

