-- ==== Sys2Proof/Safety.lean ====
section
/-! DEFINITION. What claims are stated in: the part of the configuration that is fixed at run time, the invariants of the
engine, what a register write leaves alone, and the states of the REF machine. -/

namespace Sys2Proof

/-- The configuration without what a reconfiguration changes (44_host.md R257): the peripherals and observers, the ports of the
interrupt controller, the ports and the read-back of the paging unit. The rest is fixed for a run (10_state.md R50). -/
def Cfg.fixed (c : Cfg) : Cfg :=
  { c with
    periph := [], observers := [], iePort := 0, ifPort := 0, paging := { c.paging with ports := [], readback := false } }

end Sys2Proof

namespace Sys2Proof.Machine

/-- PROG_ID names an interrupt-entry program only of the configured variant (60_exceptions.md R276, R279). -/
def State.entryVariant (s : State) : Prop :=
  match s.seq.progId with
  | .dispatch v => v = s.cfg.irqVariant
  | .cancelled v => v = s.cfg.irqVariant
  | .table _ _ => True
  | .empty => True

/-- SEL, CONT and VID are what `PAGING.update(PREG)` gives (20_memory.md R80, R81). -/
def State.mapped (s : State) : Prop := s.remap = s

/-- `Pending` only while an enabled source requests and IME allows it (60_exceptions.md R273). -/
def State.PendingHasRequest (s : State) : Prop := s.ic.st = .pending → s.requesting = true

/-- The invariant of a running engine. -/
structure State.Inv (s : State) : Prop where
  /-- The configuration passes every check (30_encoding.md R127). -/
  cfgWf : s.cfg.wf = true
  /-- So does the configuration that the queued changes leave at the next frame boundary (44_host.md R257). -/
  queuedWf : s.queuedCfg.wf = true
  /-- RAM and the bus log are in canonical form. -/
  ramWf : Memory.wf Memory.unlisted s.paging.ram = true
  buslogWf : Memory.wf BusLog.unlisted s.timing.buslog = true
  /-- RAM holds bytes of its banks only, the bus log of offsets of the frame only (10_state.md R40, R48). -/
  ramBelow : Memory.below (s.cfg.ramBanks * windowSize) s.paging.ram = true
  buslogBelow : Memory.below s.cfg.frameCycles s.timing.buslog = true
  /-- `0 <= CURSOR <= len(prog(S))` (10_state.md R32). -/
  cursorLe : s.seq.cursor ≤ s.prog.length
  entry : s.entryVariant
  pending : s.PendingHasRequest
  /-- FRAME_POS is in 0..FRAME_CYCLES-1 (10_state.md R45). -/
  framePosLt : s.timing.framePos < s.cfg.frameCycles
  /-- Bits N_IRQ..7 of IF and IE are 0 (10_state.md R35, R36). -/
  ifMasked : s.ic.ifr &&& s.cfg.irqMask = s.ic.ifr
  ieMasked : s.ic.ier &&& s.cfg.irqMask = s.ic.ier
  /-- N_REG8 byte registers, `n_regs` paging registers (10_state.md R21, R39). -/
  r8Length : s.cpu.r8.length = s.cfg.nReg8
  pregLength : s.paging.preg.length = s.cfg.paging.nRegs
  mapping : s.mapped
  /-- IC_SRC is in 0..N_IRQ-1 (10_state.md R37). -/
  srcLt : s.ic.src < s.cfg.nIrq
  /-- One PSTATE for each peripheral and observer (10_state.md R42). -/
  periphLength : s.units.periph.length = s.cfg.periph.length
  observerLength : s.units.observer.length = s.cfg.observers.length

/-- Every byte register but those in `ds`, and every CPU field no selector names, is the same in `c'` as in `c`. -/
def Cpu.SameBut (ds : List Sel8) (c c' : Cpu) : Prop :=
  (∀ x, x ∉ ds → c'.readSel x = c.readSel x) ∧ c'.ir = c.ir ∧ c'.ime = c.ime ∧ c'.halted = c.halted ∧ c'.bug = c.bug ∧
    c'.r8.length = c.r8.length

/-- Physical memory and everything that decides what an address resolves to are the same: RAM, SEL, CONT, VID, PREG, the
board, and the fixed configuration with ROM. -/
def State.SameMemory (s t : State) : Prop := t.paging = s.paging ∧ t.board = s.board ∧ t.cfg.fixed = s.cfg.fixed

/-- The address is backed by a ROM or RAM byte, no board over it (20_memory.md R78). -/
def State.backed (s : State) (a : Addr) : Bool :=
  match s.resolve a with
  | .romByte _ _ => true
  | .ramByte _ _ => true
  | .board _ => false
  | .none => false

/-- No floating-bus byte enters a lookup of a board function: the bank it reads exists, or every window is mapped where it reads
by address (log entry 17). -/
def State.lookSteady (s : State) : BoardLook → Bool
  | .xt => true
  | .rom => decide (s.cfg.romBanks ≠ 0)
  | .ram => decide (s.cfg.ramBanks ≠ 0)
  | .base => s.paging.sel.toList.all fun x => decide (x ≠ .unmapped)

/-- No floating-bus byte enters a read of the address: a ROM or RAM byte answers it, or a board whose read function makes no
lookup that could give one (20_memory.md R78, 41_bus.md R192, log entry 17). -/
def State.steady (s : State) (a : Addr) : Bool :=
  match s.resolve a with
  | .romByte _ _ => true
  | .ramByte _ _ => true
  | .board b => b.read.allLooks s.lookSteady
  | .none => false

/-- Every byte of memory is the same in `t` as in `s`: every ROM and RAM byte by bank and offset, what every address
resolves to, the board's registers, and the byte read at every address whose read takes no floating-bus byte. -/
def State.MemoryKept (s t : State) : Prop :=
  (∀ n o, t.readRam n o = s.readRam n o) ∧ (∀ n o, t.readRom n o = s.readRom n o) ∧ (∀ a, t.resolve a = s.resolve a) ∧
    t.board = s.board ∧ ∀ a, s.steady a = true → t.readBus a = s.readBus a

/-- The micro-op the next tick retires (40_microops.md R141, R148): none in the halt state; `FETCH` also with a CURSOR beyond the
end of the program (DESIGN CHOICE, log entry 32). -/
def State.retiring (s : State) : Option Instr :=
  if s.cpu.halted then none
  else match s.nextWord with
    | none => some .fetch
    | some w => decodeUop w

/-- The wait cycles an event records (10_state.md R52). -/
def Event.wait : Event → Nat
  | .memR _ _ w => w
  | .memW _ _ _ w => w
  | .fetch _ _ w => w
  | .portR _ _ _ => 0
  | .portW _ _ _ => 0
  | .videoW _ _ _ => 0
  | .splice _ => 0
  | .cancel _ => 0
  | .ack _ => 0

/-- The event records a bus or port access (R52); `VideoW` and the interrupt events accompany one or none. -/
def Event.isAccess : Event → Bool
  | .memR _ _ _ => true
  | .memW _ _ _ _ => true
  | .fetch _ _ _ => true
  | .portR _ _ _ => true
  | .portW _ _ _ => true
  | .videoW _ _ _ => false
  | .splice _ => false
  | .cancel _ => false
  | .ack _ => false

/-- A state of the REF machine (30_encoding.md R128) with any ROM: not failed, nothing queued, two byte registers, every
window backed. -/
structure State.IsRef (s : State) : Prop where
  cfg : s.cfg = { Ref.cfg with rom := s.cfg.rom }
  failed : s.failed = none
  queue : s.queue = []
  r8 : s.cpu.r8.length = 2
  windows : ∀ w, s.paging.sel.get w ≠ .unmapped

end Sys2Proof.Machine
end

