-- ==== Sys2Proof/Certificates/Slice0/Obligations.lean ====
section
/-! DEFINITION. The statements for the provers, one `Prop` each; every docstring cites the rules of spec/ it formalises. -/

open Sys2Proof Sys2Proof.Machine

/-! ## Encoding -/

/-- Decoding the code of a well-formed instruction gives the instruction back, every operand included (30_encoding.md
R110, R114 to R116, R122, R129). -/
def Obligations.DecodeOfEncode : Prop :=
  ∀ (c : Cfg) (i : Instr), i.wf c = true → decode (encode i) = some i

/-- A code has one meaning: what decodes to `i` is what `i` encodes to (R110, R114 to R117, R129). -/
def Obligations.EncodeOfDecode : Prop :=
  ∀ (k : Code) (i : Instr), decode k = some i → encode i = k

/-- One word of each tag and some opcode bytes, as the spec writes them (R116, R123, R129; 95_test_vectors.md V15, V17, V25,
V66, V69). -/
def Obligations.SpecWordsDecode : Prop :=
  decodeUop 0x00000000 = some .idle ∧ decodeUop 0x01000000 = some .fetch ∧ decodeUop 0x02010000 = some (.fetchx 0x01) ∧
  decodeUop 0x03810000 = some (.dec16 .sp) ∧ decodeUop 0x04800000 = some (.inc16 .pc) ∧
  decodeUop 0x05008200 = some (.rd (.r 0) .w) ∧ decodeUop 0x05F08000 = some (.rd .pcl .pc) ∧
  decodeUop 0x06F18100 = some (.wr .pch .sp) ∧ decodeUop 0x06F28100 = some (.wr .spl .sp) ∧
  decodeUop 0x07000100 = some (.mov (.r 0) (.r 1)) ∧ decodeUop 0x08820000 = some (.setpc .w) ∧
  decodeUop 0x09000000 = some .setvec ∧ decodeUop 0x0A000000 = some .irqchk ∧ decodeUop 0x0B000000 = some .irqend ∧
  decodeUop 0x0C008200 = some (.inp (.r 0) .w) ∧ decodeUop 0x0D008200 = some (.outp (.r 0) .w) ∧
  decodeUop 0x0E000001 = some (.alu (.r 0) (.r 0) 0x01) ∧ decodeUop 0x0EF7F700 = some (.alu .flags .flags 0x00) ∧
  decodeUop 0x0F000000 = some .ei ∧ decodeUop 0x10000000 = some .di ∧ decodeUop 0x11000000 = some .halt ∧
  decodeUop 0x12000000 = some .setbug ∧ decodeRef 0 0x3E = some .refLdAN ∧ decodeRef 0 0xC3 = some .refJpNn ∧
  decodeRef 0 0xCB = some .refPrefixCb ∧ decodeRef 0 0x77 = some (.refFallback 0 0x77) ∧
  decodeRef 1 0x3C = some (.refFallback 1 0x3C)

/-- The interrupt-entry programs are the words of the table of R123, and they decode to the micro-ops it names. -/
def Obligations.EntryProgramWords : Prop :=
  ∀ c : Cfg,
    let entry (last : Instr) : List Instr := [.dec16 .sp, .wr .pch .sp, .irqchk, .dec16 .sp, .wr .pcl .sp, last, .fetch]
    (ProgId.dispatch 0).prog c =
      [0x03810000, 0x06F18100, 0x0A000000, 0x03810000, 0x06F08100, 0x09000000, 0x01000000] ∧
    (ProgId.cancelled 0).prog c =
      [0x03810000, 0x06F18100, 0x0A000000, 0x03810000, 0x06F08100, 0x0B000000, 0x01000000] ∧
    (ProgId.dispatch 1).prog c = 0x00000000 :: (ProgId.dispatch 0).prog c ∧
    (ProgId.cancelled 1).prog c = 0x00000000 :: (ProgId.cancelled 0).prog c ∧
    ((ProgId.dispatch 1).prog c).map decodeUop = (Instr.idle :: entry .setvec).map some ∧
    ((ProgId.cancelled 1).prog c).map decodeUop = (Instr.idle :: entry .irqend).map some ∧
    ∀ (s : State) (i : Nat), (s.enter i).prog = (ProgId.dispatch s.cfg.irqVariant).prog s.cfg

/-- A reserved tag, a non-zero unused field or a reserved selector is no micro-op, and no well-formed configuration holds
such a word (R114, R115, R117, R127). -/
def Obligations.ReservedWordsRefused : Prop :=
  (∀ w : UWord, 0x13 ≤ (uTag w).toNat → decodeUop w = none) ∧
  (∀ w : UWord, uTag w ≠ 0x0E → uC w ≠ 0 → decodeUop w = none) ∧
  (∀ w : UWord, uTag w ∉ [0x05, 0x06, 0x07, 0x0C, 0x0D, 0x0E] → uB w ≠ 0 → decodeUop w = none) ∧
  (∀ w : UWord, uTag w ∈ [0x00, 0x01, 0x09, 0x0A, 0x0B, 0x0F, 0x10, 0x11, 0x12] → uA w ≠ 0 → decodeUop w = none) ∧
  (∀ w : UWord, uTag w ∈ [0x03, 0x04, 0x08] → decodePair (uA w) = none → decodeUop w = none) ∧
  (∀ w : UWord, uTag w ∈ [0x05, 0x06, 0x0C, 0x0D] → decodeSel8 (uA w) = none ∨ decodePair (uB w) = none →
    decodeUop w = none) ∧
  (∀ w : UWord, uTag w ∈ [0x07, 0x0E] → decodeSel8 (uA w) = none ∨ decodeSel8 (uB w) = none → decodeUop w = none) ∧
  (∀ b : Byte, decodeSel8 b = none ↔ 0x80 ≤ b.toNat ∧ ¬(0xF0 ≤ b.toNat ∧ b.toNat ≤ 0xF7)) ∧
  (∀ b : Byte, decodePair b = none ↔ 0x40 ≤ b.toNat ∧ ¬(0x80 ≤ b.toNat ∧ b.toNat ≤ 0x82)) ∧
  ∀ (c : Cfg) (p : List UWord) (w : UWord), p ∈ c.programs → w ∈ p → decodeUop w = none → c.wf = false

/-- Every word of every program of a well-formed configuration is a micro-op whose operands exist; `SETVEC`, `IRQCHK` and
`IRQEND` stand in none, and a `FETCH` or `FETCHX` only as the last word (R117, R118, R120, R127). -/
def Obligations.WellFormedProgramsDecode : Prop :=
  ∀ (c : Cfg) (t b : Byte) (p : List UWord), c.wf = true → c.prog? t b = some p →
    ∀ (k : Nat) (w : UWord), p[k]? = some w → ∃ i, decodeUop w = some i ∧ i.wf c = true ∧
      i ≠ .setvec ∧ i ≠ .irqchk ∧ i ≠ .irqend ∧
      ((i = .fetch ∨ ∃ u, i = .fetchx u ∧ (c.table? u).isSome = true) → k + 1 = p.length)

/-- REF's program tables (R129): the words of each listed byte, `[FETCH]` for every other byte of table 0 and every byte of
table 1. -/
def Obligations.RefProgramTables : Prop :=
  let nn : List UWord := [0x05F58000, 0x04800000, 0x05F68000, 0x04800000]
  let listed : List (Byte × List UWord) :=
    [(0x00, [0x01000000]), (0x05, [0x0E010100, 0x01000000]), (0x08, [0x12000000, 0x01000000]),
      (0x3A, nn ++ [0x05008200, 0x01000000]), (0x32, nn ++ [0x06008200, 0x01000000]),
      (0x3C, [0x0E000001, 0x01000000]), (0x3D, [0x0E000000, 0x01000000]),
      (0x3E, [0x05008000, 0x04800000, 0x01000000]), (0x76, [0x11000000, 0x01000000]),
      (0x78, [0x07000100, 0x01000000]), (0xC3, nn ++ [0x08820000, 0x01000000]),
      (0xC9, [0x05F58100, 0x04810000, 0x05F68100, 0x04810000, 0x08820000, 0x01000000]), (0xCB, [0x02010000]),
      (0xD3, nn ++ [0x0D008200, 0x01000000]), (0xDB, nn ++ [0x0C008200, 0x01000000]),
      (0xF3, [0x10000000, 0x01000000]), (0xFB, [0x0F000000, 0x01000000])]
  ∀ b : Byte, Ref.cfg.prog? 0 b = some ((listed.lookup b).getD [0x01000000]) ∧ Ref.cfg.prog? 1 b = some [0x01000000]

/-! ## Construction and reset -/

/-- Construction refuses with E_CONFIG, code 1, an ill-formed configuration, and a bank array that has not WINDOW_SIZE bytes,
which fails `wf_paging`; it names a check that fails; it builds a well-formed configuration with good arrays (00_scope.md R9,
30_encoding.md R127, 44_host.md R256, 60_exceptions.md R294). The model's choice: that of several checks that fail `Cfg.check` is the
first in R127's order (log entry 27), the conditions a check asks beyond R127's words (log entry 10), and that an array's bank
number is below the count of banks (log entry 24). -/
def Obligations.ConstructionRefusesIllFormed : Prop :=
  ∀ (c : Cfg) (m : Media) (x : Input),
    let sized := ∀ e ∈ m.rom ++ m.ram, e.2.length = 16384
    let named := (∀ e ∈ m.rom, e.1 < c.romBanks) ∧ ∀ e ∈ m.ram, e.1 < c.ramBanks
    (c.wf = false ∨ ¬sized → ∃ k, construct c m x = .error (.config k) ∧ (Error.config k).code = 1) ∧
    (c.wf = false → sized → named → ∃ k, c.check = some k ∧ construct c m x = .error (.config k)) ∧
    (c.wf = true → ¬sized → construct c m x = .error (.config .wfPaging)) ∧
    (c.wf = true → sized → named → ∃ s, construct c m x = .ok s)

/-- The state after construction, field by field (70_reset_and_hazards.md R311, right column; 44_host.md R255, R256): a
supplied bank holds its array, every other byte what the configuration gives. -/
def Obligations.ConstructedState : Prop :=
  ∀ (c : Cfg) (m : Media) (x : Input) (s : State), construct c m x = .ok s →
    s.cpu = { pc := 0x0000, sp := c.resetSp, flags := c.resetFlags, r8 := c.resetR8, lat := c.resetLat, w := c.resetW,
              ir := 0x00, ime := false, halted := false, bug := false } ∧
    s.seq = { progId := .empty, cursor := 0 } ∧ s.ic = { st := .idle, ifr := 0x00, ier := 0x00, src := 0 } ∧
    s.paging.preg = c.paging.initRegs ∧ s.paging.sel.toList = c.paging.initSel ∧
    s.paging.cont.toList = c.paging.initCont ∧ s.paging.vid.toList = c.paging.initVid ∧ s.remap = s ∧
    (∀ b, c.board = some b → s.board = { bank := b.initBank, prot := b.initProt, key := b.initKey }) ∧
    s.units.periph = c.periph.map Periph.init ∧ s.units.observer = c.observers.map (fun o => o.init) ∧
    s.timing.cycles = 0 ∧ s.timing.framePos = 0 ∧ s.timing.frame = 0 ∧
    (∀ f, Memory.read BusLog.unlisted s.timing.buslog f = 0xFF) ∧
    s.input = { cur := x, next := x } ∧ s.failed = none ∧ s.queue = [] ∧ s.trace = [] ∧ s.cfg = { c with rom := s.cfg.rom } ∧
    (∀ e ∈ m.rom, (m.rom.map Prod.fst).Nodup → ∀ o, o < 16384 → e.2[o]? = some (s.readRom e.1 o)) ∧
    (∀ e ∈ m.ram, (m.ram.map Prod.fst).Nodup → ∀ o, o < 16384 → e.2[o]? = some (s.readRam e.1 o)) ∧
    (∀ n o, o < 16384 → n ∉ m.rom.map Prod.fst → s.readRom n o = Memory.read Memory.unlisted c.rom (bankKey n o)) ∧
    (∀ n o, o < 16384 → n ∉ m.ram.map Prod.fst → s.readRam n o = Memory.read Memory.unlisted c.ramInit (bankKey n o))

/-- `Reset()`: the left column of R311 (70_reset_and_hazards.md R311, 44_host.md R251). That a `PRESET` hook sees the machine with
all else already reset is the model's choice (log entry 26). -/
def Obligations.CpuResetFields : Prop :=
  ∀ s : State,
    let t := s.cpuReset
    let u := s.cfg.pagingUpdate s.cfg.paging.initRegs
    t.cpu = { pc := 0x0000, sp := s.cfg.resetSp, flags := s.cfg.resetFlags, r8 := s.cfg.resetR8, lat := s.cfg.resetLat,
              w := s.cfg.resetW, ir := 0x00, ime := false, halted := false, bug := false } ∧
    t.seq = { progId := .empty, cursor := 0 } ∧ t.ic = { st := .idle, ifr := 0x00, ier := 0x00, src := 0 } ∧
    t.paging = { preg := s.cfg.paging.initRegs, sel := u.map (·.1), cont := u.map (·.2.1), vid := u.map (·.2.2),
                 ram := s.paging.ram } ∧
    t.board = s.board ∧ t.timing = s.timing ∧ t.input = s.input ∧ t.failed = s.failed ∧ t.queue = s.queue ∧
    t.trace = s.trace ∧ t.cfg = s.cfg ∧
    (∀ k d, s.cfg.periph[k]? = some (.device d) → k < s.units.periph.length →
      t.pstate k = t.devActs 0 0 d.presetActs (s.pstate k)) ∧
    (∀ k, s.cfg.periph[k]? = some .ic ∨ s.cfg.periph[k]? = some .paging ∨ s.cfg.periph[k]? = none →
      t.pstate k = s.pstate k) ∧
    ∀ k o, s.cfg.observers[k]? = some o → k < s.units.observer.length →
      t.ostate k = t.devActs 0 0 o.presetActs (s.ostate k)

/-- After either reset the first tick performs the implicit `FETCH` at PC = 0x0000, with interrupts masked
(70_reset_and_hazards.md R312). -/
def Obligations.FirstTickFetches : Prop :=
  ∀ s t : State, (t = s.cpuReset ∨ ∃ c m x, construct c m x = .ok t) → t.failed = none →
    t.seq.cursor = 0 ∧ t.prog = [] ∧ t.cpu.pc = 0x0000 ∧ t.cpu.ime = false ∧ t.ic.ier = 0x00 ∧
      t.retiring = some .fetch ∧ step t = t.commit (exec .fetch t)

/-! ## The tick -/

/-- A tick retires the decoded next word on the state with the cursor advanced, then ends the tick; a peripheral's failure rolls
the tick back (40_microops.md R141, R142; 60_exceptions.md R295). That the roll-back takes in the trace, the queue and the
configuration, which R295 does not name, is the model's choice (log entry 14). -/
def Obligations.StepRunsNextWord : Prop :=
  ∀ (s : State) (w : UWord) (i : Instr), s.failed = none → s.cpu.halted = false → s.prog[s.seq.cursor]? = some w →
    decodeUop w = some i →
    let s1 := { s with seq := { s.seq with cursor := s.seq.cursor + 1 } }
    (∀ t, exec i s1 = .next t → t.failed = none → ∀ u, t.endTick = .ok u → step s = .next u) ∧
    (∀ t, exec i s1 = .next t → t.failed = none → ∀ e, t.endTick = .error e → step s = .next { s with failed := some e }) ∧
    (∀ t e, exec i s1 = .next t → t.failed = some e → step s = .next { s with failed := some e }) ∧
    (∀ f, exec i s1 = .fault f → step s = .fault f) ∧ (∀ r, exec i s1 = .refused r → step s = .refused r)

/-- The implicit fetch: with the program exhausted the tick retires `FETCH`, exactly as with an explicit `FETCH` word, whose
effect does not depend on the program or the cursor (40_microops.md R148). -/
def Obligations.ImplicitFetch : Prop :=
  ∀ s : State, s.failed = none → s.cpu.halted = false →
    (s.seq.cursor = s.prog.length → step s = s.commit (exec .fetch s)) ∧
    (s.prog[s.seq.cursor]? = some 0x01000000 → step s = s.commit (exec .fetch s)) ∧
    ∀ q : Seq, exec .fetch { s with seq := q } = exec .fetch s

/-- Failure (60_exceptions.md R293 to R295): the read or write function of a peripheral that claims the port and reports failure
raises E_STEP with that peripheral's index; a tick that fails leaves the state of its start with FAILED and an E_STEP error; a
failed engine's `Step()` reports the error and changes nothing; no host operation but Restore clears it. That the state of
the start includes the trace, the queue and the configuration, which R295 does not name, is the model's choice (log entry
14). -/
def Obligations.FailureRule : Prop :=
  (∀ (s t : State) (e : Error), s.failed = none → step s = .next t → t.failed = some e →
    t = { s with failed := some e } ∧ ∃ k, e = .step k ∧ e.code = 4) ∧
  (∀ (s : State) (e : Error), s.failed = some e → step s = .fault (.failed e)) ∧
  (∀ (s t : State) (op : HostOp), (∀ src, op ≠ .restore src) → s.host op = .ok t → t.failed = s.failed) ∧
  (∀ (c : Cfg) (m : Media) (x : Input) (t : State), construct c m x = .ok t → t.failed = none) ∧
  ∀ (s : State) (r : Sel8) (p : PairSel) (k : Nat) (d : Device), s.hasSel r = true → s.hasPair p = true →
    s.timing.framePos < s.cfg.frameCycles → s.claimant (s.readPair p) = .periph k → s.cfg.periph[k]? = some (.device d) →
    let q := s.readPair p
    let v := s.readSel r
    (s.devEval (s.pstate k) q.toNat 0 d.readFail ≠ 0 → exec (.inp r p) s = .next { s with failed := some (.step k) }) ∧
    ((s.logBus v).devEval (s.pstate k) q.toNat v.toNat d.writeFail ≠ 0 →
      exec (.outp r p) s = .next { s with failed := some (.step k) })

/-- Time of a tick: the trace grows, and CYCLES, FRAME_POS and FRAME advance by one cycle and the waits of the tick's
accesses, and by nothing else (40_microops.md R142, 10_state.md R47, 70_reset_and_hazards.md R323). -/
def Obligations.TickTime : Prop :=
  ∀ s t : State, s.Inv → step s = .next t → t.failed = none →
    ∃ evs : List Event, t.trace = s.trace ++ evs ∧
      let n := 1 + (evs.map Event.wait).sum
      t.timing.cycles = s.timing.cycles + BitVec.ofNat 64 n ∧
      t.timing.framePos = (s.timing.framePos + n) % s.cfg.frameCycles ∧
      t.timing.frame = s.timing.frame + BitVec.ofNat 64 ((s.timing.framePos + n) / s.cfg.frameCycles)

/-- A tick makes at most one bus or port access, and a halt tick none (40_microops.md R143, 60_exceptions.md R287). -/
def Obligations.OneAccessPerTick : Prop :=
  ∀ s t : State, step s = .next t →
    ∃ evs : List Event, t.trace = s.trace ++ evs ∧ (evs.filter Event.isAccess).length ≤ 1 ∧
      (s.cpu.halted = true → evs.filter Event.isAccess = [])

/-- `advance(n)` is the loop of 10_state.md R47 (written with quotient and remainder in the model, log entry 20): short of the
frame's end it adds to CYCLES and FRAME_POS; otherwise it reaches the frame's end, counts a frame, runs the frame boundary and
goes on with what is left. `frame_boundary()` (44_host.md R258): INPUT takes INPUT_NEXT, the queued reconfigurations are
applied in order. What a reconfiguration does to the units' states, which R258 does not say, is the model's choice (log entry
12); nothing else changes. -/
def Obligations.AdvanceLoopAndFrameBoundary : Prop :=
  (∀ (s : State) (n : Nat), s.timing.framePos < s.cfg.frameCycles →
    (s.timing.framePos + n < s.cfg.frameCycles →
      s.advance n =
        { s with timing :=
            { s.timing with cycles := s.timing.cycles + BitVec.ofNat 64 n, framePos := s.timing.framePos + n } }) ∧
    (s.cfg.frameCycles ≤ s.timing.framePos + n →
      let k := s.cfg.frameCycles - s.timing.framePos
      let t : State :=
        { s with timing :=
            { s.timing with
              cycles := s.timing.cycles + BitVec.ofNat 64 k, framePos := 0, frame := s.timing.frame + 1 } }
      s.advance n = t.frameBoundary.advance (n - k))) ∧
  ∀ s : State,
    s.frameBoundary =
      { s with
        input := { cur := s.input.next, next := s.input.next }
        queue := []
        cfg := s.queue.foldl Change.applyCfg s.cfg
        units := s.queue.foldl Change.applyUnits s.units }

/-! ## Fetch and interrupts -/

/-- `FETCH` with no interrupt pending, and `FETCHX t` whatever the interrupt controller's state: the byte at PC, timed, goes to
IR and selects the program of table 0 or `t`; PC advances modulo 2^16 unless BUG is set, which is consumed; nothing else
changes (40_microops.md R146, R147; 41_bus.md R197). -/
def Obligations.FetchResults : Prop :=
  ∀ (s : State) (tb : Byte) (i : Instr), (s.cfg.table? tb).isSome = true →
    (i = .fetch ∧ tb = 0 ∧ s.ic.st ≠ .pending ∨ i = .fetchx tb) →
    let a := s.cpu.pc
    let u := s.advance (s.memWait a)
    let b := u.readBus a
    ∃ t, exec i s = .next t ∧
      t = { u with
            cpu := { s.cpu with ir := b, bug := false, pc := if s.cpu.bug then a else a + 1 }
            seq := { progId := .table tb b, cursor := 0 }
            timing := { u.timing with buslog := Memory.write BusLog.unlisted s.timing.buslog u.timing.framePos b }
            trace := s.trace ++ [.fetch a b (s.memWait a)] } ∧
      t.ic = s.ic ∧ t.failed = s.failed ∧ t.cfg.fixed = s.cfg.fixed ∧ s.MemoryKept t ∧
      (s.steady a = true → t.cpu.ir = s.readBus a)

/-- `splice()`: at a `FETCH` with IC_STATE Pending the least enabled pending source enters; IME is cleared, the entry program
starts, no bus access is made, PC, BUG, IF and IE stay (60_exceptions.md R275, R276). -/
def Obligations.SpliceEntersLowestSource : Prop :=
  ∀ (s : State) (i : Nat), s.ic.st = .pending →
    (s.winner = some i ↔ i < s.cfg.nIrq ∧ s.ic.ifr.getLsbD i = true ∧ s.ic.ier.getLsbD i = true ∧
      ∀ j, j < i → ¬(s.ic.ifr.getLsbD j = true ∧ s.ic.ier.getLsbD j = true)) ∧
    (s.winner = some i →
      exec .fetch s =
        .next { s with
          cpu := { s.cpu with ime := false }
          seq := { progId := .dispatch s.cfg.irqVariant, cursor := 0 }
          ic := { s.ic with st := .dispatching, src := i }
          trace := s.trace ++ [.splice i] })

/-- `ic_update()` (60_exceptions.md R273): Idle to Pending on a request, Pending to Idle without one, Dispatching stays; a
request is IME with some implemented source pending and enabled. -/
def Obligations.IcUpdateRule : Prop :=
  ∀ s : State,
    let req := s.cpu.ime = true ∧ ∃ j, j < s.cfg.nIrq ∧ s.ic.ifr.getLsbD j = true ∧ s.ic.ier.getLsbD j = true
    (s.ic.st = .idle → req → s.icUpdate = { s with ic := { s.ic with st := .pending } }) ∧
    (s.ic.st = .idle → ¬req → s.icUpdate = s) ∧
    (s.ic.st = .pending → req → s.icUpdate = s) ∧
    (s.ic.st = .pending → ¬req → s.icUpdate = { s with ic := { s.ic with st := .idle } }) ∧
    (s.ic.st = .dispatching → s.icUpdate = s)

/-- `IRQCHK` (60_exceptions.md R279): with the dispatched source still pending and enabled nothing changes; otherwise the rest
of the program becomes the cancelled one, CURSOR unchanged. `SETVEC` (R280): PC becomes the source's vector, from the
configuration; the source's IF bit is cleared and no other; the controller is Idle; nothing else changes. -/
def Obligations.CheckpointAndVectorResults : Prop :=
  (∀ s : State,
    (s.ic.ifr.getLsbD s.ic.src = true ∧ s.ic.ier.getLsbD s.ic.src = true → exec .irqchk s = .next s) ∧
    (¬(s.ic.ifr.getLsbD s.ic.src = true ∧ s.ic.ier.getLsbD s.ic.src = true) →
      exec .irqchk s =
        .next { s with
          seq := { progId := .cancelled s.cfg.irqVariant, cursor := s.seq.cursor }
          trace := s.trace ++ [.cancel s.ic.src] })) ∧
  ∀ (s : State) (v : Addr), s.cfg.vector[s.ic.src]? = some v →
    ∃ t, exec .setvec s = .next t ∧
      t = { s with
            cpu := { s.cpu with pc := v }
            ic := { s.ic with st := .idle, ifr := t.ic.ifr }
            trace := s.trace ++ [.ack s.ic.src] } ∧
      ∀ j, t.ic.ifr.getLsbD j = (s.ic.ifr.getLsbD j && decide (j ≠ s.ic.src))

/-- `IDLE`, `EI`, `DI`, `HALT`, `SETBUG`, `IRQEND` and `SETPC p`: the one field each writes, everything else unchanged
(40_microops.md R150, R157, R160 to R162; 60_exceptions.md R281). -/
def Obligations.ControlResults : Prop :=
  ∀ s : State,
    exec .idle s = .next s ∧ exec .ei s = .next { s with cpu := { s.cpu with ime := true } } ∧
    exec .di s = .next { s with cpu := { s.cpu with ime := false } } ∧
    exec .halt s = .next { s with cpu := { s.cpu with halted := true } } ∧
    exec .setbug s = .next { s with cpu := { s.cpu with bug := true } } ∧
    exec .irqend s = .next { s with ic := { s.ic with st := .idle } } ∧
    ∀ p, s.hasPair p = true → exec (.setpc p) s = .next { s with cpu := { s.cpu with pc := s.readPair p } }

/-- `halt_tick()` (60_exceptions.md R288): a pending interrupt enters at once; an enabled pending source with IME = 0 ends the
halt; otherwise the engine stays halted. -/
def Obligations.HaltTickRule : Prop :=
  ∀ s : State, s.failed = none → s.cpu.halted = true →
    step s = s.commit s.haltTick ∧
    (s.ic.st = .pending → ∀ i, s.winner = some i →
      s.haltTick =
        .next { s with
          cpu := { s.cpu with halted := false, ime := false }
          seq := { progId := .dispatch s.cfg.irqVariant, cursor := 0 }
          ic := { s.ic with st := .dispatching, src := i }
          trace := s.trace ++ [.splice i] }) ∧
    (s.ic.st ≠ .pending → (∃ j, j < s.cfg.nIrq ∧ s.ic.ifr.getLsbD j = true ∧ s.ic.ier.getLsbD j = true) →
      s.haltTick = .next { s with cpu := { s.cpu with halted := false } }) ∧
    (s.ic.st ≠ .pending → (∀ j, j < s.cfg.nIrq → ¬(s.ic.ifr.getLsbD j = true ∧ s.ic.ier.getLsbD j = true)) →
      s.haltTick = .next s)

/-- IC_STATE moves only as 60_exceptions.md R274 says, for any tick: Idle to Pending at the tick's end on a request, and never
from Idle to Dispatching; Pending to Idle at the tick's end without one; Pending to Dispatching by a `FETCH` or from the halt
state; out of Dispatching only by `SETVEC` or `IRQEND`. -/
def Obligations.IcStateTransitions : Prop :=
  ∀ s t : State, step s = .next t →
    (s.ic.st = .idle → t.ic.st = .idle ∨ t.ic.st = .pending ∧ t.requesting = true) ∧
    (s.ic.st = .pending → t.ic.st = .idle → t.requesting = false) ∧
    (s.ic.st = .pending → t.ic.st = .dispatching → s.cpu.halted = true ∨ s.retiring = some .fetch) ∧
    (s.ic.st = .dispatching → t.ic.st ≠ .dispatching → s.retiring = some .setvec ∨ s.retiring = some .irqend)

/-- The control bits change only as 10_state.md R28 to R30 say, for any tick: IME is set by `EI` and cleared by `DI` or an
interrupt entry; HALTED is set by `HALT` and cleared only where an enabled source is pending or an interrupt enters
(60_exceptions.md R288); BUG is set by `SETBUG` and cleared by a fetch. -/
def Obligations.ControlBitsChangeOnlyBy : Prop :=
  ∀ s t : State, step s = .next t →
    (s.cpu.ime = false → t.cpu.ime = true → s.retiring = some .ei) ∧
    (s.cpu.ime = true → t.cpu.ime = false → s.retiring = some .di ∨ ∃ i, t.trace = s.trace ++ [.splice i]) ∧
    (s.cpu.halted = false → t.cpu.halted = true → s.retiring = some .halt) ∧
    (s.cpu.halted = true → t.cpu.halted = false → s.requests ≠ 0 ∨ s.ic.st = .pending) ∧
    (s.cpu.bug = false → t.cpu.bug = true → s.retiring = some .setbug) ∧
    (s.cpu.bug = true → t.cpu.bug = false → s.retiring = some .fetch ∨ ∃ u, s.retiring = some (.fetchx u))

/-! ## Data micro-ops -/

/-- `DEC16 p` and `INC16 p` (40_microops.md R151, R152): the pair minus or plus 1 modulo 2^16; every register outside the pair
and every other part of the state is unchanged. A configured pair has distinct halves (30_encoding.md R115). -/
def Obligations.PairStepResults : Prop :=
  ∀ (s : State) (p : PairSel) (hi lo : Sel8), s.pairSels p = some (hi, lo) → hi ≠ lo → s.hasSel hi = true →
    s.hasSel lo = true →
    (∃ t, exec (.dec16 p) s = .next t ∧ t.readPair p = s.readPair p - 1 ∧ t = { s with cpu := t.cpu } ∧
      s.cpu.SameBut [hi, lo] t.cpu ∧ ∀ a, t.readBus a = s.readBus a) ∧
    (∃ t, exec (.inc16 p) s = .next t ∧ t.readPair p = s.readPair p + 1 ∧ t = { s with cpu := t.cpu } ∧
      s.cpu.SameBut [hi, lo] t.cpu ∧ ∀ a, t.readBus a = s.readBus a)

/-- `MOV d, s` (40_microops.md R155): the destination takes the source; nothing else changes. -/
def Obligations.MovResult : Prop :=
  ∀ (s : State) (d x : Sel8), s.hasSel d = true → s.hasSel x = true →
    ∃ t, exec (.mov d x) s = .next t ∧ t.readSel d = s.readSel x ∧ t = { s with cpu := t.cpu } ∧
      s.cpu.SameBut [d] t.cpu ∧ ∀ a, t.readBus a = s.readBus a

/-- `ALU d, s, c` (40_microops.md R156): the destination takes the function's result and FLAGS, written last, its flags; nothing
else changes. -/
def Obligations.AluResult : Prop :=
  ∀ (s : State) (d x : Sel8) (c : Byte), s.hasSel d = true → s.hasSel x = true →
    let r := s.cfg.aluFn c (s.readSel d) (s.readSel x) s.cpu.flags
    ∃ t, exec (.alu d x c) s = .next t ∧ t.cpu.flags = r.2 ∧ t.readSel d = (if d = .flags then r.2 else r.1) ∧
      t = { s with cpu := t.cpu } ∧ s.cpu.SameBut [d, .flags] t.cpu ∧ ∀ a, t.readBus a = s.readBus a

/-- A byte selector names the byte 30_encoding.md R114 says, and writing it gives that byte and leaves the others. A pair selector
names the two byte selectors of R115, those of `PAIR_MAP` or the halves of PC, SP and W; the pair reads `x[hi]:x[lo]`, and writing
it gives `x[hi]` the high byte and `x[lo]` the low one (00_scope.md R11). -/
def Obligations.SelectorViews : Prop :=
  (∀ s : State,
    s.readSel .pcl = s.cpu.pc.extractLsb' 0 8 ∧ s.readSel .pch = s.cpu.pc.extractLsb' 8 8 ∧
    s.readSel .spl = s.cpu.sp.extractLsb' 0 8 ∧ s.readSel .sph = s.cpu.sp.extractLsb' 8 8 ∧
    s.readSel .wl = s.cpu.w.extractLsb' 0 8 ∧ s.readSel .wh = s.cpu.w.extractLsb' 8 8 ∧
    s.readSel .lat = s.cpu.lat ∧ s.readSel .flags = s.cpu.flags ∧
    s.readPair .pc = s.cpu.pc ∧ s.readPair .sp = s.cpu.sp ∧ s.readPair .w = s.cpu.w) ∧
  (∀ (s : State) (d : Sel8) (v : Byte), s.hasSel d = true →
    (s.writeSel d v).readSel d = v ∧ s.cpu.SameBut [d] (s.writeSel d v).cpu) ∧
  (∀ (s : State) (i : BitVec 7), s.hasSel (.r i) = true → s.cpu.r8[i.toNat]? = some (s.readSel (.r i))) ∧
  (∀ s : State,
    s.pairSels .pc = some (.pch, .pcl) ∧ s.pairSels .sp = some (.sph, .spl) ∧ s.pairSels .w = some (.wh, .wl) ∧
    ∀ j : BitVec 6, s.pairSels (.map j) = (s.cfg.pairMap.find? fun e => e.j == j).map fun e => (e.hi, e.lo)) ∧
  ∀ (s : State) (p : PairSel) (hi lo : Sel8), s.pairSels p = some (hi, lo) →
    s.readPair p = s.readSel hi ++ s.readSel lo ∧
    ∀ v : Addr, s.hasSel hi = true → s.hasSel lo = true → hi ≠ lo →
      (s.writePair p v).readSel hi = v.extractLsb' 8 8 ∧ (s.writePair p v).readSel lo = v.extractLsb' 0 8 ∧
      (s.writePair p v).readPair p = v ∧ s.writePair p v = { s with cpu := (s.writePair p v).cpu } ∧
      s.cpu.SameBut [hi, lo] (s.writePair p v).cpu

/-- `RD d, p` (40_microops.md R153, 41_bus.md R197): the timed byte at the pair's address goes to the register; the wait, the bus
log and the event; nothing else changes. -/
def Obligations.ReadResult : Prop :=
  ∀ (s : State) (d : Sel8) (p : PairSel), s.hasSel d = true → s.hasPair p = true →
    let a := s.readPair p
    let u := s.advance (s.memWait a)
    let v := u.readBus a
    ∃ t, exec (.rd d p) s = .next t ∧ t.readSel d = v ∧ s.cpu.SameBut [d] t.cpu ∧
      t = { u with
            cpu := t.cpu
            timing := { u.timing with buslog := Memory.write BusLog.unlisted s.timing.buslog u.timing.framePos v }
            trace := s.trace ++ [.memR a v (s.memWait a)] } ∧
      t.seq = s.seq ∧ t.ic = s.ic ∧ t.failed = s.failed ∧ t.cfg.fixed = s.cfg.fixed ∧ s.MemoryKept t ∧
      (s.steady a = true → v = s.readBus a)

/-- `WR s, p` (40_microops.md R154, 41_bus.md R193, R194, R198) outside a board window: RAM takes the byte, and VideoW is emitted
where the window is a video one; a ROM or unmapped window discards it; the wait, the bus log and the event happen always;
no other byte, no register and no mapping changes. -/
def Obligations.WriteResult : Prop :=
  ∀ (s : State) (x : Sel8) (p : PairSel), s.hasSel x = true → s.hasPair p = true →
    let a := s.readPair p
    let v := s.readSel x
    let w := s.memWait a
    let u := s.advance w
    (∀ n o, s.resolve a = .ramByte n o →
      ∃ t, exec (.wr x p) s = .next t ∧
        t = { u with
              paging := { s.paging with ram := t.paging.ram }
              timing := { u.timing with buslog := Memory.write BusLog.unlisted s.timing.buslog u.timing.framePos v }
              trace := s.trace ++ ((if s.paging.vid.get (win a) then [.videoW a v u.timing.framePos] else []) ++
                [.memW a v true w]) } ∧
        t.cpu = s.cpu ∧ t.seq = s.seq ∧ t.ic = s.ic ∧ t.board = s.board ∧ t.failed = s.failed ∧ t.cfg.fixed = s.cfg.fixed ∧
        t.readBus a = v ∧ t.readRam n o = v ∧
        (∀ n' o', o' < windowSize → (n', o') ≠ (n, o) → t.readRam n' o' = s.readRam n' o') ∧
        ∀ b, s.backed b = true → s.resolve b ≠ .ramByte n o → t.readBus b = s.readBus b) ∧
    ((s.resolve a = .none ∨ ∃ n o, s.resolve a = .romByte n o) →
      ∃ t, exec (.wr x p) s = .next t ∧
        t = { u with
              timing := { u.timing with buslog := Memory.write BusLog.unlisted s.timing.buslog u.timing.framePos v }
              trace := s.trace ++ [.memW a v false w] } ∧
        t.cpu = s.cpu ∧ t.seq = s.seq ∧ t.ic = s.ic ∧ t.failed = s.failed ∧ t.cfg.fixed = s.cfg.fixed ∧ s.MemoryKept t)

/-- `WR s, p` into the board's window (40_microops.md R154, 41_bus.md R193, R198, 43_board.md R232, R234, R235): the write completes
with what the board's actions do after the wait; the byte goes to the bus log at the offset after the wait, and the event is
recorded; SEL, CONT, VID and PREG stay; a RAM byte behind no address of the window stays; the CPU, the sequencer and the interrupt
controller are unchanged, and the units, the input, the queue, the counters and the configuration are those the wait leaves. The
model's choice (log entry 17), which the spec leaves open: an action on RAM is dropped where SEL puts no RAM behind the address
(`boardActs`); `stored` is 1 when an action was taken and not dropped; the write records no VideoW, also behind a window with VID. -/
def Obligations.BoardWriteConfined : Prop :=
  ∀ (s : State) (x : Sel8) (p : PairSel) (b : BoardCfg), s.hasSel x = true → s.hasPair p = true →
    s.resolve (s.readPair p) = .board b →
    let a := s.readPair p
    let v := s.readSel x
    let w := s.advance (s.memWait a)
    let u := w.logBus v
    ∃ t stored, exec (.wr x p) s = .next t ∧ t.cpu = s.cpu ∧ t.seq = s.seq ∧ t.ic = s.ic ∧ t.failed = s.failed ∧
      stored = u.boardStores b a.toNat v.toNat b.writes ∧
      t.board = (u.boardActs b a.toNat v.toNat b.writes).board ∧
      t.paging = (u.boardActs b a.toNat v.toNat b.writes).paging ∧
      (stored = false → t.board = s.board ∧ t.paging = s.paging) ∧ t.cfg.fixed = s.cfg.fixed ∧ t.paging = { s.paging with ram := t.paging.ram } ∧
      t.trace = s.trace ++ [.memW a v stored (s.memWait a)] ∧
      t = { w with
            board := t.board
            paging := t.paging
            timing := { w.timing with buslog := Memory.write BusLog.unlisted s.timing.buslog w.timing.framePos v }
            trace := t.trace } ∧
      (∀ n o, o < windowSize → (∀ c, b.lo ≤ c → c ≤ b.hi → s.base (BitVec.ofNat 16 c) ≠ .ramByte n o) →
        t.readRam n o = s.readRam n o) ∧
      ∀ n o, t.readRom n o = s.readRom n o

/-! ## The bus -/

/-- Windows and translation (20_memory.md R77, R78): the board first, then SEL. -/
def Obligations.ResolveRule : Prop :=
  ∀ (s : State) (a : Addr),
    win a = (a.extractLsb' 14 2).toNat ∧ off a = (a.extractLsb' 0 14).toNat ∧
    (∀ b, s.cfg.board = some b → b.lo ≤ a.toNat → a.toNat ≤ b.hi → s.resolve a = .board b) ∧
    ((∀ b, s.cfg.board = some b → a.toNat < b.lo ∨ b.hi < a.toNat) →
      s.resolve a = match s.paging.sel.get (win a) with
        | .rom n => .romByte n (off a)
        | .ram n => .ramByte n (off a)
        | .unmapped => .none)

/-- `ReadBus`, the board included, and the floating bus (41_bus.md R190; 43_board.md R236; 42_ports.md R216), and the memory wait (20_memory.md R86, R87). -/
def Obligations.BusReadAndWaitRule : Prop :=
  ∀ (s : State) (a : Addr),
    (∀ n o, s.resolve a = .romByte n o → s.readBus a = s.readRom n o) ∧
    (∀ n o, s.resolve a = .ramByte n o → s.readBus a = s.readRam n o) ∧
    (∀ b, s.resolve a = .board b → s.readBus a = BitVec.ofNat 8 (s.boardEval b a.toNat 0 b.read)) ∧
    (s.resolve a = .none → s.readBus a = s.floating) ∧
    (∀ w f, s.cfg.ct[s.timing.framePos]? = some (.valid w f) →
      s.floating = Memory.read BusLog.unlisted s.timing.buslog f ∧
      s.memWait a = if s.paging.cont.get (win a) then w else 0) ∧
    (s.cfg.ct[s.timing.framePos]? = some .sentinel → s.floating = 0xFF ∧ s.memWait a = 0) ∧
    ∀ b, s.paging.cont.get (win b) = false → s.memWait b ≤ s.memWait a

/-- A timed read or write leaves its byte in the bus log at the FRAME_POS after the wait, and no other offset changes
(20_memory.md R88, R92; 41_bus.md R197, R198). -/
def Obligations.BusLogRule : Prop :=
  ∀ (s : State) (a : Addr) (v : Byte) (fetch : Bool),
    let at' := (s.advance (s.memWait a)).timing.framePos
    Memory.read BusLog.unlisted (s.readMemory fetch a).1.timing.buslog at' = (s.readMemory fetch a).2 ∧
    Memory.read BusLog.unlisted (s.writeMemory a v).timing.buslog at' = v ∧
    (s.readMemory fetch a).1.timing.framePos = at' ∧ (s.writeMemory a v).timing.framePos = at' ∧
    ∀ f, f ≠ at' →
      Memory.read BusLog.unlisted (s.readMemory fetch a).1.timing.buslog f = Memory.read BusLog.unlisted s.timing.buslog f ∧
      Memory.read BusLog.unlisted (s.writeMemory a v).timing.buslog f = Memory.read BusLog.unlisted s.timing.buslog f

/-- ROM and the rest of the fixed configuration never change in a tick (00_scope.md R8, 41_bus.md R195, 10_state.md R50); the
configuration of the units changes only by the whole of the queued reconfigurations (44_host.md R257, 42_ports.md R221); and bank
selection changes only by a write to a paging port (20_memory.md R81): a tick that does not retire an `OUT` claimed by the
paging unit leaves PREG, SEL, CONT and VID. -/
def Obligations.MappingChangesOnlyByPort : Prop :=
  ∀ s t : State, step s = .next t →
    t.cfg.fixed = s.cfg.fixed ∧ (∀ n o, t.readRom n o = s.readRom n o) ∧
    (s.Inv →
      t.paging = { s.paging with ram := t.paging.ram } ∨
        ∃ q v k, t.trace = s.trace ++ [.portW q v (.periph k)] ∧ s.cfg.periph[k]? = some .paging ∧
          t.paging.ram = s.paging.ram) ∧
    (s.Inv → t.cfg = s.cfg ∧ t.queue = s.queue ∨ t.cfg = s.queuedCfg ∧ t.queue = [])

/-! ## Ports -/

/-- The claimant of a port (42_ports.md R210, R212): the board if its port window holds the port, else the first peripheral whose
predicate does, else none. -/
def Obligations.ClaimantRule : Prop :=
  ∀ (s : State) (q : Addr),
    (s.claimant q = .board ↔ ∃ b, s.cfg.board = some b ∧ b.portWindow.holds q = true) ∧
    (∀ k, s.claimant q = .periph k ↔ (∀ b, s.cfg.board = some b → b.portWindow.holds q = false) ∧
      (∃ p, s.cfg.periph[k]? = some p ∧ Periph.claims s.cfg q p = true) ∧
      ∀ j p, j < k → s.cfg.periph[j]? = some p → Periph.claims s.cfg q p = false) ∧
    (s.claimant q = .none ↔ (∀ b, s.cfg.board = some b → b.portWindow.holds q = false) ∧
      ∀ p ∈ s.cfg.periph, Periph.claims s.cfg q p = false)

/-- `IN d, p` (40_microops.md R158, 42_ports.md R214 to R216): the register takes the claimant's value, or the floating-bus value
where nothing claims the port or the claimant has none; the bus log and the event; nothing else but the claimant's own
state changes. The hypothesis on a device is that it reports no failure (60_exceptions.md R293). Which of several entries of
`PAGING.ports` names the register (`Cfg.pagingReg`) is the model's choice (log entry 25). -/
def Obligations.PortReadResult : Prop :=
  ∀ (s : State) (d : Sel8) (p : PairSel), s.hasSel d = true → s.hasPair p = true →
    s.timing.framePos < s.cfg.frameCycles →
    let q := s.readPair p
    let c := s.claimant q
    (∀ k dev, c = .periph k → s.cfg.periph[k]? = some (.device dev) → s.devEval (s.pstate k) q.toNat 0 dev.readFail = 0) →
    ∃ t v, exec (.inp d p) s = .next t ∧ t.readSel d = v ∧ s.cpu.SameBut [d] t.cpu ∧
      t = { s with
            cpu := t.cpu
            units := { s.units with periph := t.units.periph }
            timing := { s.timing with buslog := Memory.write BusLog.unlisted s.timing.buslog s.timing.framePos v }
            trace := s.trace ++ [.portR q v c] } ∧
      s.MemoryKept t ∧
      (c = .none → v = s.floating ∧ t.units = s.units) ∧
      (c = .board → t.units = s.units ∧ ∀ b, s.cfg.board = some b →
        v = if s.boardEval b q.toNat 0 b.portOk = 0 then s.floating
          else BitVec.ofNat 8 (s.boardEval b q.toNat 0 b.portVal)) ∧
      (∀ k, c = .periph k → s.cfg.periph[k]? = some .ic → t.units = s.units ∧
        v = (if q = s.cfg.iePort then s.ic.ier else s.ic.ifr) &&& BitVec.ofNat 8 (2 ^ s.cfg.nIrq - 1)) ∧
      (∀ k r, c = .periph k → s.cfg.periph[k]? = some .paging → Cfg.pagingReg s.cfg q = some r → r < s.paging.preg.length →
        t.units = s.units ∧
          v = if s.cfg.paging.readback then s.paging.preg.getD r 0 else s.floating) ∧
      ∀ k dev, c = .periph k → s.cfg.periph[k]? = some (.device dev) →
        t.units.periph = s.units.periph.set k (s.devActs q.toNat 0 dev.readActs (s.pstate k)) ∧
        v = if s.devEval (s.pstate k) q.toNat 0 dev.readOk = 0 then s.floating
          else BitVec.ofNat 8 (s.devEval (s.pstate k) q.toNat 0 dev.readVal)

/-- `OUT s, p` (40_microops.md R159, 42_ports.md R217 to R219, 20_memory.md R80, 60_exceptions.md R283, 43_board.md R237): the claimant
takes the byte, whichever it is; an unclaimed byte is discarded; the bus log and the event; the CPU is unchanged. The
hypothesis on a device that claims the port is that it reports no failure of this write (60_exceptions.md R293). Which of
several entries of `PAGING.ports` names the register (`Cfg.pagingReg`) is the model's choice (log entry 25). -/
def Obligations.PortWriteResult : Prop :=
  ∀ (s : State) (x : Sel8) (p : PairSel), s.hasSel x = true → s.hasPair p = true →
    s.timing.framePos < s.cfg.frameCycles →
    let q := s.readPair p
    let v := s.readSel x
    let c := s.claimant q
    (∀ k dev, c = .periph k → s.cfg.periph[k]? = some (.device dev) →
      (s.logBus v).devEval (s.pstate k) q.toNat v.toNat dev.writeFail = 0) →
    let m : Byte := BitVec.ofNat 8 (2 ^ s.cfg.nIrq - 1)
    ∃ t, exec (.outp x p) s = .next t ∧ t.cpu = s.cpu ∧ t.seq = s.seq ∧ t.input = s.input ∧ t.failed = s.failed ∧
      t.queue = s.queue ∧ t.cfg = s.cfg ∧ t.trace = s.trace ++ [.portW q v c] ∧
      t.timing = { s.timing with buslog := Memory.write BusLog.unlisted s.timing.buslog s.timing.framePos v } ∧
      (c = .none → t.ic = s.ic ∧ s.MemoryKept t ∧ t.paging = s.paging ∧ t.units.periph = s.units.periph) ∧
      (∀ k, c = .periph k → s.cfg.periph[k]? = some .ic →
        t.ic = (if q = s.cfg.iePort then { s.ic with ier := v &&& m } else { s.ic with ifr := v &&& m }) ∧
        s.MemoryKept t ∧ t.paging = s.paging ∧ t.units.periph = s.units.periph) ∧
      (∀ k r, c = .periph k → s.cfg.periph[k]? = some .paging → Cfg.pagingReg s.cfg q = some r →
        let preg := s.paging.preg.set r v
        let u := s.cfg.pagingUpdate preg
        t.paging = { preg := preg, sel := u.map (·.1), cont := u.map (·.2.1), vid := u.map (·.2.2), ram := s.paging.ram } ∧
        t.ic = s.ic ∧ t.board = s.board ∧ t.units.periph = s.units.periph) ∧
      (∀ k dev, c = .periph k → s.cfg.periph[k]? = some (.device dev) →
        t.units.periph = s.units.periph.set k ((s.logBus v).devActs q.toNat v.toNat dev.writeActs (s.pstate k)) ∧
        t.ic = s.ic ∧ s.MemoryKept t ∧ t.paging = s.paging) ∧
      (c = .board → t.ic = s.ic ∧ t.units.periph = s.units.periph ∧ t.paging = { s.paging with ram := t.paging.ram } ∧
        ∀ b, s.cfg.board = some b →
          t.board = ((s.logBus v).boardActs b q.toNat v.toNat b.portWrites).board ∧
          t.paging = ((s.logBus v).boardActs b q.toNat v.toNat b.portWrites).paging ∧
          ∀ n o, o < windowSize → (∀ a, b.lo ≤ a → a ≤ b.hi → s.base (BitVec.ofNat 16 a) ≠ .ramByte n o) →
            t.readRam n o = s.readRam n o)

/-- Every port write reaches every observer after the claimant, in order, each on its own state alone, and none makes it fail
(42_ports.md R218, R219): `OUT s, p` completes whenever the claimant takes the byte. -/
def Obligations.ObserversSeeEveryWrite : Prop :=
  (∀ (s t : State) (q : Addr) (v : Byte), s.timing.framePos < s.cfg.frameCycles →
    s.units.observer.length = s.cfg.observers.length → s.portWrite q v = .ok t →
    ∃ u : State, ((s.logBus v).unitWrite (s.claimant q) q v = .ok u) ∧
      t = { u with units := { u.units with observer := t.units.observer }, trace := s.trace ++ [.portW q v (s.claimant q)] } ∧
      u.units.observer = s.units.observer ∧
      ∀ k o, s.cfg.observers[k]? = some o → t.ostate k = u.devActs q.toNat v.toNat o.writeActs (s.ostate k)) ∧
  ∀ (s u : State) (x : Sel8) (p : PairSel), s.hasSel x = true → s.hasPair p = true →
    s.timing.framePos < s.cfg.frameCycles → s.units.observer.length = s.cfg.observers.length →
    let q := s.readPair p
    let v := s.readSel x
    (s.logBus v).unitWrite (s.claimant q) q v = .ok u →
    ∃ t, exec (.outp x p) s = .next t ∧
      t = { u with units := { u.units with observer := t.units.observer }, trace := s.trace ++ [.portW q v (s.claimant q)] } ∧
      (s.claimant q = .none → u = s.logBus v) ∧
      ∀ k o, s.cfg.observers[k]? = some o → t.ostate k = u.devActs q.toNat v.toNat o.writeActs (s.ostate k)

/-! ## The end of a tick -/

/-- A tick's end (40_microops.md R142, 42_ports.md R222): one cycle passes, then each peripheral's hook runs in order, then each
observer's, then `ic_update`; nothing else changes. A hook changes only its own unit's state, and a peripheral's also the IF bits
of sources it is wired to, below N_IRQ: it sees the units before it after their hooks and the others before theirs. A hook that
reports failure raises E_STEP with the peripheral's index (60_exceptions.md R293, R294); a tick in which none does ends. A line
whose guard is not 0 sets `IF[source]` to 1 when its level is not 0, and to 0 otherwise; with guard 0 it changes nothing; so the
tick's end leaves `IF[source]` as the last line wired to it says. That the lines are driven in order, after the hook's state
changes and by its new state, is the model's choice (log entry 8). -/
def Obligations.EndTickRunsHooks : Prop :=
  (∀ s t : State, s.endTick = .ok t →
    let a := s.advance 1
    t = { a with ic := { s.ic with st := t.ic.st, ifr := t.ic.ifr }, units := t.units } ∧
    t = ({ t with ic := { t.ic with st := s.ic.st } } : State).icUpdate ∧
    (∀ j, (∀ d l, .device d ∈ a.cfg.periph → l ∈ d.tickLines → l.source ≠ j) ∨ a.cfg.nIrq ≤ j →
      t.ic.ifr.getLsbD j = s.ic.ifr.getLsbD j) ∧
    (∀ k d, a.cfg.periph[k]? = some (.device d) → k < a.units.periph.length →
      ∃ u : State, u = { a with ic := { s.ic with ifr := u.ic.ifr }, units := { a.units with periph := u.units.periph } } ∧
        (∀ j, j < k → u.pstate j = t.pstate j) ∧ (∀ j, k ≤ j → u.pstate j = a.pstate j) ∧
        u.tickEval (a.pstate k) d.tickFail = 0 ∧ t.pstate k = u.tickActs d.tickActs (a.pstate k)) ∧
    (∀ k, a.cfg.periph[k]? = some .ic ∨ a.cfg.periph[k]? = some .paging ∨ a.cfg.periph[k]? = none →
      t.pstate k = a.pstate k) ∧
    (∀ k o, a.cfg.observers[k]? = some o → k < a.units.observer.length →
      ∃ u : State, u = { a with ic := { s.ic with ifr := t.ic.ifr }, units := u.units } ∧
        u.units.periph = t.units.periph ∧
        (∀ j, j < k → u.ostate j = t.ostate j) ∧ (∀ j, k ≤ j → u.ostate j = a.ostate j) ∧
        t.ostate k = u.tickActs o.tickActs (a.ostate k)) ∧
    (∀ k, a.cfg.observers[k]? = none → t.ostate k = a.ostate k) ∧
    ∀ k d before l later, a.cfg.periph[k]? = some (.device d) → k < a.units.periph.length →
      d.tickLines = before ++ l :: later → l.source < a.cfg.nIrq → l.source < 8 → (∀ m ∈ later, m.source ≠ l.source) →
      (∀ i e m, k < i → a.cfg.periph[i]? = some (.device e) → m ∈ e.tickLines → m.source ≠ l.source) →
      ∃ u : State, u = { a with ic := { s.ic with ifr := u.ic.ifr }, units := { a.units with periph := u.units.periph } } ∧
        (∀ j, j ≤ k → u.pstate j = t.pstate j) ∧ (∀ j, k < j → u.pstate j = a.pstate j) ∧
        t.ic.ifr.getLsbD l.source = (if u.tickEval (t.pstate k) l.guard = 0 then u.ic.ifr.getLsbD l.source
          else decide (u.tickEval (t.pstate k) l.level ≠ 0))) ∧
  (∀ (u : State) (ps : List Nat) (l : LineAct),
    (u.tickEval ps l.guard = 0 ∨ u.cfg.nIrq ≤ l.source → u.driveLine ps l = u) ∧
    (u.tickEval ps l.guard ≠ 0 → l.source < u.cfg.nIrq →
      ∃ f : Byte, u.driveLine ps l = { u with ic := { u.ic with ifr := f } } ∧
        ∀ j, j < 8 → f.getLsbD j = if j = l.source then decide (u.tickEval ps l.level ≠ 0) else u.ic.ifr.getLsbD j)) ∧
  (∀ (u : State) (k : Nat) (d : Device),
    let ps := u.tickActs d.tickActs (u.pstate k)
    u.tickPeriph k (.device d) =
      if u.tickEval (u.pstate k) d.tickFail ≠ 0 then .error (.step k)
      else .ok (d.tickLines.foldl (fun t l => t.driveLine ps l)
        { u with units := { u.units with periph := u.units.periph.set k ps } })) ∧
  (∀ (s : State) (e : Error), s.endTick = .error e →
    let a := s.advance 1
    ∃ (k : Nat) (d : Device) (u : State), e = .step k ∧ a.cfg.periph[k]? = some (.device d) ∧ u.tickEval (a.pstate k) d.tickFail ≠ 0 ∧
      u = { a with ic := { s.ic with ifr := u.ic.ifr }, units := { a.units with periph := u.units.periph } }) ∧
  (∀ (u t : State) (k : Nat) (d : Device), u.tickPeriph k (.device d) = .ok t →
    t = { u with
      ic := { u.ic with ifr := t.ic.ifr }
      units := { u.units with periph := u.units.periph.set k (u.tickActs d.tickActs (u.pstate k)) } } ∧
    ∀ j, (∀ l ∈ d.tickLines, l.source ≠ j) ∨ u.cfg.nIrq ≤ j → t.ic.ifr.getLsbD j = u.ic.ifr.getLsbD j) ∧
  ∀ s : State, (∀ (u : State) (d : Device) (k : Nat), .device d ∈ (s.advance 1).cfg.periph →
      u.tickEval (u.pstate k) d.tickFail = 0) →
    ∃ t, s.endTick = .ok t

/-! ## The REF board -/

/-- The REF board (43_board.md R240, R241), offset by offset: what a write and a read inside its window do, and its port. -/
def Obligations.RefBoardRule : Prop :=
  ∀ (s : State) (a : Addr) (v : Byte), s.cfg.board = some Ref.board → s.cfg.romBanks ≠ 0 → 0x2000 ≤ a.toNat →
    a.toNat ≤ 0x3FFF →
    s.writeBus a v =
      (if a = 0x3FFF then ({ s with board := { s.board with bank := v } }, true)
       else if a = 0x3FFE then ({ s with board := { s.board with prot := v ^^^ (s.board.key ^^^ 0x5A) } }, true)
       else if a = 0x3FFD then ({ s with board := { s.board with key := v } }, true)
       else (s, false)) ∧
    s.readBus a =
      (if a = 0x3FFE then s.board.prot
       else if a = 0x3FFC then s.board.prot ^^^ 0xFF
       else s.readRom (s.board.bank.toNat % s.cfg.romBanks) (a.extractLsb' 0 14).toNat) ∧
    s.claimant 0x00F0 = .board ∧
    s.unitWrite .board 0x00F0 v = .ok { s with board := { s.board with key := v } } ∧
    s.unitRead .board 0x00F0 = .ok (s, some s.board.bank)

/-! ## The REF opcodes -/

/-- The REF opcode bytes at an opcode boundary: the tick that fetches the byte at PC, then one tick for each program word but
the final `FETCH`, do what `exec` of the decoded opcode does to the state the fetch left (40_microops.md R141, R146; 30_encoding.md R129). -/
def Obligations.RefOpcodeRunsItsProgram : Prop :=
  ∀ (s : State) (i : Instr), s.IsRef → s.atOpcodeBoundary = true → s.ic.st ≠ .pending →
    decode (.op8 0 (s.readBus s.cpu.pc)) = some i →
    ∃ u, step s = .next u ∧ u.cpu.ir = s.readBus s.cpu.pc ∧
      u.cpu.pc = (if s.cpu.bug then s.cpu.pc else s.cpu.pc + 1) ∧ u.seq = { progId := .table 0 u.cpu.ir, cursor := 0 } ∧
      ∀ t : State, exec i u = .next t →
        Host.Core.run Sys2Proof.core (1 + (u.prog.filter (fun w => decide (w ≠ 0x01000000))).length) s = .next t

/-- `NOP` and `FALLBACK` (30_encoding.md R122, R129): nothing but the fetched opcode's IR and program. -/
def Obligations.RefNopResults : Prop :=
  ∀ s : State,
    exec .refNop s =
      .next { s with cpu := { s.cpu with ir := 0x00 }, seq := { progId := .table 0 0x00, cursor := 0 } } ∧
    ∀ t b, exec (.refFallback t b) s =
      .next { s with cpu := { s.cpu with ir := b }, seq := { progId := .table t b, cursor := 0 } }

/-- What the one-tick opcodes do to the registers, on the state `s` their fetch left (30_encoding.md R128, R129): the tick adds a
cycle and runs `ic_update`; everything else is unchanged. -/
def Obligations.RefOneTickResults : Prop :=
  ∀ s : State, s.IsRef →
    let zero (r : Byte) : Byte := if r = 0 then 0x80 else 0x00
    let a := s.readSel (.r 0)
    let b := s.readSel (.r 1)
    let after (op : Byte) (c : Cpu) (t : State) : Prop :=
      t = { (({ s with cpu := { c with ir := op } } : State).advance 1).icUpdate with
            seq := { progId := .table 0 op, cursor := 1 } } ∧ s.MemoryKept t
    (∃ t, exec .refDecB s = .next t ∧
      after 0x05 { s.cpu with r8 := [a, b - 1], flags := zero (b - 1) } t) ∧
    (∃ t, exec .refIncA s = .next t ∧
      after 0x3C { s.cpu with r8 := [a + 1, b], flags := zero (a + 1) } t) ∧
    (∃ t, exec .refDecA s = .next t ∧
      after 0x3D { s.cpu with r8 := [a - 1, b], flags := zero (a - 1) } t) ∧
    (∃ t, exec .refLdAB s = .next t ∧ after 0x78 { s.cpu with r8 := [b, b] } t) ∧
    (∃ t, exec .refBugnop s = .next t ∧ after 0x08 { s.cpu with bug := true } t) ∧
    (∃ t, exec .refHalt s = .next t ∧ after 0x76 { s.cpu with halted := true } t) ∧
    (∃ t, exec .refDi s = .next t ∧ after 0xF3 { s.cpu with ime := false } t) ∧
    ∃ t, exec .refEi s = .next t ∧ after 0xFB { s.cpu with ime := true } t

/-- `LD A,n` and `LD A,(nn)` (30_encoding.md R129): A takes the operand byte, or the byte at the little-endian operand address; PC
passes the operand; nothing else but W, time and the trace changes. -/
def Obligations.RefLoadResults : Prop :=
  ∀ s : State, s.IsRef →
    let pc := s.cpu.pc
    let nn : Addr := s.readBus (pc + 1) ++ s.readBus pc
    (∃ t, exec .refLdAN s = .next t ∧ t.readSel (.r 0) = s.readBus pc ∧ t.cpu.pc = pc + 1 ∧
      { s.cpu with ir := 0x3E }.SameBut [.r 0, .pcl, .pch] t.cpu ∧ t.seq = { progId := .table 0 0x3E, cursor := 2 } ∧
      t.ic = s.icUpdate.ic ∧ t.units = s.units ∧ t.failed = none ∧ t.cfg = s.cfg ∧ t.paging = s.paging ∧ s.MemoryKept t) ∧
    ∃ t, exec .refLdANn s = .next t ∧ t.readSel (.r 0) = s.readBus nn ∧ t.cpu.pc = pc + 2 ∧ t.cpu.w = nn ∧
      { s.cpu with ir := 0x3A }.SameBut [.r 0, .pcl, .pch, .wl, .wh] t.cpu ∧
      t.seq = { progId := .table 0 0x3A, cursor := 5 } ∧ t.ic = s.icUpdate.ic ∧ t.units = s.units ∧ t.failed = none ∧
      t.cfg = s.cfg ∧ t.paging = s.paging ∧ s.MemoryKept t

/-- `LD (nn),A` (30_encoding.md R129): A is written at the little-endian operand address as any write is (RAM stored, ROM
discarded, the board intercepting); every backed byte elsewhere reads as before. -/
def Obligations.RefStoreResult : Prop :=
  ∀ s : State, s.IsRef →
    let pc := s.cpu.pc
    let nn : Addr := s.readBus (pc + 1) ++ s.readBus pc
    let v := s.readSel (.r 0)
    ∃ t, exec .refLdNnA s = .next t ∧ t.cpu.pc = pc + 2 ∧ t.cpu.w = nn ∧
      { s.cpu with ir := 0x32 }.SameBut [.pcl, .pch, .wl, .wh] t.cpu ∧ t.seq = { progId := .table 0 0x32, cursor := 5 } ∧
      t.ic = s.icUpdate.ic ∧ t.units = s.units ∧ t.failed = none ∧ t.cfg = s.cfg ∧
      t.paging = (s.writeBus nn v).1.paging ∧ t.board = (s.writeBus nn v).1.board ∧
      (∀ n o, s.resolve nn = .ramByte n o → t.readBus nn = v) ∧
      (∀ b, s.backed b = true → s.resolve b ≠ s.resolve nn → t.readBus b = s.readBus b)

/-- `JP nn`, `RET` and the prefix (30_encoding.md R129): PC takes the operand address; PC takes the address popped little-endian,
SP passing it; the next byte is fetched and decoded in table 1. -/
def Obligations.RefJumpResults : Prop :=
  ∀ s : State, s.IsRef →
    let pc := s.cpu.pc
    let sp := s.cpu.sp
    (∃ t, exec .refJpNn s = .next t ∧ t.cpu.pc = s.readBus (pc + 1) ++ s.readBus pc ∧ t.cpu.w = t.cpu.pc ∧
      { s.cpu with ir := 0xC3 }.SameBut [.pcl, .pch, .wl, .wh] t.cpu ∧ t.seq = { progId := .table 0 0xC3, cursor := 5 } ∧
      t.ic = s.icUpdate.ic ∧ t.units = s.units ∧ t.failed = none ∧ t.cfg = s.cfg ∧ t.paging = s.paging ∧ s.MemoryKept t) ∧
    (∃ t, exec .refRet s = .next t ∧ t.cpu.pc = s.readBus (sp + 1) ++ s.readBus sp ∧ t.cpu.sp = sp + 2 ∧
      t.cpu.w = t.cpu.pc ∧
      { s.cpu with ir := 0xC9 }.SameBut [.pcl, .pch, .spl, .sph, .wl, .wh] t.cpu ∧
      t.seq = { progId := .table 0 0xC9, cursor := 5 } ∧ t.ic = s.icUpdate.ic ∧ t.units = s.units ∧ t.failed = none ∧
      t.cfg = s.cfg ∧ t.paging = s.paging ∧ s.MemoryKept t) ∧
    ∃ t, exec .refPrefixCb s = .next t ∧ t.cpu.ir = s.readBus pc ∧ t.cpu.pc = (if s.cpu.bug then pc else pc + 1) ∧
      t.cpu.bug = false ∧ { s.cpu with ir := s.readBus pc, bug := false }.SameBut [.pcl, .pch] t.cpu ∧
      t.seq = { progId := .table 1 (s.readBus pc), cursor := 0 } ∧ t.ic = s.icUpdate.ic ∧ t.units = s.units ∧
      t.failed = none ∧ t.cfg = s.cfg ∧ t.paging = s.paging ∧ s.MemoryKept t

/-- `OUT (nn),A` (30_encoding.md R128, R129): A goes to the port of the operand: IE or IF masked to two bits, the paging register,
the board's key, or nowhere; the beeper records bit 4 on even ports. -/
def Obligations.RefOutResult : Prop :=
  ∀ s : State, s.IsRef → s.units.observer.length = 1 → s.paging.preg.length = 1 →
    let pc := s.cpu.pc
    let q : Addr := s.readBus (pc + 1) ++ s.readBus pc
    let v := s.readSel (.r 0)
    ∃ t, exec .refOutNnA s = .next t ∧ t.cpu.pc = pc + 2 ∧ t.cpu.w = q ∧
      { s.cpu with ir := 0xD3 }.SameBut [.pcl, .pch, .wl, .wh] t.cpu ∧ t.seq = { progId := .table 0 0xD3, cursor := 5 } ∧
      t.failed = none ∧ t.cfg = s.cfg ∧ t.units.periph = s.units.periph ∧
      (∀ n o, t.readRam n o = s.readRam n o) ∧
      t.ic.ier = (if q = 0x0010 then v &&& 0x03 else s.ic.ier) ∧
      t.ic.ifr = (if q = 0x0011 then v &&& 0x03 else s.ic.ifr) ∧
      t.paging.preg = (if q = 0x0020 then [v] else s.paging.preg) ∧
      (q = 0x0020 → t.paging.sel = ⟨.rom 0, .ram 5, .ram 2, .ram (v.toNat % 8)⟩) ∧ (q ≠ 0x0020 → t.paging = s.paging) ∧
      t.board = (if q = 0x00F0 then { s.board with key := v } else s.board) ∧
      t.ostate 0 = (if q.toNat % 2 = 0 then s.ostate 0 ++ [v.toNat / 16 % 2] else s.ostate 0)

/-- `IN A,(nn)` (30_encoding.md R128, R129): A takes IE, IF or the board's bank from their ports, and a floating-bus byte, which the
trace records as read at the port, from any other: that of the state `m` in which the `IN` tick begins, after the ticks that read
the operand (42_ports.md R215, R216). -/
def Obligations.RefInResult : Prop :=
  ∀ s : State, s.IsRef →
    let pc := s.cpu.pc
    let q : Addr := s.readBus (pc + 1) ++ s.readBus pc
    ∃ t c m, exec .refInANn s = .next t ∧ t.cpu.pc = pc + 2 ∧ t.cpu.w = q ∧
      { s.cpu with ir := 0xDB }.SameBut [.r 0, .pcl, .pch, .wl, .wh] t.cpu ∧
      t.seq = { progId := .table 0 0xDB, cursor := 5 } ∧ t.ic = s.icUpdate.ic ∧ t.units = s.units ∧ t.failed = none ∧
      t.cfg = s.cfg ∧ t.paging = s.paging ∧ s.MemoryKept t ∧
      t.trace.getLast? = some (.portR q (t.readSel (.r 0)) c) ∧
      (q = 0x0010 → t.readSel (.r 0) = s.ic.ier &&& 0x03 ∧ c = .periph 0) ∧
      (q = 0x0011 → t.readSel (.r 0) = s.ic.ifr &&& 0x03 ∧ c = .periph 0) ∧
      (s.load 0 0xDB).ticks imm16Ticks = .next m ∧ m.readPair .w = q ∧
      (q = 0x0020 → t.readSel (.r 0) = m.floating ∧ c = .periph 1) ∧ (q = 0x00F0 → t.readSel (.r 0) = s.board.bank ∧ c = .board) ∧
      (q ∉ [0x0010, 0x0011, 0x0020, 0x00F0] → t.readSel (.r 0) = m.floating ∧ c = .none)

/-! ## Interrupt entry, whole -/

/-- The whole interrupt entry of the REF configuration, which is of variant 0 (60_exceptions.md R278, R280; 20_memory.md R72; 70_reset_and_hazards.md R324): six ticks after the splice, with
the source still pending, SP is two lower, the two bytes below it hold PC little-endian where RAM backs them, PC is the
vector, the source is acknowledged and the controller Idle. -/
def Obligations.InterruptEntryPushesPc : Prop :=
  ∀ s : State, s.IsRef → s.seq = { progId := .dispatch 0, cursor := 0 } → s.cpu.halted = false → s.cpu.ime = false →
    s.ic.st = .dispatching → s.ic.src < 2 → s.stillPending = true →
    ∃ t : State, Host.Core.run Sys2Proof.core 6 s = .next t ∧ t.cpu.sp = s.cpu.sp - 2 ∧
      t.cpu.pc = (if s.ic.src = 0 then 0x0040 else 0x0048) ∧ t.cpu.ime = false ∧ t.ic.st = .idle ∧
      (∀ j, t.ic.ifr.getLsbD j = (s.ic.ifr.getLsbD j && decide (j ≠ s.ic.src))) ∧ t.ic.ier = s.ic.ier ∧
      t.seq = { progId := .dispatch 0, cursor := 6 } ∧
      ((∃ n o, s.resolve (s.cpu.sp - 1) = .ramByte n o) → (∃ n o, s.resolve (s.cpu.sp - 2) = .ramByte n o) →
        t.readBus (s.cpu.sp - 1) = s.cpu.pc.extractLsb' 8 8 ∧ t.readBus (s.cpu.sp - 2) = s.cpu.pc.extractLsb' 0 8)

/-- The cancelled entry of the REF configuration, which is of variant 0 (60_exceptions.md R279, R281, R282; 44_host.md R254): the host clears the source after the second tick, just
before the checkpoint; SP is two lower, both bytes are pushed, PC is unchanged, the controller is Idle, IME stays 0. -/
def Obligations.CancelledEntryKeepsPc : Prop :=
  ∀ s : State, s.IsRef → s.seq = { progId := .dispatch 0, cursor := 0 } → s.cpu.halted = false → s.cpu.ime = false →
    s.ic.st = .dispatching → s.ic.src < 2 →
    ∃ u t : State, Host.Core.run Sys2Proof.core 2 s = .next u ∧
      Host.Core.run Sys2Proof.core 4 (u.clearIrq s.ic.src) = .next t ∧ t.cpu.sp = s.cpu.sp - 2 ∧ t.cpu.pc = s.cpu.pc ∧
      t.cpu.ime = false ∧ t.ic.st = .idle ∧ t.seq = { progId := .cancelled 0, cursor := 6 } ∧
      ((∃ n o, s.resolve (s.cpu.sp - 1) = .ramByte n o) → (∃ n o, s.resolve (s.cpu.sp - 2) = .ramByte n o) →
        t.readBus (s.cpu.sp - 1) = s.cpu.pc.extractLsb' 8 8 ∧ t.readBus (s.cpu.sp - 2) = s.cpu.pc.extractLsb' 0 8)

/-! ## The host's operations -/

/-- `AssertIrq(i)` and `ClearIrq(i)` (44_host.md R253, R254): one IF bit, then `ic_update`. `SetInput` (R259): INPUT_NEXT takes
the input. `Reconfigure` (R257): a change that would make the configuration ill-formed is refused with E_CONFIG, any other
change of a unit that exists is queued. Nothing else changes. The model's choice: which units a change may name (log entry 12),
that of several checks that fail the recorded name, `Cfg.check`'s, is the first in R127's order (log entry 27), and the conditions
a check asks beyond R127's words (log entry 10). -/
def Obligations.HostOperationResults : Prop :=
  (∀ (s : State) (i : Nat), i < s.cfg.nIrq → i < 8 →
    (∃ f : Byte, s.assertIrq i = ({ s with ic := { s.ic with ifr := f } } : State).icUpdate ∧
      ∀ j, j < 8 → f.getLsbD j = (s.ic.ifr.getLsbD j || decide (j = i))) ∧
    ∃ f : Byte, s.clearIrq i = ({ s with ic := { s.ic with ifr := f } } : State).icUpdate ∧
      ∀ j, j < 8 → f.getLsbD j = (s.ic.ifr.getLsbD j && decide (j ≠ i))) ∧
  ∀ (s : State) (x : Input) (ch : Change),
    s.setInput x = { s with input := { s.input with next := x } } ∧
    (ch.names s.queuedCfg = true → (ch.applyCfg s.queuedCfg).wf = true →
      s.reconfigure ch = .ok { s with queue := s.queue ++ [ch] }) ∧
    (ch.names s.queuedCfg = true → (ch.applyCfg s.queuedCfg).wf = false →
      ∃ k, s.reconfigure ch = .error (.config k) ∧ (ch.applyCfg s.queuedCfg).check = some k)

/-- Snapshot round trip (44_host.md R262): restoring into any engine of the same configuration the snapshot of a state whose
configuration has the board the registers need gives that state, but for the trace and the queue, which are no part of a
snapshot (log entry 18). -/
def Obligations.SnapshotRoundTrip : Prop :=
  ∀ s t : State, t.cfg = s.cfg →
    t.restore s.save =
      .ok { s with board := if s.cfg.board.isSome then s.board else t.board, trace := t.trace, queue := t.queue }

/-- The sections of a snapshot stand in the order of 10_state.md R54, `BOARD` exactly when a board is configured. `Restore`
refuses (44_host.md R261): another sequence of section names is E_SNAP_FORMAT; a snapshot with the right sections is
E_SNAP_MISMATCH with the two digests where they differ, and read where they agree. -/
def Obligations.SnapshotFormat : Prop :=
  (∀ s : State,
    (s.cfg.board.isSome = true → s.save.map (fun x => x.tag) =
      [.cfg, .cpu, .seq, .ic, .paging, .board, .periph, .timing, .input, .fail]) ∧
    (s.cfg.board = none → s.save.map (fun x => x.tag) =
      [.cfg, .cpu, .seq, .ic, .paging, .periph, .timing, .input, .fail])) ∧
  (∀ (s : State) (src : Snapshot), src.map (fun x => x.tag) ≠ sectionNames s.cfg →
    ∃ e f, s.restore src = .error (.snapFormat e f) ∧ e ≠ f) ∧
  ∀ s t : State, sectionNames t.cfg = sectionNames s.cfg →
    s.restore t.save =
      if Config.digest t.cfg = Config.digest s.cfg then s.readFields t.save
      else .error (.snapMismatch (Config.digest s.cfg) (Config.digest t.cfg))

/-! ## The invariant and progress -/

/-- Every tick keeps the invariant of a running engine (the rules named at each field of `State.Inv`). -/
def Obligations.StepKeepsInv : Prop :=
  ∀ s t : State, s.Inv → step s = .next t → t.Inv

/-- The invariant holds after every construction. -/
def Obligations.ConstructionEstablishesInv : Prop :=
  ∀ (c : Cfg) (m : Media) (x : Input) (s : State), construct c m x = .ok s → s.Inv

/-- `State.reset` is the construction of REF without media, and the invariant holds there. That REF is the configuration and
that nothing is pressed in the first input is the model's choice (log entries 2 and 4). -/
def Obligations.InvAtReset : Prop :=
  construct Ref.cfg { rom := [], ram := [] } { buttons := [], axes := [] } = .ok State.reset ∧ State.reset.Inv

/-- Every host operation but Restore keeps the invariant (44_host.md R251 to R259). -/
def Obligations.HostKeepsInv : Prop :=
  ∀ (s t : State) (op : HostOp), (∀ src, op ≠ .restore src) → s.Inv → s.host op = .ok t → t.Inv

/-- Deterministic forward progress (40_microops.md R140): a running engine's tick always gives a next state. -/
def Obligations.StepMakesProgress : Prop :=
  ∀ s : State, s.Inv → s.failed = none → ∃ t, step s = .next t
end

