-- ==== Sys2Proof/Laws/Memory.lean ====
section
/-! SUPPORT. Laws of sparse bytes: a read after a write, and the canonical form kept by every operation. -/

namespace Sys2Proof.Machine

@[simp] theorem Memory.read_nil (d : Byte) (a : Nat) : Memory.read d [] a = d := rfl

theorem Memory.read_cons (d : Byte) (c : Host.Cell) (m : Memory) (a : Nat) :
    Memory.read d (c :: m) a = if c.1 = a then c.2 else Memory.read d m a := rfl

theorem Memory.read_erase_same (d : Byte) (m : Memory) (a : Nat) : Memory.read d (Memory.erase m a) a = d := by
  unfold Memory.erase
  induction m with
  | nil => rfl
  | cons c m ih =>
    by_cases h : c.1 = a
    · simpa [h] using ih
    · simpa [h, Memory.read_cons] using ih

theorem Memory.read_erase_other (d : Byte) (m : Memory) {a b : Nat} (hab : b ≠ a) :
    Memory.read d (Memory.erase m a) b = Memory.read d m b := by
  unfold Memory.erase
  induction m with
  | nil => rfl
  | cons c m ih =>
    by_cases h : c.1 = a
    · have hc : c.1 ≠ b := fun e => hab (e.symm.trans h)
      simpa [h, Memory.read_cons, hc, Ne.symm hab] using ih
    · simp only [ne_eq, h, not_false_eq_true, bne_iff_ne, List.filter_cons_of_pos, Memory.read_cons]
      by_cases h2 : c.1 = b
      · simp [h2]
      · simpa [h2] using ih

theorem Memory.read_insert_same (d : Byte) (m : Memory) (a : Nat) (v : Byte) (h : ∀ c ∈ m, c.1 ≠ a) :
    Memory.read d (Memory.insert a v m) a = v := by
  induction m with
  | nil => simp [Memory.insert, Memory.read_cons]
  | cons c m ih =>
    have hc : c.1 ≠ a := h c (by simp)
    unfold Memory.insert
    split
    · simp [Memory.read_cons]
    · rw [Memory.read_cons, if_neg hc, ih fun x hx => h x (by simp [hx])]

theorem Memory.read_insert_other (d : Byte) (m : Memory) {a b : Nat} (v : Byte) (hab : b ≠ a) :
    Memory.read d (Memory.insert a v m) b = Memory.read d m b := by
  induction m with
  | nil => simp [Memory.insert, Memory.read_cons, Ne.symm hab]
  | cons c m ih =>
    unfold Memory.insert
    split
    · simp [Memory.read_cons, Ne.symm hab]
    · rw [Memory.read_cons, Memory.read_cons, ih]

theorem Memory.erase_keys (m : Memory) (a : Nat) : ∀ c ∈ Memory.erase m a, c.1 ≠ a := by
  intro c hc
  have := List.mem_filter.mp hc
  simpa using this.2

/-- A read after a write to the same place gives the value written. -/
@[simp] theorem Memory.read_write_same (d : Byte) (m : Memory) (a : Nat) (v : Byte) :
    Memory.read d (Memory.write d m a v) a = v := by
  unfold Memory.write
  split
  · next h => rw [h, Memory.read_erase_same]
  · exact Memory.read_insert_same d _ a v (Memory.erase_keys m a)

/-- A write leaves every other place alone. -/
theorem Memory.read_write_other (d : Byte) (m : Memory) {a b : Nat} (v : Byte) (hab : b ≠ a) :
    Memory.read d (Memory.write d m a v) b = Memory.read d m b := by
  unfold Memory.write
  split
  · exact Memory.read_erase_other d m hab
  · rw [Memory.read_insert_other d _ v hab, Memory.read_erase_other d m hab]

/-! ## The canonical form -/

theorem Memory.wf_cons (d : Byte) (c : Host.Cell) (m : Memory) :
    Memory.wf d (c :: m) = true ↔ c.2 ≠ d ∧ (∀ e ∈ m, c.1 < e.1) ∧ Memory.wf d m = true := by
  simp [Memory.wf, and_assoc]

theorem Memory.wf_erase (d : Byte) (m : Memory) (a : Nat) (h : Memory.wf d m = true) :
    Memory.wf d (Memory.erase m a) = true := by
  unfold Memory.erase
  induction m with
  | nil => rfl
  | cons c m ih =>
    rw [Memory.wf_cons] at h
    by_cases hc : c.1 = a
    · simpa [hc] using ih h.2.2
    · simp only [ne_eq, hc, not_false_eq_true, bne_iff_ne, List.filter_cons_of_pos, Memory.wf_cons]
      exact ⟨h.1, fun e he => h.2.1 e (List.mem_of_mem_filter he), ih h.2.2⟩

theorem Memory.mem_insert (a : Nat) (v : Byte) (m : Memory) (e : Host.Cell) (h : e ∈ Memory.insert a v m) :
    e = (a, v) ∨ e ∈ m := by
  induction m with
  | nil => simpa [Memory.insert] using h
  | cons c m ih =>
    unfold Memory.insert at h
    split at h
    · simpa using h
    · rcases List.mem_cons.mp h with h | h
      · exact Or.inr (by simp [h])
      · exact (ih h).imp id fun x => by simp [x]

theorem Memory.wf_insert (d : Byte) (m : Memory) (a : Nat) (v : Byte) (hv : v ≠ d) (h : Memory.wf d m = true)
    (ha : ∀ c ∈ m, c.1 ≠ a) : Memory.wf d (Memory.insert a v m) = true := by
  induction m with
  | nil => simp [Memory.insert, Memory.wf, hv]
  | cons c m ih =>
    have hwf := h
    rw [Memory.wf_cons] at h
    unfold Memory.insert
    split
    · next hlt =>
      rw [Memory.wf_cons]
      refine ⟨hv, fun e he => ?_, hwf⟩
      rcases List.mem_cons.mp he with he | he
      · exact he ▸ hlt
      · exact Nat.lt_trans hlt (h.2.1 e he)
    · next hlt =>
      rw [Memory.wf_cons]
      have hc : c.1 ≠ a := ha c (by simp)
      refine ⟨h.1, fun e he => ?_, ih h.2.2 fun x hx => ha x (by simp [hx])⟩
      rcases Memory.mem_insert a v m e he with he | he
      · subst he; simp only; omega
      · exact h.2.1 e he

/-- Every write keeps the canonical form. -/
theorem Memory.wf_write (d : Byte) (m : Memory) (a : Nat) (v : Byte) (h : Memory.wf d m = true) :
    Memory.wf d (Memory.write d m a v) = true := by
  unfold Memory.write
  split
  · exact Memory.wf_erase d m a h
  · next hv => exact Memory.wf_insert d _ a v hv (Memory.wf_erase d m a h) (Memory.erase_keys m a)

/-- Loading a bank keeps the canonical form. -/
theorem Memory.wf_load (d : Byte) (bs : List Byte) (m : Memory) (a : Nat) (h : Memory.wf d m = true) :
    Memory.wf d (Memory.load d m a bs) = true := by
  induction bs generalizing m a with
  | nil => exact h
  | cons b bs ih => exact ih _ _ (Memory.wf_write d m a b h)

/-- Bytes of different banks or offsets have different keys. -/
theorem bankKey_inj {n o n' o' : Nat} (ho : o < windowSize) (ho' : o' < windowSize) :
    bankKey n o = bankKey n' o' ↔ n = n' ∧ o = o' := by
  unfold bankKey windowSize at *
  omega

end Sys2Proof.Machine
end

