-- ==== Sys2Proof/Laws/State.lean ====
section
/-! SUPPORT. What each update of the state leaves alone: one lemma per component per update, so that no later proof
unfolds a record update. -/

namespace Sys2Proof.Machine

/-! ### `State.emit` changes only: trace -/

@[simp] theorem State.emit_cpu (s : State) (e : Event) : (s.emit e).cpu = s.cpu := rfl
@[simp] theorem State.emit_seq (s : State) (e : Event) : (s.emit e).seq = s.seq := rfl
@[simp] theorem State.emit_ic (s : State) (e : Event) : (s.emit e).ic = s.ic := rfl
@[simp] theorem State.emit_paging (s : State) (e : Event) : (s.emit e).paging = s.paging := rfl
@[simp] theorem State.emit_board (s : State) (e : Event) : (s.emit e).board = s.board := rfl
@[simp] theorem State.emit_units (s : State) (e : Event) : (s.emit e).units = s.units := rfl
@[simp] theorem State.emit_timing (s : State) (e : Event) : (s.emit e).timing = s.timing := rfl
@[simp] theorem State.emit_input (s : State) (e : Event) : (s.emit e).input = s.input := rfl
@[simp] theorem State.emit_failed (s : State) (e : Event) : (s.emit e).failed = s.failed := rfl
@[simp] theorem State.emit_queue (s : State) (e : Event) : (s.emit e).queue = s.queue := rfl
@[simp] theorem State.emit_cfg (s : State) (e : Event) : (s.emit e).cfg = s.cfg := rfl

/-! ### `State.setPc` changes only: cpu -/

@[simp] theorem State.setPc_seq (s : State) (v : Addr) : (s.setPc v).seq = s.seq := rfl
@[simp] theorem State.setPc_ic (s : State) (v : Addr) : (s.setPc v).ic = s.ic := rfl
@[simp] theorem State.setPc_paging (s : State) (v : Addr) : (s.setPc v).paging = s.paging := rfl
@[simp] theorem State.setPc_board (s : State) (v : Addr) : (s.setPc v).board = s.board := rfl
@[simp] theorem State.setPc_units (s : State) (v : Addr) : (s.setPc v).units = s.units := rfl
@[simp] theorem State.setPc_timing (s : State) (v : Addr) : (s.setPc v).timing = s.timing := rfl
@[simp] theorem State.setPc_input (s : State) (v : Addr) : (s.setPc v).input = s.input := rfl
@[simp] theorem State.setPc_failed (s : State) (v : Addr) : (s.setPc v).failed = s.failed := rfl
@[simp] theorem State.setPc_queue (s : State) (v : Addr) : (s.setPc v).queue = s.queue := rfl
@[simp] theorem State.setPc_trace (s : State) (v : Addr) : (s.setPc v).trace = s.trace := rfl
@[simp] theorem State.setPc_cfg (s : State) (v : Addr) : (s.setPc v).cfg = s.cfg := rfl

/-! ### `State.setFlags` changes only: cpu -/

@[simp] theorem State.setFlags_seq (s : State) (f : Byte) : (s.setFlags f).seq = s.seq := rfl
@[simp] theorem State.setFlags_ic (s : State) (f : Byte) : (s.setFlags f).ic = s.ic := rfl
@[simp] theorem State.setFlags_paging (s : State) (f : Byte) : (s.setFlags f).paging = s.paging := rfl
@[simp] theorem State.setFlags_board (s : State) (f : Byte) : (s.setFlags f).board = s.board := rfl
@[simp] theorem State.setFlags_units (s : State) (f : Byte) : (s.setFlags f).units = s.units := rfl
@[simp] theorem State.setFlags_timing (s : State) (f : Byte) : (s.setFlags f).timing = s.timing := rfl
@[simp] theorem State.setFlags_input (s : State) (f : Byte) : (s.setFlags f).input = s.input := rfl
@[simp] theorem State.setFlags_failed (s : State) (f : Byte) : (s.setFlags f).failed = s.failed := rfl
@[simp] theorem State.setFlags_queue (s : State) (f : Byte) : (s.setFlags f).queue = s.queue := rfl
@[simp] theorem State.setFlags_trace (s : State) (f : Byte) : (s.setFlags f).trace = s.trace := rfl
@[simp] theorem State.setFlags_cfg (s : State) (f : Byte) : (s.setFlags f).cfg = s.cfg := rfl

/-! ### `State.writeSel` changes only: cpu -/

@[simp] theorem State.writeSel_seq (s : State) (d : Sel8) (v : Byte) : (s.writeSel d v).seq = s.seq := rfl
@[simp] theorem State.writeSel_ic (s : State) (d : Sel8) (v : Byte) : (s.writeSel d v).ic = s.ic := rfl
@[simp] theorem State.writeSel_paging (s : State) (d : Sel8) (v : Byte) : (s.writeSel d v).paging = s.paging := rfl
@[simp] theorem State.writeSel_board (s : State) (d : Sel8) (v : Byte) : (s.writeSel d v).board = s.board := rfl
@[simp] theorem State.writeSel_units (s : State) (d : Sel8) (v : Byte) : (s.writeSel d v).units = s.units := rfl
@[simp] theorem State.writeSel_timing (s : State) (d : Sel8) (v : Byte) : (s.writeSel d v).timing = s.timing := rfl
@[simp] theorem State.writeSel_input (s : State) (d : Sel8) (v : Byte) : (s.writeSel d v).input = s.input := rfl
@[simp] theorem State.writeSel_failed (s : State) (d : Sel8) (v : Byte) : (s.writeSel d v).failed = s.failed := rfl
@[simp] theorem State.writeSel_queue (s : State) (d : Sel8) (v : Byte) : (s.writeSel d v).queue = s.queue := rfl
@[simp] theorem State.writeSel_trace (s : State) (d : Sel8) (v : Byte) : (s.writeSel d v).trace = s.trace := rfl
@[simp] theorem State.writeSel_cfg (s : State) (d : Sel8) (v : Byte) : (s.writeSel d v).cfg = s.cfg := rfl

/-! ### `State.writePair` changes only: cpu -/

@[simp] theorem State.writePair_seq (s : State) (p : PairSel) (v : Addr) : (s.writePair p v).seq = s.seq := by
  unfold State.writePair; split <;> rfl
@[simp] theorem State.writePair_ic (s : State) (p : PairSel) (v : Addr) : (s.writePair p v).ic = s.ic := by
  unfold State.writePair; split <;> rfl
@[simp] theorem State.writePair_paging (s : State) (p : PairSel) (v : Addr) : (s.writePair p v).paging = s.paging := by
  unfold State.writePair; split <;> rfl
@[simp] theorem State.writePair_board (s : State) (p : PairSel) (v : Addr) : (s.writePair p v).board = s.board := by
  unfold State.writePair; split <;> rfl
@[simp] theorem State.writePair_units (s : State) (p : PairSel) (v : Addr) : (s.writePair p v).units = s.units := by
  unfold State.writePair; split <;> rfl
@[simp] theorem State.writePair_timing (s : State) (p : PairSel) (v : Addr) : (s.writePair p v).timing = s.timing := by
  unfold State.writePair; split <;> rfl
@[simp] theorem State.writePair_input (s : State) (p : PairSel) (v : Addr) : (s.writePair p v).input = s.input := by
  unfold State.writePair; split <;> rfl
@[simp] theorem State.writePair_failed (s : State) (p : PairSel) (v : Addr) : (s.writePair p v).failed = s.failed := by
  unfold State.writePair; split <;> rfl
@[simp] theorem State.writePair_queue (s : State) (p : PairSel) (v : Addr) : (s.writePair p v).queue = s.queue := by
  unfold State.writePair; split <;> rfl
@[simp] theorem State.writePair_trace (s : State) (p : PairSel) (v : Addr) : (s.writePair p v).trace = s.trace := by
  unfold State.writePair; split <;> rfl
@[simp] theorem State.writePair_cfg (s : State) (p : PairSel) (v : Addr) : (s.writePair p v).cfg = s.cfg := by
  unfold State.writePair; split <;> rfl

/-! ### `State.applyChange` changes only: units, cfg -/

@[simp] theorem State.applyChange_cpu (s : State) (ch : Change) : (s.applyChange ch).cpu = s.cpu := rfl
@[simp] theorem State.applyChange_seq (s : State) (ch : Change) : (s.applyChange ch).seq = s.seq := rfl
@[simp] theorem State.applyChange_ic (s : State) (ch : Change) : (s.applyChange ch).ic = s.ic := rfl
@[simp] theorem State.applyChange_paging (s : State) (ch : Change) : (s.applyChange ch).paging = s.paging := rfl
@[simp] theorem State.applyChange_board (s : State) (ch : Change) : (s.applyChange ch).board = s.board := rfl
@[simp] theorem State.applyChange_timing (s : State) (ch : Change) : (s.applyChange ch).timing = s.timing := rfl
@[simp] theorem State.applyChange_input (s : State) (ch : Change) : (s.applyChange ch).input = s.input := rfl
@[simp] theorem State.applyChange_failed (s : State) (ch : Change) : (s.applyChange ch).failed = s.failed := rfl
@[simp] theorem State.applyChange_queue (s : State) (ch : Change) : (s.applyChange ch).queue = s.queue := rfl
@[simp] theorem State.applyChange_trace (s : State) (ch : Change) : (s.applyChange ch).trace = s.trace := rfl

/-! ### `State.logBus` changes only: timing -/

@[simp] theorem State.logBus_cpu (s : State) (v : Byte) : (s.logBus v).cpu = s.cpu := rfl
@[simp] theorem State.logBus_seq (s : State) (v : Byte) : (s.logBus v).seq = s.seq := rfl
@[simp] theorem State.logBus_ic (s : State) (v : Byte) : (s.logBus v).ic = s.ic := rfl
@[simp] theorem State.logBus_paging (s : State) (v : Byte) : (s.logBus v).paging = s.paging := rfl
@[simp] theorem State.logBus_board (s : State) (v : Byte) : (s.logBus v).board = s.board := rfl
@[simp] theorem State.logBus_units (s : State) (v : Byte) : (s.logBus v).units = s.units := rfl
@[simp] theorem State.logBus_input (s : State) (v : Byte) : (s.logBus v).input = s.input := rfl
@[simp] theorem State.logBus_failed (s : State) (v : Byte) : (s.logBus v).failed = s.failed := rfl
@[simp] theorem State.logBus_queue (s : State) (v : Byte) : (s.logBus v).queue = s.queue := rfl
@[simp] theorem State.logBus_trace (s : State) (v : Byte) : (s.logBus v).trace = s.trace := rfl
@[simp] theorem State.logBus_cfg (s : State) (v : Byte) : (s.logBus v).cfg = s.cfg := rfl

/-! ### `State.writeRam` changes only: paging -/

@[simp] theorem State.writeRam_cpu (s : State) (n o : Nat) (v : Byte) : (s.writeRam n o v).cpu = s.cpu := rfl
@[simp] theorem State.writeRam_seq (s : State) (n o : Nat) (v : Byte) : (s.writeRam n o v).seq = s.seq := rfl
@[simp] theorem State.writeRam_ic (s : State) (n o : Nat) (v : Byte) : (s.writeRam n o v).ic = s.ic := rfl
@[simp] theorem State.writeRam_board (s : State) (n o : Nat) (v : Byte) : (s.writeRam n o v).board = s.board := rfl
@[simp] theorem State.writeRam_units (s : State) (n o : Nat) (v : Byte) : (s.writeRam n o v).units = s.units := rfl
@[simp] theorem State.writeRam_timing (s : State) (n o : Nat) (v : Byte) : (s.writeRam n o v).timing = s.timing := rfl
@[simp] theorem State.writeRam_input (s : State) (n o : Nat) (v : Byte) : (s.writeRam n o v).input = s.input := rfl
@[simp] theorem State.writeRam_failed (s : State) (n o : Nat) (v : Byte) : (s.writeRam n o v).failed = s.failed := rfl
@[simp] theorem State.writeRam_queue (s : State) (n o : Nat) (v : Byte) : (s.writeRam n o v).queue = s.queue := rfl
@[simp] theorem State.writeRam_trace (s : State) (n o : Nat) (v : Byte) : (s.writeRam n o v).trace = s.trace := rfl
@[simp] theorem State.writeRam_cfg (s : State) (n o : Nat) (v : Byte) : (s.writeRam n o v).cfg = s.cfg := rfl

/-! ### `State.load` changes only: cpu, seq -/

@[simp] theorem State.load_ic (s : State) (t b : Byte) : (s.load t b).ic = s.ic := rfl
@[simp] theorem State.load_paging (s : State) (t b : Byte) : (s.load t b).paging = s.paging := rfl
@[simp] theorem State.load_board (s : State) (t b : Byte) : (s.load t b).board = s.board := rfl
@[simp] theorem State.load_units (s : State) (t b : Byte) : (s.load t b).units = s.units := rfl
@[simp] theorem State.load_timing (s : State) (t b : Byte) : (s.load t b).timing = s.timing := rfl
@[simp] theorem State.load_input (s : State) (t b : Byte) : (s.load t b).input = s.input := rfl
@[simp] theorem State.load_failed (s : State) (t b : Byte) : (s.load t b).failed = s.failed := rfl
@[simp] theorem State.load_queue (s : State) (t b : Byte) : (s.load t b).queue = s.queue := rfl
@[simp] theorem State.load_trace (s : State) (t b : Byte) : (s.load t b).trace = s.trace := rfl
@[simp] theorem State.load_cfg (s : State) (t b : Byte) : (s.load t b).cfg = s.cfg := rfl

/-! ### `State.bumpCursor` changes only: seq -/

@[simp] theorem State.bumpCursor_cpu (s : State) : (s.bumpCursor).cpu = s.cpu := rfl
@[simp] theorem State.bumpCursor_ic (s : State) : (s.bumpCursor).ic = s.ic := rfl
@[simp] theorem State.bumpCursor_paging (s : State) : (s.bumpCursor).paging = s.paging := rfl
@[simp] theorem State.bumpCursor_board (s : State) : (s.bumpCursor).board = s.board := rfl
@[simp] theorem State.bumpCursor_units (s : State) : (s.bumpCursor).units = s.units := rfl
@[simp] theorem State.bumpCursor_timing (s : State) : (s.bumpCursor).timing = s.timing := rfl
@[simp] theorem State.bumpCursor_input (s : State) : (s.bumpCursor).input = s.input := rfl
@[simp] theorem State.bumpCursor_failed (s : State) : (s.bumpCursor).failed = s.failed := rfl
@[simp] theorem State.bumpCursor_queue (s : State) : (s.bumpCursor).queue = s.queue := rfl
@[simp] theorem State.bumpCursor_trace (s : State) : (s.bumpCursor).trace = s.trace := rfl
@[simp] theorem State.bumpCursor_cfg (s : State) : (s.bumpCursor).cfg = s.cfg := rfl

/-! ### `State.raise` changes only: failed -/

@[simp] theorem State.raise_cpu (s : State) (e : Error) : (s.raise e).cpu = s.cpu := rfl
@[simp] theorem State.raise_seq (s : State) (e : Error) : (s.raise e).seq = s.seq := rfl
@[simp] theorem State.raise_ic (s : State) (e : Error) : (s.raise e).ic = s.ic := rfl
@[simp] theorem State.raise_paging (s : State) (e : Error) : (s.raise e).paging = s.paging := rfl
@[simp] theorem State.raise_board (s : State) (e : Error) : (s.raise e).board = s.board := rfl
@[simp] theorem State.raise_units (s : State) (e : Error) : (s.raise e).units = s.units := rfl
@[simp] theorem State.raise_timing (s : State) (e : Error) : (s.raise e).timing = s.timing := rfl
@[simp] theorem State.raise_input (s : State) (e : Error) : (s.raise e).input = s.input := rfl
@[simp] theorem State.raise_queue (s : State) (e : Error) : (s.raise e).queue = s.queue := rfl
@[simp] theorem State.raise_trace (s : State) (e : Error) : (s.raise e).trace = s.trace := rfl
@[simp] theorem State.raise_cfg (s : State) (e : Error) : (s.raise e).cfg = s.cfg := rfl

/-! ### `State.enter` changes only: cpu, seq, ic, trace -/

@[simp] theorem State.enter_paging (s : State) (i : Nat) : (s.enter i).paging = s.paging := rfl
@[simp] theorem State.enter_board (s : State) (i : Nat) : (s.enter i).board = s.board := rfl
@[simp] theorem State.enter_units (s : State) (i : Nat) : (s.enter i).units = s.units := rfl
@[simp] theorem State.enter_timing (s : State) (i : Nat) : (s.enter i).timing = s.timing := rfl
@[simp] theorem State.enter_input (s : State) (i : Nat) : (s.enter i).input = s.input := rfl
@[simp] theorem State.enter_failed (s : State) (i : Nat) : (s.enter i).failed = s.failed := rfl
@[simp] theorem State.enter_queue (s : State) (i : Nat) : (s.enter i).queue = s.queue := rfl
@[simp] theorem State.enter_cfg (s : State) (i : Nat) : (s.enter i).cfg = s.cfg := rfl

/-! ### `State.cancel` changes only: seq, trace -/

@[simp] theorem State.cancel_cpu (s : State) : (s.cancel).cpu = s.cpu := rfl
@[simp] theorem State.cancel_ic (s : State) : (s.cancel).ic = s.ic := rfl
@[simp] theorem State.cancel_paging (s : State) : (s.cancel).paging = s.paging := rfl
@[simp] theorem State.cancel_board (s : State) : (s.cancel).board = s.board := rfl
@[simp] theorem State.cancel_units (s : State) : (s.cancel).units = s.units := rfl
@[simp] theorem State.cancel_timing (s : State) : (s.cancel).timing = s.timing := rfl
@[simp] theorem State.cancel_input (s : State) : (s.cancel).input = s.input := rfl
@[simp] theorem State.cancel_failed (s : State) : (s.cancel).failed = s.failed := rfl
@[simp] theorem State.cancel_queue (s : State) : (s.cancel).queue = s.queue := rfl
@[simp] theorem State.cancel_cfg (s : State) : (s.cancel).cfg = s.cfg := rfl

/-! ### `State.acknowledge` changes only: cpu, ic, trace -/

@[simp] theorem State.acknowledge_seq (s : State) (v : Addr) : (s.acknowledge v).seq = s.seq := rfl
@[simp] theorem State.acknowledge_paging (s : State) (v : Addr) : (s.acknowledge v).paging = s.paging := rfl
@[simp] theorem State.acknowledge_board (s : State) (v : Addr) : (s.acknowledge v).board = s.board := rfl
@[simp] theorem State.acknowledge_units (s : State) (v : Addr) : (s.acknowledge v).units = s.units := rfl
@[simp] theorem State.acknowledge_timing (s : State) (v : Addr) : (s.acknowledge v).timing = s.timing := rfl
@[simp] theorem State.acknowledge_input (s : State) (v : Addr) : (s.acknowledge v).input = s.input := rfl
@[simp] theorem State.acknowledge_failed (s : State) (v : Addr) : (s.acknowledge v).failed = s.failed := rfl
@[simp] theorem State.acknowledge_queue (s : State) (v : Addr) : (s.acknowledge v).queue = s.queue := rfl
@[simp] theorem State.acknowledge_cfg (s : State) (v : Addr) : (s.acknowledge v).cfg = s.cfg := rfl

/-! ### `State.endCancelled` changes only: ic -/

@[simp] theorem State.endCancelled_cpu (s : State) : (s.endCancelled).cpu = s.cpu := rfl
@[simp] theorem State.endCancelled_seq (s : State) : (s.endCancelled).seq = s.seq := rfl
@[simp] theorem State.endCancelled_paging (s : State) : (s.endCancelled).paging = s.paging := rfl
@[simp] theorem State.endCancelled_board (s : State) : (s.endCancelled).board = s.board := rfl
@[simp] theorem State.endCancelled_units (s : State) : (s.endCancelled).units = s.units := rfl
@[simp] theorem State.endCancelled_timing (s : State) : (s.endCancelled).timing = s.timing := rfl
@[simp] theorem State.endCancelled_input (s : State) : (s.endCancelled).input = s.input := rfl
@[simp] theorem State.endCancelled_failed (s : State) : (s.endCancelled).failed = s.failed := rfl
@[simp] theorem State.endCancelled_queue (s : State) : (s.endCancelled).queue = s.queue := rfl
@[simp] theorem State.endCancelled_trace (s : State) : (s.endCancelled).trace = s.trace := rfl
@[simp] theorem State.endCancelled_cfg (s : State) : (s.endCancelled).cfg = s.cfg := rfl

/-! ### `State.icUpdate` changes only: ic -/

@[simp] theorem State.icUpdate_cpu (s : State) : (s.icUpdate).cpu = s.cpu := by
  unfold State.icUpdate; repeat (first | rfl | split)
@[simp] theorem State.icUpdate_seq (s : State) : (s.icUpdate).seq = s.seq := by
  unfold State.icUpdate; repeat (first | rfl | split)
@[simp] theorem State.icUpdate_paging (s : State) : (s.icUpdate).paging = s.paging := by
  unfold State.icUpdate; repeat (first | rfl | split)
@[simp] theorem State.icUpdate_board (s : State) : (s.icUpdate).board = s.board := by
  unfold State.icUpdate; repeat (first | rfl | split)
@[simp] theorem State.icUpdate_units (s : State) : (s.icUpdate).units = s.units := by
  unfold State.icUpdate; repeat (first | rfl | split)
@[simp] theorem State.icUpdate_timing (s : State) : (s.icUpdate).timing = s.timing := by
  unfold State.icUpdate; repeat (first | rfl | split)
@[simp] theorem State.icUpdate_input (s : State) : (s.icUpdate).input = s.input := by
  unfold State.icUpdate; repeat (first | rfl | split)
@[simp] theorem State.icUpdate_failed (s : State) : (s.icUpdate).failed = s.failed := by
  unfold State.icUpdate; repeat (first | rfl | split)
@[simp] theorem State.icUpdate_queue (s : State) : (s.icUpdate).queue = s.queue := by
  unfold State.icUpdate; repeat (first | rfl | split)
@[simp] theorem State.icUpdate_trace (s : State) : (s.icUpdate).trace = s.trace := by
  unfold State.icUpdate; repeat (first | rfl | split)
@[simp] theorem State.icUpdate_cfg (s : State) : (s.icUpdate).cfg = s.cfg := by
  unfold State.icUpdate; repeat (first | rfl | split)

/-! ### `State.setPstate` changes only: units -/

@[simp] theorem State.setPstate_cpu (s : State) (k : Nat) (ps : List Nat) : (s.setPstate k ps).cpu = s.cpu := rfl
@[simp] theorem State.setPstate_seq (s : State) (k : Nat) (ps : List Nat) : (s.setPstate k ps).seq = s.seq := rfl
@[simp] theorem State.setPstate_ic (s : State) (k : Nat) (ps : List Nat) : (s.setPstate k ps).ic = s.ic := rfl
@[simp] theorem State.setPstate_paging (s : State) (k : Nat) (ps : List Nat) : (s.setPstate k ps).paging = s.paging := rfl
@[simp] theorem State.setPstate_board (s : State) (k : Nat) (ps : List Nat) : (s.setPstate k ps).board = s.board := rfl
@[simp] theorem State.setPstate_timing (s : State) (k : Nat) (ps : List Nat) : (s.setPstate k ps).timing = s.timing := rfl
@[simp] theorem State.setPstate_input (s : State) (k : Nat) (ps : List Nat) : (s.setPstate k ps).input = s.input := rfl
@[simp] theorem State.setPstate_failed (s : State) (k : Nat) (ps : List Nat) : (s.setPstate k ps).failed = s.failed := rfl
@[simp] theorem State.setPstate_queue (s : State) (k : Nat) (ps : List Nat) : (s.setPstate k ps).queue = s.queue := rfl
@[simp] theorem State.setPstate_trace (s : State) (k : Nat) (ps : List Nat) : (s.setPstate k ps).trace = s.trace := rfl
@[simp] theorem State.setPstate_cfg (s : State) (k : Nat) (ps : List Nat) : (s.setPstate k ps).cfg = s.cfg := rfl

/-! ### `State.setOstate` changes only: units -/

@[simp] theorem State.setOstate_cpu (s : State) (k : Nat) (ps : List Nat) : (s.setOstate k ps).cpu = s.cpu := rfl
@[simp] theorem State.setOstate_seq (s : State) (k : Nat) (ps : List Nat) : (s.setOstate k ps).seq = s.seq := rfl
@[simp] theorem State.setOstate_ic (s : State) (k : Nat) (ps : List Nat) : (s.setOstate k ps).ic = s.ic := rfl
@[simp] theorem State.setOstate_paging (s : State) (k : Nat) (ps : List Nat) : (s.setOstate k ps).paging = s.paging := rfl
@[simp] theorem State.setOstate_board (s : State) (k : Nat) (ps : List Nat) : (s.setOstate k ps).board = s.board := rfl
@[simp] theorem State.setOstate_timing (s : State) (k : Nat) (ps : List Nat) : (s.setOstate k ps).timing = s.timing := rfl
@[simp] theorem State.setOstate_input (s : State) (k : Nat) (ps : List Nat) : (s.setOstate k ps).input = s.input := rfl
@[simp] theorem State.setOstate_failed (s : State) (k : Nat) (ps : List Nat) : (s.setOstate k ps).failed = s.failed := rfl
@[simp] theorem State.setOstate_queue (s : State) (k : Nat) (ps : List Nat) : (s.setOstate k ps).queue = s.queue := rfl
@[simp] theorem State.setOstate_trace (s : State) (k : Nat) (ps : List Nat) : (s.setOstate k ps).trace = s.trace := rfl
@[simp] theorem State.setOstate_cfg (s : State) (k : Nat) (ps : List Nat) : (s.setOstate k ps).cfg = s.cfg := rfl

/-! ### `State.driveLine` changes only: ic -/

@[simp] theorem State.driveLine_cpu (s : State) (ps : List Nat) (l : LineAct) : (s.driveLine ps l).cpu = s.cpu := by
  unfold State.driveLine; repeat (first | rfl | split)
@[simp] theorem State.driveLine_seq (s : State) (ps : List Nat) (l : LineAct) : (s.driveLine ps l).seq = s.seq := by
  unfold State.driveLine; repeat (first | rfl | split)
@[simp] theorem State.driveLine_paging (s : State) (ps : List Nat) (l : LineAct) : (s.driveLine ps l).paging = s.paging := by
  unfold State.driveLine; repeat (first | rfl | split)
@[simp] theorem State.driveLine_board (s : State) (ps : List Nat) (l : LineAct) : (s.driveLine ps l).board = s.board := by
  unfold State.driveLine; repeat (first | rfl | split)
@[simp] theorem State.driveLine_units (s : State) (ps : List Nat) (l : LineAct) : (s.driveLine ps l).units = s.units := by
  unfold State.driveLine; repeat (first | rfl | split)
@[simp] theorem State.driveLine_timing (s : State) (ps : List Nat) (l : LineAct) : (s.driveLine ps l).timing = s.timing := by
  unfold State.driveLine; repeat (first | rfl | split)
@[simp] theorem State.driveLine_input (s : State) (ps : List Nat) (l : LineAct) : (s.driveLine ps l).input = s.input := by
  unfold State.driveLine; repeat (first | rfl | split)
@[simp] theorem State.driveLine_failed (s : State) (ps : List Nat) (l : LineAct) : (s.driveLine ps l).failed = s.failed := by
  unfold State.driveLine; repeat (first | rfl | split)
@[simp] theorem State.driveLine_queue (s : State) (ps : List Nat) (l : LineAct) : (s.driveLine ps l).queue = s.queue := by
  unfold State.driveLine; repeat (first | rfl | split)
@[simp] theorem State.driveLine_trace (s : State) (ps : List Nat) (l : LineAct) : (s.driveLine ps l).trace = s.trace := by
  unfold State.driveLine; repeat (first | rfl | split)
@[simp] theorem State.driveLine_cfg (s : State) (ps : List Nat) (l : LineAct) : (s.driveLine ps l).cfg = s.cfg := by
  unfold State.driveLine; repeat (first | rfl | split)

/-! ### `State.remap` changes only: paging -/

@[simp] theorem State.remap_cpu (s : State) : (s.remap).cpu = s.cpu := rfl
@[simp] theorem State.remap_seq (s : State) : (s.remap).seq = s.seq := rfl
@[simp] theorem State.remap_ic (s : State) : (s.remap).ic = s.ic := rfl
@[simp] theorem State.remap_board (s : State) : (s.remap).board = s.board := rfl
@[simp] theorem State.remap_units (s : State) : (s.remap).units = s.units := rfl
@[simp] theorem State.remap_timing (s : State) : (s.remap).timing = s.timing := rfl
@[simp] theorem State.remap_input (s : State) : (s.remap).input = s.input := rfl
@[simp] theorem State.remap_failed (s : State) : (s.remap).failed = s.failed := rfl
@[simp] theorem State.remap_queue (s : State) : (s.remap).queue = s.queue := rfl
@[simp] theorem State.remap_trace (s : State) : (s.remap).trace = s.trace := rfl
@[simp] theorem State.remap_cfg (s : State) : (s.remap).cfg = s.cfg := rfl

/-! ### `State.icWrite` changes only: ic -/

@[simp] theorem State.icWrite_cpu (s : State) (q : Addr) (v : Byte) : (s.icWrite q v).cpu = s.cpu := by
  unfold State.icWrite; split <;> rfl
@[simp] theorem State.icWrite_seq (s : State) (q : Addr) (v : Byte) : (s.icWrite q v).seq = s.seq := by
  unfold State.icWrite; split <;> rfl
@[simp] theorem State.icWrite_paging (s : State) (q : Addr) (v : Byte) : (s.icWrite q v).paging = s.paging := by
  unfold State.icWrite; split <;> rfl
@[simp] theorem State.icWrite_board (s : State) (q : Addr) (v : Byte) : (s.icWrite q v).board = s.board := by
  unfold State.icWrite; split <;> rfl
@[simp] theorem State.icWrite_units (s : State) (q : Addr) (v : Byte) : (s.icWrite q v).units = s.units := by
  unfold State.icWrite; split <;> rfl
@[simp] theorem State.icWrite_timing (s : State) (q : Addr) (v : Byte) : (s.icWrite q v).timing = s.timing := by
  unfold State.icWrite; split <;> rfl
@[simp] theorem State.icWrite_input (s : State) (q : Addr) (v : Byte) : (s.icWrite q v).input = s.input := by
  unfold State.icWrite; split <;> rfl
@[simp] theorem State.icWrite_failed (s : State) (q : Addr) (v : Byte) : (s.icWrite q v).failed = s.failed := by
  unfold State.icWrite; split <;> rfl
@[simp] theorem State.icWrite_queue (s : State) (q : Addr) (v : Byte) : (s.icWrite q v).queue = s.queue := by
  unfold State.icWrite; split <;> rfl
@[simp] theorem State.icWrite_trace (s : State) (q : Addr) (v : Byte) : (s.icWrite q v).trace = s.trace := by
  unfold State.icWrite; split <;> rfl
@[simp] theorem State.icWrite_cfg (s : State) (q : Addr) (v : Byte) : (s.icWrite q v).cfg = s.cfg := by
  unfold State.icWrite; split <;> rfl

/-! ### `State.pagingWrite` changes only: paging -/

@[simp] theorem State.pagingWrite_cpu (s : State) (q : Addr) (v : Byte) : (s.pagingWrite q v).cpu = s.cpu := by
  unfold State.pagingWrite; split <;> rfl
@[simp] theorem State.pagingWrite_seq (s : State) (q : Addr) (v : Byte) : (s.pagingWrite q v).seq = s.seq := by
  unfold State.pagingWrite; split <;> rfl
@[simp] theorem State.pagingWrite_ic (s : State) (q : Addr) (v : Byte) : (s.pagingWrite q v).ic = s.ic := by
  unfold State.pagingWrite; split <;> rfl
@[simp] theorem State.pagingWrite_board (s : State) (q : Addr) (v : Byte) : (s.pagingWrite q v).board = s.board := by
  unfold State.pagingWrite; split <;> rfl
@[simp] theorem State.pagingWrite_units (s : State) (q : Addr) (v : Byte) : (s.pagingWrite q v).units = s.units := by
  unfold State.pagingWrite; split <;> rfl
@[simp] theorem State.pagingWrite_timing (s : State) (q : Addr) (v : Byte) : (s.pagingWrite q v).timing = s.timing := by
  unfold State.pagingWrite; split <;> rfl
@[simp] theorem State.pagingWrite_input (s : State) (q : Addr) (v : Byte) : (s.pagingWrite q v).input = s.input := by
  unfold State.pagingWrite; split <;> rfl
@[simp] theorem State.pagingWrite_failed (s : State) (q : Addr) (v : Byte) : (s.pagingWrite q v).failed = s.failed := by
  unfold State.pagingWrite; split <;> rfl
@[simp] theorem State.pagingWrite_queue (s : State) (q : Addr) (v : Byte) : (s.pagingWrite q v).queue = s.queue := by
  unfold State.pagingWrite; split <;> rfl
@[simp] theorem State.pagingWrite_trace (s : State) (q : Addr) (v : Byte) : (s.pagingWrite q v).trace = s.trace := by
  unfold State.pagingWrite; split <;> rfl
@[simp] theorem State.pagingWrite_cfg (s : State) (q : Addr) (v : Byte) : (s.pagingWrite q v).cfg = s.cfg := by
  unfold State.pagingWrite; split <;> rfl

/-! ### `State.boardRamWrite` changes only: paging -/

@[simp] theorem State.boardRamWrite_cpu (s : State) (b : BoardCfg) (a : Nat) (v : Byte) : (s.boardRamWrite b a v).cpu = s.cpu := by
  unfold State.boardRamWrite; repeat (first | rfl | split)
@[simp] theorem State.boardRamWrite_seq (s : State) (b : BoardCfg) (a : Nat) (v : Byte) : (s.boardRamWrite b a v).seq = s.seq := by
  unfold State.boardRamWrite; repeat (first | rfl | split)
@[simp] theorem State.boardRamWrite_ic (s : State) (b : BoardCfg) (a : Nat) (v : Byte) : (s.boardRamWrite b a v).ic = s.ic := by
  unfold State.boardRamWrite; repeat (first | rfl | split)
@[simp] theorem State.boardRamWrite_board (s : State) (b : BoardCfg) (a : Nat) (v : Byte) : (s.boardRamWrite b a v).board = s.board := by
  unfold State.boardRamWrite; repeat (first | rfl | split)
@[simp] theorem State.boardRamWrite_units (s : State) (b : BoardCfg) (a : Nat) (v : Byte) : (s.boardRamWrite b a v).units = s.units := by
  unfold State.boardRamWrite; repeat (first | rfl | split)
@[simp] theorem State.boardRamWrite_timing (s : State) (b : BoardCfg) (a : Nat) (v : Byte) : (s.boardRamWrite b a v).timing = s.timing := by
  unfold State.boardRamWrite; repeat (first | rfl | split)
@[simp] theorem State.boardRamWrite_input (s : State) (b : BoardCfg) (a : Nat) (v : Byte) : (s.boardRamWrite b a v).input = s.input := by
  unfold State.boardRamWrite; repeat (first | rfl | split)
@[simp] theorem State.boardRamWrite_failed (s : State) (b : BoardCfg) (a : Nat) (v : Byte) : (s.boardRamWrite b a v).failed = s.failed := by
  unfold State.boardRamWrite; repeat (first | rfl | split)
@[simp] theorem State.boardRamWrite_queue (s : State) (b : BoardCfg) (a : Nat) (v : Byte) : (s.boardRamWrite b a v).queue = s.queue := by
  unfold State.boardRamWrite; repeat (first | rfl | split)
@[simp] theorem State.boardRamWrite_trace (s : State) (b : BoardCfg) (a : Nat) (v : Byte) : (s.boardRamWrite b a v).trace = s.trace := by
  unfold State.boardRamWrite; repeat (first | rfl | split)
@[simp] theorem State.boardRamWrite_cfg (s : State) (b : BoardCfg) (a : Nat) (v : Byte) : (s.boardRamWrite b a v).cfg = s.cfg := by
  unfold State.boardRamWrite; repeat (first | rfl | split)

/-! ### The board's actions change only the board's registers and RAM -/

@[simp] theorem State.boardAct_cpu (s : State) (b : BoardCfg) (x y : Nat) (t : BoardAct) : (s.boardAct b x y t).cpu = s.cpu := by
  unfold State.boardAct; simp only; repeat (first | rfl | split | simp)
@[simp] theorem State.boardActs_cpu (s : State) (b : BoardCfg) (x y : Nat) (l : List BoardAct) : (s.boardActs b x y l).cpu = s.cpu := by
  unfold State.boardActs; induction l generalizing s with
  | nil => rfl
  | cons t l ih => rw [List.foldl_cons, ih]; simp
@[simp] theorem State.boardAct_seq (s : State) (b : BoardCfg) (x y : Nat) (t : BoardAct) : (s.boardAct b x y t).seq = s.seq := by
  unfold State.boardAct; simp only; repeat (first | rfl | split | simp)
@[simp] theorem State.boardActs_seq (s : State) (b : BoardCfg) (x y : Nat) (l : List BoardAct) : (s.boardActs b x y l).seq = s.seq := by
  unfold State.boardActs; induction l generalizing s with
  | nil => rfl
  | cons t l ih => rw [List.foldl_cons, ih]; simp
@[simp] theorem State.boardAct_ic (s : State) (b : BoardCfg) (x y : Nat) (t : BoardAct) : (s.boardAct b x y t).ic = s.ic := by
  unfold State.boardAct; simp only; repeat (first | rfl | split | simp)
@[simp] theorem State.boardActs_ic (s : State) (b : BoardCfg) (x y : Nat) (l : List BoardAct) : (s.boardActs b x y l).ic = s.ic := by
  unfold State.boardActs; induction l generalizing s with
  | nil => rfl
  | cons t l ih => rw [List.foldl_cons, ih]; simp
@[simp] theorem State.boardAct_units (s : State) (b : BoardCfg) (x y : Nat) (t : BoardAct) : (s.boardAct b x y t).units = s.units := by
  unfold State.boardAct; simp only; repeat (first | rfl | split | simp)
@[simp] theorem State.boardActs_units (s : State) (b : BoardCfg) (x y : Nat) (l : List BoardAct) : (s.boardActs b x y l).units = s.units := by
  unfold State.boardActs; induction l generalizing s with
  | nil => rfl
  | cons t l ih => rw [List.foldl_cons, ih]; simp
@[simp] theorem State.boardAct_timing (s : State) (b : BoardCfg) (x y : Nat) (t : BoardAct) : (s.boardAct b x y t).timing = s.timing := by
  unfold State.boardAct; simp only; repeat (first | rfl | split | simp)
@[simp] theorem State.boardActs_timing (s : State) (b : BoardCfg) (x y : Nat) (l : List BoardAct) : (s.boardActs b x y l).timing = s.timing := by
  unfold State.boardActs; induction l generalizing s with
  | nil => rfl
  | cons t l ih => rw [List.foldl_cons, ih]; simp
@[simp] theorem State.boardAct_input (s : State) (b : BoardCfg) (x y : Nat) (t : BoardAct) : (s.boardAct b x y t).input = s.input := by
  unfold State.boardAct; simp only; repeat (first | rfl | split | simp)
@[simp] theorem State.boardActs_input (s : State) (b : BoardCfg) (x y : Nat) (l : List BoardAct) : (s.boardActs b x y l).input = s.input := by
  unfold State.boardActs; induction l generalizing s with
  | nil => rfl
  | cons t l ih => rw [List.foldl_cons, ih]; simp
@[simp] theorem State.boardAct_failed (s : State) (b : BoardCfg) (x y : Nat) (t : BoardAct) : (s.boardAct b x y t).failed = s.failed := by
  unfold State.boardAct; simp only; repeat (first | rfl | split | simp)
@[simp] theorem State.boardActs_failed (s : State) (b : BoardCfg) (x y : Nat) (l : List BoardAct) : (s.boardActs b x y l).failed = s.failed := by
  unfold State.boardActs; induction l generalizing s with
  | nil => rfl
  | cons t l ih => rw [List.foldl_cons, ih]; simp
@[simp] theorem State.boardAct_queue (s : State) (b : BoardCfg) (x y : Nat) (t : BoardAct) : (s.boardAct b x y t).queue = s.queue := by
  unfold State.boardAct; simp only; repeat (first | rfl | split | simp)
@[simp] theorem State.boardActs_queue (s : State) (b : BoardCfg) (x y : Nat) (l : List BoardAct) : (s.boardActs b x y l).queue = s.queue := by
  unfold State.boardActs; induction l generalizing s with
  | nil => rfl
  | cons t l ih => rw [List.foldl_cons, ih]; simp
@[simp] theorem State.boardAct_trace (s : State) (b : BoardCfg) (x y : Nat) (t : BoardAct) : (s.boardAct b x y t).trace = s.trace := by
  unfold State.boardAct; simp only; repeat (first | rfl | split | simp)
@[simp] theorem State.boardActs_trace (s : State) (b : BoardCfg) (x y : Nat) (l : List BoardAct) : (s.boardActs b x y l).trace = s.trace := by
  unfold State.boardActs; induction l generalizing s with
  | nil => rfl
  | cons t l ih => rw [List.foldl_cons, ih]; simp
@[simp] theorem State.boardAct_cfg (s : State) (b : BoardCfg) (x y : Nat) (t : BoardAct) : (s.boardAct b x y t).cfg = s.cfg := by
  unfold State.boardAct; simp only; repeat (first | rfl | split | simp)
@[simp] theorem State.boardActs_cfg (s : State) (b : BoardCfg) (x y : Nat) (l : List BoardAct) : (s.boardActs b x y l).cfg = s.cfg := by
  unfold State.boardActs; induction l generalizing s with
  | nil => rfl
  | cons t l ih => rw [List.foldl_cons, ih]; simp

/-! ### A frame boundary and the passing of time leave everything but time, the input latch and what is queued -/

@[simp] theorem State.frameBoundary_cpu (s : State) : s.frameBoundary.cpu = s.cpu := by
  have h : ∀ (l : List Change) (t : State), (l.foldl State.applyChange t).cpu = t.cpu := by
    intro l
    induction l with
    | nil => intro t; rfl
    | cons x l ih => intro t; rw [List.foldl_cons, ih]; simp
  exact (h _ _).trans rfl
@[simp] theorem State.frameBoundary_seq (s : State) : s.frameBoundary.seq = s.seq := by
  have h : ∀ (l : List Change) (t : State), (l.foldl State.applyChange t).seq = t.seq := by
    intro l
    induction l with
    | nil => intro t; rfl
    | cons x l ih => intro t; rw [List.foldl_cons, ih]; simp
  exact (h _ _).trans rfl
@[simp] theorem State.frameBoundary_ic (s : State) : s.frameBoundary.ic = s.ic := by
  have h : ∀ (l : List Change) (t : State), (l.foldl State.applyChange t).ic = t.ic := by
    intro l
    induction l with
    | nil => intro t; rfl
    | cons x l ih => intro t; rw [List.foldl_cons, ih]; simp
  exact (h _ _).trans rfl
@[simp] theorem State.frameBoundary_paging (s : State) : s.frameBoundary.paging = s.paging := by
  have h : ∀ (l : List Change) (t : State), (l.foldl State.applyChange t).paging = t.paging := by
    intro l
    induction l with
    | nil => intro t; rfl
    | cons x l ih => intro t; rw [List.foldl_cons, ih]; simp
  exact (h _ _).trans rfl
@[simp] theorem State.frameBoundary_board (s : State) : s.frameBoundary.board = s.board := by
  have h : ∀ (l : List Change) (t : State), (l.foldl State.applyChange t).board = t.board := by
    intro l
    induction l with
    | nil => intro t; rfl
    | cons x l ih => intro t; rw [List.foldl_cons, ih]; simp
  exact (h _ _).trans rfl
@[simp] theorem State.frameBoundary_timing (s : State) : s.frameBoundary.timing = s.timing := by
  have h : ∀ (l : List Change) (t : State), (l.foldl State.applyChange t).timing = t.timing := by
    intro l
    induction l with
    | nil => intro t; rfl
    | cons x l ih => intro t; rw [List.foldl_cons, ih]; simp
  exact (h _ _).trans rfl
@[simp] theorem State.frameBoundary_failed (s : State) : s.frameBoundary.failed = s.failed := by
  have h : ∀ (l : List Change) (t : State), (l.foldl State.applyChange t).failed = t.failed := by
    intro l
    induction l with
    | nil => intro t; rfl
    | cons x l ih => intro t; rw [List.foldl_cons, ih]; simp
  exact (h _ _).trans rfl
@[simp] theorem State.frameBoundary_trace (s : State) : s.frameBoundary.trace = s.trace := by
  have h : ∀ (l : List Change) (t : State), (l.foldl State.applyChange t).trace = t.trace := by
    intro l
    induction l with
    | nil => intro t; rfl
    | cons x l ih => intro t; rw [List.foldl_cons, ih]; simp
  exact (h _ _).trans rfl
@[simp] theorem State.wraps_cpu (k : Nat) (s : State) : (State.wraps k s).cpu = s.cpu := by
  induction k generalizing s with
  | zero => rfl
  | succ k ih => rw [State.wraps, ih]; simp
@[simp] theorem State.advance_cpu (s : State) (n : Nat) : (s.advance n).cpu = s.cpu := by
  simp [State.advance]
@[simp] theorem State.wraps_seq (k : Nat) (s : State) : (State.wraps k s).seq = s.seq := by
  induction k generalizing s with
  | zero => rfl
  | succ k ih => rw [State.wraps, ih]; simp
@[simp] theorem State.advance_seq (s : State) (n : Nat) : (s.advance n).seq = s.seq := by
  simp [State.advance]
@[simp] theorem State.wraps_ic (k : Nat) (s : State) : (State.wraps k s).ic = s.ic := by
  induction k generalizing s with
  | zero => rfl
  | succ k ih => rw [State.wraps, ih]; simp
@[simp] theorem State.advance_ic (s : State) (n : Nat) : (s.advance n).ic = s.ic := by
  simp [State.advance]
@[simp] theorem State.wraps_paging (k : Nat) (s : State) : (State.wraps k s).paging = s.paging := by
  induction k generalizing s with
  | zero => rfl
  | succ k ih => rw [State.wraps, ih]; simp
@[simp] theorem State.advance_paging (s : State) (n : Nat) : (s.advance n).paging = s.paging := by
  simp [State.advance]
@[simp] theorem State.wraps_board (k : Nat) (s : State) : (State.wraps k s).board = s.board := by
  induction k generalizing s with
  | zero => rfl
  | succ k ih => rw [State.wraps, ih]; simp
@[simp] theorem State.advance_board (s : State) (n : Nat) : (s.advance n).board = s.board := by
  simp [State.advance]
@[simp] theorem State.wraps_failed (k : Nat) (s : State) : (State.wraps k s).failed = s.failed := by
  induction k generalizing s with
  | zero => rfl
  | succ k ih => rw [State.wraps, ih]; simp
@[simp] theorem State.advance_failed (s : State) (n : Nat) : (s.advance n).failed = s.failed := by
  simp [State.advance]
@[simp] theorem State.wraps_trace (k : Nat) (s : State) : (State.wraps k s).trace = s.trace := by
  induction k generalizing s with
  | zero => rfl
  | succ k ih => rw [State.wraps, ih]; simp
@[simp] theorem State.advance_trace (s : State) (n : Nat) : (s.advance n).trace = s.trace := by
  simp [State.advance]

end Sys2Proof.Machine
end

