-- ==== Sys2Proof/Laws/Time.lean ====
section
/-! SUPPORT. What the passing of time and a frame boundary do (10_state.md R47, 44_host.md R258), and that they keep the
fixed configuration. -/

namespace Sys2Proof

/-! ### Equal fixed configurations agree on every field a reconfiguration leaves -/

theorem Cfg.of_fixed {β : Type} {c c' : Cfg} (f : Cfg → β) (hf : ∀ x, f x.fixed = f x) (h : c.fixed = c'.fixed) :
    f c = f c' := (hf c).symm.trans ((congrArg f h).trans (hf c'))

theorem Cfg.resetR8_of_fixed {c c' : Cfg} (h : c.fixed = c'.fixed) : c.resetR8 = c'.resetR8 := Cfg.of_fixed (fun x => x.resetR8) (fun _ => rfl) h
theorem Cfg.resetFlags_of_fixed {c c' : Cfg} (h : c.fixed = c'.fixed) : c.resetFlags = c'.resetFlags := Cfg.of_fixed (fun x => x.resetFlags) (fun _ => rfl) h
theorem Cfg.resetSp_of_fixed {c c' : Cfg} (h : c.fixed = c'.fixed) : c.resetSp = c'.resetSp := Cfg.of_fixed (fun x => x.resetSp) (fun _ => rfl) h
theorem Cfg.resetLat_of_fixed {c c' : Cfg} (h : c.fixed = c'.fixed) : c.resetLat = c'.resetLat := Cfg.of_fixed (fun x => x.resetLat) (fun _ => rfl) h
theorem Cfg.resetW_of_fixed {c c' : Cfg} (h : c.fixed = c'.fixed) : c.resetW = c'.resetW := Cfg.of_fixed (fun x => x.resetW) (fun _ => rfl) h
theorem Cfg.pairMap_of_fixed {c c' : Cfg} (h : c.fixed = c'.fixed) : c.pairMap = c'.pairMap := Cfg.of_fixed (fun x => x.pairMap) (fun _ => rfl) h
theorem Cfg.alu_of_fixed {c c' : Cfg} (h : c.fixed = c'.fixed) : c.alu = c'.alu := Cfg.of_fixed (fun x => x.alu) (fun _ => rfl) h
theorem Cfg.aluElse_of_fixed {c c' : Cfg} (h : c.fixed = c'.fixed) : c.aluElse = c'.aluElse := Cfg.of_fixed (fun x => x.aluElse) (fun _ => rfl) h
theorem Cfg.tables_of_fixed {c c' : Cfg} (h : c.fixed = c'.fixed) : c.tables = c'.tables := Cfg.of_fixed (fun x => x.tables) (fun _ => rfl) h
theorem Cfg.nIrq_of_fixed {c c' : Cfg} (h : c.fixed = c'.fixed) : c.nIrq = c'.nIrq := Cfg.of_fixed (fun x => x.nIrq) (fun _ => rfl) h
theorem Cfg.vector_of_fixed {c c' : Cfg} (h : c.fixed = c'.fixed) : c.vector = c'.vector := Cfg.of_fixed (fun x => x.vector) (fun _ => rfl) h
theorem Cfg.irqVariant_of_fixed {c c' : Cfg} (h : c.fixed = c'.fixed) : c.irqVariant = c'.irqVariant := Cfg.of_fixed (fun x => x.irqVariant) (fun _ => rfl) h
theorem Cfg.frameCycles_of_fixed {c c' : Cfg} (h : c.fixed = c'.fixed) : c.frameCycles = c'.frameCycles := Cfg.of_fixed (fun x => x.frameCycles) (fun _ => rfl) h
theorem Cfg.ct_of_fixed {c c' : Cfg} (h : c.fixed = c'.fixed) : c.ct = c'.ct := Cfg.of_fixed (fun x => x.ct) (fun _ => rfl) h
theorem Cfg.romBanks_of_fixed {c c' : Cfg} (h : c.fixed = c'.fixed) : c.romBanks = c'.romBanks := Cfg.of_fixed (fun x => x.romBanks) (fun _ => rfl) h
theorem Cfg.ramBanks_of_fixed {c c' : Cfg} (h : c.fixed = c'.fixed) : c.ramBanks = c'.ramBanks := Cfg.of_fixed (fun x => x.ramBanks) (fun _ => rfl) h
theorem Cfg.rom_of_fixed {c c' : Cfg} (h : c.fixed = c'.fixed) : c.rom = c'.rom := Cfg.of_fixed (fun x => x.rom) (fun _ => rfl) h
theorem Cfg.ramInit_of_fixed {c c' : Cfg} (h : c.fixed = c'.fixed) : c.ramInit = c'.ramInit := Cfg.of_fixed (fun x => x.ramInit) (fun _ => rfl) h
theorem Cfg.nRegs_of_fixed {c c' : Cfg} (h : c.fixed = c'.fixed) : c.paging.nRegs = c'.paging.nRegs := Cfg.of_fixed (fun x => x.paging.nRegs) (fun _ => rfl) h
theorem Cfg.initRegs_of_fixed {c c' : Cfg} (h : c.fixed = c'.fixed) : c.paging.initRegs = c'.paging.initRegs := Cfg.of_fixed (fun x => x.paging.initRegs) (fun _ => rfl) h
theorem Cfg.board_of_fixed {c c' : Cfg} (h : c.fixed = c'.fixed) : c.board = c'.board := Cfg.of_fixed (fun x => x.board) (fun _ => rfl) h

theorem Cfg.irqMask_of_fixed {c c' : Cfg} (h : c.fixed = c'.fixed) : c.irqMask = c'.irqMask :=
  Cfg.of_fixed (fun x => x.irqMask) (fun _ => rfl) h

theorem Cfg.prog?_of_fixed {c c' : Cfg} (h : c.fixed = c'.fixed) (t b : Byte) : c.prog? t b = c'.prog? t b :=
  Cfg.of_fixed (fun x => x.prog? t b) (fun _ => rfl) h

theorem Cfg.table?_of_fixed {c c' : Cfg} (h : c.fixed = c'.fixed) (t : Byte) : c.table? t = c'.table? t :=
  Cfg.of_fixed (fun x => x.table? t) (fun _ => rfl) h

theorem Cfg.pair?_of_fixed {c c' : Cfg} (h : c.fixed = c'.fixed) (j : BitVec 6) : c.pair? j = c'.pair? j :=
  Cfg.of_fixed (fun x => x.pair? j) (fun _ => rfl) h

theorem Cfg.aluFn_of_fixed {c c' : Cfg} (h : c.fixed = c'.fixed) (n d s f : Byte) : c.aluFn n d s f = c'.aluFn n d s f :=
  Cfg.of_fixed (fun x => x.aluFn n d s f) (fun _ => rfl) h

theorem Cfg.pagingUpdate_of_fixed {c c' : Cfg} (h : c.fixed = c'.fixed) (r : List Byte) :
    c.pagingUpdate r = c'.pagingUpdate r := Cfg.of_fixed (fun x => x.pagingUpdate r) (fun _ => rfl) h

theorem Machine.ProgId.prog_of_fixed {c c' : Cfg} (h : c.fixed = c'.fixed) (p : Machine.ProgId) : p.prog c = p.prog c' :=
  Cfg.of_fixed (fun x => p.prog x) (fun _ => rfl) h

namespace Machine

@[simp] theorem Change.applyCfg_fixed (c : Cfg) (ch : Change) : (Change.applyCfg c ch).fixed = c.fixed := by
  cases ch <;> rfl

theorem State.applyChanges_fixed (l : List Change) (s : State) : (l.foldl State.applyChange s).cfg.fixed = s.cfg.fixed := by
  induction l generalizing s with
  | nil => rfl
  | cons x l ih => rw [List.foldl_cons, ih]; exact Change.applyCfg_fixed s.cfg x

@[simp] theorem State.frameBoundary_fixed (s : State) : s.frameBoundary.cfg.fixed = s.cfg.fixed :=
  State.applyChanges_fixed s.queue _

@[simp] theorem State.wraps_fixed (k : Nat) (s : State) : (State.wraps k s).cfg.fixed = s.cfg.fixed := by
  induction k generalizing s with
  | zero => rfl
  | succ k ih => rw [State.wraps, ih]; exact State.frameBoundary_fixed _

@[simp] theorem State.advance_fixed (s : State) (n : Nat) : (s.advance n).cfg.fixed = s.cfg.fixed := State.wraps_fixed _ _

/-! ### `advance(n)` on the counters (R47) -/

theorem State.wraps_timing (k : Nat) (s : State) :
    (State.wraps k s).timing = { s.timing with frame := s.timing.frame + BitVec.ofNat 64 k } := by
  induction k generalizing s with
  | zero => simp [State.wraps]
  | succ k ih =>
    rw [State.wraps, ih, State.frameBoundary_timing]
    simp only [Timing.mk.injEq, true_and, and_true]
    rw [BitVec.add_assoc]
    congr 1
    rw [Nat.add_comm, BitVec.ofNat_add]
    rfl

/-- CYCLES grows by `n`, FRAME_POS and FRAME are the remainder and the quotient, the bus log is unchanged. -/
theorem State.advance_timing (s : State) (n : Nat) :
    (s.advance n).timing =
      { cycles := s.timing.cycles + BitVec.ofNat 64 n
        framePos := (s.timing.framePos + n) % s.cfg.frameCycles
        frame := s.timing.frame + BitVec.ofNat 64 ((s.timing.framePos + n) / s.cfg.frameCycles)
        buslog := s.timing.buslog } := by
  rw [State.advance, State.wraps_timing]

@[simp] theorem State.advance_buslog (s : State) (n : Nat) : (s.advance n).timing.buslog = s.timing.buslog := by
  rw [State.advance_timing]

@[simp] theorem State.advance_cycles (s : State) (n : Nat) :
    (s.advance n).timing.cycles = s.timing.cycles + BitVec.ofNat 64 n := by
  rw [State.advance_timing]

/-- Time does not depend on the CPU, the sequencer or the interrupt controller, and leaves them. -/
theorem State.advance_with (s : State) (c : Cpu) (q : Seq) (i : Ic) (n : Nat) :
    ({ s with cpu := c, seq := q, ic := i } : State).advance n = { s.advance n with cpu := c, seq := q, ic := i } := by
  have hl : ∀ (l : List Change) (u : State), l.foldl State.applyChange { u with cpu := c, seq := q, ic := i } =
      { l.foldl State.applyChange u with cpu := c, seq := q, ic := i } := by
    intro l
    induction l with
    | nil => exact fun u => rfl
    | cons x l ih => intro u; rw [List.foldl_cons, List.foldl_cons, ← ih]; rfl
  have hw : ∀ (k : Nat) (t : State), State.wraps k { t with cpu := c, seq := q, ic := i } =
      { State.wraps k t with cpu := c, seq := q, ic := i } := by
    intro k
    induction k with
    | zero => exact fun t => rfl
    | succ k ih =>
      intro t
      rw [State.wraps, State.wraps, ← ih]
      exact congrArg (State.wraps k) (hl t.queue
        { t with
          timing := { t.timing with frame := t.timing.frame + 1 }
          input := { t.input with cur := t.input.next }
          queue := [] })
  exact hw ((s.timing.framePos + n) / s.cfg.frameCycles)
    { s with timing := { s.timing with
        cycles := s.timing.cycles + BitVec.ofNat 64 n
        framePos := (s.timing.framePos + n) % s.cfg.frameCycles } }

/-- The cursor takes no part in time. -/
theorem State.advance_withSeq (s : State) (q : Seq) (n : Nat) :
    ({ s with seq := q } : State).advance n = { s.advance n with seq := q } := by
  have h := s.advance_with s.cpu q s.ic n
  simpa using h

/-! ### `advance(n)` with nothing queued -/

theorem State.frameBoundary_of_queue_nil (s : State) (h : s.queue = []) :
    s.frameBoundary = { s with input := { s.input with cur := s.input.next } } := by
  unfold State.frameBoundary
  rw [h]
  cases s
  simp_all

theorem State.wraps_of_queue_nil (k : Nat) (s : State) (h : s.queue = []) :
    (State.wraps k s).units = s.units ∧ (State.wraps k s).cfg = s.cfg ∧ (State.wraps k s).queue = [] ∧
      (State.wraps k s).input = { s.input with cur := if k = 0 then s.input.cur else s.input.next } := by
  induction k generalizing s with
  | zero => simp [State.wraps, h]
  | succ k ih =>
    have hq : ({ s with timing := { s.timing with frame := s.timing.frame + 1 } } : State).queue = [] := h
    rw [State.wraps, State.frameBoundary_of_queue_nil _ hq]
    obtain ⟨h1, h2, h3, h4⟩ := ih
      { s with timing := { s.timing with frame := s.timing.frame + 1 }, input := { s.input with cur := s.input.next } } h
    refine ⟨h1, h2, h3, h4.trans ?_⟩
    simp

/-- With nothing queued, time changes the counters and, at a frame boundary, the input. -/
theorem State.advance_of_queue_nil (s : State) (n : Nat) (h : s.queue = []) :
    (s.advance n).units = s.units ∧ (s.advance n).cfg = s.cfg ∧ (s.advance n).queue = [] ∧
      (s.advance n).input =
        { s.input with
          cur := if (s.timing.framePos + n) / s.cfg.frameCycles = 0 then s.input.cur else s.input.next } :=
  State.wraps_of_queue_nil _ _ h

/-! ### The configuration and the queue -/

theorem State.applyChanges_cfg (l : List Change) (s : State) :
    (l.foldl State.applyChange s).cfg = l.foldl Change.applyCfg s.cfg ∧ (l.foldl State.applyChange s).queue = s.queue := by
  induction l generalizing s with
  | nil => exact ⟨rfl, rfl⟩
  | cons x l ih => exact ih (s.applyChange x)

theorem State.frameBoundary_cfg (s : State) : s.frameBoundary.cfg = s.queuedCfg ∧ s.frameBoundary.queue = [] :=
  State.applyChanges_cfg s.queue _

/-- The passing of time either meets no frame boundary with changes, or applies the whole queue. -/
theorem State.wraps_cfg (k : Nat) (s : State) :
    ((State.wraps k s).cfg = s.cfg ∧ (State.wraps k s).queue = s.queue) ∨
      ((State.wraps k s).cfg = s.queuedCfg ∧ (State.wraps k s).queue = []) := by
  induction k generalizing s with
  | zero => exact .inl ⟨rfl, rfl⟩
  | succ k ih =>
    obtain ⟨h1, h2⟩ := State.frameBoundary_cfg { s with timing := { s.timing with frame := s.timing.frame + 1 } }
    refine .inr ?_
    rcases ih ({ s with timing := { s.timing with frame := s.timing.frame + 1 } } : State).frameBoundary with ⟨h3, h4⟩ | ⟨h3, h4⟩
    · exact ⟨h3.trans h1, h4.trans h2⟩
    · refine ⟨h3.trans ?_, h4⟩
      unfold State.queuedCfg
      rw [h2]
      exact h1

theorem State.advance_cfg (s : State) (n : Nat) :
    ((s.advance n).cfg = s.cfg ∧ (s.advance n).queue = s.queue) ∨
      ((s.advance n).cfg = s.queuedCfg ∧ (s.advance n).queue = []) := State.wraps_cfg _ _

/-- Time keeps a well-formed configuration with a well-formed queue. -/
theorem State.advance_wf {s : State} (n : Nat) (h : s.cfg.wf = true) (k : s.queuedCfg.wf = true) :
    (s.advance n).cfg.wf = true ∧ (s.advance n).queuedCfg.wf = true := by
  unfold State.queuedCfg at *
  rcases s.advance_cfg n with ⟨h1, h2⟩ | ⟨h1, h2⟩ <;> rw [h1, h2]
  · exact ⟨h, k⟩
  · exact ⟨k, k⟩

/-! ### The unit states keep step with the configuration -/

/-- One PSTATE for each configured unit. -/
def State.UnitsMatch (s : State) : Prop :=
  s.units.periph.length = s.cfg.periph.length ∧ s.units.observer.length = s.cfg.observers.length

theorem length_insertAt {α : Type} (l : List α) (k : Nat) (x : α) : (insertAt l k x).length = l.length + 1 := by
  simp only [insertAt, List.length_append, List.length_take, List.length_cons, List.length_drop]
  omega

theorem length_moveAt {α : Type} (l : List α) (k j : Nat) : (moveAt l k j).length = l.length := by
  unfold moveAt
  split
  · next x h =>
    have := (List.getElem?_eq_some_iff.mp h).1
    rw [length_insertAt, List.length_eraseIdx, if_pos this]
    omega
  · rfl

theorem State.applyChange_unitsMatch (s : State) (ch : Change) (h : s.UnitsMatch) : (s.applyChange ch).UnitsMatch := by
  obtain ⟨h1, h2⟩ := h
  cases ch <;>
    simp [State.UnitsMatch, State.applyChange, Change.applyCfg, Change.applyUnits, length_insertAt, length_moveAt, List.length_eraseIdx, h1, h2]

theorem State.frameBoundary_unitsMatch (s : State) (h : s.UnitsMatch) : s.frameBoundary.UnitsMatch := by
  have key : ∀ (l : List Change) (t : State), t.UnitsMatch → (l.foldl State.applyChange t).UnitsMatch := by
    intro l
    induction l with
    | nil => exact fun t ht => ht
    | cons x l ih => exact fun t ht => ih _ (State.applyChange_unitsMatch t x ht)
  exact key _ _ h

theorem State.wraps_unitsMatch (k : Nat) (s : State) (h : s.UnitsMatch) : (State.wraps k s).UnitsMatch := by
  induction k generalizing s with
  | zero => exact h
  | succ k ih => exact ih _ (State.frameBoundary_unitsMatch _ h)

theorem State.advance_unitsMatch (s : State) (n : Nat) (h : s.UnitsMatch) : (s.advance n).UnitsMatch :=
  State.wraps_unitsMatch _ _ h

end Machine

end Sys2Proof
end

