-- ==== Sys2Proof/Laws/Bus.lean ====
section
/-! SUPPORT. What the bus operations do (41_bus.md): their frames, and that what answers an address depends only on the
paging unit, the board, and the fixed configuration. -/

namespace Sys2Proof.Machine

/-! ### Window and offset (20_memory.md R77) -/

theorem off_lt (a : Addr) : off a < windowSize := Nat.mod_lt _ (by decide)

theorem win_lt (a : Addr) : win a < nWin := by
  have := a.isLt
  unfold win windowSize nWin
  omega

/-! ### The board writes nothing but its registers and RAM bytes of its window (43_board.md R234) -/

@[simp] theorem State.boardRamWrite_preg (s : State) (b : BoardCfg) (a : Nat) (v : Byte) :
    (s.boardRamWrite b a v).paging.preg = s.paging.preg := by
  unfold State.boardRamWrite; repeat (first | rfl | split)

@[simp] theorem State.boardRamWrite_sel (s : State) (b : BoardCfg) (a : Nat) (v : Byte) :
    (s.boardRamWrite b a v).paging.sel = s.paging.sel := by
  unfold State.boardRamWrite; repeat (first | rfl | split)

@[simp] theorem State.boardRamWrite_cont (s : State) (b : BoardCfg) (a : Nat) (v : Byte) :
    (s.boardRamWrite b a v).paging.cont = s.paging.cont := by
  unfold State.boardRamWrite; repeat (first | rfl | split)

@[simp] theorem State.boardRamWrite_vid (s : State) (b : BoardCfg) (a : Nat) (v : Byte) :
    (s.boardRamWrite b a v).paging.vid = s.paging.vid := by
  unfold State.boardRamWrite; repeat (first | rfl | split)

/-- A RAM byte behind some address of the board's window, as SEL maps it (R234). -/
def State.InWindow (s : State) (b : BoardCfg) (n o : Nat) : Prop :=
  ∃ a : Nat, b.lo ≤ a ∧ a ≤ b.hi ∧ s.base (BitVec.ofNat 16 a) = .ramByte n o

/-- What one or more board actions may do: SEL, CONT, VID, PREG stay, RAM keeps its canonical form, and a RAM byte
behind no address of the window stays. -/
structure State.BoardStep (s : State) (b : BoardCfg) (t : State) : Prop where
  preg : t.paging.preg = s.paging.preg
  sel : t.paging.sel = s.paging.sel
  cont : t.paging.cont = s.paging.cont
  vid : t.paging.vid = s.paging.vid
  ramWf : Memory.wf Memory.unlisted s.paging.ram = true → Memory.wf Memory.unlisted t.paging.ram = true
  ram : ∀ n o, o < windowSize → ¬ s.InWindow b n o → t.readRam n o = s.readRam n o

theorem State.BoardStep.refl (s : State) (b : BoardCfg) : s.BoardStep b s :=
  ⟨rfl, rfl, rfl, rfl, id, fun _ _ _ _ => rfl⟩

theorem State.base_of_sel {s t : State} (h : t.paging.sel = s.paging.sel) (a : Addr) : t.base a = s.base a := by
  unfold State.base; rw [h]

theorem State.BoardStep.trans {s t u : State} {b : BoardCfg} (h : s.BoardStep b t) (k : t.BoardStep b u) :
    s.BoardStep b u where
  preg := k.preg.trans h.preg
  sel := k.sel.trans h.sel
  cont := k.cont.trans h.cont
  vid := k.vid.trans h.vid
  ramWf := k.ramWf ∘ h.ramWf
  ram n o ho hn := by
    refine (k.ram n o ho ?_).trans (h.ram n o ho hn)
    rintro ⟨a, h1, h2, h3⟩
    exact hn ⟨a, h1, h2, (State.base_of_sel h.sel _).symm.trans h3⟩

theorem State.base_offset {s : State} {a : Addr} {n o : Nat} (h : s.base a = .ramByte n o) : o = off a := by
  unfold State.base at h
  split at h <;> simp_all

/-- The RAM byte a board may write lies behind an address of its window. -/
theorem State.boardRamAt_some {s : State} {b : BoardCfg} {a n o : Nat} (h : s.boardRamAt b a = some (n, o)) :
    b.lo ≤ a ∧ a ≤ b.hi ∧ s.base (BitVec.ofNat 16 a) = .ramByte n o := by
  unfold State.boardRamAt at h
  split at h
  · next hw =>
    split at h
    · next e => cases h; exact ⟨hw.1, hw.2, e⟩
    · cases h
  · cases h

/-- Outside a board's window `ReadBus` is the read of base memory (43_board.md R234). -/
theorem State.readBus_of_no_board {s : State} {a : Addr} (h : s.boardAt a = none) : s.readBus a = s.baseRead a := by
  unfold State.readBus State.resolve State.baseRead State.base
  rw [h]
  cases s.paging.sel.get (win a) <;> rfl

/-- A board reads back at an address what it stored there (43_board.md R231, R234). -/
theorem State.baseRead_boardRamWrite {s : State} {b : BoardCfg} {a n o : Nat} (h : s.boardRamAt b a = some (n, o)) (v : Byte) :
    (s.boardRamWrite b a v).baseRead (BitVec.ofNat 16 a) = v := by
  have hb := (State.boardRamAt_some h).2.2
  unfold State.baseRead
  rw [State.base_of_sel (s.boardRamWrite_sel b a v), hb]
  unfold State.boardRamWrite
  rw [h]
  exact Memory.read_write_same _ _ _ _

theorem State.boardRamWrite_step (s : State) (b : BoardCfg) (a : Nat) (v : Byte) : s.BoardStep b (s.boardRamWrite b a v) := by
  refine ⟨by simp, by simp, by simp, by simp, ?_, ?_⟩
  · intro h
    unfold State.boardRamWrite
    repeat (first | exact h | exact Memory.wf_write _ _ _ _ h | split)
  · intro n o ho hn
    unfold State.boardRamWrite
    split
    · next n' o' hw =>
      obtain ⟨h1, h2, hb⟩ := State.boardRamAt_some hw
      have ho' : o' < windowSize := by rw [State.base_offset hb]; exact off_lt _
      refine Memory.read_write_other _ _ _ fun e => ?_
      obtain ⟨rfl, rfl⟩ := (bankKey_inj ho ho').mp e
      exact hn ⟨a, h1, h2, hb⟩
    · rfl

theorem State.boardAct_step (s : State) (b : BoardCfg) (x y : Nat) (t : BoardAct) : s.BoardStep b (s.boardAct b x y t) := by
  unfold State.boardAct
  simp only
  split
  · exact .refl s b
  · split
    · exact ⟨rfl, rfl, rfl, rfl, id, fun _ _ _ _ => rfl⟩
    · exact ⟨rfl, rfl, rfl, rfl, id, fun _ _ _ _ => rfl⟩
    · exact ⟨rfl, rfl, rfl, rfl, id, fun _ _ _ _ => rfl⟩
    · exact State.boardRamWrite_step _ _ _ _

/-- A board's actions change the board's registers and the paging unit's RAM, and nothing else. -/
theorem State.boardActs_eq (s : State) (b : BoardCfg) (x y : Nat) (l : List BoardAct) :
    s.boardActs b x y l =
      { s with board := (s.boardActs b x y l).board, paging := (s.boardActs b x y l).paging } := by
  have h1 := s.boardActs_cpu b x y l
  have h2 := s.boardActs_seq b x y l
  have h3 := s.boardActs_ic b x y l
  have h4 := s.boardActs_units b x y l
  have h5 := s.boardActs_timing b x y l
  have h6 := s.boardActs_input b x y l
  have h7 := s.boardActs_failed b x y l
  have h8 := s.boardActs_queue b x y l
  have h9 := s.boardActs_trace b x y l
  have h10 := s.boardActs_cfg b x y l
  generalize s.boardActs b x y l = t at *
  cases t
  simp_all

theorem State.boardActs_step (s : State) (b : BoardCfg) (x y : Nat) (l : List BoardAct) :
    s.BoardStep b (s.boardActs b x y l) := by
  unfold State.boardActs
  induction l generalizing s with
  | nil => exact .refl s b
  | cons t l ih => exact (State.boardAct_step s b x y t).trans (ih _)

/-- An action that writes no byte changes nothing (41_bus.md R193). -/
theorem State.boardAct_of_not_stores {s : State} {b : BoardCfg} {x y : Nat} {t : BoardAct}
    (h : s.boardActStores b x y t = false) : s.boardAct b x y t = s := by
  unfold State.boardActStores at h
  unfold State.boardAct
  by_cases hg : s.boardEval b x y t.guard = 0
  · rw [if_pos hg]
  · rw [if_neg hg]
    simp only [bne_iff_ne, ne_eq, hg, not_false_eq_true, Bool.and_eq_false_imp, forall_const] at h
    split at h
    · next f ht =>
      simp only [ht]
      unfold State.boardRamWrite
      rw [Option.isSome_eq_false_iff, Option.isNone_iff_eq_none] at h
      rw [h]
    · cases h
    · cases h
    · cases h

/-- A board write that stored no byte changed nothing. -/
theorem State.boardActs_of_not_stores (b : BoardCfg) (x y : Nat) (l : List BoardAct) {s : State}
    (h : s.boardStores b x y l = false) : s.boardActs b x y l = s := by
  induction l with
  | nil => rfl
  | cons t l ih =>
    simp only [State.boardStores, Bool.or_eq_false_iff] at h
    rw [State.boardAct_of_not_stores h.1] at h
    exact (congrArg (fun u => u.boardActs b x y l) (State.boardAct_of_not_stores h.1)).trans (ih h.2)

/-! ### `WriteBus` (41_bus.md R193) -/

@[simp] theorem State.writeBus_cpu (s : State) (a : Addr) (v : Byte) : (s.writeBus a v).1.cpu = s.cpu := by
  unfold State.writeBus State.boardWrite; repeat (first | rfl | (split <;> simp) | split)

@[simp] theorem State.writeBus_seq (s : State) (a : Addr) (v : Byte) : (s.writeBus a v).1.seq = s.seq := by
  unfold State.writeBus State.boardWrite; repeat (first | rfl | (split <;> simp) | split)

@[simp] theorem State.writeBus_ic (s : State) (a : Addr) (v : Byte) : (s.writeBus a v).1.ic = s.ic := by
  unfold State.writeBus State.boardWrite; repeat (first | rfl | (split <;> simp) | split)

@[simp] theorem State.writeBus_units (s : State) (a : Addr) (v : Byte) : (s.writeBus a v).1.units = s.units := by
  unfold State.writeBus State.boardWrite; repeat (first | rfl | (split <;> simp) | split)

@[simp] theorem State.writeBus_timing (s : State) (a : Addr) (v : Byte) : (s.writeBus a v).1.timing = s.timing := by
  unfold State.writeBus State.boardWrite; repeat (first | rfl | (split <;> simp) | split)

@[simp] theorem State.writeBus_input (s : State) (a : Addr) (v : Byte) : (s.writeBus a v).1.input = s.input := by
  unfold State.writeBus State.boardWrite; repeat (first | rfl | (split <;> simp) | split)

@[simp] theorem State.writeBus_failed (s : State) (a : Addr) (v : Byte) : (s.writeBus a v).1.failed = s.failed := by
  unfold State.writeBus State.boardWrite; repeat (first | rfl | (split <;> simp) | split)

@[simp] theorem State.writeBus_queue (s : State) (a : Addr) (v : Byte) : (s.writeBus a v).1.queue = s.queue := by
  unfold State.writeBus State.boardWrite; repeat (first | rfl | (split <;> simp) | split)

@[simp] theorem State.writeBus_cfg (s : State) (a : Addr) (v : Byte) : (s.writeBus a v).1.cfg = s.cfg := by
  unfold State.writeBus State.boardWrite; repeat (first | rfl | (split <;> simp) | split)

@[simp] theorem State.writeBus_preg (s : State) (a : Addr) (v : Byte) :
    (s.writeBus a v).1.paging.preg = s.paging.preg := by
  unfold State.writeBus State.boardWrite
  split
  · exact (State.boardActs_step _ _ _ _ _).preg
  · rfl
  · dsimp only; split <;> rfl
  · rfl

@[simp] theorem State.writeBus_sel (s : State) (a : Addr) (v : Byte) :
    (s.writeBus a v).1.paging.sel = s.paging.sel := by
  unfold State.writeBus State.boardWrite
  split
  · exact (State.boardActs_step _ _ _ _ _).sel
  · rfl
  · dsimp only; split <;> rfl
  · rfl

@[simp] theorem State.writeBus_cont (s : State) (a : Addr) (v : Byte) :
    (s.writeBus a v).1.paging.cont = s.paging.cont := by
  unfold State.writeBus State.boardWrite
  split
  · exact (State.boardActs_step _ _ _ _ _).cont
  · rfl
  · dsimp only; split <;> rfl
  · rfl

@[simp] theorem State.writeBus_vid (s : State) (a : Addr) (v : Byte) :
    (s.writeBus a v).1.paging.vid = s.paging.vid := by
  unfold State.writeBus State.boardWrite
  split
  · exact (State.boardActs_step _ _ _ _ _).vid
  · rfl
  · dsimp only; split <;> rfl
  · rfl

theorem State.writeBus_ramWf (s : State) (a : Addr) (v : Byte) (h : Memory.wf Memory.unlisted s.paging.ram = true) :
    Memory.wf Memory.unlisted (s.writeBus a v).1.paging.ram = true := by
  unfold State.writeBus State.boardWrite
  split
  · exact (State.boardActs_step _ _ _ _ _).ramWf h
  · exact h
  · dsimp only
    split <;> exact Memory.wf_write _ _ _ _ h
  · exact h

theorem State.resolve_ram_offset {s : State} {a : Addr} {n o : Nat} (h : s.resolve a = .ramByte n o) : o < windowSize := by
  unfold State.resolve at h
  split at h
  · cases h
  · rw [State.base_offset h]
    exact off_lt _

/-- A write to RAM stores the byte and notifies the renderer behind a video window (R193, R196). -/
theorem State.writeBus_ram {s : State} {a : Addr} {n o : Nat} (h : s.resolve a = .ramByte n o) (v : Byte) :
    s.writeBus a v =
      ({ s.writeRam n o v with
          trace := s.trace ++ if s.paging.vid.get (win a) then [.videoW a v s.timing.framePos] else [] }, true) := by
  unfold State.writeBus
  rw [h]
  simp only [State.writeRam, State.emit]
  by_cases hv : s.paging.vid.get (win a) = true <;> simp [hv]

/-- A write to ROM or to an unmapped window is discarded (R194). -/
theorem State.writeBus_discarded {s : State} {a : Addr} (h : s.resolve a = .none ∨ ∃ n o, s.resolve a = .romByte n o)
    (v : Byte) : s.writeBus a v = (s, false) := by
  unfold State.writeBus
  rcases h with h | ⟨n, o, h⟩ <;> rw [h]

theorem State.readBus_ram {s : State} {a : Addr} {n o : Nat} (h : s.resolve a = .ramByte n o) : s.readBus a = s.readRam n o := by
  unfold State.readBus
  rw [h]

theorem State.readBus_rom {s : State} {a : Addr} {n o : Nat} (h : s.resolve a = .romByte n o) : s.readBus a = s.readRom n o := by
  unfold State.readBus
  rw [h]

/-! ### Timed accesses (R197, R198) -/

@[simp] theorem State.readMemory_cpu (s : State) (f : Bool) (a : Addr) : (s.readMemory f a).1.cpu = s.cpu := by
  simp [State.readMemory]

@[simp] theorem State.readMemory_seq (s : State) (f : Bool) (a : Addr) : (s.readMemory f a).1.seq = s.seq := by
  simp [State.readMemory]

@[simp] theorem State.readMemory_ic (s : State) (f : Bool) (a : Addr) : (s.readMemory f a).1.ic = s.ic := by
  simp [State.readMemory]

@[simp] theorem State.readMemory_paging (s : State) (f : Bool) (a : Addr) : (s.readMemory f a).1.paging = s.paging := by
  simp [State.readMemory]

@[simp] theorem State.readMemory_board (s : State) (f : Bool) (a : Addr) : (s.readMemory f a).1.board = s.board := by
  simp [State.readMemory]

@[simp] theorem State.readMemory_failed (s : State) (f : Bool) (a : Addr) : (s.readMemory f a).1.failed = s.failed := by
  simp [State.readMemory]

@[simp] theorem State.writeMemory_cpu (s : State) (a : Addr) (v : Byte) : (s.writeMemory a v).cpu = s.cpu := by
  simp [State.writeMemory]

@[simp] theorem State.writeMemory_seq (s : State) (a : Addr) (v : Byte) : (s.writeMemory a v).seq = s.seq := by
  simp [State.writeMemory]

@[simp] theorem State.writeMemory_ic (s : State) (a : Addr) (v : Byte) : (s.writeMemory a v).ic = s.ic := by
  simp [State.writeMemory]

@[simp] theorem State.writeMemory_failed (s : State) (a : Addr) (v : Byte) : (s.writeMemory a v).failed = s.failed := by
  simp [State.writeMemory]

@[simp] theorem State.readMemory_fixed (s : State) (f : Bool) (a : Addr) :
    (s.readMemory f a).1.cfg.fixed = s.cfg.fixed := by simp [State.readMemory]

@[simp] theorem State.writeMemory_fixed (s : State) (a : Addr) (v : Byte) : (s.writeMemory a v).cfg.fixed = s.cfg.fixed := by
  simp [State.writeMemory]

/-- The value of a timed read is what `ReadBus` gives after the wait. -/
theorem State.readMemory_value (s : State) (f : Bool) (a : Addr) :
    (s.readMemory f a).2 = (s.advance (s.memWait a)).readBus a := rfl

/-- A timed read appends one event. -/
theorem State.readMemory_trace (s : State) (f : Bool) (a : Addr) :
    (s.readMemory f a).1.trace =
      s.trace ++ [if f then .fetch a (s.readMemory f a).2 (s.memWait a) else .memR a (s.readMemory f a).2 (s.memWait a)] := by
  simp [State.readMemory, State.emit]

theorem State.readMemory_timing (s : State) (f : Bool) (a : Addr) :
    (s.readMemory f a).1.timing =
      { (s.advance (s.memWait a)).timing with
        buslog := Memory.write BusLog.unlisted s.timing.buslog (s.advance (s.memWait a)).timing.framePos
          (s.readMemory f a).2 } := by
  simp [State.readMemory, State.logBus]

theorem State.writeMemory_timing (s : State) (a : Addr) (v : Byte) :
    (s.writeMemory a v).timing =
      { (s.advance (s.memWait a)).timing with
        buslog := Memory.write BusLog.unlisted s.timing.buslog (s.advance (s.memWait a)).timing.framePos v } := by
  simp [State.writeMemory, State.logBus]

theorem State.readMemory_cfg (s : State) (f : Bool) (a : Addr) :
    (s.readMemory f a).1.cfg = (s.advance (s.memWait a)).cfg := rfl

theorem State.writeMemory_cfg (s : State) (a : Addr) (v : Byte) :
    (s.writeMemory a v).cfg = (s.advance (s.memWait a)).cfg := by simp [State.writeMemory]

theorem State.readMemory_units (s : State) (f : Bool) (a : Addr) :
    (s.readMemory f a).1.units = (s.advance (s.memWait a)).units := rfl

theorem State.writeMemory_units (s : State) (a : Addr) (v : Byte) :
    (s.writeMemory a v).units = (s.advance (s.memWait a)).units := by simp [State.writeMemory]

/-! ### What answers an address (20_memory.md R78) -/

theorem State.resolve_congr {s t : State} (h : s.SameMemory t) (a : Addr) : t.resolve a = s.resolve a := by
  unfold State.resolve State.boardAt State.base
  rw [h.1, Cfg.board_of_fixed h.2.2]

/-- A byte of ROM or RAM that answers an address does not depend on the time (41_bus.md R191). -/
theorem State.readBus_congr {s t : State} (h : s.SameMemory t) (a : Addr) (hb : s.backed a = true) :
    t.readBus a = s.readBus a := by
  unfold State.readBus
  rw [State.resolve_congr h]
  unfold State.backed at hb
  split at hb
  · next n o e => simp only [e, State.readRom, Cfg.rom_of_fixed h.2.2]
  · next n o e => simp only [e, State.readRam, h.1]
  · exact absurd hb (by simp)
  · exact absurd hb (by simp)

theorem State.sameMemory_refl (s : State) : s.SameMemory s := ⟨rfl, rfl, rfl⟩

theorem State.sameMemory_trans {s t u : State} (h : s.SameMemory t) (k : t.SameMemory u) : s.SameMemory u :=
  ⟨k.1.trans h.1, k.2.1.trans h.2.1, k.2.2.trans h.2.2⟩

theorem State.advance_sameMemory (s : State) (n : Nat) : s.SameMemory (s.advance n) := ⟨by simp, by simp, by simp⟩

theorem State.readMemory_sameMemory (s : State) (f : Bool) (a : Addr) : s.SameMemory (s.readMemory f a).1 :=
  ⟨by simp, by simp, by simp⟩

/-- A timed read of a backed address gives the byte there. -/
theorem State.readMemory_backed (s : State) (f : Bool) (a : Addr) (h : s.backed a = true) :
    (s.readMemory f a).2 = s.readBus a := State.readBus_congr (s.advance_sameMemory _) a h

end Sys2Proof.Machine
end

