-- ==== Sys2Proof/Laws/Codec.lean ====
section
/-! SUPPORT. Every codec reads back what it writes, whatever follows, and a snapshot's sections read back (10_state.md R54,
44_host.md R260 to R262). -/

namespace Sys2Proof.Machine

/-- The codec reads a written value back and leaves what follows it. -/
def Codec.Lawful {α : Type} (c : Codec α) : Prop := ∀ (x : α) (r : List Byte), c.get (c.put x ++ r) = some (x, r)

theorem getLe_putLe (k n : Nat) (r : List Byte) (h : n < 256 ^ k) : getLe k (putLe k n ++ r) = some (n, r) := by
  induction k generalizing n with
  | zero => simp at h; subst h; rfl
  | succ k ih =>
    have : n / 256 < 256 ^ k := by rw [Nat.div_lt_iff_lt_mul (by decide)]; rw [pow_succ] at h; exact h
    simp [putLe, getLe, ih _ this]
    omega

theorem Codec.lawful_uint (w k : Nat) (h : 2 ^ w = 256 ^ k) : (Codec.uint w k).Lawful := by
  intro x r
  simp only [Codec.uint]
  rw [getLe_putLe _ _ _ (by rw [← h]; exact x.isLt)]
  simp

theorem getCount_putCount (k : Nat) (r : List Byte) : getCount (putCount k ++ r) = some (k, r) := by
  have key : ∀ q m, m < 255 → getCount (List.replicate q 0xFF ++ [BitVec.ofNat 8 m] ++ r) = some (m + 255 * q, r) := by
    intro q m hm
    induction q with
    | zero =>
      have h : (BitVec.ofNat 8 m).toNat = m := by simp; omega
      have hne : BitVec.ofNat 8 m ≠ 0xFF := fun e => by rw [e] at h; simp at h; omega
      simp only [List.replicate_zero, List.nil_append, List.cons_append, getCount, if_neg hne, h]
      rfl
    | succ q ih =>
      rw [List.replicate_succ, List.cons_append, List.cons_append, getCount, if_pos rfl, ih]
      simp only [Option.map_some]
      exact congrArg (fun m => some (m, r)) (by omega)
  unfold putCount
  rw [key _ _ (Nat.mod_lt _ (by decide))]
  congr 2
  omega

theorem lt_pow_byteCount (n : Nat) : n < 256 ^ byteCount n := by
  have h : n < 2 ^ (n.log2 + 1) := Nat.lt_log2_self
  refine h.trans_le ?_
  rw [show (256 : Nat) = 2 ^ 8 from rfl, ← Nat.pow_mul]
  exact Nat.pow_le_pow_right (by decide) (by unfold byteCount; omega)

theorem Codec.lawful_nat : Codec.nat.Lawful := by
  intro x r
  simp only [Codec.nat, List.append_assoc]
  rw [getCount_putCount]
  exact getLe_putLe _ _ _ (lt_pow_byteCount x)

theorem Codec.lawful_part {α β : Type} {f : α → β} {g : β → Option α} {c : Codec β} (h : c.Lawful)
    (hg : ∀ x, g (f x) = some x) : (Codec.part f g c).Lawful := by
  intro x r
  simp [Codec.part, h (f x) r, hg]

theorem Codec.lawful_pair {α β : Type} {c : Codec α} {d : Codec β} (h : c.Lawful) (k : d.Lawful) :
    (Codec.pair c d).Lawful := by
  intro x r
  simp only [Codec.pair, List.append_assoc]
  rw [h]
  simp [k _ r]

theorem Codec.getMany_putMany {α : Type} {c : Codec α} (h : c.Lawful) (l : List α) (r : List Byte) :
    c.getMany l.length (c.putMany l ++ r) = some (l, r) := by
  induction l with
  | nil => rfl
  | cons x l ih =>
    simp only [List.length_cons, Codec.getMany, Codec.putMany, List.append_assoc]
    rw [h]
    simp [ih]

theorem Codec.lawful_list {α : Type} {c : Codec α} (h : c.Lawful) : (Codec.list c).Lawful := by
  intro l r
  simp only [Codec.list, List.append_assoc]
  rw [Codec.lawful_nat]
  simp [Codec.getMany_putMany h l r]

theorem Codec.lawful_u8 : Codec.u8.Lawful := Codec.lawful_uint 8 1 (by decide)
theorem Codec.lawful_u16 : Codec.u16.Lawful := Codec.lawful_uint 16 2 (by decide)
theorem Codec.lawful_u64 : Codec.u64.Lawful := Codec.lawful_uint 64 8 (by decide)

theorem Codec.lawful_bool : Codec.bool.Lawful := Codec.lawful_part Codec.lawful_u8 (by intro x; cases x <;> rfl)

theorem Codec.lawful_int : Codec.int.Lawful :=
  Codec.lawful_part (Codec.lawful_pair Codec.lawful_bool Codec.lawful_nat) (by intro x; cases x <;> rfl)

/-! ### The fields of each section -/

open Codec in
theorem lawful_progIdCodec : progIdCodec.Lawful :=
  lawful_part (lawful_pair lawful_u8 (lawful_pair lawful_u8 (lawful_pair lawful_u8 lawful_nat)))
    (by intro x; cases x <;> rfl)

theorem lawful_icStateCodec : icStateCodec.Lawful := Codec.lawful_part Codec.lawful_u8 (by intro x; cases x <;> rfl)

theorem lawful_selCodec : selCodec.Lawful :=
  Codec.lawful_part (Codec.lawful_pair Codec.lawful_u8 Codec.lawful_nat) (by intro x; cases x <;> rfl)

open Codec in
theorem lawful_quadCodec {α : Type} {c : Codec α} (h : c.Lawful) : (quadCodec c).Lawful :=
  lawful_part (lawful_pair h (lawful_pair h (lawful_pair h h))) (by intro x; cases x; rfl)

theorem lawful_memoryCodec : memoryCodec.Lawful := Codec.lawful_list (Codec.lawful_pair Codec.lawful_nat Codec.lawful_u8)

open Codec in
theorem lawful_cpuCodec : cpuCodec.Lawful :=
  lawful_part
    (lawful_pair lawful_u16 <| lawful_pair lawful_u16 <| lawful_pair lawful_u8 <| lawful_pair (lawful_list lawful_u8) <|
      lawful_pair lawful_u8 <| lawful_pair lawful_u16 <| lawful_pair lawful_u8 <| lawful_pair lawful_bool <|
      lawful_pair lawful_bool lawful_bool)
    (by intro x; cases x; rfl)

theorem lawful_seqCodec : seqCodec.Lawful :=
  Codec.lawful_part (Codec.lawful_pair lawful_progIdCodec Codec.lawful_nat) (by intro x; cases x; rfl)

open Codec in
theorem lawful_icCodec : icCodec.Lawful :=
  lawful_part (lawful_pair lawful_icStateCodec (lawful_pair lawful_u8 (lawful_pair lawful_u8 lawful_nat)))
    (by intro x; cases x; rfl)

open Codec in
theorem lawful_pagingCodec : pagingCodec.Lawful :=
  lawful_part
    (lawful_pair (lawful_list lawful_u8) (lawful_pair (lawful_quadCodec lawful_selCodec)
      (lawful_pair (lawful_quadCodec lawful_bool) (lawful_pair (lawful_quadCodec lawful_bool) lawful_memoryCodec))))
    (by intro x; cases x; rfl)

open Codec in
theorem lawful_boardCodec : boardCodec.Lawful :=
  lawful_part (lawful_pair lawful_u8 (lawful_pair lawful_u8 lawful_u8)) (by intro x; cases x; rfl)

open Codec in
theorem lawful_unitsCodec : unitsCodec.Lawful :=
  lawful_part (lawful_pair (lawful_list (lawful_list lawful_nat)) (lawful_list (lawful_list lawful_nat)))
    (by intro x; cases x; rfl)

open Codec in
theorem lawful_timingCodec : timingCodec.Lawful :=
  lawful_part (lawful_pair lawful_u64 (lawful_pair lawful_nat (lawful_pair lawful_u64 lawful_memoryCodec)))
    (by intro x; cases x; rfl)

open Codec in
theorem lawful_inputCodec : inputCodec.Lawful :=
  lawful_part (lawful_pair (lawful_list lawful_bool) (lawful_list lawful_int)) (by intro x; cases x; rfl)

theorem lawful_inputLatchCodec : inputLatchCodec.Lawful :=
  Codec.lawful_part (Codec.lawful_pair lawful_inputCodec lawful_inputCodec) (by intro x; cases x; rfl)

theorem tagOf_tagNum (t : Option Tag) : tagOf (tagNum t) = t := by
  cases t with
  | none => rfl
  | some t => cases t <;> rfl

theorem checkOf_checkNum (c : Check) : checkOf (checkNum c) = some c := by cases c <;> rfl

open Codec in
theorem lawful_failCodec : failCodec.Lawful := by
  refine lawful_part (lawful_pair lawful_bool (lawful_pair lawful_u8 (lawful_pair lawful_u8 (lawful_pair lawful_nat
    (lawful_pair lawful_nat (lawful_pair lawful_u64 (lawful_pair lawful_u64 lawful_nat))))))) fun x => ?_
  cases x with
  | none => rfl
  | some e => cases e <;> simp [errFields, checkOf_checkNum, tagOf_tagNum]

theorem Codec.whole_put {α : Type} {c : Codec α} (h : c.Lawful) (x : α) : c.whole (c.put x) = some x := by
  have := h x []
  rw [List.append_nil] at this
  unfold Codec.whole
  rw [this]

/-! ### A snapshot's sections -/

/-- The tags of a list of sections with these names are as expected. -/
theorem checkTags_map (l : List Tag) (f : Tag → List Byte) : checkTags l (l.map fun t => ⟨t, f t⟩) = none := by
  induction l with
  | nil => rfl
  | cons t l ih => simp [checkTags, ih]

/-- A section of a saved state reads back as the value its blob was written from. -/
theorem readSection_save {α : Type} {c : Codec α} (h : c.Lawful) (s : State) {t : Tag} {x : α} (hx : s.blob t = c.put x)
    (ht : t ∈ sectionNames s.cfg) : readSection s.save t c = .ok x := by
  have : (s.save.find? fun y => y.tag == t) = some ⟨t, s.blob t⟩ := by
    unfold State.save
    generalize sectionNames s.cfg = l at ht
    induction l with
    | nil => cases ht
    | cons a l ih =>
      simp only [List.map_cons, List.find?_cons]
      by_cases h : a = t
      · subst h; simp
      · have hb : (a == t) = false := by simpa using h
        simp only [hb]
        exact ih ((List.mem_cons.1 ht).resolve_left fun e => h e.symm)
  unfold readSection
  rw [this]
  simp [hx, Codec.whole_put h]

end Sys2Proof.Machine
end

