-- ==== Sys2Proof/Laws/Decode.lean ====
section
/-! SUPPORT. Small laws of the encoding: the fields of a built word, and selectors read back (30_encoding.md R110, R114, R115). -/

namespace Sys2Proof

@[simp] theorem uTag_mkWord (t a b c : Byte) : uTag (mkWord t a b c) = t := by
  unfold uTag mkWord
  apply BitVec.eq_of_getLsbD_eq
  intro i hi
  simp only [BitVec.getLsbD_extractLsb', BitVec.getLsbD_append]
  have h1 : ¬ (24 + i < 8) := by omega
  have h2 : ¬ (24 + i - 8 < 8) := by omega
  have h3 : ¬ (24 + i - 8 - 8 < 8) := by omega
  have h4 : 24 + i - 8 - 8 - 8 = i := by omega
  simp [h1, h2, h3, h4, hi]

@[simp] theorem uA_mkWord (t a b c : Byte) : uA (mkWord t a b c) = a := by
  unfold uA mkWord
  apply BitVec.eq_of_getLsbD_eq
  intro i hi
  simp only [BitVec.getLsbD_extractLsb', BitVec.getLsbD_append]
  have h1 : ¬ (16 + i < 8) := by omega
  have h2 : ¬ (16 + i - 8 < 8) := by omega
  have h3 : 16 + i - 8 - 8 < 8 := by omega
  have h4 : 16 + i - 8 - 8 = i := by omega
  simp [h1, h2, h4, hi]

@[simp] theorem uB_mkWord (t a b c : Byte) : uB (mkWord t a b c) = b := by
  unfold uB mkWord
  apply BitVec.eq_of_getLsbD_eq
  intro i hi
  simp only [BitVec.getLsbD_extractLsb', BitVec.getLsbD_append]
  have h1 : ¬ (8 + i < 8) := by omega
  have h2 : 8 + i - 8 < 8 := by omega
  have h4 : 8 + i - 8 = i := by omega
  simp [h1, h4, hi]

@[simp] theorem uC_mkWord (t a b c : Byte) : uC (mkWord t a b c) = c := by
  unfold uC mkWord
  apply BitVec.eq_of_getLsbD_eq
  intro i hi
  simp only [BitVec.getLsbD_extractLsb', BitVec.getLsbD_append]
  have h1 : 0 + i < 8 := by omega
  simp [hi]

@[simp] theorem decodeSel8_encodeSel8 (s : Sel8) : decodeSel8 (encodeSel8 s) = some s := by
  cases s with
  | r i =>
    have h : (i.setWidth 8).toNat < 0x80 := by
      have := i.isLt
      simp only [BitVec.toNat_setWidth]
      omega
    unfold decodeSel8 encodeSel8
    rw [if_pos h]
    congr 2
    apply BitVec.eq_of_toNat_eq
    have := i.isLt
    simp only [BitVec.toNat_setWidth]
    omega
  | _ => decide

@[simp] theorem decodePair_encodePair (p : PairSel) : decodePair (encodePair p) = some p := by
  cases p with
  | map j =>
    have h : (j.setWidth 8).toNat < 0x40 := by
      have := j.isLt
      simp only [BitVec.toNat_setWidth]
      omega
    unfold decodePair encodePair
    rw [if_pos h]
    congr 2
    apply BitVec.eq_of_toNat_eq
    have := j.isLt
    simp only [BitVec.toNat_setWidth]
    omega
  | _ => decide

end Sys2Proof
end

