-- ==== Sys2Proof/Laws/Ports.lean ====
section
/-! SUPPORT. What the port dispatcher's operations can do when no peripheral reports failure (spec/42_ports.md): each lemma
rebuilds the new state from the old one and the components that may change. -/

namespace Sys2Proof.Machine

/-! ### Interrupt bits a hook drives stay within the implemented sources (42_ports.md R222) -/

theorem State.driveLine_eq (s : State) (ps : List Nat) (l : LineAct) :
    s.driveLine ps l = { s with ic := { s.ic with ifr := (s.driveLine ps l).ic.ifr } } := by
  unfold State.driveLine; repeat (first | rfl | split)

theorem State.driveLines_eq (ps : List Nat) (ls : List LineAct) (s : State) :
    ls.foldl (fun t l => t.driveLine ps l) s =
      { s with ic := { s.ic with ifr := (ls.foldl (fun t l => t.driveLine ps l) s).ic.ifr } } := by
  induction ls generalizing s with
  | nil => rfl
  | cons l ls ih =>
    rw [List.foldl_cons, ih, State.driveLine_eq s ps l]

/-! ### Reads -/

/-- A unit's read changes no more than its own `PSTATE`. -/
theorem State.unitRead_eq {s : State} {c : Claimant} {q : Addr} {r : State × Option Byte}
    (h : s.unitRead c q = .ok r) : r.1 = { s with units := { s.units with periph := r.1.units.periph } } := by
  unfold State.unitRead at h
  split at h
  · cases h; rfl
  · split at h <;> (cases h; rfl)
  · split at h
    · cases h; rfl
    · cases h; rfl
    · simp only at h
      split at h
      · cases h
      · cases h; rfl
    · cases h; rfl

/-- A successful port read: the value, and everything but `PSTATE`, time and the trace as before (R214). -/
theorem State.portRead_ok {s : State} {q : Addr} {r : State × Byte} (h : s.portRead q = .ok r) :
    let s1 := s.advance (portWait q s.timing.framePos)
    ∃ x, s1.unitRead (s1.claimant q) q = .ok x ∧ r.2 = x.2.getD x.1.floating ∧
      r.1 = (x.1.logBus r.2).emit (.portR q r.2 (s1.claimant q)) := by
  unfold State.portRead at h
  simp only at h
  split at h
  · cases h
  · next s2 v e => cases h; exact ⟨(s2, v), e, rfl, rfl⟩

/-! ### Writes -/

/-- A unit's write changes no more than the interrupt registers, the paging unit, the board, or its own `PSTATE`. -/
theorem State.unitWrite_eq {s t : State} {c : Claimant} {q : Addr} {v : Byte} (h : s.unitWrite c q v = .ok t) :
    t = { s with
      ic := { s.ic with ifr := t.ic.ifr, ier := t.ic.ier }
      paging := t.paging
      board := t.board
      units := { s.units with periph := t.units.periph } } := by
  unfold State.unitWrite at h
  split at h
  · cases h; rfl
  · split at h
    · next b _ =>
      cases h
      have h1 := State.boardActs_cpu s b q.toNat v.toNat b.portWrites
      have h2 := State.boardActs_seq s b q.toNat v.toNat b.portWrites
      have h3 := State.boardActs_ic s b q.toNat v.toNat b.portWrites
      have h4 := State.boardActs_units s b q.toNat v.toNat b.portWrites
      have h5 := State.boardActs_timing s b q.toNat v.toNat b.portWrites
      have h6 := State.boardActs_input s b q.toNat v.toNat b.portWrites
      have h7 := State.boardActs_failed s b q.toNat v.toNat b.portWrites
      have h8 := State.boardActs_queue s b q.toNat v.toNat b.portWrites
      have h9 := State.boardActs_trace s b q.toNat v.toNat b.portWrites
      have h10 := State.boardActs_cfg s b q.toNat v.toNat b.portWrites
      generalize s.boardActs b q.toNat v.toNat b.portWrites = t at *
      cases t; cases s; simp_all
    · cases h; rfl
  · split at h
    · cases h
      unfold State.icWrite
      split <;> rfl
    · cases h
      unfold State.pagingWrite
      split <;> rfl
    · simp only at h
      split at h
      · cases h
      · cases h; rfl
    · cases h; rfl

/-- The observers change no more than their own states (R218). -/
theorem State.observe_eq (q : Addr) (v : Byte) (os : List Observer) (s : State) (k : Nat) :
    s.observe q v k os = { s with units := { s.units with observer := (s.observe q v k os).units.observer } } ∧
      (s.observe q v k os).units.observer.length = s.units.observer.length := by
  induction os generalizing s k with
  | nil => exact ⟨rfl, rfl⟩
  | cons o os ih =>
    rw [State.observe]
    obtain ⟨h1, h2⟩ := ih (s.setOstate k (s.devActs q.toNat v.toNat o.writeActs (s.ostate k))) (k + 1)
    exact ⟨h1, by rw [h2]; simp [State.setOstate]⟩

/-- A successful port write (R217): the claimant's write, then the observers, then the event. -/
theorem State.portWrite_ok {s t : State} {q : Addr} {v : Byte} (h : s.portWrite q v = .ok t) :
    let s1 := (s.advance (portWait q s.timing.framePos)).logBus v
    ∃ u w, s1.unitWrite (s1.claimant q) q v = .ok u ∧ w = u.observe q v 0 u.cfg.observers ∧
      t = w.emit (.portW q v (s1.claimant q)) := by
  unfold State.portWrite at h
  simp only at h
  split at h
  · cases h
  · next u e => cases h; exact ⟨u, _, e, rfl, rfl⟩

/-! ### Tick hooks -/

theorem State.tickPeriph_eq {s t : State} {k : Nat} {p : Periph} (h : s.tickPeriph k p = .ok t) :
    t = { s with
      ic := { s.ic with ifr := t.ic.ifr }
      units := { s.units with periph := t.units.periph } } ∧ t.units.periph.length = s.units.periph.length := by
  unfold State.tickPeriph at h
  split at h
  · cases h; exact ⟨rfl, rfl⟩
  · cases h; exact ⟨rfl, rfl⟩
  · simp only at h
    split at h
    · cases h
    · cases h
      rw [State.driveLines_eq]
      exact ⟨rfl, by simp [State.setPstate]⟩

theorem State.tickPeriphs_eq (ps : List Periph) {s t : State} {k : Nat} (h : s.tickPeriphs k ps = .ok t) :
    t = { s with
      ic := { s.ic with ifr := t.ic.ifr }
      units := { s.units with periph := t.units.periph } } ∧ t.units.periph.length = s.units.periph.length := by
  induction ps generalizing s k with
  | nil => cases h; exact ⟨rfl, rfl⟩
  | cons p ps ih =>
    unfold State.tickPeriphs at h
    split at h
    · cases h
    · next u e =>
      obtain ⟨h1, h2⟩ := State.tickPeriph_eq e
      obtain ⟨h3, h4⟩ := ih h
      refine ⟨?_, h4.trans h2⟩
      rw [h3, h1]

theorem State.tickObservers_eq (os : List Observer) (s : State) (k : Nat) :
    s.tickObservers k os = { s with units := { s.units with observer := (s.tickObservers k os).units.observer } } ∧
      (s.tickObservers k os).units.observer.length = s.units.observer.length := by
  induction os generalizing s k with
  | nil => exact ⟨rfl, rfl⟩
  | cons o os ih =>
    rw [State.tickObservers]
    obtain ⟨h1, h2⟩ := ih (s.setOstate k (s.tickActs o.tickActs (s.ostate k))) (k + 1)
    exact ⟨h1, by rw [h2]; simp [State.setOstate]⟩

end Sys2Proof.Machine
end

