-- ==== Sys2Proof/Laws/Tick.lean ====
section
/-! SUPPORT. What the end of a tick, a tick, and a step can do (40_microops.md R141, R142; 60_exceptions.md R295). -/

namespace Sys2Proof.Machine

theorem State.icUpdate_eq (s : State) : s.icUpdate = { s with ic := { s.ic with st := s.icUpdate.ic.st } } := by
  unfold State.icUpdate; repeat (first | rfl | split)

/-- A successful end of tick is one cycle of time, the hooks, and `ic_update` (R142). -/
theorem State.endTick_ok {s t : State} (h : s.endTick = .ok t) :
    ∃ u, (s.advance 1).tickPeriphs 0 (s.advance 1).cfg.periph = .ok u ∧
      t = (u.tickObservers 0 u.cfg.observers).icUpdate := by
  unfold State.endTick at h
  simp only at h
  split at h
  · cases h
  · next u e => cases h; exact ⟨u, e, rfl⟩

/-- A successful end of tick changes no more than time, IC_STATE, IF and the units' states. -/
theorem State.endTick_eq {s t : State} (h : s.endTick = .ok t) :
    t = { s.advance 1 with
      ic := { s.ic with st := t.ic.st, ifr := t.ic.ifr }
      units := t.units } := by
  obtain ⟨u, h1, rfl⟩ := State.endTick_ok h
  have e1 := (State.tickPeriphs_eq _ h1).1
  have e2 := (State.tickObservers_eq u.cfg.observers u 0).1
  rw [State.icUpdate_eq, e2, e1]
  simp

/-- `ic_update` neither enters nor leaves Dispatching (60_exceptions.md R273). -/
theorem State.icUpdate_dispatching (s : State) : s.icUpdate.ic.st = .dispatching ↔ s.ic.st = .dispatching := by
  unfold State.icUpdate
  repeat' split
  all_goals simp_all

theorem State.endTick_dispatching {s t : State} (h : s.endTick = .ok t) : t.ic.st = .dispatching ↔ s.ic.st = .dispatching := by
  obtain ⟨u, h1, rfl⟩ := State.endTick_ok h
  rw [State.icUpdate_dispatching, (State.tickObservers_eq _ _ _).1, (State.tickPeriphs_eq _ h1).1]
  simp

theorem State.endTick_cpu {s t : State} (h : s.endTick = .ok t) : t.cpu = s.cpu := by
  rw [State.endTick_eq h]; simp

theorem State.endTick_seq {s t : State} (h : s.endTick = .ok t) : t.seq = s.seq := by
  rw [State.endTick_eq h]; simp

theorem State.endTick_paging {s t : State} (h : s.endTick = .ok t) : t.paging = s.paging := by
  rw [State.endTick_eq h]; simp

theorem State.endTick_board {s t : State} (h : s.endTick = .ok t) : t.board = s.board := by
  rw [State.endTick_eq h]; simp

theorem State.endTick_failed {s t : State} (h : s.endTick = .ok t) : t.failed = s.failed := by
  rw [State.endTick_eq h]; simp

theorem State.endTick_trace {s t : State} (h : s.endTick = .ok t) : t.trace = s.trace := by
  rw [State.endTick_eq h]; simp

theorem State.endTick_fixed {s t : State} (h : s.endTick = .ok t) : t.cfg.fixed = s.cfg.fixed := by
  rw [State.endTick_eq h]; simp

theorem State.endTick_timing {s t : State} (h : s.endTick = .ok t) : t.timing = (s.advance 1).timing := by
  rw [State.endTick_eq h]

theorem State.endTick_sameMemory {s t : State} (h : s.endTick = .ok t) : s.SameMemory t :=
  ⟨State.endTick_paging h, State.endTick_board h, State.endTick_fixed h⟩

/-- The end of a tick keeps a well-formed configuration with a well-formed queue. -/
theorem State.endTick_wf {s t : State} (h : s.endTick = .ok t) (hc : s.cfg.wf = true) (hq : s.queuedCfg.wf = true) :
    t.cfg.wf = true ∧ t.queuedCfg.wf = true := by
  have e := State.advance_wf 1 hc hq
  unfold State.queuedCfg at *
  rw [State.endTick_eq h]
  exact e

/-- What a tick that gives a next state did: the end of tick of what its micro-op left, or the roll-back with the error
(R295). -/
theorem State.commit_next {s t : State} {o : Outcome} (h : s.commit o = .next t) :
    (∃ u, o = .next u ∧ u.failed = none ∧ u.endTick = .ok t) ∨ ∃ e, t = s.raise e := by
  unfold State.commit at h
  split at h
  · next u =>
    split at h
    · next e _ => cases h; exact .inr ⟨e, rfl⟩
    · next hf =>
      split at h
      · next v e => cases h; exact .inl ⟨u, rfl, hf, e⟩
      · next e _ => cases h; exact .inr ⟨e, rfl⟩
  · cases h
  · cases h

/-- A step is one of these: a halt tick, the implicit fetch, or the next word's micro-op (R141). -/
theorem step_next {s t : State} (h : step s = .next t) :
    s.failed = none ∧
      ((s.cpu.halted = true ∧ s.commit s.haltTick = .next t) ∨
        (s.cpu.halted = false ∧ s.nextWord = none ∧ s.commit (exec .fetch s) = .next t) ∨
        ∃ w i, s.cpu.halted = false ∧ s.nextWord = some w ∧ decodeUop w = some i ∧
          s.commit (exec i s.bumpCursor) = .next t) := by
  unfold step State.stepWith at h
  split at h
  · cases h
  · next hf =>
    refine ⟨hf, ?_⟩
    split at h
    · next hh => exact .inl ⟨hh, h⟩
    · next hh =>
      have hh' : s.cpu.halted = false := by simpa using hh
      split at h
      · next hw => exact .inr (.inl ⟨hh', hw, h⟩)
      · next w hw =>
        split at h
        · next i hi =>
          refine .inr (.inr ⟨w, i, hh', hw, hi, ?_⟩)
          unfold State.tick at h
          rw [hf] at h
          exact h
        · cases h

end Sys2Proof.Machine
end

