-- ==== Sys2Proof/Laws/Exec.lean ====
section
/-! SUPPORT. What retiring a micro-op can do, said once: `Retires s i t` lists every next state `t` of `exec i s` that is no
failure, and `exec_next` says there is no other. -/

namespace Sys2Proof.Machine

/-- `Retires s i t`: the micro-op `i` retired in `s` leaves `t` (40_microops.md R146 to R162, 60_exceptions.md R279 to R281). -/
inductive Retires (s : State) : Instr → State → Prop
  | idle : Retires s .idle s
  | splice (j : Nat) (hp : s.ic.st = .pending) (hw : s.winner = some j) : Retires s .fetch (s.enter j)
  | fetch (hp : s.ic.st ≠ .pending) (ht : (s.cfg.table? 0).isSome = true) : Retires s .fetch (s.fetchFrom 0)
  | fetchx (tb : Byte) (ht : (s.cfg.table? tb).isSome = true) : Retires s (.fetchx tb) (s.fetchFrom tb)
  | dec16 (p : PairSel) (hp : s.hasPair p = true) : Retires s (.dec16 p) (s.writePair p (s.readPair p - 1))
  | inc16 (p : PairSel) (hp : s.hasPair p = true) : Retires s (.inc16 p) (s.writePair p (s.readPair p + 1))
  | rd (d : Sel8) (p : PairSel) (hd : s.hasSel d = true) (hp : s.hasPair p = true) :
      Retires s (.rd d p) ((s.readMemory false (s.readPair p)).1.writeSel d (s.readMemory false (s.readPair p)).2)
  | wr (a : Sel8) (p : PairSel) (ha : s.hasSel a = true) (hp : s.hasPair p = true) :
      Retires s (.wr a p) (s.writeMemory (s.readPair p) (s.readSel a))
  | mov (d a : Sel8) (hd : s.hasSel d = true) (ha : s.hasSel a = true) : Retires s (.mov d a) (s.writeSel d (s.readSel a))
  | setpc (p : PairSel) (hp : s.hasPair p = true) : Retires s (.setpc p) (s.setPc (s.readPair p))
  | setvec (v : Addr) (hv : s.cfg.vector[s.ic.src]? = some v) : Retires s .setvec (s.acknowledge v)
  | irqchk (hp : s.stillPending = true) : Retires s .irqchk s
  | cancel (hp : s.stillPending = false) : Retires s .irqchk s.cancel
  | irqend : Retires s .irqend s.endCancelled
  | inp (d : Sel8) (p : PairSel) (hd : s.hasSel d = true) (hp : s.hasPair p = true) (r : State × Byte)
      (hr : s.portRead (s.readPair p) = .ok r) : Retires s (.inp d p) (r.1.writeSel d r.2)
  | outp (a : Sel8) (p : PairSel) (ha : s.hasSel a = true) (hp : s.hasPair p = true) (t : State)
      (ht : s.portWrite (s.readPair p) (s.readSel a) = .ok t) : Retires s (.outp a p) t
  | alu (d a : Sel8) (c : Byte) (hd : s.hasSel d = true) (ha : s.hasSel a = true) :
      Retires s (.alu d a c) ((s.writeSel d (s.aluResult d a c).1).setFlags (s.aluResult d a c).2)
  | ei : Retires s .ei { s with cpu := { s.cpu with ime := true } }
  | di : Retires s .di { s with cpu := { s.cpu with ime := false } }
  | halt : Retires s .halt { s with cpu := { s.cpu with halted := true } }
  | setbug : Retires s .setbug { s with cpu := { s.cpu with bug := true } }

/-- An instruction that decodes from a word is a micro-op. -/
theorem encodeUop_of_decodeUop {w : UWord} {i : Instr} (h : decodeUop w = some i) : (encodeUop i).isSome = true := by
  unfold decodeUop decodeFields at h
  split at h
  · split at h <;>
      first
      | cases h; done
      | (cases h; rfl)
      | (obtain ⟨p, -, rfl⟩ := Option.map_eq_some_iff.mp h; rfl)
      | (obtain ⟨p, -, h⟩ := Option.bind_eq_some_iff.mp h; obtain ⟨q, -, rfl⟩ := Option.map_eq_some_iff.mp h; rfl)
  · cases h

/-- A unit's read fails only with E_STEP (60_exceptions.md R293). -/
theorem State.portRead_error {s : State} {q : Addr} {e : Error} (h : s.portRead q = .error e) : ∃ k, e = .step k := by
  unfold State.portRead at h
  simp only at h
  split at h
  · next e' he =>
    cases h
    unfold State.unitRead at he
    repeat' split at he
    all_goals first | cases he; done | skip
    all_goals
      simp only at he
      split at he
      · cases he; exact ⟨_, rfl⟩
      · cases he
  · cases h

/-- A unit's write fails only with E_STEP. -/
theorem State.portWrite_error {s : State} {q : Addr} {v : Byte} {e : Error} (h : s.portWrite q v = .error e) :
    ∃ k, e = .step k := by
  unfold State.portWrite at h
  simp only at h
  split at h
  · next e' he =>
    cases h
    unfold State.unitWrite at he
    repeat' split at he
    all_goals first | cases he; done | skip
    all_goals
      simp only at he
      split at he
      · cases he; exact ⟨_, rfl⟩
      · cases he
  · cases h

theorem State.tickPeriphs_error (ps : List Periph) {s : State} {k : Nat} {e : Error} (h : s.tickPeriphs k ps = .error e) :
    ∃ j, e = .step j := by
  induction ps generalizing s k with
  | nil => cases h
  | cons p ps ih =>
    unfold State.tickPeriphs at h
    split at h
    · next e' he =>
      cases h
      unfold State.tickPeriph at he
      split at he
      · cases he
      · cases he
      · simp only at he
        split at he
        · cases he; exact ⟨_, rfl⟩
        · cases he
    · exact ih h

/-- The end of a tick fails only with E_STEP. -/
theorem State.endTick_error {s : State} {e : Error} (h : s.endTick = .error e) : ∃ k, e = .step k := by
  unfold State.endTick at h
  simp only at h
  split at h
  · next e' he => cases h; exact State.tickPeriphs_error _ he
  · cases h

/-- A micro-op that answers a next state retired, or a peripheral reported failure. -/
theorem exec_next {w : UWord} {i : Instr} {s t : State} (hw : decodeUop w = some i) (h : exec i s = .next t) :
    Retires s i t ∨ ∃ k, t = s.raise (.step k) := by
  have hu := encodeUop_of_decodeUop hw
  cases i <;> first | (exfalso; cases hu; done) | skip
  case idle => cases h; exact .inl .idle
  case fetch =>
    simp only [exec, execFetch] at h
    split at h
    · next hp =>
      unfold State.splice at h
      split at h
      · next j hj => cases h; exact .inl (.splice j hp hj)
      · cases h
    · next hp =>
      split at h
      · next ht => cases h; exact .inl (.fetch hp ht)
      · cases h
  case fetchx tb =>
    simp only [exec, execFetchx] at h
    split at h
    · next ht => cases h; exact .inl (.fetchx tb ht)
    · cases h
  case dec16 p =>
    simp only [exec, execDec16, noOperand] at h
    split at h
    · next hp => cases h; exact .inl (.dec16 p hp)
    · cases h
  case inc16 p =>
    simp only [exec, execInc16, noOperand] at h
    split at h
    · next hp => cases h; exact .inl (.inc16 p hp)
    · cases h
  case rd d p =>
    simp only [exec, execRd, noOperand, Bool.and_eq_true] at h
    split at h
    · next hp => cases h; exact .inl (.rd d p hp.1 hp.2)
    · cases h
  case wr a p =>
    simp only [exec, execWr, noOperand, Bool.and_eq_true] at h
    split at h
    · next hp => cases h; exact .inl (.wr a p hp.1 hp.2)
    · cases h
  case mov d a =>
    simp only [exec, execMov, noOperand, Bool.and_eq_true] at h
    split at h
    · next hp => cases h; exact .inl (.mov d a hp.1 hp.2)
    · cases h
  case setpc p =>
    simp only [exec, execSetpc, noOperand] at h
    split at h
    · next hp => cases h; exact .inl (.setpc p hp)
    · cases h
  case setvec =>
    simp only [exec, execSetvec] at h
    split at h
    · next v hv => cases h; exact .inl (.setvec v hv)
    · cases h
  case irqchk =>
    simp only [exec, execIrqchk] at h
    split at h
    · next hp => cases h; exact .inl (.irqchk hp)
    · next hp => cases h; exact .inl (.cancel (by simpa using hp))
  case irqend => cases h; exact .inl .irqend
  case inp d p =>
    simp only [exec, execInp, noOperand, Bool.and_eq_true] at h
    split at h
    · next hp =>
      split at h
      · next r hr => cases h; exact .inl (.inp d p hp.1 hp.2 r hr)
      · next e he =>
        cases h
        obtain ⟨k, rfl⟩ := State.portRead_error he
        exact .inr ⟨k, rfl⟩
    · cases h
  case outp a p =>
    simp only [exec, execOutp, noOperand, Bool.and_eq_true] at h
    split at h
    · next hp =>
      split at h
      · next t ht => cases h; exact .inl (.outp a p hp.1 hp.2 _ ht)
      · next e he =>
        cases h
        obtain ⟨k, rfl⟩ := State.portWrite_error he
        exact .inr ⟨k, rfl⟩
    · cases h
  case alu d a c =>
    simp only [exec, execAlu, noOperand, Bool.and_eq_true] at h
    split at h
    · next hp => cases h; exact .inl (.alu d a c hp.1 hp.2)
    · cases h
  case ei => cases h; exact .inl .ei
  case di => cases h; exact .inl .di
  case halt => cases h; exact .inl .halt
  case setbug => cases h; exact .inl .setbug

end Sys2Proof.Machine
end

