-- ==== Sys2Proof/Laws/Irq.lean ====
section
/-! SUPPORT. The interrupt controller's requests bit by bit (60_exceptions.md R273, R275). -/

namespace Sys2Proof.Machine

/-- The winner is the least source both pending and enabled (R275). -/
theorem State.winner_iff (s : State) (i : Nat) :
    s.winner = some i ↔ i < s.cfg.nIrq ∧ s.ic.ifr.getLsbD i = true ∧ s.ic.ier.getLsbD i = true ∧
      ∀ j, j < i → ¬(s.ic.ifr.getLsbD j = true ∧ s.ic.ier.getLsbD j = true) := by
  unfold State.winner bit
  rw [List.find?_range_eq_some]
  simp only [Bool.and_eq_true, List.mem_range, Bool.not_eq_eq_eq_not, Bool.not_true, not_and]
  constructor
  · rintro ⟨⟨h1, h2⟩, h3, h4⟩
    exact ⟨h3, h1, h2, fun j hj h5 h6 => by have := h4 j hj; rw [h5, h6] at this; cases this⟩
  · rintro ⟨h3, h1, h2, h4⟩
    refine ⟨⟨h1, h2⟩, h3, fun j hj => ?_⟩
    by_cases h5 : s.ic.ifr.getLsbD j = true
    · rw [h5]; simpa using h4 j hj h5
    · simp only [Bool.not_eq_true] at h5; rw [h5]; rfl

theorem State.requests_bit (s : State) (j : Nat) :
    s.requests.getLsbD j = true ↔ j < 8 ∧ j < s.cfg.nIrq ∧ s.ic.ifr.getLsbD j = true ∧ s.ic.ier.getLsbD j = true := by
  unfold State.requests Cfg.irqMask
  simp only [BitVec.getLsbD_and, Bool.and_eq_true, BitVec.getLsbD_ofNat, Nat.testBit_two_pow_sub_one, decide_eq_true_eq]
  tauto

theorem State.requests_ne_zero (s : State) :
    s.requests ≠ 0 ↔ ∃ j, j < s.cfg.nIrq ∧ s.ic.ifr.getLsbD j = true ∧ s.ic.ier.getLsbD j = true := by
  constructor
  · intro h
    by_contra hn
    apply h
    apply BitVec.eq_of_getLsbD_eq
    intro j hj
    have : ¬ s.requests.getLsbD j = true := by
      rw [State.requests_bit]
      exact fun h => hn ⟨j, h.2⟩
    simpa using this
  · rintro ⟨j, h1, h2, h3⟩ h0
    have hj : j < 8 := by
      by_contra hj
      rw [BitVec.getLsbD_of_ge _ _ (by omega)] at h2
      cases h2
    have : s.requests.getLsbD j = true := (State.requests_bit s j).2 ⟨hj, h1, h2, h3⟩
    rw [h0] at this
    simp at this

theorem State.requesting_iff (s : State) :
    s.requesting = true ↔
      s.cpu.ime = true ∧ ∃ j, j < s.cfg.nIrq ∧ s.ic.ifr.getLsbD j = true ∧ s.ic.ier.getLsbD j = true := by
  rw [← State.requests_ne_zero]
  simp [State.requesting]

/-- A request has a winner. -/
theorem State.winner_of_requests {s : State} (h : s.requests ≠ 0) : ∃ i, s.winner = some i := by
  obtain ⟨j, h1, h2, h3⟩ := s.requests_ne_zero.1 h
  unfold State.winner
  rw [← Option.isSome_iff_exists, List.find?_isSome]
  exact ⟨j, List.mem_range.2 h1, by simp [bit, h2, h3]⟩

/-! ### One bit set, one bit cleared -/

theorem getLsbD_clearBit (v : Byte) (i j : Nat) : (clearBit v i).getLsbD j = (v.getLsbD j && decide (j ≠ i)) := by
  simp only [clearBit, BitVec.getLsbD_and, BitVec.getLsbD_not, BitVec.getLsbD_ofNat, Nat.testBit_two_pow]
  by_cases hj : j < 8
  · simp [hj, eq_comm]
  · rw [BitVec.getLsbD_of_ge _ _ (by omega)]
    simp

theorem getLsbD_setBit (v : Byte) (i j : Nat) (hj : j < 8) : (setBit v i).getLsbD j = (v.getLsbD j || decide (j = i)) := by
  simp only [setBit, BitVec.getLsbD_or, BitVec.getLsbD_ofNat, Nat.testBit_two_pow, hj, decide_true, Bool.true_and, eq_comm]

end Sys2Proof.Machine
end

