-- ==== Sys2Proof/Laws/Units.lean ====
section
/-! SUPPORT. The units one by one (spec/42_ports.md): that a port or reset function looks at no unit's state but its own, what
the observers of a port write leave, and what the tick hooks leave (R218, R222). -/

namespace Sys2Proof.Machine

/-! ### What a port or reset function sees (42_ports.md R211, R223) -/

/-- The same but for the CPU, the sequencer, the units and what is observed: what a unit's port and reset
functions may look at. -/
def State.Alike (s t : State) : Prop :=
  t.timing = s.timing ∧ t.ic = s.ic ∧ t.input = s.input ∧ t.paging = s.paging ∧ t.board = s.board ∧ t.cfg = s.cfg

theorem readBus_alike {s t : State} (h : State.Alike s t) (a : Addr) : t.readBus a = s.readBus a := by
  obtain ⟨h1, h2, h3, h4, h5, h6⟩ := h
  cases s; cases t
  simp only at h1 h2 h3 h4 h5 h6
  subst h1 h2 h3 h4 h5 h6
  rfl

theorem devEval_alike {s t : State} (h : State.Alike s t) (ps : List Nat) (q v : Nat) (f : UnitFn) : t.devEval ps q v f = s.devEval ps q v f := by
  obtain ⟨h1, h2, h3, h4, h5, h6⟩ := h
  cases s; cases t
  simp only at h1 h2 h3 h4 h5 h6
  subst h1 h2 h3 h4 h5 h6
  rfl

theorem devActs_alike {s t : State} (h : State.Alike s t) (q v : Nat) (l : List (DevAct UnitFn)) (ps : List Nat) : t.devActs q v l ps = s.devActs q v l ps := by
  obtain ⟨h1, h2, h3, h4, h5, h6⟩ := h
  cases s; cases t
  simp only at h1 h2 h3 h4 h5 h6
  subst h1 h2 h3 h4 h5 h6
  rfl

/-! ### One unit's state written -/

theorem State.pstate_setPstate (s : State) (k j : Nat) (ps : List Nat) :
    (s.setPstate k ps).pstate j = if k = j ∧ k < s.units.periph.length then ps else s.pstate j := by
  unfold State.pstate State.setPstate
  simp only [List.getD_eq_getElem?_getD, List.getElem?_set]
  by_cases h : k = j
  · subst h
    by_cases h2 : k < s.units.periph.length <;> simp [h2]
  · simp [h]

theorem State.ostate_setOstate (s : State) (k j : Nat) (ps : List Nat) :
    (s.setOstate k ps).ostate j = if k = j ∧ k < s.units.observer.length then ps else s.ostate j := by
  unfold State.ostate State.setOstate
  simp only [List.getD_eq_getElem?_getD, List.getElem?_set]
  by_cases h : k = j
  · subst h
    by_cases h2 : k < s.units.observer.length <;> simp [h2]
  · simp [h]

/-! ### The observers of a port write (R218) -/

/-- Each observer from index `k` on runs its actions on its own state; the others' are kept. -/
theorem State.observe_ostate (q : Addr) (v : Byte) (os : List Observer) (s : State) (k : Nat) :
    (∀ j, j < k → (s.observe q v k os).ostate j = s.ostate j) ∧
      ∀ j o, os[j]? = some o → k + j < s.units.observer.length →
        (s.observe q v k os).ostate (k + j) = s.devActs q.toNat v.toNat o.writeActs (s.ostate (k + j)) := by
  induction os generalizing s k with
  | nil => exact ⟨fun _ _ => rfl, fun j o h => by simp at h⟩
  | cons o os ih =>
    rw [State.observe]
    obtain ⟨i1, i2⟩ := ih (s.setOstate k (s.devActs q.toNat v.toNat o.writeActs (s.ostate k))) (k + 1)
    refine ⟨fun j hj => ?_, fun j o' hj hl => ?_⟩
    · rw [i1 j (by omega), State.ostate_setOstate, if_neg (by omega)]
    · cases j with
      | zero =>
        simp only [List.getElem?_cons_zero, Option.some.injEq] at hj
        subst hj
        simp only [Nat.add_zero] at hl ⊢
        rw [i1 k (by omega), State.ostate_setOstate, if_pos ⟨rfl, hl⟩]
      | succ j =>
        have := i2 j o' (by simpa using hj) (by simp [State.setOstate]; omega)
        rw [show k + 1 + j = k + (j + 1) by omega] at this
        rw [this, State.ostate_setOstate, if_neg (by omega)]
        exact devActs_alike ⟨rfl, rfl, rfl, rfl, rfl, rfl⟩ _ _ _ _

/-! ### The tick hooks (R222) -/

/-- A line leaves every IF bit but that of its source, and all of them when the source is not implemented. -/
theorem State.driveLine_bit (s : State) (ps : List Nat) (l : LineAct) (j : Nat) (h : l.source ≠ j ∨ s.cfg.nIrq ≤ j) :
    (s.driveLine ps l).ic.ifr.getLsbD j = s.ic.ifr.getLsbD j := by
  unfold State.driveLine
  split
  · rfl
  · next hn =>
    have hj : j ≠ l.source := by rintro rfl; omega
    split
    · simp [getLsbD_clearBit, hj]
    · by_cases h8 : j < 8
      · simp [getLsbD_setBit _ _ _ h8, hj]
      · rw [BitVec.getLsbD_of_ge _ _ (by omega), BitVec.getLsbD_of_ge _ _ (by omega)]

theorem State.driveLines_bit (ps : List Nat) (ls : List LineAct) (s : State) (j : Nat)
    (h : (∀ l ∈ ls, l.source ≠ j) ∨ s.cfg.nIrq ≤ j) :
    (ls.foldl (fun t l => t.driveLine ps l) s).ic.ifr.getLsbD j = s.ic.ifr.getLsbD j := by
  induction ls generalizing s with
  | nil => rfl
  | cons l ls ih =>
    rw [List.foldl_cons, ih, State.driveLine_bit]
    · exact h.imp (fun h => h l List.mem_cons_self) id
    · rw [State.driveLine_eq]
      exact h.imp (fun h x hx => h x (List.mem_cons_of_mem _ hx)) id

/-- One device's hook: its own state, and IF bits of the implemented sources it is wired to. -/
theorem State.tickPeriph_device {s t : State} {k : Nat} {d : Device} (h : s.tickPeriph k (.device d) = .ok t) :
    s.tickEval (s.pstate k) d.tickFail = 0 ∧
      t = { s with
        ic := { s.ic with ifr := t.ic.ifr }
        units := { s.units with periph := s.units.periph.set k (s.tickActs d.tickActs (s.pstate k)) } } ∧
      ∀ j, (∀ l ∈ d.tickLines, l.source ≠ j) ∨ s.cfg.nIrq ≤ j → t.ic.ifr.getLsbD j = s.ic.ifr.getLsbD j := by
  unfold State.tickPeriph at h
  simp only at h
  split at h
  · cases h
  · next hf =>
    cases h
    refine ⟨by simpa using hf, ?_, fun j hj => ?_⟩
    · rw [State.driveLines_eq]; rfl
    · exact State.driveLines_bit _ _ (s.setPstate k _) j hj

/-- The hooks of the peripherals from index `k` on, said once: each sees the state `u` in which those before it ran and it and
those after it did not. -/
theorem State.tickPeriphs_pstate (ps : List Periph) {s t : State} {k : Nat} (h : s.tickPeriphs k ps = .ok t) :
    (∀ j, j < k → t.pstate j = s.pstate j) ∧
    (∀ j, ps[j]? = some .ic ∨ ps[j]? = some .paging ∨ ps[j]? = none → t.pstate (k + j) = s.pstate (k + j)) ∧
    (∀ j d, ps[j]? = some (.device d) → k + j < s.units.periph.length →
      ∃ u : State, u = { s with ic := { s.ic with ifr := u.ic.ifr }, units := { s.units with periph := u.units.periph } } ∧
        (∀ i, i < k + j → u.pstate i = t.pstate i) ∧ (∀ i, k + j ≤ i → u.pstate i = s.pstate i) ∧
        u.tickEval (s.pstate (k + j)) d.tickFail = 0 ∧ t.pstate (k + j) = u.tickActs d.tickActs (s.pstate (k + j))) ∧
    ∀ j, (∀ d l, Periph.device d ∈ ps → l ∈ d.tickLines → l.source ≠ j) ∨ s.cfg.nIrq ≤ j →
      t.ic.ifr.getLsbD j = s.ic.ifr.getLsbD j := by
  induction ps generalizing s k with
  | nil => cases h; exact ⟨fun _ _ => rfl, fun _ _ => rfl, fun j d h => by simp at h, fun _ _ => rfl⟩
  | cons p ps ih =>
    unfold State.tickPeriphs at h
    split at h
    · cases h
    · next m hm =>
      obtain ⟨i1, i2, i3, i4⟩ := ih h
      obtain ⟨hm1, hm2⟩ := State.tickPeriph_eq hm
      have ne : ∀ j, j ≠ k → m.pstate j = s.pstate j := by
        intro j hj
        cases p with
        | ic => cases hm; rfl
        | paging => cases hm; rfl
        | device d =>
          rw [(State.tickPeriph_device hm).2.1]
          exact (State.pstate_setPstate s k j _).trans (if_neg fun e => hj e.1.symm)
      have hcfg : m.cfg = s.cfg := by rw [hm1]
      refine ⟨fun j hj => ?_, fun j hj => ?_, fun j d hj hl => ?_, fun j hj => ?_⟩
      · rw [i1 j (by omega), ne j (by omega)]
      · cases j with
        | zero =>
          have : m = s := by
            rcases hj with hj | hj | hj <;> simp at hj <;> subst hj <;> cases hm <;> rfl
          rw [i1 (k + 0) (by omega), this]
        | succ j =>
          have := i2 j (by simpa using hj)
          rw [show k + 1 + j = k + (j + 1) by omega] at this
          rw [this, ne _ (by omega)]
      · cases j with
        | zero =>
          simp only [List.getElem?_cons_zero, Option.some.injEq] at hj
          subst hj
          simp only [Nat.add_zero] at hl ⊢
          obtain ⟨h1, h2, -⟩ := State.tickPeriph_device hm
          refine ⟨s, rfl, fun i hi => ?_, fun _ _ => rfl, h1, ?_⟩
          · rw [i1 i (by omega), ne i (by omega)]
          · rw [i1 k (by omega), h2]
            exact (State.pstate_setPstate s k k _).trans (if_pos ⟨rfl, hl⟩)
        | succ j =>
          obtain ⟨u, h1, h2, h3, h4, h5⟩ := i3 j d (by simpa using hj) (by rw [hm2]; omega)
          rw [show k + 1 + j = k + (j + 1) by omega] at h2 h3 h4 h5
          rw [ne _ (by omega)] at h4 h5
          refine ⟨u, by rw [h1, hm1], h2, fun i hi => ?_, h4, h5⟩
          rw [h3 i hi, ne i (by omega)]
      · rw [i4 j (hj.imp (fun h d l hd hl => h d l (List.mem_cons_of_mem _ hd) hl) fun h => by rw [hcfg]; exact h)]
        cases p with
        | ic => cases hm; rfl
        | paging => cases hm; rfl
        | device d => exact (State.tickPeriph_device hm).2.2 j (hj.imp (fun h l hl => h d l List.mem_cons_self hl) id)

/-- What a line does (R222), said once: nothing when its guard is 0 or its source is not implemented; otherwise the bit of its
source becomes what its level says, and nothing else changes. -/
theorem State.driveLine_spec (s : State) (ps : List Nat) (l : LineAct) :
    (s.tickEval ps l.guard = 0 ∨ s.cfg.nIrq ≤ l.source → s.driveLine ps l = s) ∧
    (s.tickEval ps l.guard ≠ 0 → l.source < s.cfg.nIrq →
      ∃ f : Byte, s.driveLine ps l = { s with ic := { s.ic with ifr := f } } ∧
        ∀ j, j < 8 → f.getLsbD j = if j = l.source then decide (s.tickEval ps l.level ≠ 0) else s.ic.ifr.getLsbD j) := by
  unfold State.driveLine
  refine ⟨fun h => if_pos h, fun hg hs => ?_⟩
  rw [if_neg (by rintro (h | h) <;> [exact hg h; omega])]
  split
  · next hl =>
    refine ⟨_, rfl, fun j _ => ?_⟩
    by_cases h : j = l.source <;> simp [getLsbD_clearBit, h, hl]
  · next hl =>
    refine ⟨_, rfl, fun j hj => ?_⟩
    by_cases h : j = l.source
    · subst h; simp [getLsbD_setBit _ _ _ hj, hl]
    · simp [getLsbD_setBit _ _ _ hj, h]

/-- Of the lines wired to one source the last decides its bit. -/
theorem State.driveLines_source (ps : List Nat) (before later : List LineAct) (l : LineAct) (s : State)
    (hn : l.source < s.cfg.nIrq) (h8 : l.source < 8) (hl : ∀ m ∈ later, m.source ≠ l.source) :
    ∃ u : State, u = { s with ic := { s.ic with ifr := u.ic.ifr } } ∧
      ((before ++ l :: later).foldl (fun t l => t.driveLine ps l) s).ic.ifr.getLsbD l.source =
        if u.tickEval ps l.guard = 0 then u.ic.ifr.getLsbD l.source else decide (u.tickEval ps l.level ≠ 0) := by
  have hu := State.driveLines_eq ps before s
  refine ⟨before.foldl (fun t l => t.driveLine ps l) s, hu, ?_⟩
  rw [List.foldl_append, List.foldl_cons, State.driveLines_bit _ _ _ _ (.inl hl)]
  generalize before.foldl (fun t l => t.driveLine ps l) s = u at *
  obtain ⟨h1, h2⟩ := u.driveLine_spec ps l
  split
  · next hg => rw [h1 (.inl hg)]
  · next hg =>
    obtain ⟨f, e, hf⟩ := h2 hg (by rw [hu]; exact hn)
    rw [e, hf _ h8, if_pos rfl]

/-- The last line wired to a source, of the last hook that has one, decides its bit. -/
theorem State.tickPeriphs_source (ps : List Periph) {s t : State} {k i : Nat} {d : Device} {before later : List LineAct}
    {l : LineAct} (h : s.tickPeriphs k ps = .ok t) (hd : ps[i]? = some (.device d)) (hi : k + i < s.units.periph.length)
    (hls : d.tickLines = before ++ l :: later) (hn : l.source < s.cfg.nIrq) (h8 : l.source < 8)
    (hlater : ∀ m ∈ later, m.source ≠ l.source)
    (hrest : ∀ j e m, i < j → ps[j]? = some (.device e) → m ∈ e.tickLines → m.source ≠ l.source) :
    ∃ u : State, u = { s with ic := { s.ic with ifr := u.ic.ifr }, units := { s.units with periph := u.units.periph } } ∧
      (∀ j, j ≤ k + i → u.pstate j = t.pstate j) ∧ (∀ j, k + i < j → u.pstate j = s.pstate j) ∧
      t.ic.ifr.getLsbD l.source = if u.tickEval (t.pstate (k + i)) l.guard = 0 then u.ic.ifr.getLsbD l.source
        else decide (u.tickEval (t.pstate (k + i)) l.level ≠ 0) := by
  induction ps generalizing s k i with
  | nil => simp at hd
  | cons p ps ih =>
    unfold State.tickPeriphs at h
    split at h
    · cases h
    · next m hm =>
      obtain ⟨hm1, hm2⟩ := State.tickPeriph_eq hm
      obtain ⟨r1, -, -, r4⟩ := State.tickPeriphs_pstate ps h
      cases i with
      | zero =>
        simp only [List.getElem?_cons_zero, Option.some.injEq] at hd
        subst hd
        simp only [Nat.add_zero] at hi ⊢
        have hlast : t.ic.ifr.getLsbD l.source = m.ic.ifr.getLsbD l.source := by
          refine r4 _ (.inl fun e x he hx => ?_)
          obtain ⟨j, hj⟩ := List.getElem?_of_mem he
          exact hrest (j + 1) e x (by omega) (by simpa using hj) hx
        obtain ⟨-, hs, -⟩ := State.tickPeriph_device hm
        unfold State.tickPeriph at hm
        simp only at hm
        split at hm
        · cases hm
        · cases hm
          rw [hls] at *
          obtain ⟨u, hu, hb⟩ := State.driveLines_source (s.tickActs d.tickActs (s.pstate k)) before later l
            (s.setPstate k (s.tickActs d.tickActs (s.pstate k))) hn h8 hlater
          have hup : ∀ j, u.pstate j = (s.setPstate k (s.tickActs d.tickActs (s.pstate k))).pstate j := fun j => by
            rw [hu]; rfl
          have htk : t.pstate k = s.tickActs d.tickActs (s.pstate k) := by
            rw [r1 k (by omega), hs]
            exact (State.pstate_setPstate s k k _).trans (if_pos ⟨rfl, hi⟩)
          refine ⟨u, by rw [hu]; rfl, fun j hj => ?_, fun j hj => ?_, ?_⟩
          · rw [hup, r1 j (by omega), hs]; rfl
          · rw [hup, State.pstate_setPstate, if_neg (by omega)]
          · simp only [hlast, htk]; exact hb
      | succ i =>
        have hcfg : m.cfg = s.cfg := by rw [hm1]
        obtain ⟨u, h1, h2, h3, h4⟩ := ih (i := i) h (by simpa using hd) (by rw [hm2]; omega) (by rw [hcfg]; exact hn)
          fun j e x hj he hx => hrest (j + 1) e x (by omega) (by simpa using he) hx
        rw [show k + 1 + i = k + (i + 1) by omega] at h2 h3 h4
        refine ⟨u, by rw [h1, hm1], h2, fun j hj => ?_, h4⟩
        rw [h3 j hj]
        cases p with
        | ic => cases hm; rfl
        | paging => cases hm; rfl
        | device d' =>
          rw [(State.tickPeriph_device hm).2.1]
          exact (State.pstate_setPstate s k j _).trans (if_neg (by omega))

/-- Hooks that fail: one of them reports failure, on its own state as the tick found it, and the error names it. -/
theorem State.tickPeriphs_failing (ps : List Periph) {s : State} {e : Error} {k : Nat} (h : s.tickPeriphs k ps = .error e) :
    ∃ (i : Nat) (d : Device) (u : State), e = .step (k + i) ∧ ps[i]? = some (.device d) ∧ u.tickEval (s.pstate (k + i)) d.tickFail ≠ 0 ∧
      u = { s with ic := { s.ic with ifr := u.ic.ifr }, units := { s.units with periph := u.units.periph } } := by
  induction ps generalizing s k with
  | nil => cases h
  | cons p ps ih =>
    unfold State.tickPeriphs at h
    split at h
    · next e' he =>
      cases h
      cases p with
      | ic => cases he
      | paging => cases he
      | device d =>
        unfold State.tickPeriph at he
        simp only at he
        split at he
        · next hf => cases he; exact ⟨0, d, s, rfl, rfl, hf, rfl⟩
        · cases he
    · next m hm =>
      obtain ⟨i, d, u, h1, h2, h3, h4⟩ := ih h
      have ne : m.pstate (k + 1 + i) = s.pstate (k + 1 + i) := by
        cases p with
        | ic => cases hm; rfl
        | paging => cases hm; rfl
        | device d =>
          rw [(State.tickPeriph_device hm).2.1]
          exact (State.pstate_setPstate s k _ _).trans (if_neg (by omega))
      rw [ne] at h3
      rw [show k + 1 + i = k + (i + 1) by omega] at h1 h3
      exact ⟨i + 1, d, u, h1, by simpa using h2, h3, by rw [h4, (State.tickPeriph_eq hm).1]⟩

/-- Hooks that report no failure in any state run. -/
theorem State.tickPeriphs_of_no_failure (ps : List Periph) (s : State) (k : Nat)
    (h : ∀ (u : State) (d : Device) (j : Nat), Periph.device d ∈ ps → u.tickEval (u.pstate j) d.tickFail = 0) :
    ∃ t, s.tickPeriphs k ps = .ok t := by
  induction ps generalizing s k with
  | nil => exact ⟨s, rfl⟩
  | cons p ps ih =>
    have hp : ∃ m, s.tickPeriph k p = .ok m := by
      cases p with
      | ic => exact ⟨s, rfl⟩
      | paging => exact ⟨s, rfl⟩
      | device d =>
        unfold State.tickPeriph
        simp only
        rw [if_neg (by simp [h s d k List.mem_cons_self])]
        exact ⟨_, rfl⟩
    obtain ⟨m, hm⟩ := hp
    obtain ⟨t, ht⟩ := ih m (k + 1) fun u d j hd => h u d j (List.mem_cons_of_mem _ hd)
    refine ⟨t, ?_⟩
    rw [State.tickPeriphs, hm]
    exact ht

/-- The hooks of the observers from index `k` on, said once. -/
theorem State.tickObservers_ostate (os : List Observer) (s : State) (k : Nat) :
    let t := s.tickObservers k os
    (∀ j, j < k → t.ostate j = s.ostate j) ∧ (∀ j, os[j]? = none → t.ostate (k + j) = s.ostate (k + j)) ∧
    ∀ j o, os[j]? = some o → k + j < s.units.observer.length →
      ∃ u : State, u = { s with units := { s.units with observer := u.units.observer } } ∧
        (∀ i, i < k + j → u.ostate i = t.ostate i) ∧ (∀ i, k + j ≤ i → u.ostate i = s.ostate i) ∧
        t.ostate (k + j) = u.tickActs o.tickActs (s.ostate (k + j)) := by
  induction os generalizing s k with
  | nil => exact ⟨fun _ _ => rfl, fun _ _ => rfl, fun j o h => by simp at h⟩
  | cons o os ih =>
    rw [State.tickObservers]
    obtain ⟨i1, i2, i3⟩ := ih (s.setOstate k (s.tickActs o.tickActs (s.ostate k))) (k + 1)
    have ne : ∀ j, j ≠ k → (s.setOstate k (s.tickActs o.tickActs (s.ostate k))).ostate j = s.ostate j := fun j hj =>
      (State.ostate_setOstate s k j _).trans (if_neg fun e => hj e.1.symm)
    refine ⟨fun j hj => ?_, fun j hj => ?_, fun j o' hj hl => ?_⟩
    · rw [i1 j (by omega), ne j (by omega)]
    · cases j with
      | zero => simp at hj
      | succ j =>
        have := i2 j (by simpa using hj)
        rw [show k + 1 + j = k + (j + 1) by omega] at this
        rw [this, ne _ (by omega)]
    · cases j with
      | zero =>
        simp only [List.getElem?_cons_zero, Option.some.injEq] at hj
        subst hj
        simp only [Nat.add_zero] at hl ⊢
        refine ⟨s, rfl, fun i hi => ?_, fun _ _ => rfl, ?_⟩
        · rw [i1 i (by omega), ne i (by omega)]
        · rw [i1 k (by omega)]
          exact (State.ostate_setOstate s k k _).trans (if_pos ⟨rfl, hl⟩)
      | succ j =>
        obtain ⟨u, h1, h2, h3, h4⟩ := i3 j o' (by simpa using hj) (by simp [State.setOstate]; omega)
        rw [show k + 1 + j = k + (j + 1) by omega] at h2 h3 h4
        rw [ne _ (by omega)] at h4
        refine ⟨u, h1, h2, fun i hi => ?_, h4⟩
        rw [h3 i hi, ne i (by omega)]

end Sys2Proof.Machine
end

