-- ==== Sys2Proof/Laws/WellFormed.lean ====
section
/-! SUPPORT. Laws of well-formedness: the word's fields, the nine checks as one conjunction, and that a word which passes
the checks decodes (30_encoding.md R110, R116, R127). -/

namespace Sys2Proof

/-- A word is its four fields (30_encoding.md R110). -/
theorem mkWord_fields (w : UWord) : mkWord (uTag w) (uA w) (uB w) (uC w) = w := by
  unfold mkWord uTag uA uB uC
  apply BitVec.eq_of_getLsbD_eq
  intro i hi
  simp only [BitVec.getLsbD_append, BitVec.getLsbD_extractLsb']
  by_cases h1 : i < 8
  · simp [h1]
  · by_cases h2 : i < 16
    · have : i - 8 < 8 := by omega
      simp [h1, this]; congr 1; omega
    · by_cases h3 : i < 24
      · have a1 : ¬ i - 8 < 8 := by omega
        have a2 : i - 8 - 8 < 8 := by omega
        simp [h1, a1, a2]; congr 1; omega
      · have a1 : ¬ i - 8 < 8 := by omega
        have a2 : ¬ i - 8 - 8 < 8 := by omega
        have a3 : i - 8 - 8 - 8 < 8 := by omega
        simp [h1, a1, a2, a3]; congr 1; omega

theorem encodeSel8_decodeSel8 {b : Byte} {d : Sel8} (h : decodeSel8 b = some d) : encodeSel8 d = b := by
  revert h; revert d; revert b; decide +kernel

theorem encodePair_decodePair {b : Byte} {d : PairSel} (h : decodePair b = some d) : encodePair d = b := by
  revert h; revert d; revert b; decide +kernel

/-- The tags of each shape (30_encoding.md R116). -/
theorem tagShape_cases (t : Byte) :
   (tagShape t = none ∧ 0x13 ≤ t.toNat) ∨
   (tagShape t = some .none ∧ t ∈ ([0x00, 0x01, 0x09, 0x0A, 0x0B, 0x0F, 0x10, 0x11, 0x12] : List Byte)) ∨
   (tagShape t = some .tbl ∧ t = 2) ∨ (tagShape t = some .pair ∧ t ∈ ([3,4,8] : List Byte)) ∨
   (tagShape t = some .selPair ∧ t ∈ ([5,6,12,13] : List Byte)) ∨ (tagShape t = some .selSel ∧ t = 7) ∨ (tagShape t = some .selSelFn ∧ t = 14) := by
  revert t; decide +kernel

/-- A configuration is well-formed exactly when each of the nine checks passes (R127). -/
theorem Cfg.wf_iff (c : Cfg) : c.wf = true ↔ c.wfTag ∧ c.wfSel ∧ c.wfPlace ∧ c.wfTables ∧ c.wfIrq ∧ c.wfCt ∧ c.wfPaging ∧ c.wfPorts ∧ c.wfBoard := by
  unfold Cfg.wf Cfg.check Cfg.checkWith
  repeat (split; · simp_all)
  simp_all

/-- The checks with the size of the bank arrays pass exactly when the record passes and the arrays are good. -/
theorem Cfg.checkWith_eq_none (c : Cfg) (arrays : Bool) : c.checkWith arrays = none ↔ c.wf = true ∧ arrays = true := by
  rw [Cfg.wf_iff]
  unfold Cfg.checkWith
  cases c.wfTag <;> cases c.wfSel <;> cases c.wfPlace <;> cases c.wfTables <;> cases c.wfIrq <;> cases c.wfCt <;> simp
  cases c.wfPaging <;> cases arrays <;> cases c.wfPorts <;> cases c.wfBoard <;> simp

/-- With good arrays the first check that fails is the record's own. -/
theorem Cfg.checkWith_true (c : Cfg) : c.checkWith true = c.check := rfl

/-- A bad array in a record that is well-formed fails check 7. -/
theorem Cfg.checkWith_false {c : Cfg} (h : c.wf = true) : c.checkWith false = some .wfPaging := by
  obtain ⟨h1, h2, h3, h4, h5, h6, h7, h8, h9⟩ := (Cfg.wf_iff c).mp h
  simp [Cfg.checkWith, h1, h2, h3, h4, h5, h6]

/-- A word that passes `wf_tag` and `wf_sel` is a micro-op. -/
theorem word_decodes {c : Cfg} {w : UWord} (ht : tagOk w = true) (hs : wordSelOk c w = true) : (decodeUop w).isSome := by
  unfold decodeUop
  rw [if_pos ht]
  unfold wordSelOk at hs
  unfold tagOk at ht
  generalize uTag w = t at *
  rcases tagShape_cases t with ⟨h, h'⟩ | ⟨h, h'⟩ | ⟨h, h'⟩ | ⟨h, h'⟩ | ⟨h, h'⟩ | ⟨h, h'⟩ | ⟨h, h'⟩ <;> rw [h] at ht hs <;> simp only at ht hs
  · simp at ht
  · simp only [List.mem_cons, List.not_mem_nil, or_false] at h'
    rcases h' with rfl | rfl | rfl | rfl | rfl | rfl | rfl | rfl | rfl <;> rfl
  · subst h'; rfl
  · cases hp : decodePair (uA w) with
    | none => rw [hp] at hs; simp at hs
    | some p => 
      simp only [List.mem_cons, List.not_mem_nil, or_false] at h'
      rcases h' with rfl | rfl | rfl <;> simp [decodeFields, hp]
  · cases hp : decodeSel8 (uA w) with
    | none => rw [hp] at hs; simp at hs
    | some p => 
      cases hq : decodePair (uB w) with
      | none => rw [hq] at hs; simp at hs
      | some q =>
      simp only [List.mem_cons, List.not_mem_nil, or_false] at h'
      rcases h' with rfl | rfl | rfl | rfl <;> simp [decodeFields, hp, hq]
  · cases hp : decodeSel8 (uA w) with
    | none => rw [hp] at hs; simp at hs
    | some p => 
      cases hq : decodeSel8 (uB w) with
      | none => rw [hq] at hs; simp at hs
      | some q => subst h'; simp [decodeFields, hp, hq]
  · cases hp : decodeSel8 (uA w) with
    | none => rw [hp] at hs; simp at hs
    | some p => 
      cases hq : decodeSel8 (uB w) with
      | none => rw [hq] at hs; simp at hs
      | some q => subst h'; simp [decodeFields, hp, hq]

theorem Cfg.prog?_mem {c : Cfg} {t b : Byte} {p : List UWord} (h : c.prog? t b = some p) : p ∈ c.programs := by
  unfold Cfg.prog? at h
  simp only [Option.bind_eq_some_iff] at h
  obtain ⟨x, hx, hp⟩ := h
  unfold Cfg.programs
  rw [List.mem_flatMap]
  exact ⟨x, List.mem_of_find?_eq_some hx, List.mem_of_getElem? hp⟩

theorem Cfg.check_of_wf {c : Cfg} (h : c.wf = true) : c.check = none := by
  unfold Cfg.wf at h; simpa using h

theorem Cfg.check_of_not_wf {c : Cfg} (h : c.wf = false) : ∃ k, c.check = some k := by
  unfold Cfg.wf at h
  exact Option.isSome_iff_exists.mp (by simpa using h)

end Sys2Proof
end

