-- ==== Sys2Proof/Laws/Host.lean ====
section
/-! SUPPORT. What the host's operations do (spec/44_host.md): construction, the bytes the media loader supplies, the reset
hooks. -/

namespace Sys2Proof.Machine

/-! ### Construction (R255, R256) -/

theorem banksOk_iff (n : Nat) (l : List (Nat × List Byte)) : banksOk n l = true ↔ ∀ e ∈ l, e.1 < n ∧ e.2.length = 16384 := by
  unfold banksOk
  simp [List.all_eq_true, windowSize]

/-- A construction that succeeds, said once (R255, R256). -/
theorem construct_ok {c : Cfg} {m : Media} {x : Input} {s : State} (h : construct c m x = .ok s) :
   c.wf = true ∧ (∀ e ∈ m.rom, e.1 < c.romBanks ∧ e.2.length = 16384) ∧ (∀ e ∈ m.ram, e.1 < c.ramBanks ∧ e.2.length = 16384) ∧
   s = State.init { c with rom := loadBanks c.rom m.rom } (loadBanks c.ramInit m.ram) x := by
  unfold construct at h
  split at h
  · cases h
  · next hk =>
    obtain ⟨hw, hb⟩ := (Cfg.checkWith_eq_none c _).mp hk
    rw [Bool.and_eq_true, banksOk_iff, banksOk_iff] at hb
    cases h
    exact ⟨hw, hb.1, hb.2, rfl⟩

/-- A well-formed configuration with good arrays is built (R255). -/
theorem construct_of_good {c : Cfg} {m : Media} (x : Input) (h : c.wf = true) (hr : banksOk c.romBanks m.rom = true)
    (hm : banksOk c.ramBanks m.ram = true) :
    construct c m x = .ok (State.init { c with rom := loadBanks c.rom m.rom } (loadBanks c.ramInit m.ram) x) := by
  unfold construct
  rw [(Cfg.checkWith_eq_none c _).mpr ⟨h, by rw [hr, hm]; rfl⟩]

/-- A byte after a bank array was loaded: the array inside its range, the old byte outside. -/
theorem Memory.read_load (d : Byte) (l : List Byte) (m : Memory) (a b : Nat) :
    Memory.read d (Memory.load d m a l) b = if a ≤ b ∧ b < a + l.length then l.getD (b - a) 0 else Memory.read d m b := by
  induction l generalizing m a with
  | nil => simp [Memory.load]
  | cons x l ih =>
    rw [Memory.load, ih]
    by_cases h : b = a
    · subst h
      rw [if_neg (by omega), if_pos (by simp)]; simp
    · rw [Memory.read_write_other _ _ _ h]
      by_cases h2 : a + 1 ≤ b ∧ b < a + 1 + l.length
      · rw [if_pos h2, if_pos (by simp; omega)]
        have : b - a = (b - (a+1)) + 1 := by omega
        rw [this]; simp
      · rw [if_neg h2, if_neg (by simp; omega)]

/-- A bank with no array keeps its bytes. -/
theorem read_loadBanks_other (l : List (Nat × List Byte)) (m : Memory) (n o : Nat) (ho : o < 16384) 
    (hl : ∀ e ∈ l, e.2.length = 16384) (hn : n ∉ l.map Prod.fst) :
    Memory.read Memory.unlisted (loadBanks m l) (bankKey n o) = Memory.read Memory.unlisted m (bankKey n o) := by
  unfold loadBanks
  induction l generalizing m with
  | nil => rfl
  | cons e l ih =>
    simp only [List.map_cons, List.mem_cons, not_or] at hn
    rw [List.foldl_cons, ih _ (fun x hx => hl x (List.mem_cons_of_mem _ hx)) hn.2, Memory.read_load, if_neg]
    have := hl e (List.mem_cons_self)
    rw [this]
    unfold bankKey windowSize
    have := hn.1
    omega

/-- A bank holds the array supplied for it. -/
theorem read_loadBanks_same (l : List (Nat × List Byte)) (m : Memory) (e : Nat × List Byte) (he : e ∈ l) (o : Nat) (ho : o < 16384) 
    (hl : ∀ e ∈ l, e.2.length = 16384) (hn : (l.map Prod.fst).Nodup) :
    e.2[o]? = some (Memory.read Memory.unlisted (loadBanks m l) (bankKey e.1 o)) := by
  unfold loadBanks
  induction l generalizing m with
  | nil => cases he
  | cons x l ih =>
    simp only [List.map_cons, List.nodup_cons] at hn
    rw [List.foldl_cons]
    rcases List.mem_cons.mp he with rfl | h
    · have := read_loadBanks_other l (Memory.load Memory.unlisted m (bankKey e.1 0) e.2) e.1 o ho (fun x hx => hl x (List.mem_cons_of_mem _ hx)) hn.1
      unfold loadBanks at this
      have hle := hl e (List.mem_cons_self)
      rw [this, Memory.read_load, if_pos (by rw [hle]; unfold bankKey windowSize; omega)]
      have : bankKey e.1 o - bankKey e.1 0 = o := by unfold bankKey; omega
      rw [this, List.getD_eq_getElem?_getD]
      rw [List.getElem?_eq_getElem (by omega)]; rfl
    · exact ih _ h (fun x hx => hl x (List.mem_cons_of_mem _ hx)) hn.2

/-! ### Reset hooks (R211, R311) -/

/-- The reset hooks of the peripherals, said once: each device its own actions, every other state kept. -/
theorem presetPeriphs_eq (l : List Periph) (s : State) (k : Nat) :
    s.presetPeriphs k l = { s with units := { s.units with periph := (s.presetPeriphs k l).units.periph } } ∧
    (s.presetPeriphs k l).units.periph.length = s.units.periph.length ∧
    (∀ j, j < k → (s.presetPeriphs k l).pstate j = s.pstate j) ∧
    (∀ j, (l[j]? = some .ic ∨ l[j]? = some .paging ∨ l[j]? = none) → (s.presetPeriphs k l).pstate (k + j) = s.pstate (k + j)) ∧
    (∀ j d, l[j]? = some (.device d) → k + j < s.units.periph.length → (s.presetPeriphs k l).pstate (k + j) = s.devActs 0 0 d.presetActs (s.pstate (k + j))) := by
  induction l generalizing s k with
  | nil => exact ⟨rfl, rfl, fun _ _ => rfl, fun _ _ => rfl, fun j d h => by simp at h⟩
  | cons p l ih =>
    have other : ∀ (t : State) , (t = s) → s.presetPeriphs k (p :: l) = t.presetPeriphs (k+1) l → (∀ d, p ≠ .device d) → 
     s.presetPeriphs k (p :: l) = { s with units := { s.units with periph := (s.presetPeriphs k (p :: l)).units.periph } } ∧
    (s.presetPeriphs k (p :: l)).units.periph.length = s.units.periph.length ∧
    (∀ j, j < k → (s.presetPeriphs k (p :: l)).pstate j = s.pstate j) ∧
    (∀ j, ((p::l)[j]? = some .ic ∨ (p::l)[j]? = some .paging ∨ (p::l)[j]? = none) → (s.presetPeriphs k (p :: l)).pstate (k + j) = s.pstate (k + j)) ∧
    (∀ j d, (p::l)[j]? = some (.device d) → k + j < s.units.periph.length → (s.presetPeriphs k (p :: l)).pstate (k + j) = s.devActs 0 0 d.presetActs (s.pstate (k + j))) := by
      rintro t rfl e hd
      rw [e]
      obtain ⟨i1, i2, i3, i4, i5⟩ := ih t (k+1)
      refine ⟨i1, i2, fun j hj => i3 j (by omega), ?_, ?_⟩
      · intro j hj
        cases j with
        | zero => exact i3 k (by omega)
        | succ j => have := i4 j (by simpa using hj); rwa [show k + 1 + j = k + (j+1) by omega] at this
      · intro j d hj hl
        cases j with
        | zero => simp at hj; exact absurd hj (hd d)
        | succ j => have := i5 j d (by simpa using hj) (by omega); rwa [show k + 1 + j = k + (j+1) by omega] at this
    cases p with
    | ic => exact other s rfl rfl (by simp)
    | paging => exact other s rfl rfl (by simp)
    | device d =>
      rw [State.presetPeriphs]
      set t := s.setPstate k (s.devActs 0 0 d.presetActs (s.pstate k)) with ht
      obtain ⟨i1, i2, i3, i4, i5⟩ := ih t (k+1)
      have al : State.Alike s t := ⟨rfl, rfl, rfl, rfl, rfl, rfl⟩
      have ne : ∀ j, j ≠ k → t.pstate j = s.pstate j := by
        intro j hj
        simp [ht, State.pstate, State.setPstate, hj.symm]
      refine ⟨i1, by rw [i2]; simp [ht, State.setPstate], ?_, ?_, ?_⟩
      · intro j hj; rw [i3 j (by omega), ne j (by omega)]
      · intro j hj
        cases j with
        | zero => simp at hj
        | succ j => have := i4 j (by simpa using hj); rw [show k + 1 + j = k + (j+1) by omega] at this; rw [this, ne _ (by omega)]
      · intro j d' hj hl
        cases j with
        | zero =>
          simp at hj; subst hj
          simp only [Nat.add_zero] at hl ⊢
          rw [i3 k (by omega)]
          simp [ht, State.pstate, State.setPstate, hl]
        | succ j => 
          have := i5 j d' (by simpa using hj) (by simp [ht, State.setPstate]; omega)
          rw [show k + 1 + j = k + (j+1) by omega] at this
          rw [this, ne _ (by omega), devActs_alike al]

/-- The reset hooks of the observers, said once. -/
theorem presetObservers_eq (l : List Observer) (s : State) (k : Nat) :
    s.presetObservers k l = { s with units := { s.units with observer := (s.presetObservers k l).units.observer } } ∧
    (s.presetObservers k l).units.observer.length = s.units.observer.length ∧
    (∀ j, j < k → (s.presetObservers k l).ostate j = s.ostate j) ∧
    (∀ j d, l[j]? = some d → k + j < s.units.observer.length → (s.presetObservers k l).ostate (k + j) = s.devActs 0 0 d.presetActs (s.ostate (k + j))) := by
  induction l generalizing s k with
  | nil => exact ⟨rfl, rfl, fun _ _ => rfl, fun j d h => by simp at h⟩
  | cons d l ih =>
      rw [State.presetObservers]
      set t := s.setOstate k (s.devActs 0 0 d.presetActs (s.ostate k)) with ht
      obtain ⟨i1, i2, i3, i5⟩ := ih t (k+1)
      have al : State.Alike s t := ⟨rfl, rfl, rfl, rfl, rfl, rfl⟩
      have ne : ∀ j, j ≠ k → t.ostate j = s.ostate j := by
        intro j hj
        simp [ht, State.ostate, State.setOstate, hj.symm]
      refine ⟨i1, by rw [i2]; simp [ht, State.setOstate], ?_, ?_⟩
      · intro j hj; rw [i3 j (by omega), ne j (by omega)]
      · intro j d' hj hl
        cases j with
        | zero =>
          simp at hj; subst hj
          simp only [Nat.add_zero] at hl ⊢
          rw [i3 k (by omega)]
          simp [ht, State.ostate, State.setOstate, hl]
        | succ j => 
          have := i5 j d' (by simpa using hj) (by simp [ht, State.setOstate]; omega)
          rw [show k + 1 + j = k + (j+1) by omega] at this
          rw [this, ne _ (by omega), devActs_alike al]

/-- `Reset()` sets CPU, sequencer, controller and mapping, and changes the units' states (R311). -/
theorem State.cpuReset_eq (s : State) :
    let u := s.cfg.pagingUpdate s.cfg.paging.initRegs
    s.cpuReset =
      { s with
        cpu :=
          { pc := 0x0000, sp := s.cfg.resetSp, flags := s.cfg.resetFlags, r8 := s.cfg.resetR8, lat := s.cfg.resetLat
            w := s.cfg.resetW, ir := 0x00, ime := false, halted := false, bug := false }
        seq := { progId := .empty, cursor := 0 }
        ic := { st := .idle, ifr := 0x00, ier := 0x00, src := 0 }
        paging :=
          { s.paging with
            preg := s.cfg.paging.initRegs, sel := u.map (·.1), cont := u.map (·.2.1), vid := u.map (·.2.2) }
        units := s.cpuReset.units } := by
  unfold State.cpuReset
  simp only
  rw [(presetObservers_eq _ _ _).1, (presetPeriphs_eq _ _ _).1]

theorem State.cpuReset_units (s : State) :
    s.cpuReset.units.periph.length = s.units.periph.length ∧ s.cpuReset.units.observer.length = s.units.observer.length := by
  unfold State.cpuReset
  simp only
  constructor
  · rw [(presetObservers_eq _ _ _).1]
    exact (presetPeriphs_eq _ _ _).2.1
  · rw [(presetObservers_eq _ _ _).2.1, (presetPeriphs_eq _ _ _).1]

end Sys2Proof.Machine
end

