-- ==== Sys2Proof/Laws/Kept.lean ====
section
/-! SUPPORT. When every byte of memory is kept (`State.MemoryKept`): whenever RAM, the mapping, the board and the fixed
configuration are. -/

namespace Sys2Proof.Machine

theorem State.readRam_congr {s t : State} (h : s.SameMemory t) (n o : Nat) : t.readRam n o = s.readRam n o := by
  unfold State.readRam
  rw [h.1]

theorem State.readRom_congr {s t : State} (h : t.cfg.fixed = s.cfg.fixed) (n o : Nat) : t.readRom n o = s.readRom n o := by
  unfold State.readRom
  rw [Cfg.rom_of_fixed h]

/-- Where every lookup is allowed, so are those a function makes. -/
theorem Fn.allLooks_of_all {α κ : Type} {p : κ → Bool} (h : ∀ k, p k = true) (f : Fn α κ) : f.allLooks p = true := by
  induction f <;> simp_all [Fn.allLooks]

/-- A function's value depends on the lookups it makes alone. -/
theorem Fn.eval_congr_looks {α κ : Type} {arg : α → Nat} {look look' : κ → Nat → Nat → Nat} {p : κ → Bool}
    (h : ∀ k, p k = true → look' k = look k) (f : Fn α κ) (hf : f.allLooks p = true) : f.eval arg look' = f.eval arg look := by
  induction f <;> simp_all [Fn.allLooks, Fn.eval]

/-- What holds of all four values holds of each window's. -/
theorem Quad.all_get {α : Type} {q : Quad α} {p : α → Bool} (h : q.toList.all p = true) (w : Nat) : p (q.get w) = true := by
  simp only [Quad.toList, List.all_cons, List.all_nil, Bool.and_true, Bool.and_eq_true] at h
  unfold Quad.get
  split <;> tauto

/-- Base memory is the same byte at every address where the mapping is the same and no window is unmapped. -/
theorem State.baseRead_congr {s t : State} (h : s.SameMemory t) (hm : s.lookSteady .base = true) (a : Addr) :
    t.baseRead a = s.baseRead a := by
  have hw : s.paging.sel.get (win a) ≠ .unmapped :=
    of_decide_eq_true (Quad.all_get (p := fun x : Sel => decide (x ≠ .unmapped)) hm (win a))
  unfold State.baseRead State.base
  rw [h.1]
  cases e : s.paging.sel.get (win a) with
  | rom n => exact State.readRom_congr h.2.2 _ _
  | ram n => exact State.readRam_congr h _ _
  | unmapped => exact absurd e hw

/-- A board function whose lookups take no floating-bus byte (43_board.md R236, log entry 17). -/
theorem State.boardEval_congr {s t : State} (h : s.SameMemory t) (b : BoardCfg) (x y : Nat) (f : BoardFn)
    (hf : f.allLooks s.lookSteady = true) : t.boardEval b x y f = s.boardEval b x y f := by
  have ha : t.boardArg x y = s.boardArg x y := by
    funext k
    cases k <;> simp [State.boardArg, h.2.1]
  unfold State.boardEval
  rw [ha]
  refine Fn.eval_congr_looks (fun k hk => ?_) f hf
  funext u v
  have e1 := Cfg.romBanks_of_fixed h.2.2
  have e2 := Cfg.ramBanks_of_fixed h.2.2
  cases k
  · rfl
  · simp [State.boardLook, e1, State.readRom_congr h.2.2, of_decide_eq_true hk]
  · simp [State.boardLook, e2, State.readRam_congr h, of_decide_eq_true hk]
  · simp [State.boardLook, State.baseRead_congr h hk]

theorem State.readBus_steady {s t : State} (h : s.SameMemory t) (a : Addr) (hs : s.steady a = true) :
    t.readBus a = s.readBus a := by
  unfold State.readBus
  rw [State.resolve_congr h]
  unfold State.steady at hs
  split at hs
  · next n o e => simp only [e, State.readRom_congr h.2.2]
  · next n o e => simp only [e, State.readRam_congr h]
  · next b e =>
    simp only [e, State.boardRead, State.boardEval_congr h b _ _ _ hs]
  · cases hs

/-- Where RAM, mapping, board and fixed configuration are the same, every byte is. -/
theorem State.SameMemory.kept {s t : State} (h : s.SameMemory t) : s.MemoryKept t :=
  ⟨State.readRam_congr h, State.readRom_congr h.2.2, State.resolve_congr h, h.2.1, State.readBus_steady h⟩

/-- After one RAM byte was written: it holds the value, every other RAM byte is kept, and so is every backed address that
does not resolve to it. -/
theorem State.readBus_of_ramWrite {s t : State} {n o : Nat} {v : Byte} (ho : o < windowSize)
    (hp : t.paging = { s.paging with ram := Memory.write Memory.unlisted s.paging.ram (bankKey n o) v })
    (hc : t.cfg.fixed = s.cfg.fixed) :
    t.readRam n o = v ∧ (∀ n' o', o' < windowSize → (n', o') ≠ (n, o) → t.readRam n' o' = s.readRam n' o') ∧
      (∀ a, t.resolve a = s.resolve a) ∧
      ∀ a, s.backed a = true → s.resolve a ≠ .ramByte n o → t.readBus a = s.readBus a := by
  have hr : ∀ a, t.resolve a = s.resolve a := by
    intro a
    unfold State.resolve State.boardAt State.base
    rw [hp, Cfg.board_of_fixed hc]
  have hram : ∀ n' o', o' < windowSize → (n', o') ≠ (n, o) → t.readRam n' o' = s.readRam n' o' := by
    intro n' o' h1 h2
    unfold State.readRam
    rw [hp]
    refine Memory.read_write_other _ _ _ fun e => ?_
    obtain ⟨rfl, rfl⟩ := (bankKey_inj h1 ho).mp e
    exact h2 rfl
  refine ⟨by unfold State.readRam; rw [hp]; exact Memory.read_write_same _ _ _ _, hram, hr, fun a hb hne => ?_⟩
  unfold State.backed at hb
  split at hb
  · next n' o' e => rw [State.readBus_rom e, State.readBus_rom ((hr a).trans e), State.readRom_congr hc]
  · next n' o' e =>
    rw [State.readBus_ram e, State.readBus_ram ((hr a).trans e)]
    refine hram n' o' (State.resolve_ram_offset e) fun h => hne ?_
    cases h
    exact e
  · cases hb
  · cases hb

end Sys2Proof.Machine
end

