-- ==== Sys2Proof/Laws/Operands.lean ====
section
/-! SUPPORT. Operands read back what is written to them, and writing one leaves every other byte register (30_encoding.md
R114, R115). -/

namespace Sys2Proof.Machine

/-! ### Byte views of a 16-bit register (10_state.md R22) -/

@[simp] theorem hi8_join (a b : Byte) : hi8 (join a b) = a := by
  apply BitVec.eq_of_getLsbD_eq
  intro i hi
  have h : ¬ (8 + i < 8) := by omega
  show ((a ++ b : BitVec (8 + 8)).extractLsb' 8 8).getLsbD i = _
  rw [BitVec.getLsbD_extractLsb', BitVec.getLsbD_append, if_neg h, Nat.add_sub_cancel_left]
  simp [hi]

@[simp] theorem lo8_join (a b : Byte) : lo8 (join a b) = b := by
  apply BitVec.eq_of_getLsbD_eq
  intro i hi
  show ((a ++ b : BitVec (8 + 8)).extractLsb' 0 8).getLsbD i = _
  rw [BitVec.getLsbD_extractLsb', BitVec.getLsbD_append, Nat.zero_add, if_pos hi]
  simp [hi]

@[simp] theorem join_hi8_lo8 (v : Addr) : join (hi8 v) (lo8 v) = v := by
  unfold hi8 lo8 join
  apply BitVec.eq_of_getLsbD_eq
  intro i hi
  simp only [BitVec.getLsbD_append, BitVec.getLsbD_extractLsb']
  by_cases h : i < 8
  · simp [h]
  · have h2 : i - 8 < 8 := by omega
    have h3 : 8 + (i - 8) = i := by omega
    simp [h, h2, h3]

/-! ### Byte registers -/

@[simp] theorem Cpu.writeSel_ir (c : Cpu) (d : Sel8) (v : Byte) : (c.writeSel d v).ir = c.ir := by cases d <;> rfl
@[simp] theorem Cpu.writeSel_ime (c : Cpu) (d : Sel8) (v : Byte) : (c.writeSel d v).ime = c.ime := by cases d <;> rfl
@[simp] theorem Cpu.writeSel_halted (c : Cpu) (d : Sel8) (v : Byte) : (c.writeSel d v).halted = c.halted := by
  cases d <;> rfl
@[simp] theorem Cpu.writeSel_bug (c : Cpu) (d : Sel8) (v : Byte) : (c.writeSel d v).bug = c.bug := by cases d <;> rfl
@[simp] theorem Cpu.writeSel_r8_length (c : Cpu) (d : Sel8) (v : Byte) : (c.writeSel d v).r8.length = c.r8.length := by
  cases d <;> simp [Cpu.writeSel]

/-- The byte register exists in a CPU with this many of them. -/
def Sel8.below (n : Nat) : Sel8 → Bool
  | .r i => decide (i.toNat < n)
  | _ => true

theorem State.hasSel_eq (s : State) (d : Sel8) : s.hasSel d = Sel8.below s.cpu.r8.length d := by cases d <;> rfl

theorem Cpu.readSel_writeSel_same (c : Cpu) (d : Sel8) (v : Byte) (h : Sel8.below c.r8.length d = true) :
    (c.writeSel d v).readSel d = v := by
  cases d <;> simp_all [Cpu.writeSel, Cpu.readSel, Sel8.below]

theorem Cpu.readSel_writeSel_other (c : Cpu) (d x : Sel8) (v : Byte) (h : x ≠ d) :
    (c.writeSel d v).readSel x = c.readSel x := by
  cases d <;> cases x <;> simp_all [Cpu.writeSel, Cpu.readSel]
  next i j =>
    have : i.toNat ≠ j.toNat := fun e => h (BitVec.eq_of_toNat_eq e.symm)
    simp [this]

/-- Writing a byte register leaves every other one (R114). -/
theorem Cpu.writeSel_sameBut (c : Cpu) (d : Sel8) (v : Byte) : c.SameBut [d] (c.writeSel d v) :=
  ⟨fun x hx => Cpu.readSel_writeSel_other c d x v (by simpa using hx), by simp, by simp, by simp, by simp, by simp⟩

theorem Cpu.SameBut.refl (c : Cpu) : c.SameBut [] c := ⟨fun _ _ => rfl, rfl, rfl, rfl, rfl, rfl⟩

theorem Cpu.SameBut.trans {c d e : Cpu} {l m : List Sel8} (h : c.SameBut l d) (k : d.SameBut m e) : c.SameBut (l ++ m) e := by
  obtain ⟨h1, h2, h3, h4, h5, h6⟩ := h
  obtain ⟨k1, k2, k3, k4, k5, k6⟩ := k
  refine ⟨fun x hx => ?_, k2.trans h2, k3.trans h3, k4.trans h4, k5.trans h5, k6.trans h6⟩
  rw [List.mem_append, not_or] at hx
  rw [k1 x hx.2, h1 x hx.1]

theorem Cpu.SameBut.mono {c d : Cpu} {l m : List Sel8} (h : c.SameBut l d) (hm : ∀ x ∈ l, x ∈ m) : c.SameBut m d :=
  ⟨fun x hx => h.1 x fun h' => hx (hm x h'), h.2⟩

@[simp] theorem State.readSel_writeSel_same {s : State} {d : Sel8} (v : Byte) (h : s.hasSel d = true) :
    (s.writeSel d v).readSel d = v := Cpu.readSel_writeSel_same _ _ _ (by rw [← State.hasSel_eq]; exact h)

@[simp] theorem State.writeSel_hasSel (s : State) (d x : Sel8) (v : Byte) : (s.writeSel d v).hasSel x = s.hasSel x := by
  rw [State.hasSel_eq, State.hasSel_eq]
  simp [State.writeSel]

/-! ### Pairs -/

theorem State.hasPair_iff (s : State) (p : PairSel) :
    s.hasPair p = true ↔ ∃ hi lo, s.pairSels p = some (hi, lo) ∧ s.hasSel hi = true ∧ s.hasSel lo = true := by
  unfold State.hasPair
  split
  · next hi lo h =>
    rw [h, Bool.and_eq_true]
    exact ⟨fun e => ⟨hi, lo, rfl, e.1, e.2⟩, fun ⟨_, _, e, e1, e2⟩ => by cases e; exact ⟨e1, e2⟩⟩
  · next h => simp [h]

/-- A pair is two byte registers, the low one written last (00_scope.md R11). -/
theorem State.writePair_cpu {s : State} {p : PairSel} {hi lo : Sel8} (h : s.pairSels p = some (hi, lo)) (v : Addr) :
    (s.writePair p v).cpu = (s.cpu.writeSel hi (hi8 v)).writeSel lo (lo8 v) := by
  unfold State.writePair
  rw [h]
  rfl

theorem State.writePair_sameBut {s : State} {p : PairSel} {hi lo : Sel8} (h : s.pairSels p = some (hi, lo)) (v : Addr) :
    s.cpu.SameBut [hi, lo] (s.writePair p v).cpu := by
  rw [State.writePair_cpu h]
  exact (Cpu.writeSel_sameBut _ _ _).trans (Cpu.writeSel_sameBut _ _ _)

theorem State.readPair_eq {s : State} {p : PairSel} {hi lo : Sel8} (h : s.pairSels p = some (hi, lo)) :
    s.readPair p = join (s.readSel hi) (s.readSel lo) := by
  unfold State.readPair
  rw [h]

/-- A pair with two distinct halves reads back what is written to it. -/
theorem State.readPair_writePair {s : State} {p : PairSel} {hi lo : Sel8} (h : s.pairSels p = some (hi, lo)) (hne : hi ≠ lo)
    (h1 : s.hasSel hi = true) (h2 : s.hasSel lo = true) (v : Addr) : (s.writePair p v).readPair p = v := by
  have e : (s.writePair p v).pairSels p = some (hi, lo) := by
    refine Eq.trans ?_ h
    unfold State.writePair
    split <;> cases p <;> rfl
  rw [State.readPair_eq e]
  have e2 : s.writePair p v = (s.writeSel hi (hi8 v)).writeSel lo (lo8 v) := by
    unfold State.writePair
    rw [h]
  rw [e2]
  have e3 : ((s.writeSel hi (hi8 v)).writeSel lo (lo8 v)).readSel hi = hi8 v := by
    refine (Cpu.readSel_writeSel_other _ lo hi _ hne).trans ?_
    exact State.readSel_writeSel_same _ h1
  rw [e3, State.readSel_writeSel_same _ (by simpa using h2), join_hi8_lo8]

@[simp] theorem State.writePair_ime (s : State) (p : PairSel) (v : Addr) : (s.writePair p v).cpu.ime = s.cpu.ime := by
  unfold State.writePair; split <;> simp [State.writeSel]
@[simp] theorem State.writePair_halted (s : State) (p : PairSel) (v : Addr) :
    (s.writePair p v).cpu.halted = s.cpu.halted := by
  unfold State.writePair; split <;> simp [State.writeSel]
@[simp] theorem State.writePair_bug (s : State) (p : PairSel) (v : Addr) : (s.writePair p v).cpu.bug = s.cpu.bug := by
  unfold State.writePair; split <;> simp [State.writeSel]
@[simp] theorem State.writePair_r8_length (s : State) (p : PairSel) (v : Addr) :
    (s.writePair p v).cpu.r8.length = s.cpu.r8.length := by
  unfold State.writePair; split <;> simp [State.writeSel]

@[simp] theorem State.writeSel_ime (s : State) (d : Sel8) (v : Byte) : (s.writeSel d v).cpu.ime = s.cpu.ime := by
  simp [State.writeSel]
@[simp] theorem State.writeSel_halted (s : State) (d : Sel8) (v : Byte) : (s.writeSel d v).cpu.halted = s.cpu.halted := by
  simp [State.writeSel]
@[simp] theorem State.writeSel_bug (s : State) (d : Sel8) (v : Byte) : (s.writeSel d v).cpu.bug = s.cpu.bug := by
  simp [State.writeSel]
@[simp] theorem State.writeSel_r8_length (s : State) (d : Sel8) (v : Byte) :
    (s.writeSel d v).cpu.r8.length = s.cpu.r8.length := by
  simp [State.writeSel]

end Sys2Proof.Machine
end

