-- ==== Sys2Proof/Laws/PerInstr.lean ====
section
/-! SUPPORT. Statements made per instruction: the word the encoder gives a micro-op whose operands exist passes the checks
`wf_tag` and `wf_sel` of 30_encoding.md R127. -/

namespace Sys2Proof.Laws

/-- The encoded word of an instruction whose operands exist under `c` has a tag of R116, zero unused fields, and
selectors that exist (R110, R117, R127). A REF opcode is no word. -/
def EncodedWordChecks.Statement (i : Instr) : Prop :=
  ∀ (c : Cfg) (w : UWord), i.wf c = true → encodeUop i = some w → tagOk w = true ∧ wordSelOk c w = true

theorem EncodedWordChecks.idle : EncodedWordChecks.Statement .idle := by
  intro k w h e
  cases e
  simp [tagOk, tagShape, wordSelOk]

theorem EncodedWordChecks.fetch : EncodedWordChecks.Statement .fetch := by
  intro k w h e
  cases e
  simp [tagOk, tagShape, wordSelOk]

theorem EncodedWordChecks.fetchx (t : Byte) : EncodedWordChecks.Statement (.fetchx t) := by
  intro k w h e
  cases e
  simp [tagOk, tagShape, wordSelOk]

theorem EncodedWordChecks.dec16 (p : PairSel) : EncodedWordChecks.Statement (.dec16 p) := by
  intro k w h e
  cases e
  simpa [tagOk, tagShape, wordSelOk, Instr.wf] using h

theorem EncodedWordChecks.inc16 (p : PairSel) : EncodedWordChecks.Statement (.inc16 p) := by
  intro k w h e
  cases e
  simpa [tagOk, tagShape, wordSelOk, Instr.wf] using h

theorem EncodedWordChecks.rd (d : Sel8) (p : PairSel) : EncodedWordChecks.Statement (.rd d p) := by
  intro k w h e
  cases e
  simpa [tagOk, tagShape, wordSelOk, Instr.wf] using h

theorem EncodedWordChecks.wr (a : Sel8) (p : PairSel) : EncodedWordChecks.Statement (.wr a p) := by
  intro k w h e
  cases e
  simpa [tagOk, tagShape, wordSelOk, Instr.wf] using h

theorem EncodedWordChecks.mov (d : Sel8) (a : Sel8) : EncodedWordChecks.Statement (.mov d a) := by
  intro k w h e
  cases e
  simpa [tagOk, tagShape, wordSelOk, Instr.wf] using h

theorem EncodedWordChecks.setpc (p : PairSel) : EncodedWordChecks.Statement (.setpc p) := by
  intro k w h e
  cases e
  simpa [tagOk, tagShape, wordSelOk, Instr.wf] using h

theorem EncodedWordChecks.setvec : EncodedWordChecks.Statement .setvec := by
  intro k w h e
  cases e
  simp [tagOk, tagShape, wordSelOk]

theorem EncodedWordChecks.irqchk : EncodedWordChecks.Statement .irqchk := by
  intro k w h e
  cases e
  simp [tagOk, tagShape, wordSelOk]

theorem EncodedWordChecks.irqend : EncodedWordChecks.Statement .irqend := by
  intro k w h e
  cases e
  simp [tagOk, tagShape, wordSelOk]

theorem EncodedWordChecks.inp (d : Sel8) (p : PairSel) : EncodedWordChecks.Statement (.inp d p) := by
  intro k w h e
  cases e
  simpa [tagOk, tagShape, wordSelOk, Instr.wf] using h

theorem EncodedWordChecks.outp (a : Sel8) (p : PairSel) : EncodedWordChecks.Statement (.outp a p) := by
  intro k w h e
  cases e
  simpa [tagOk, tagShape, wordSelOk, Instr.wf] using h

theorem EncodedWordChecks.alu (d : Sel8) (a : Sel8) (c : Byte) : EncodedWordChecks.Statement (.alu d a c) := by
  intro k w h e
  cases e
  simpa [tagOk, tagShape, wordSelOk, Instr.wf] using h

theorem EncodedWordChecks.ei : EncodedWordChecks.Statement .ei := by
  intro k w h e
  cases e
  simp [tagOk, tagShape, wordSelOk]

theorem EncodedWordChecks.di : EncodedWordChecks.Statement .di := by
  intro k w h e
  cases e
  simp [tagOk, tagShape, wordSelOk]

theorem EncodedWordChecks.halt : EncodedWordChecks.Statement .halt := by
  intro k w h e
  cases e
  simp [tagOk, tagShape, wordSelOk]

theorem EncodedWordChecks.setbug : EncodedWordChecks.Statement .setbug := by
  intro k w h e
  cases e
  simp [tagOk, tagShape, wordSelOk]

theorem EncodedWordChecks.refNop : EncodedWordChecks.Statement .refNop := fun _ _ _ h => nomatch h

theorem EncodedWordChecks.refDecB : EncodedWordChecks.Statement .refDecB := fun _ _ _ h => nomatch h

theorem EncodedWordChecks.refBugnop : EncodedWordChecks.Statement .refBugnop := fun _ _ _ h => nomatch h

theorem EncodedWordChecks.refLdANn : EncodedWordChecks.Statement .refLdANn := fun _ _ _ h => nomatch h

theorem EncodedWordChecks.refLdNnA : EncodedWordChecks.Statement .refLdNnA := fun _ _ _ h => nomatch h

theorem EncodedWordChecks.refIncA : EncodedWordChecks.Statement .refIncA := fun _ _ _ h => nomatch h

theorem EncodedWordChecks.refDecA : EncodedWordChecks.Statement .refDecA := fun _ _ _ h => nomatch h

theorem EncodedWordChecks.refLdAN : EncodedWordChecks.Statement .refLdAN := fun _ _ _ h => nomatch h

theorem EncodedWordChecks.refHalt : EncodedWordChecks.Statement .refHalt := fun _ _ _ h => nomatch h

theorem EncodedWordChecks.refLdAB : EncodedWordChecks.Statement .refLdAB := fun _ _ _ h => nomatch h

theorem EncodedWordChecks.refJpNn : EncodedWordChecks.Statement .refJpNn := fun _ _ _ h => nomatch h

theorem EncodedWordChecks.refRet : EncodedWordChecks.Statement .refRet := fun _ _ _ h => nomatch h

theorem EncodedWordChecks.refPrefixCb : EncodedWordChecks.Statement .refPrefixCb := fun _ _ _ h => nomatch h

theorem EncodedWordChecks.refOutNnA : EncodedWordChecks.Statement .refOutNnA := fun _ _ _ h => nomatch h

theorem EncodedWordChecks.refInANn : EncodedWordChecks.Statement .refInANn := fun _ _ _ h => nomatch h

theorem EncodedWordChecks.refDi : EncodedWordChecks.Statement .refDi := fun _ _ _ h => nomatch h

theorem EncodedWordChecks.refEi : EncodedWordChecks.Statement .refEi := fun _ _ _ h => nomatch h

theorem EncodedWordChecks.refFallback (t : Byte) (b : Byte) : EncodedWordChecks.Statement (.refFallback t b) := fun _ _ _ h => nomatch h

end Sys2Proof.Laws
end

