-- ==== Sys2Proof/Laws/Retire.lean ====
section
/-! SUPPORT. What a retired micro-op, a halt tick and a whole step leave: trace, time, and the parts that only some micro-ops
change. -/

namespace Sys2Proof.Machine

/-- `advance(0)` changes nothing inside the frame (10_state.md R47). -/
theorem State.advance_zero (s : State) (h : s.timing.framePos < s.cfg.frameCycles) : s.advance 0 = s := by
  simp [State.advance, Nat.div_eq_of_lt h, Nat.mod_eq_of_lt h, State.wraps]

/-- The waits an event list records. -/
abbrev waits (l : List Event) : Nat := (l.map Event.wait).sum

/-- What every retired micro-op does to the trace and to time: at most one access, and time advanced by its wait. -/
structure Timed (s t : State) (evs : List Event) : Prop where
  trace : t.trace = s.trace ++ evs
  access : (evs.filter Event.isAccess).length ≤ 1
  failed : t.failed = s.failed
  cfg : t.cfg = (s.advance (waits evs)).cfg
  queue : t.queue = (s.advance (waits evs)).queue
  input : t.input = (s.advance (waits evs)).input
  cycles : t.timing.cycles = (s.advance (waits evs)).timing.cycles
  framePos : t.timing.framePos = (s.advance (waits evs)).timing.framePos
  frame : t.timing.frame = (s.advance (waits evs)).timing.frame
  unitsP : t.units.periph.length = (s.advance (waits evs)).units.periph.length
  unitsO : t.units.observer.length = (s.advance (waits evs)).units.observer.length
  buslog : t.timing.buslog = s.timing.buslog ∨
    ∃ v, t.timing.buslog = Memory.write BusLog.unlisted s.timing.buslog t.timing.framePos v

/-- CPU and sequencer take no part in timing. -/
theorem Timed.setCpuSeq {s t : State} {evs : List Event} (h : Timed s t evs) (c : Cpu) (q : Seq) :
    Timed s { t with cpu := c, seq := q } evs :=
  ⟨h.trace, h.access, h.failed, h.cfg, h.queue, h.input, h.cycles, h.framePos, h.frame, h.unitsP, h.unitsO, h.buslog⟩

/-- A timed change keeps a well-formed configuration with a well-formed queue. -/
theorem Timed.wf {s t : State} {evs : List Event} (h : Timed s t evs) (hc : s.cfg.wf = true) (hq : s.queuedCfg.wf = true) :
    t.cfg.wf = true ∧ t.queuedCfg.wf = true := by
  have e := State.advance_wf (waits evs) hc hq
  unfold State.queuedCfg at *
  rw [h.cfg, h.queue]
  exact e

/-- What is timed from the advanced cursor is timed from the tick's start. -/
theorem Timed.ofSeq {s t : State} {evs : List Event} {q : Seq} (h : Timed { s with seq := q } t evs) : Timed s t evs := by
  have e := s.advance_withSeq q (waits evs)
  refine ⟨h.trace, h.access, h.failed, ?_, ?_, ?_, ?_, ?_, ?_, ?_, ?_, h.buslog⟩
  · rw [h.cfg, e]
  · rw [h.queue, e]
  · rw [h.input, e]
  · rw [h.cycles, e]
  · rw [h.framePos, e]
  · rw [h.frame, e]
  · rw [h.unitsP, e]
  · rw [h.unitsO, e]

/-- A change of nothing but CPU, sequencer, controller and trace is timed, when its events are no accesses. -/
theorem Timed.still {s t : State} (hF : s.timing.framePos < s.cfg.frameCycles) (evs : List Event)
    (ha : evs.filter Event.isAccess = []) (hw : waits evs = 0) (e : t = { s with cpu := t.cpu, seq := t.seq, ic := t.ic, trace := s.trace ++ evs }) :
    Timed s t evs := by
  rw [e]
  constructor <;> simp [ha, hw, State.advance_zero s hF]

theorem Timed.reg {s t : State} (hF : s.timing.framePos < s.cfg.frameCycles) (e : t = { s with cpu := t.cpu }) :
    Timed s t [] :=
  Timed.still hF [] rfl rfl (by rw [e]; simp)

theorem State.readMemory_timed (s : State) (f : Bool) (a : Addr) :
    Timed s (s.readMemory f a).1
      [if f then .fetch a (s.readMemory f a).2 (s.memWait a) else .memR a (s.readMemory f a).2 (s.memWait a)] := by
  have hw : waits [if f then Event.fetch a (s.readMemory f a).2 (s.memWait a)
      else .memR a (s.readMemory f a).2 (s.memWait a)] = s.memWait a := by cases f <;> simp [waits, Event.wait]
  constructor
  · exact s.readMemory_trace f a
  · exact List.length_filter_le _ _
  · simp
  all_goals try rw [hw]
  · exact s.readMemory_cfg f a
  · rfl
  · rfl
  · rw [s.readMemory_timing]
  · rw [s.readMemory_timing]
  · rw [s.readMemory_timing]
  · rw [s.readMemory_units]
  · rw [s.readMemory_units]
  · right; exact ⟨_, by rw [s.readMemory_timing]⟩

/-- The events of a bus write: VideoW where RAM behind a video window took the byte (41_bus.md R193, R196). -/
theorem State.writeBus_trace (s : State) (a : Addr) (v : Byte) :
    ∃ evs, (s.writeBus a v).1.trace = s.trace ++ evs ∧ evs.filter Event.isAccess = [] ∧ waits evs = 0 := by
  unfold State.writeBus State.boardWrite
  split
  · exact ⟨[], by simp, rfl, rfl⟩
  · exact ⟨[], by simp, rfl, rfl⟩
  · simp only
    split
    · exact ⟨[.videoW a v _], rfl, rfl, rfl⟩
    · exact ⟨[], by simp [State.writeRam], rfl, rfl⟩
  · exact ⟨[], by simp, rfl, rfl⟩

theorem State.writeMemory_timed (s : State) (a : Addr) (v : Byte) : ∃ evs, Timed s (s.writeMemory a v) evs := by
  obtain ⟨evs, h1, h2, h3⟩ := ((s.advance (s.memWait a)).logBus v).writeBus_trace a v
  have hw : waits (evs ++ [Event.memW a v (((s.advance (s.memWait a)).logBus v).writeBus a v).2 (s.memWait a)]) = s.memWait a := by
    have h3' : (evs.map Event.wait).sum = 0 := h3
    simp [waits, h3', Event.wait]
  refine ⟨evs ++ [.memW a v (((s.advance (s.memWait a)).logBus v).writeBus a v).2 (s.memWait a)], ?_⟩
  constructor
  · unfold State.writeMemory
    simp only [State.emit, h1]
    simp [State.logBus]
  · rw [List.filter_append, h2]; exact List.length_filter_le _ _
  · simp
  all_goals try rw [hw]
  · exact s.writeMemory_cfg a v
  · simp [State.writeMemory]
  · simp [State.writeMemory]
  · rw [s.writeMemory_timing]
  · rw [s.writeMemory_timing]
  · rw [s.writeMemory_timing]
  · rw [s.writeMemory_units]
  · rw [s.writeMemory_units]
  · right; exact ⟨v, by rw [s.writeMemory_timing]⟩

/-- A fetch is a timed read that then writes only PC, BUG, IR and the sequencer (40_microops.md R146, R147). -/
theorem State.fetchFrom_eq (s : State) (tb : Byte) :
    let r := s.readMemory true s.cpu.pc
    s.fetchFrom tb =
      { r.1 with
        cpu := { s.cpu with ir := r.2, bug := false, pc := if s.cpu.bug then s.cpu.pc else s.cpu.pc + 1 }
        seq := { progId := .table tb r.2, cursor := 0 } } := by
  unfold State.fetchFrom State.load
  simp only [State.readMemory_cpu]
  cases s.cpu.bug <;> simp

theorem State.fetchFrom_timed (s : State) (tb : Byte) : ∃ evs, Timed s (s.fetchFrom tb) evs := by
  rw [State.fetchFrom_eq]
  exact ⟨_, (s.readMemory_timed true s.cpu.pc).setCpuSeq _ _⟩

theorem State.portRead_timed {s : State} {q : Addr} {r : State × Byte} (hF : s.timing.framePos < s.cfg.frameCycles)
    (h : s.portRead q = .ok r) : Timed s r.1 [.portR q r.2 (s.claimant q)] ∧
      r.1 = { s with units := { s.units with periph := r.1.units.periph }, timing := r.1.timing, trace := r.1.trace } := by
  obtain ⟨x, h1, h2, h3⟩ := State.portRead_ok h
  simp only [portWait, s.advance_zero hF] at h1 h2 h3
  have e := State.unitRead_eq h1
  have hl : x.1.units.periph.length = s.units.periph.length := by
    unfold State.unitRead at h1
    repeat' split at h1
    all_goals first | (cases h1; done) | (cases h1; rfl) | skip
    all_goals
      simp only at h1
      split at h1
      · cases h1
      · cases h1; simp [State.setPstate]
  have hw : waits [Event.portR q r.2 (s.claimant q)] = 0 := rfl
  refine ⟨?_, ?_⟩
  · constructor
    · rw [h3, e]; rfl
    · exact Nat.le_refl _
    all_goals try rw [hw, s.advance_zero hF]
    all_goals try (rw [h3, e]; rfl)
    · rw [h3]; exact hl
    · right; exact ⟨r.2, by rw [h3, e]; rfl⟩
  · rw [h3, e]; rfl

theorem State.unitWrite_units {s t : State} {c : Claimant} {q : Addr} {v : Byte} (h : s.unitWrite c q v = .ok t) :
    t.units.periph.length = s.units.periph.length := by
  unfold State.unitWrite at h
  repeat' split at h
  all_goals first | (cases h; done) | (cases h; rfl) | skip
  · cases h; simp
  · cases h; unfold State.icWrite; split <;> rfl
  · cases h; unfold State.pagingWrite State.remap; split <;> rfl
  · simp only at h
    split at h
    · cases h
    · cases h; simp [State.setPstate]

theorem State.portWrite_timed {s t : State} {q : Addr} {v : Byte} (hF : s.timing.framePos < s.cfg.frameCycles)
    (h : s.portWrite q v = .ok t) : Timed s t [.portW q v (s.claimant q)] ∧ t.cpu = s.cpu ∧ t.seq = s.seq := by
  obtain ⟨u, w, h1, h2, h3⟩ := State.portWrite_ok h
  simp only [portWait, s.advance_zero hF] at h1 h2 h3
  have e := State.unitWrite_eq h1
  have el := State.unitWrite_units h1
  obtain ⟨e2, e3⟩ := State.observe_eq q v u.cfg.observers u 0
  rw [← h2] at e2 e3
  have hw : waits [Event.portW q v (s.claimant q)] = 0 := rfl
  have hc : (s.logBus v).claimant q = s.claimant q := rfl
  rw [hc] at h3
  refine ⟨?_, by rw [h3, e2, e]; rfl, by rw [h3, e2, e]; rfl⟩
  constructor
  · rw [h3, e2, e]; rfl
  · exact Nat.le_refl _
  all_goals try rw [hw, s.advance_zero hF]
  all_goals try (rw [h3, e2, e]; rfl)
  · rw [h3, e2]; exact el
  · rw [h3]
    show w.units.observer.length = _
    rw [e3, e]
    rfl
  · right; exact ⟨v, by rw [h3, e2, e]; rfl⟩

theorem State.writePair_eq (s : State) (p : PairSel) (v : Addr) : s.writePair p v = { s with cpu := (s.writePair p v).cpu } := by
  unfold State.writePair
  split <;> rfl

/-- Every retired micro-op is timed (40_microops.md R143, 20_memory.md R88). -/
theorem Retires.timed {s t : State} {i : Instr} (hF : s.timing.framePos < s.cfg.frameCycles) (h : Retires s i t) :
    ∃ evs, Timed s t evs := by
  cases h
  case fetch => exact s.fetchFrom_timed 0
  case fetchx tb _ => exact s.fetchFrom_timed tb
  case rd d p _ _ =>
    exact ⟨_, (s.readMemory_timed false (s.readPair p)).setCpuSeq _ _⟩
  case wr => exact s.writeMemory_timed _ _
  case inp d p _ _ r hr =>
    exact ⟨_, (State.portRead_timed hF hr).1.setCpuSeq _ _⟩
  case outp a p _ _ ht => exact ⟨_, (State.portWrite_timed hF ht).1⟩
  case splice j _ _ => exact ⟨[.splice j], Timed.still hF _ rfl rfl rfl⟩
  case setvec v _ => exact ⟨[.ack s.ic.src], Timed.still hF _ rfl rfl rfl⟩
  case cancel => exact ⟨[.cancel s.ic.src], Timed.still hF _ rfl rfl rfl⟩
  case irqend => exact ⟨[], Timed.still hF _ rfl rfl (by simp [State.endCancelled])⟩
  case dec16 p _ => exact ⟨[], Timed.reg hF (State.writePair_eq _ _ _)⟩
  case inc16 p _ => exact ⟨[], Timed.reg hF (State.writePair_eq _ _ _)⟩
  all_goals exact ⟨[], Timed.reg hF rfl⟩

/-- No micro-op that retires sets or clears FAILED. -/
theorem State.retires_failed {s t : State} {i : Instr} (h : Retires s i t) : t.failed = s.failed := by
  cases h
  case fetch => rw [State.fetchFrom_eq]; simp
  case fetchx tb _ => rw [State.fetchFrom_eq]; simp
  case inp d p _ _ r hr =>
    obtain ⟨x, h1, h2, h3⟩ := State.portRead_ok hr
    rw [State.writeSel_failed, h3, State.unitRead_eq h1]; simp
  case outp a p _ _ ht =>
    obtain ⟨u, w, h1, h2, h3⟩ := State.portWrite_ok ht
    rw [h3, h2, (State.observe_eq _ _ _ _ _).1, State.unitWrite_eq h1]; simp
  all_goals simp [State.enter, State.acknowledge, State.cancel, State.endCancelled]

/-- A unit's write changes RAM at most, unless it is the paging unit's, which changes no RAM (20_memory.md R80, R81). -/
theorem State.unitWrite_paging {s t : State} {c : Claimant} {q : Addr} {v : Byte} (h : s.unitWrite c q v = .ok t) :
    t.paging = { s.paging with ram := t.paging.ram } ∨
      ∃ k, c = .periph k ∧ s.cfg.periph[k]? = some .paging ∧ t.paging.ram = s.paging.ram := by
  unfold State.unitWrite at h
  split at h
  · cases h; exact .inl rfl
  · split at h
    · next b _ =>
      cases h
      have st := State.boardActs_step s b q.toNat v.toNat b.portWrites
      obtain ⟨h1, h2, h3, h4, -, -⟩ := st
      generalize (s.boardActs b q.toNat v.toNat b.portWrites).paging = p at *
      cases p
      simp_all
    · cases h; exact .inl rfl
  · next k =>
    split at h
    · cases h
      left
      unfold State.icWrite
      split <;> rfl
    · next hk =>
      cases h
      right
      refine ⟨k, rfl, hk, ?_⟩
      unfold State.pagingWrite
      split <;> rfl
    · simp only at h
      split at h
      · cases h
      · cases h; exact .inl rfl
    · cases h; exact .inl rfl

/-- The mapping and PREG change only in an `OUT` that the paging unit claims (20_memory.md R81). -/
theorem Retires.paging {s t : State} {i : Instr} (hF : s.timing.framePos < s.cfg.frameCycles) (h : Retires s i t) :
    t.paging = { s.paging with ram := t.paging.ram } ∨
      ∃ q v k, t.trace = s.trace ++ [.portW q v (.periph k)] ∧ s.cfg.periph[k]? = some .paging ∧ t.paging.ram = s.paging.ram := by
  cases h
  case outp a p _ _ ht =>
    obtain ⟨u, w, h1, h2, h3⟩ := State.portWrite_ok ht
    have hT := (State.portWrite_timed hF ht).1.trace
    simp only [portWait, s.advance_zero hF] at h1
    have hw : w.paging = u.paging := by rw [h2, (State.observe_eq _ _ _ _ _).1]
    have ht' : t.paging = u.paging := by rw [h3]; exact hw
    rw [ht']
    rcases State.unitWrite_paging h1 with h | ⟨k, hk, hp, hr⟩
    · exact .inl h
    · have hc : s.claimant (s.readPair p) = .periph k := hk
      rw [hc] at hT
      exact .inr ⟨_, _, k, hT, hp, hr⟩
  case fetch => left; rw [State.fetchFrom_eq]; simp
  case fetchx tb _ => left; rw [State.fetchFrom_eq]; simp
  case inp d p _ _ r hr =>
    left
    have e : r.1.paging = s.paging := by rw [(State.portRead_timed hF hr).2]
    show r.1.paging = { s.paging with ram := r.1.paging.ram }
    rw [e]
  case wr a p _ _ =>
    left
    have h1 := State.writeBus_preg ((s.advance (s.memWait (s.readPair p))).logBus (s.readSel a)) (s.readPair p) (s.readSel a)
    have h2 := State.writeBus_sel ((s.advance (s.memWait (s.readPair p))).logBus (s.readSel a)) (s.readPair p) (s.readSel a)
    have h3 := State.writeBus_cont ((s.advance (s.memWait (s.readPair p))).logBus (s.readSel a)) (s.readPair p) (s.readSel a)
    have h4 := State.writeBus_vid ((s.advance (s.memWait (s.readPair p))).logBus (s.readSel a)) (s.readPair p) (s.readSel a)
    simp only [State.logBus_paging, State.advance_paging] at h1 h2 h3 h4
    unfold State.writeMemory
    simp only [State.emit]
    generalize (((s.advance (s.memWait (s.readPair p))).logBus (s.readSel a)).writeBus (s.readPair p) (s.readSel a)).1.paging = g at *
    cases g
    simp_all
  case dec16 p _ => left; rw [State.writePair_eq]
  case inc16 p _ => left; rw [State.writePair_eq]
  all_goals
    left
    simp [State.enter, State.cancel, State.endCancelled, State.acknowledge]

/-- The fixed configuration never changes (00_scope.md R8, 10_state.md R50). -/
theorem Retires.fixed {s t : State} {i : Instr} (h : Retires s i t) : t.cfg.fixed = s.cfg.fixed := by
  cases h
  case outp a p _ _ ht =>
    obtain ⟨u, w, h1, h2, h3⟩ := State.portWrite_ok ht
    rw [h3, h2, (State.observe_eq _ _ _ _ _).1, State.unitWrite_eq h1]
    simp
  case inp d p _ _ r hr =>
    obtain ⟨x, h1, h2, h3⟩ := State.portRead_ok hr
    rw [State.writeSel_cfg, h3, State.unitRead_eq h1]
    simp
  case fetch => rw [State.fetchFrom_eq]; simp
  case fetchx tb _ => rw [State.fetchFrom_eq]; simp
  case dec16 p _ => rw [State.writePair_eq]
  case inc16 p _ => rw [State.writePair_eq]
  all_goals simp [State.enter, State.cancel, State.endCancelled, State.acknowledge]

/-- Which micro-ops move IC_STATE (60_exceptions.md R274). -/
theorem Retires.icState {s t : State} {i : Instr} (h : Retires s i t) :
    t.ic.st = s.ic.st ∨ (i = .fetch ∧ s.ic.st = .pending ∧ t.ic.st = .dispatching) ∨
      ((i = .setvec ∨ i = .irqend) ∧ t.ic.st = .idle) := by
  cases h
  case splice j hp _ => exact .inr (.inl ⟨rfl, hp, rfl⟩)
  case fetch => left; rw [State.fetchFrom_eq]; simp
  case fetchx tb _ => left; rw [State.fetchFrom_eq]; simp
  case setvec v _ => exact .inr (.inr ⟨.inl rfl, rfl⟩)
  case irqend => exact .inr (.inr ⟨.inr rfl, rfl⟩)
  case dec16 p _ => left; rw [State.writePair_eq]
  case inc16 p _ => left; rw [State.writePair_eq]
  case inp d p _ _ r hr =>
    obtain ⟨x, h1, h2, h3⟩ := State.portRead_ok hr
    left
    rw [State.writeSel_ic, h3, State.unitRead_eq h1]
    simp
  case outp a p _ _ ht =>
    obtain ⟨u, w, h1, h2, h3⟩ := State.portWrite_ok ht
    left
    rw [h3, h2, (State.observe_eq _ _ _ _ _).1, State.unitWrite_eq h1]
    simp
  all_goals
    left
    simp [State.cancel]

/-- Which micro-ops move IME, HALTED and BUG (10_state.md R28 to R30). -/
theorem Retires.control {s t : State} {i : Instr} (h : Retires s i t) :
    (t.cpu.ime = s.cpu.ime ∨ (i = .ei ∧ t.cpu.ime = true) ∨
      (t.cpu.ime = false ∧ (i = .di ∨ ∃ j, t.trace = s.trace ++ [.splice j]))) ∧
    (t.cpu.halted = s.cpu.halted ∨ (i = .halt ∧ t.cpu.halted = true)) ∧
    (t.cpu.bug = s.cpu.bug ∨ (i = .setbug ∧ t.cpu.bug = true) ∨
      ((i = .fetch ∨ ∃ u, i = .fetchx u) ∧ t.cpu.bug = false)) := by
  cases h
  case splice j _ _ => exact ⟨.inr (.inr ⟨rfl, .inr ⟨j, rfl⟩⟩), .inl rfl, .inl rfl⟩
  case fetch => rw [State.fetchFrom_eq]; exact ⟨.inl rfl, .inl rfl, .inr (.inr ⟨.inl rfl, rfl⟩)⟩
  case fetchx tb _ => rw [State.fetchFrom_eq]; exact ⟨.inl rfl, .inl rfl, .inr (.inr ⟨.inr ⟨tb, rfl⟩, rfl⟩)⟩
  case ei => exact ⟨.inr (.inl ⟨rfl, rfl⟩), .inl rfl, .inl rfl⟩
  case di => exact ⟨.inr (.inr ⟨rfl, .inl rfl⟩), .inl rfl, .inl rfl⟩
  case halt => exact ⟨.inl rfl, .inr ⟨rfl, rfl⟩, .inl rfl⟩
  case setbug => exact ⟨.inl rfl, .inl rfl, .inr (.inl ⟨rfl, rfl⟩)⟩
  case inp d p _ _ r hr =>
    obtain ⟨x, h1, h2, h3⟩ := State.portRead_ok hr
    have e : r.1.cpu = s.cpu := by rw [h3, State.unitRead_eq h1]; simp
    simp [e]
  case outp a p _ _ ht =>
    obtain ⟨u, w, h1, h2, h3⟩ := State.portWrite_ok ht
    have e : t.cpu = s.cpu := by rw [h3, h2, (State.observe_eq _ _ _ _ _).1, State.unitWrite_eq h1]; simp
    simp [e]
  all_goals simp [State.cancel, State.endCancelled, State.acknowledge, State.setPc, State.setFlags]

/-- What a halt tick does (60_exceptions.md R288). -/
theorem State.haltTick_next {s t : State} (h : s.haltTick = .next t) :
    (∃ j, s.ic.st = .pending ∧ s.winner = some j ∧ t = ({ s with cpu := { s.cpu with halted := false } } : State).enter j) ∨
      (s.ic.st ≠ .pending ∧ s.requests ≠ 0 ∧ t = { s with cpu := { s.cpu with halted := false } }) ∨
      (s.ic.st ≠ .pending ∧ s.requests = 0 ∧ t = s) := by
  unfold State.haltTick at h
  simp only at h
  split at h
  · next hp =>
    unfold State.splice at h
    split at h
    · next j hj => cases h; exact .inl ⟨j, hp, hj, rfl⟩
    · cases h
  · next hp =>
    split at h
    · next hr => cases h; exact .inr (.inl ⟨hp, hr, rfl⟩)
    · next hr => cases h; exact .inr (.inr ⟨hp, by simpa using hr, rfl⟩)

/-- A halt tick makes no access and takes no time of its own (60_exceptions.md R287). -/
theorem State.haltTick_timed {s t : State} (hF : s.timing.framePos < s.cfg.frameCycles) (h : s.haltTick = .next t) :
    ∃ evs, Timed s t evs ∧ evs.filter Event.isAccess = [] := by
  rcases State.haltTick_next h with ⟨j, -, -, rfl⟩ | ⟨-, -, rfl⟩ | ⟨-, -, rfl⟩
  · exact ⟨[.splice j], Timed.still hF _ rfl rfl rfl, rfl⟩
  · exact ⟨[], Timed.reg hF rfl, rfl⟩
  · exact ⟨[], Timed.reg hF rfl, rfl⟩

/-- A tick that gives a next state, case by case: its micro-op failed, its hooks failed, or it ended (R142, R295). -/
theorem State.commit_cases {s t : State} {o : Outcome} (h : s.commit o = .next t) :
    ∃ u, o = .next u ∧ ((∃ e, u.failed = some e ∧ t = s.raise e) ∨
      (u.failed = none ∧ ∃ e, u.endTick = .error e ∧ t = s.raise e) ∨ (u.failed = none ∧ u.endTick = .ok t)) := by
  unfold State.commit at h
  split at h
  · next u =>
    refine ⟨u, rfl, ?_⟩
    split at h
    · next e he => cases h; exact .inl ⟨e, he, rfl⟩
    · next hu =>
      split at h
      · next v hv => cases h; exact .inr (.inr ⟨hu, hv⟩)
      · next e hv => cases h; exact .inr (.inl ⟨hu, e, hv, rfl⟩)
  · cases h
  · cases h

/-- A step, said once: it failed and was rolled back; or it was a halt tick, or retired the micro-op `i` with the cursor
wherever it then is, and ended its tick. -/
theorem step_retires {s t : State} (h : step s = .next t) :
    s.failed = none ∧ ((∃ k, t = s.raise (.step k)) ∨
      ∃ u, u.failed = none ∧ u.endTick = .ok t ∧
        ((s.cpu.halted = true ∧ s.haltTick = .next u) ∨
          ∃ i s0, s.cpu.halted = false ∧ s.retiring = some i ∧ Retires s0 i u ∧
            ((s.nextWord = none ∧ s0 = s) ∨ (s.nextWord ≠ none ∧ s0 = s.bumpCursor)))) := by
  obtain ⟨hf, hs⟩ := step_next h
  refine ⟨hf, ?_⟩
  have one : ∀ {s0 : State} {w : UWord} {i : Instr}, decodeUop w = some i → s0.failed = none →
      s.commit (exec i s0) = .next t → (∃ k, t = s.raise (.step k)) ∨
        ∃ u, u.failed = none ∧ u.endTick = .ok t ∧ Retires s0 i u := by
    intro s0 w i hw h0 hc
    obtain ⟨u, hu, h⟩ := State.commit_cases hc
    rcases exec_next hw hu with hr | ⟨k, rfl⟩
    · have hn : u.failed = none := (State.retires_failed hr).trans h0
      rcases h with ⟨e, he, -⟩ | ⟨-, e, he, rfl⟩ | ⟨-, he⟩
      · rw [hn] at he; cases he
      · obtain ⟨k, rfl⟩ := State.endTick_error he
        exact .inl ⟨k, rfl⟩
      · exact .inr ⟨u, hn, he, hr⟩
    · rcases h with ⟨e, he, rfl⟩ | ⟨he, -⟩ | ⟨he, -⟩
      · cases he; exact .inl ⟨k, rfl⟩
      · cases he
      · cases he
  rcases hs with ⟨hh, hc⟩ | ⟨hh, hn, hc⟩ | ⟨w, i, hh, hn, hd, hc⟩
  · obtain ⟨u, hu, h⟩ := State.commit_cases hc
    have h0 : u.failed = none := by
      rcases State.haltTick_next hu with ⟨j, -, -, rfl⟩ | ⟨-, -, rfl⟩ | ⟨-, -, rfl⟩ <;> exact hf
    rcases h with ⟨e, he, -⟩ | ⟨-, e, he, rfl⟩ | ⟨-, he⟩
    · rw [h0] at he; cases he
    · obtain ⟨k, rfl⟩ := State.endTick_error he
      exact .inl ⟨k, rfl⟩
    · exact .inr ⟨u, h0, he, .inl ⟨hh, hu⟩⟩
  · have hfetch : decodeUop 0x01000000 = some .fetch := by decide +kernel
    rcases one hfetch hf hc with h1 | ⟨u, h1, h2, h3⟩
    · exact .inl h1
    · exact .inr ⟨u, h1, h2, .inr ⟨.fetch, s, hh, by simp [State.retiring, hh, hn], h3, .inl ⟨hn, rfl⟩⟩⟩
  · have h0 : s.bumpCursor.failed = none := hf
    rcases one hd h0 hc with h1 | ⟨u, h1, h2, h3⟩
    · exact .inl h1
    · exact .inr ⟨u, h1, h2, .inr ⟨i, s.bumpCursor, hh, by simp [State.retiring, hh, hn, hd], h3, .inr ⟨by simp [hn], rfl⟩⟩⟩

end Sys2Proof.Machine
end

