-- ==== Sys2Proof/Laws/Ref.lean ====
section
/-! SUPPORT. One tick of the REF machine (30_encoding.md R128): its hooks do nothing, so a tick is its micro-op, one cycle
and `ic_update`; and what the quiet micro-ops of its programs leave. -/

namespace Sys2Proof.Machine

/-! ### `ic_update` (60_exceptions.md R273) -/

theorem State.requesting_congr {s t : State} (h : t.ic.ifr = s.ic.ifr) (h1 : t.ic.ier = s.ic.ier)
    (h2 : t.cpu.ime = s.cpu.ime) (h3 : t.cfg.irqMask = s.cfg.irqMask) : t.requesting = s.requesting := by
  unfold State.requesting State.requests
  rw [h, h1, h2, h3]

theorem State.icUpdate_ic_congr {s t : State} (h : t.ic = s.ic) (h2 : t.cpu.ime = s.cpu.ime)
    (h3 : t.cfg.irqMask = s.cfg.irqMask) : t.icUpdate.ic = s.icUpdate.ic := by
  unfold State.icUpdate State.requesting State.requests
  rw [h, h2, h3]
  split
  · split <;> simp [h]
  · split <;> simp [h]
  · simp [h]

/-- Repeating `ic_update` changes nothing. -/
theorem State.icUpdate_icUpdate_ic (s : State) : s.icUpdate.icUpdate.ic = s.icUpdate.ic := by
  generalize hu : s.icUpdate = u
  have e := s.icUpdate_eq
  rw [hu] at e
  have hq : u.requesting = s.requesting := State.requesting_congr (by rw [e]) (by rw [e]) (by rw [e]) (by rw [e])
  unfold State.icUpdate at hu ⊢
  rw [hq]
  cases h : s.ic.st <;> cases h2 : s.requesting <;> simp only [h, h2] at hu <;> subst hu <;> simp [h]

/-! ### A tick of REF -/

theorem State.setOstate_ostate (s : State) : s.setOstate 0 (s.ostate 0) = s := by
  unfold State.setOstate State.ostate
  have : s.units.observer.set 0 (s.units.observer.getD 0 []) = s.units.observer := by
    cases s.units.observer <;> rfl
  rw [this]

/-- REF has no tick hooks. -/
theorem State.endTick_ref {t : State} (hc : t.cfg = { Ref.cfg with rom := t.cfg.rom }) (hq : t.queue = []) :
    t.endTick = .ok (t.advance 1).icUpdate := by
  unfold State.endTick
  simp only
  obtain ⟨-, h2, -, -⟩ := t.advance_of_queue_nil 1 hq
  have hp : t.cfg.periph = [.ic, .paging] := by rw [hc]; rfl
  have ho : t.cfg.observers = [Ref.beeper] := by rw [hc]; rfl
  rw [h2, hp]
  have e : (t.advance 1).tickPeriphs 0 [Periph.ic, .paging] = .ok (t.advance 1) := rfl
  rw [e]
  simp only
  rw [h2, ho]
  have e2 : (t.advance 1).tickObservers 0 [Ref.beeper] = (t.advance 1).setOstate 0 ((t.advance 1).ostate 0) := rfl
  rw [e2, State.setOstate_ostate]

theorem State.IsRef.tick {s t : State} {m : State → Outcome} (hs : s.failed = none) (h : m s.bumpCursor = .next t)
    (ht : t.IsRef) : s.tick m = .next (t.advance 1).icUpdate := by
  unfold State.tick State.commit
  rw [hs]
  simp only [h, ht.failed, State.endTick_ref ht.cfg ht.queue]

/-- The end of a tick keeps a REF state one, and moves time and IC_STATE only. -/
theorem State.IsRef.afterTick {t : State} (ht : t.IsRef) :
    let u := (t.advance 1).icUpdate
    u.IsRef ∧ u.cpu = t.cpu ∧ u.seq = t.seq ∧ u.ic = t.icUpdate.ic ∧ u.units = t.units ∧ u.cfg = t.cfg ∧
      u.paging = t.paging ∧ u.board = t.board ∧ u.trace = t.trace := by
  obtain ⟨h1, h2, h3, -⟩ := t.advance_of_queue_nil 1 ht.queue
  have hi : (t.advance 1).icUpdate.ic = t.icUpdate.ic := State.icUpdate_ic_congr (by simp) (by simp) (by rw [h2])
  dsimp only
  rw [State.icUpdate_eq]
  refine ⟨⟨?_, ?_, ?_, ?_, ?_⟩, by simp, by simp, ?_, by simp [h1], by simp [h2], by simp, by simp, by simp⟩
  · simp only [h2]; exact ht.cfg
  · simp [ht.failed]
  · exact h3
  · simp [ht.r8]
  · simpa using ht.windows
  · rw [hi, State.advance_ic]; rw [State.icUpdate_eq]

theorem State.IsRef.load {s : State} (hs : s.IsRef) (t b : Byte) : (s.load t b).IsRef :=
  ⟨hs.cfg, hs.failed, hs.queue, hs.r8, hs.windows⟩

/-- Every address of REF reads without the floating bus. -/
theorem State.IsRef.steady {s : State} (hs : s.IsRef) (a : Addr) : s.steady a = true := by
  unfold State.steady State.resolve State.base
  split
  · rfl
  · rfl
  · refine Fn.allLooks_of_all (fun k => ?_) _
    have hw : s.lookSteady .base = true := by
      have h0 := hs.windows 0
      have h1 := hs.windows 1
      have h2 := hs.windows 2
      have h3 := hs.windows 3
      simp only [Quad.get] at h0 h1 h2 h3
      simp [State.lookSteady, Quad.toList, h0, h1, h2, h3]
    cases k
    · rfl
    · unfold State.lookSteady; rw [hs.cfg]; rfl
    · unfold State.lookSteady; rw [hs.cfg]; rfl
    · exact hw
  · next h =>
    split at h
    · cases h
    · split at h
      · cases h
      · cases h
      · next h2 => exact absurd h2 (hs.windows _)

theorem State.IsRef.hasSel {s : State} (hs : s.IsRef) (d : Sel8) (h : ∀ i, d = .r i → i.toNat < 2) : s.hasSel d = true := by
  cases d <;> simp_all [State.hasSel, hs.r8]

/-! ### Quiet ticks: no change but CPU, sequencer, time, IC_STATE and the trace -/

/-- One or more ticks of REF that left memory, mapping, units and configuration. -/
structure State.Quiet (s u : State) : Prop where
  isRef : u.IsRef
  ic : u.ic = s.icUpdate.ic
  ime : u.cpu.ime = s.cpu.ime
  units : u.units = s.units
  cfg : u.cfg = s.cfg
  paging : u.paging = s.paging
  board : u.board = s.board

theorem State.Quiet.sameMemory {s u : State} (h : s.Quiet u) : s.SameMemory u := ⟨h.paging, h.board, by rw [h.cfg]⟩

theorem State.Quiet.trans {s u v : State} (h : s.Quiet u) (k : u.Quiet v) : s.Quiet v := by
  refine ⟨k.isRef, ?_, k.ime.trans h.ime, k.units.trans h.units, k.cfg.trans h.cfg, k.paging.trans h.paging,
    k.board.trans h.board⟩
  rw [k.ic, ← s.icUpdate_icUpdate_ic]
  apply State.icUpdate_ic_congr h.ic
  · rw [h.ime, State.icUpdate_eq]
  · rw [h.cfg, State.icUpdate_eq]

theorem State.Quiet.readBus {s u : State} (hs : s.IsRef) (h : s.Quiet u) (a : Addr) : u.readBus a = s.readBus a :=
  State.readBus_steady h.sameMemory a (hs.steady a)

theorem State.Quiet.ofLoad {s u : State} {t b : Byte} (h : (s.load t b).Quiet u) : s.Quiet u := by
  refine ⟨h.isRef, ?_, h.ime, h.units, h.cfg, h.paging, h.board⟩
  rw [h.ic]
  exact State.icUpdate_ic_congr rfl rfl rfl

theorem State.IsRef.quietTick {s t : State} {m : State → Outcome} (hs : s.IsRef) (h : m s.bumpCursor = .next t)
    (hseq : t.seq = s.bumpCursor.seq) (hr8 : t.cpu.r8.length = 2) (hime : t.cpu.ime = s.cpu.ime) (hic : t.ic = s.ic)
    (hu : t.units = s.units) (hc : t.cfg = s.cfg) (hp : t.paging = s.paging) (hb : t.board = s.board) (hq : t.queue = [])
    (hf : t.failed = none) :
    ∃ u, s.tick m = .next u ∧ u.cpu = t.cpu ∧ u.seq = { s.seq with cursor := s.seq.cursor + 1 } ∧ u.trace = t.trace ∧
      s.Quiet u := by
  have ht : t.IsRef := ⟨by rw [hc]; exact hs.cfg, hf, hq, hr8, by rw [hp]; exact hs.windows⟩
  obtain ⟨a1, a2, a3, a4, a5, a6, a7, a8, a9⟩ := ht.afterTick
  refine ⟨_, State.IsRef.tick hs.failed h ht, a2, by rw [a3, hseq]; rfl, a9,
    ⟨a1, ?_, by rw [a2, hime], by rw [a5, hu], by rw [a6, hc], by rw [a7, hp], by rw [a8, hb]⟩⟩
  rw [a4]
  exact State.icUpdate_ic_congr hic hime (by rw [hc])

/-- `RD d, p` as a tick of REF (40_microops.md R153). -/
theorem State.IsRef.rdTick {s : State} (hs : s.IsRef) (d : Sel8) (p : PairSel) (hd : s.hasSel d = true)
    (hp : s.hasPair p = true) :
    ∃ u, s.tick (execRd d p) = .next u ∧ u.cpu = s.cpu.writeSel d (s.readBus (s.readPair p)) ∧
      u.seq = { s.seq with cursor := s.seq.cursor + 1 } ∧ s.Quiet u := by
  have hd' : s.bumpCursor.hasSel d = true := by rw [State.hasSel_eq] at hd ⊢; exact hd
  have hp' : s.bumpCursor.hasPair p = true := by rw [← hp]; cases p <;> rfl
  have hrp : s.bumpCursor.readPair p = s.readPair p := by cases p <;> rfl
  have hm : execRd d p s.bumpCursor = .next
      ((s.bumpCursor.readMemory false (s.readPair p)).1.writeSel d (s.bumpCursor.readMemory false (s.readPair p)).2) := by
    unfold execRd; rw [hd', hp', hrp]; rfl
  have hqb : s.bumpCursor.queue = [] := hs.queue
  obtain ⟨b1, b2, b3, -⟩ := s.bumpCursor.advance_of_queue_nil (s.bumpCursor.memWait (s.readPair p)) hqb
  have hv : (s.bumpCursor.readMemory false (s.readPair p)).2 = s.readBus (s.readPair p) := by
    unfold State.readMemory
    simp only
    apply State.readBus_steady _ _ (hs.steady _)
    exact ⟨by simp, by simp, by rw [b2]; rfl⟩
  obtain ⟨u, h1, h2, h3, -, h4⟩ := hs.quietTick hm (by simp) (by simp; exact hs.r8) (by simp) (by simp)
    (by rw [State.writeSel_units, State.readMemory_units]; exact b1)
    (by rw [State.writeSel_cfg, State.readMemory_cfg]; exact b2) (by simp) (by simp)
    (by simp [State.readMemory, b3]) (by simp; exact hs.failed)
  refine ⟨u, h1, ?_, h3, h4⟩
  rw [h2, hv]
  simp [State.writeSel]

theorem State.readPair_pc (s : State) : s.readPair .pc = s.cpu.pc := join_hi8_lo8 _
theorem State.readPair_sp (s : State) : s.readPair .sp = s.cpu.sp := join_hi8_lo8 _
theorem State.readPair_w (s : State) : s.readPair .w = s.cpu.w := join_hi8_lo8 _

theorem State.writePair_pc (s : State) (v : Addr) : s.writePair .pc v = { s with cpu := { s.cpu with pc := v } } := by
  simp [State.writePair, State.pairSels, State.writeSel, Cpu.writeSel]

theorem State.writePair_sp (s : State) (v : Addr) : s.writePair .sp v = { s with cpu := { s.cpu with sp := v } } := by
  simp [State.writePair, State.pairSels, State.writeSel, Cpu.writeSel]

/-- `INC16 PC` as a tick of REF (R152). -/
theorem State.IsRef.incPcTick {s : State} (hs : s.IsRef) :
    ∃ u, s.tick (execInc16 .pc) = .next u ∧ u.cpu = { s.cpu with pc := s.cpu.pc + 1 } ∧
      u.seq = { s.seq with cursor := s.seq.cursor + 1 } ∧ s.Quiet u := by
  have hm : execInc16 .pc s.bumpCursor = .next { s.bumpCursor with cpu := { s.cpu with pc := s.cpu.pc + 1 } } := by
    show Host.Outcome.next (s.bumpCursor.writePair .pc (s.bumpCursor.readPair .pc + 1)) = _
    rw [State.writePair_pc, State.readPair_pc]; rfl
  obtain ⟨u, h1, h2, h3, -, h4⟩ := hs.quietTick hm rfl hs.r8 rfl rfl rfl rfl rfl rfl hs.queue hs.failed
  exact ⟨u, h1, h2, h3, h4⟩

/-- `INC16 SP` as a tick of REF (R152). -/
theorem State.IsRef.incSpTick {s : State} (hs : s.IsRef) :
    ∃ u, s.tick (execInc16 .sp) = .next u ∧ u.cpu = { s.cpu with sp := s.cpu.sp + 1 } ∧
      u.seq = { s.seq with cursor := s.seq.cursor + 1 } ∧ s.Quiet u := by
  have hm : execInc16 .sp s.bumpCursor = .next { s.bumpCursor with cpu := { s.cpu with sp := s.cpu.sp + 1 } } := by
    show Host.Outcome.next (s.bumpCursor.writePair .sp (s.bumpCursor.readPair .sp + 1)) = _
    rw [State.writePair_sp, State.readPair_sp]; rfl
  obtain ⟨u, h1, h2, h3, -, h4⟩ := hs.quietTick hm rfl hs.r8 rfl rfl rfl rfl rfl rfl hs.queue hs.failed
  exact ⟨u, h1, h2, h3, h4⟩

/-- `DEC16 SP` as a tick of REF (R151). -/
theorem State.IsRef.decSpTick {s : State} (hs : s.IsRef) :
    ∃ u, s.tick (execDec16 .sp) = .next u ∧ u.cpu = { s.cpu with sp := s.cpu.sp - 1 } ∧
      u.seq = { s.seq with cursor := s.seq.cursor + 1 } ∧ s.Quiet u := by
  have hm : execDec16 .sp s.bumpCursor = .next { s.bumpCursor with cpu := { s.cpu with sp := s.cpu.sp - 1 } } := by
    show Host.Outcome.next (s.bumpCursor.writePair .sp (s.bumpCursor.readPair .sp - 1)) = _
    rw [State.writePair_sp, State.readPair_sp]; rfl
  obtain ⟨u, h1, h2, h3, -, h4⟩ := hs.quietTick hm rfl hs.r8 rfl rfl rfl rfl rfl rfl hs.queue hs.failed
  exact ⟨u, h1, h2, h3, h4⟩

/-- `SETPC W` as a tick of REF (R157). -/
theorem State.IsRef.setpcTick {s : State} (hs : s.IsRef) :
    ∃ u, s.tick (execSetpc .w) = .next u ∧ u.cpu = { s.cpu with pc := s.cpu.w } ∧
      u.seq = { s.seq with cursor := s.seq.cursor + 1 } ∧ s.Quiet u := by
  have hm : execSetpc .w s.bumpCursor = .next { s.bumpCursor with cpu := { s.cpu with pc := s.cpu.w } } := by
    show Host.Outcome.next (s.bumpCursor.setPc (s.bumpCursor.readPair .w)) = _
    rw [State.readPair_w]; rfl
  obtain ⟨u, h1, h2, h3, -, h4⟩ := hs.quietTick hm rfl hs.r8 rfl rfl rfl rfl rfl rfl hs.queue hs.failed
  exact ⟨u, h1, h2, h3, h4⟩

/-- One tick of a run of ticks done. -/
theorem State.ticks_cons {s t : State} {m : State → Outcome} {ms : List (State → Outcome)} (h : s.tick m = .next t) :
    s.ticks (m :: ms) = t.ticks ms := by
  show (match s.tick m with | .next t => t.ticks ms | .fault f => .fault f | .refused r => .refused r) = _
  rw [h]

/-- A run of ticks that gives a state goes on from it. -/
theorem State.ticks_append {s u : State} {ms : List (State → Outcome)} (ns : List (State → Outcome))
    (h : s.ticks ms = .next u) : s.ticks (ms ++ ns) = u.ticks ns := by
  induction ms generalizing s with
  | nil => cases h; rfl
  | cons m ms ih =>
    unfold State.ticks at h
    split at h
    · next t ht => rw [List.cons_append, State.ticks_cons ht]; exact ih h
    · cases h
    · cases h

/-- After a tick that did not fail FRAME_POS lies in the frame (10_state.md R45). -/
theorem State.tick_framePos {s t : State} {m : State → Outcome} (h : s.tick m = .next t) (hf : t.failed = none)
    (hc : 0 < t.cfg.frameCycles) : t.timing.framePos < t.cfg.frameCycles := by
  unfold State.tick at h
  split at h
  · cases h
  · rcases State.commit_next h with ⟨u, -, -, he⟩ | ⟨e, rfl⟩
    · rw [State.endTick_timing he, State.advance_timing, Cfg.frameCycles_of_fixed (State.endTick_fixed he)]
      exact Nat.mod_lt _ (Cfg.frameCycles_of_fixed (State.endTick_fixed he) ▸ hc)
    · cases hf

/-- The four ticks that read an operand word into W (30_encoding.md R126). -/
theorem State.IsRef.imm16Ticks {s : State} (hs : s.IsRef) (ms : List (State → Outcome)) :
    ∃ u, s.ticks (Machine.imm16Ticks ++ ms) = u.ticks ms ∧
      u.cpu = { s.cpu with pc := s.cpu.pc + 2, w := s.readBus (s.cpu.pc + 1) ++ s.readBus s.cpu.pc } ∧
      u.seq = { s.seq with cursor := s.seq.cursor + 4 } ∧ s.Quiet u := by
  obtain ⟨u1, a1, a2, a3, a4⟩ := hs.rdTick .wl .pc rfl rfl
  obtain ⟨u2, b1, b2, b3, b4⟩ := a4.isRef.incPcTick
  obtain ⟨u3, c1, c2, c3, c4⟩ := b4.isRef.rdTick .wh .pc rfl rfl
  obtain ⟨u4, d1, d2, d3, d4⟩ := c4.isRef.incPcTick
  have k2 := a4.trans b4
  refine ⟨u4, ?_, ?_, ?_, (k2.trans c4).trans d4⟩
  · show s.ticks (_ :: _ :: _ :: _ :: ms) = _
    rw [State.ticks_cons a1, State.ticks_cons b1, State.ticks_cons c1, State.ticks_cons d1]
  · rw [d2, c2, State.readPair_pc, k2.readBus hs, b2, a2, State.readPair_pc]
    simp only [Cpu.writeSel, lo8_join]
    have e : s.cpu.pc + 1 + 1 = s.cpu.pc + 2 := by rw [BitVec.add_assoc]; rfl
    rw [e]
    rfl
  · rw [d3, c3, b3, a3]

/-! ### The units of REF -/

theorem addr_toNat_eq (a : Addr) (n : Nat) (hn : n < 65536) : a.toNat = n ↔ a = BitVec.ofNat 16 n := by
  constructor
  · intro h; apply BitVec.eq_of_toNat_eq; rw [h]; simp [Nat.mod_eq_of_lt hn]
  · intro h; rw [h]; simp [Nat.mod_eq_of_lt hn]

theorem Ref.onPort_holds (n : Nat) (hn : n < 65536) (q : Addr) : (Ref.onPort n).holds q = decide (q = BitVec.ofNat 16 n) := by
  show ((if q.toNat = n then 1 else 0) != 0) = _
  by_cases h : q.toNat = n
  · rw [if_pos h]; simp [(addr_toNat_eq q n hn).1 h]
  · rw [if_neg h]; simp [mt (addr_toNat_eq q n hn).2 h]

/-- The claimant of each port of REF (30_encoding.md R128, 43_board.md R240, 20_memory.md R84). -/
theorem State.claimant_ref {s : State} (hs : s.cfg = { Ref.cfg with rom := s.cfg.rom }) (q : Addr) :
    s.claimant q = if q = 0x00F0 then .board else if q = 0x0010 ∨ q = 0x0011 then .periph 0
      else if q = 0x0020 then .periph 1 else .none := by
  have : s.claimant q = State.claimant { State.reset with cfg := Ref.cfg } q := by
    unfold State.claimant State.boardPort; rw [hs]; rfl
  rw [this]
  clear this hs
  unfold State.claimant State.boardPort
  have h1 : Option.filter (fun b : BoardCfg => b.portWindow.holds q) Ref.cfg.board =
      if q = 0x00F0 then some Ref.board else none := by
    have : Ref.board.portWindow.holds q = decide (q = 0x00F0) := Ref.onPort_holds 0xF0 (by decide) q
    show Option.filter _ (some Ref.board) = _
    simp [Option.filter, this]
  simp only [h1]
  by_cases c : q = 0x00F0
  · subst c; rfl
  · rw [if_neg c, if_neg c]
    show (match List.findIdx? (Periph.claims Ref.cfg q) [.ic, .paging] with
      | some k => Claimant.periph k
      | none => .none) = _
    have e1 : Periph.claims Ref.cfg q .ic = decide (q = 0x0010#16 ∨ q = 0x0011#16) := by
      show (q == 0x0010#16 || q == 0x0011#16) = _
      by_cases h1 : q = 0x0010#16 <;> by_cases h2 : q = 0x0011#16 <;> simp [h1, h2]
    have e2 : Periph.claims Ref.cfg q .paging = decide (q = 0x0020#16) := by
      show ([(Ref.onPort 0x20, 0)].any fun e => e.1.holds q) = _
      simp [Ref.onPort_holds 0x20 (by decide) q]
    simp only [List.findIdx?_cons, e1, e2]
    by_cases c1 : q = 0x0010#16 ∨ q = 0x0011#16
    · refine Eq.trans ?_ (if_pos c1).symm; simp [c1]
    · by_cases c2 : q = 0x0020#16
      · subst c2; simp
      · refine Eq.trans ?_ (if_neg c1).symm
        refine Eq.trans ?_ (if_neg c2).symm
        simp [c1, c2]

/-- The beeper records bit 4 of a write to an even port (30_encoding.md R128). -/
theorem State.devActs_beeper (s : State) (q : Addr) (v : Byte) (ps : List Nat) :
    s.devActs q.toNat v.toNat Ref.beeper.writeActs ps = if q.toNat % 2 = 0 then ps ++ [v.toNat / 16 % 2] else ps := by
  show (if (if q.toNat % 2 = 0 then 1 else 0) = 0 then ps else ps ++ [(v.toNat >>> 4) % 2]) = _
  by_cases h : q.toNat % 2 = 0 <;> simp [h, Nat.shiftRight_eq_div_pow]

/-- REF's substitution table (43_board.md R240). -/
theorem Ref.board_xt : ∀ k : Byte, Ref.board.xt.getD (k.toNat % 256) 0 = k ^^^ 0x5A := by decide +kernel

theorem ofNat_xor_toNat (a b : Byte) : BitVec.ofNat 8 (a.toNat ^^^ b.toNat) = a ^^^ b := by
  apply BitVec.eq_of_toNat_eq
  simp

end Sys2Proof.Machine
end

