-- ==== Sys2Proof/Machine/Asm.lean ====
section
/-! DEFINITION. The micro-op assembly syntax (30_encoding.md R125), with the mnemonics of R116 and R129, and the
pseudo-micro-op sequences (R126). -/

namespace Sys2Proof.Machine

/-- One hexadecimal digit. -/
def hexDigit (n : Nat) : String :=
  match n with
  | 0 => "0" | 1 => "1" | 2 => "2" | 3 => "3" | 4 => "4" | 5 => "5" | 6 => "6" | 7 => "7"
  | 8 => "8" | 9 => "9" | 10 => "A" | 11 => "B" | 12 => "C" | 13 => "D" | 14 => "E" | _ => "F"

/-- A byte as R125 writes ids: `0x` and two digits. -/
def hexByte (b : Byte) : String := "0x" ++ hexDigit (b.toNat / 16) ++ hexDigit (b.toNat % 16)

/-- A byte selector by its name of R114. -/
def Sel8.asm : Sel8 → String
  | .r i => "R8[" ++ toString i.toNat ++ "]"
  | .pcl => "PCL"
  | .pch => "PCH"
  | .spl => "SPL"
  | .sph => "SPH"
  | .lat => "LAT"
  | .wl => "WL"
  | .wh => "WH"
  | .flags => "FLAGS"

/-- A pair by its name of R115. -/
def PairSel.asm : PairSel → String
  | .map j => "PAIR_MAP[" ++ toString j.toNat ++ "]"
  | .pc => "PC"
  | .sp => "SP"
  | .w => "W"

/-- The mnemonic, as R116 and R129 name it. -/
def Instr.mnemonic : Instr → String
  | .idle => "IDLE"
  | .fetch => "FETCH"
  | .fetchx _ => "FETCHX"
  | .dec16 _ => "DEC16"
  | .inc16 _ => "INC16"
  | .rd _ _ => "RD"
  | .wr _ _ => "WR"
  | .mov _ _ => "MOV"
  | .setpc _ => "SETPC"
  | .setvec => "SETVEC"
  | .irqchk => "IRQCHK"
  | .irqend => "IRQEND"
  | .inp _ _ => "IN"
  | .outp _ _ => "OUT"
  | .alu _ _ _ => "ALU"
  | .ei => "EI"
  | .di => "DI"
  | .halt => "HALT"
  | .setbug => "SETBUG"
  | .refNop => "NOP"
  | .refDecB => "DEC B"
  | .refBugnop => "BUGNOP"
  | .refLdANn => "LD A,(nn)"
  | .refLdNnA => "LD (nn),A"
  | .refIncA => "INC A"
  | .refDecA => "DEC A"
  | .refLdAN => "LD A,n"
  | .refHalt => "HALT"
  | .refLdAB => "LD A,B"
  | .refJpNn => "JP nn"
  | .refRet => "RET"
  | .refPrefixCb => "prefix"
  | .refOutNnA => "OUT (nn),A"
  | .refInANn => "IN A,(nn)"
  | .refDi => "DI"
  | .refEi => "EI"
  | .refFallback _ _ => "FALLBACK"

/-- The operands of a micro-op in the order A, B, C (R116); a REF opcode has none in this syntax. -/
def Instr.operands : Instr → List String
  | .fetchx t => [hexByte t]
  | .dec16 p => [PairSel.asm p]
  | .inc16 p => [PairSel.asm p]
  | .setpc p => [PairSel.asm p]
  | .rd d p => [Sel8.asm d, PairSel.asm p]
  | .wr a p => [Sel8.asm a, PairSel.asm p]
  | .inp d p => [Sel8.asm d, PairSel.asm p]
  | .outp a p => [Sel8.asm a, PairSel.asm p]
  | .mov d a => [Sel8.asm d, Sel8.asm a]
  | .alu d a c => [Sel8.asm d, Sel8.asm a, hexByte c]
  | _ => []

/-- The text of an instruction: its mnemonic, then its operands separated by ", " (R125). -/
def Instr.asm (i : Instr) : String :=
  match Instr.operands i with
  | [] => Instr.mnemonic i
  | l => Instr.mnemonic i ++ " " ++ String.intercalate ", " l

/-! ## Pseudo-micro-op sequences (R126): notation only, one tick per word -/

/-- `PUSH8 s` = `DEC16 SP; WR s, SP`. -/
def push8 (a : Sel8) : List Instr := [.dec16 .sp, .wr a .sp]

/-- `POP8 d` = `RD d, SP; INC16 SP`. -/
def pop8 (d : Sel8) : List Instr := [.rd d .sp, .inc16 .sp]

/-- `IMM8 d` = `RD d, PC; INC16 PC`. -/
def imm8 (d : Sel8) : List Instr := [.rd d .pc, .inc16 .pc]

/-- `IMM16 W` = `RD WL, PC; INC16 PC; RD WH, PC; INC16 PC`. -/
def imm16 : List Instr := [.rd .wl .pc, .inc16 .pc, .rd .wh .pc, .inc16 .pc]

/-- `NOP` = `IDLE`. -/
def nop : List Instr := [.idle]

end Sys2Proof.Machine
end

