-- ==== Sys2Proof/Tests/Slice0.lean ====
section
/-! SUPPORT. Tests: words decoded, ill-formed configurations refused, one step or one call each, expected values from
spec/95_test_vectors.md (V<n>, P<n>) or from the rule named, and a witness for the hypotheses of every obligation. -/

set_option maxRecDepth 10000
set_option Elab.async false

namespace Sys2Proof.Machine

/-! ## States the tests start from -/

/-- The next word of `s` is `w`. -/
def State.word (s : State) (w : Nat) : State := s.withFetchWord 32 w

def State.withA (s : State) (v : Byte) : State := s.writeSel (.r 0) v

def State.withW (s : State) (v : Addr) : State := { s with cpu := { s.cpu with w := v } }

def State.withPc (s : State) (v : Addr) : State := s.setPc v

def State.withSp (s : State) (v : Addr) : State := { s with cpu := { s.cpu with sp := v } }

def State.atFrame (s : State) (f : Nat) : State := { s with timing := { s.timing with framePos := f } }

def State.withIc (s : State) (st : IcState) (ifr ier : Byte) (src : Nat) (ime : Bool) : State :=
  { s with ic := { st := st, ifr := ifr, ier := ier, src := src }, cpu := { s.cpu with ime := ime } }

end Sys2Proof.Machine

namespace Sys2Proof.Tests

open Sys2Proof.Machine

/-! ## Helpers -/

/-- A property of the next state an outcome gives. -/
def after (o : Machine.Outcome) (p : State → Bool) : Bool :=
  match o with
  | .next t => p t
  | .fault _ => false
  | .refused _ => false

/-- A property of the state a host operation gives. -/
def done {ε α : Type} (o : Except ε α) (p : α → Bool) : Bool :=
  match o with
  | .ok t => p t
  | .error _ => false

/-- The error a host operation reports. -/
def failedWith {α : Type} (o : Except Error α) (p : Error → Bool) : Bool :=
  match o with
  | .ok _ => false
  | .error e => p e

def noInput : Input := { buttons := [], axes := [] }

/-- `bytes` from address `a` on, added to a memory. -/
def put (a : Nat) (bytes : List Nat) (m : Memory) : Memory := Memory.load 0x00 m a (bytes.map (BitVec.ofNat 8))

/-- The construction state of a configuration with these ROM and RAM bytes. -/
def boot (c : Cfg) (rom ram : Memory) : State := State.init { c with rom := rom } ram noInput

/-- REF with a program at 0x0000. -/
def code (bytes : List Nat) : State := boot Ref.cfg (put 0 bytes []) []

/-- REF with program `p` for byte `b` of table 0. -/
def withProgram (b : Nat) (p : List UWord) : Cfg :=
  { Ref.cfg with tables := [⟨0, Ref.table0.entries.set b p⟩, Ref.table1] }

/-! ## Decoding: a word of every constructor, written out from 30_encoding.md R110, R114 to R116 and R129 -/

theorem test_decode_idle : decode (.uop (0x00#8 ++ 0x00#8 ++ 0x00#8 ++ 0x00#8)) = some .idle := by decide
theorem test_decode_fetch : decode (.uop (0x01#8 ++ 0x00#8 ++ 0x00#8 ++ 0x00#8)) = some .fetch := by decide
theorem test_decode_fetchx : decode (.uop (0x02#8 ++ 0x7E#8 ++ 0x00#8 ++ 0x00#8)) = some (.fetchx 0x7E) := by decide
theorem test_decode_dec16 : decode (.uop (0x03#8 ++ 0x3F#8 ++ 0x00#8 ++ 0x00#8)) = some (.dec16 (.map 0x3F)) := by decide
theorem test_decode_inc16 : decode (.uop (0x04#8 ++ 0x82#8 ++ 0x00#8 ++ 0x00#8)) = some (.inc16 .w) := by decide
theorem test_decode_rd : decode (.uop (0x05#8 ++ 0xF4#8 ++ 0x81#8 ++ 0x00#8)) = some (.rd .lat .sp) := by decide
theorem test_decode_wr : decode (.uop (0x06#8 ++ 0xF3#8 ++ 0x80#8 ++ 0x00#8)) = some (.wr .sph .pc) := by decide
theorem test_decode_mov : decode (.uop (0x07#8 ++ 0x7F#8 ++ 0xF6#8 ++ 0x00#8)) = some (.mov (.r 0x7F) .wh) := by decide
theorem test_decode_setpc : decode (.uop (0x08#8 ++ 0x81#8 ++ 0x00#8 ++ 0x00#8)) = some (.setpc .sp) := by decide
theorem test_decode_setvec : decode (.uop (0x09#8 ++ 0x00#8 ++ 0x00#8 ++ 0x00#8)) = some .setvec := by decide
theorem test_decode_irqchk : decode (.uop (0x0A#8 ++ 0x00#8 ++ 0x00#8 ++ 0x00#8)) = some .irqchk := by decide
theorem test_decode_irqend : decode (.uop (0x0B#8 ++ 0x00#8 ++ 0x00#8 ++ 0x00#8)) = some .irqend := by decide
theorem test_decode_in : decode (.uop (0x0C#8 ++ 0xF2#8 ++ 0x82#8 ++ 0x00#8)) = some (.inp .spl .w) := by decide
theorem test_decode_out : decode (.uop (0x0D#8 ++ 0xF1#8 ++ 0x00#8 ++ 0x00#8)) = some (.outp .pch (.map 0)) := by decide
theorem test_decode_alu : decode (.uop (0x0E#8 ++ 0xF7#8 ++ 0x01#8 ++ 0xA5#8)) = some (.alu .flags (.r 1) 0xA5) := by decide
theorem test_decode_ei : decode (.uop (0x0F#8 ++ 0x00#8 ++ 0x00#8 ++ 0x00#8)) = some .ei := by decide
theorem test_decode_di : decode (.uop (0x10#8 ++ 0x00#8 ++ 0x00#8 ++ 0x00#8)) = some .di := by decide
theorem test_decode_halt : decode (.uop (0x11#8 ++ 0x00#8 ++ 0x00#8 ++ 0x00#8)) = some .halt := by decide
theorem test_decode_setbug : decode (.uop (0x12#8 ++ 0x00#8 ++ 0x00#8 ++ 0x00#8)) = some .setbug := by decide

/-- The REF opcode bytes of R129, and one byte it does not list. -/
theorem test_decode_ref :
    ([0x00, 0x05, 0x08, 0x3A, 0x32, 0x3C, 0x3D, 0x3E, 0x76, 0x78, 0xC3, 0xC9, 0xCB, 0xD3, 0xDB, 0xF3, 0xFB, 0xFF] :
        List Byte).map (decodeRef 0) =
      [some .refNop, some .refDecB, some .refBugnop, some .refLdANn, some .refLdNnA, some .refIncA, some .refDecA,
        some .refLdAN, some .refHalt, some .refLdAB, some .refJpNn, some .refRet, some .refPrefixCb, some .refOutNnA,
        some .refInANn, some .refDi, some .refEi, some (.refFallback 0 0xFF)] := by decide

/-- R115, R117: the selectors at the edges of the reserved ranges. -/
theorem test_decode_selector_edges :
    ([0x7F, 0x80, 0xEF, 0xF0, 0xF7, 0xF8] : List Byte).map decodeSel8 =
        [some (.r 0x7F), none, none, some .pcl, some .flags, none] ∧
      ([0x3F, 0x40, 0x7F, 0x80, 0x82, 0x83] : List Byte).map decodePair =
        [some (.map 0x3F), none, none, some .pc, some .w, none] := by decide

/-- V86, V91, R117: a reserved tag, a non-zero unused field. -/
theorem test_decode_refused :
    ([0x13000000, 0xFF000000, 0x07000101, 0x01000100, 0x00010000, 0x05800000] : List UWord).map decodeUop =
      [none, none, none, none, none, none] := by decide

/-- R125, R126: the assembly text of a micro-op, and a pseudo-micro-op. -/
theorem test_asm :
    Instr.asm (.alu (.r 0) .flags 0x1F) = "ALU R8[0], FLAGS, 0x1F" ∧ Instr.asm .halt = "HALT" ∧
      (push8 .pch).map encode = [.uop 0x03810000, .uop 0x06F18100] := by decide

/-! ## Well-formedness: a term for each check of R127, which the check refuses -/

theorem test_wf_ref : Ref.cfg.wf = true ∧ Ref.cfg16.wf = true := by decide +kernel

/-- V86 and V91. -/
theorem test_wf_tag :
    (withProgram 0x77 [0x13000000]).check = some .wfTag ∧ (withProgram 0x77 [0x07000101]).check = some .wfTag := by
  decide +kernel

/-- V89. -/
theorem test_wf_sel :
    (withProgram 0x77 [0x05028000]).check = some .wfSel ∧ (withProgram 0x77 [0x03000000]).check = some .wfSel ∧
      ({ Ref.cfg with pairMap := [⟨0, .r 1, .r 1⟩] } : Cfg).check = some .wfSel := by decide +kernel

/-- V87 and V88. -/
theorem test_wf_place :
    (withProgram 0x77 [0x09000000, 0x01000000]).check = some .wfPlace ∧
      (withProgram 0x77 [0x01000000, 0x00000000]).check = some .wfPlace := by decide +kernel

theorem test_wf_tables :
    (withProgram 0x77 [0x02020000]).check = some .wfTables ∧
      ({ Ref.cfg with tables := [] } : Cfg).check = some .wfTables := by decide +kernel

theorem test_wf_irq :
    ({ Ref.cfg with vector := [0x0040] } : Cfg).check = some .wfIrq ∧
      ({ Ref.cfg with nIrq := 9, vector := List.replicate 9 0 } : Cfg).check = some .wfIrq := by decide +kernel

theorem test_wf_ct :
    ({ Ref.cfg with frameCycles := 15 } : Cfg).check = some .wfCt ∧
      ({ Ref.cfg with ct := .valid 1 16 :: Ref.ct.tail } : Cfg).check = some .wfCt := by decide +kernel

theorem test_wf_paging :
    ({ Ref.cfg with paging := { Ref.paging with initSel := [.rom 0, .ram 5, .ram 2, .ram 1] } } : Cfg).check = some .wfPaging ∧
      ({ Ref.cfg with rom := [(2 * 16384, 0x01)] } : Cfg).check = some .wfPaging := by decide +kernel

/-- V90. -/
theorem test_wf_ports : ({ Ref.cfg with iePort := 0x0011 } : Cfg).check = some .wfPorts := by decide +kernel

theorem test_wf_board :
    ({ Ref.cfg with board := some { Ref.board with hi := 65536 } } : Cfg).check = some .wfBoard ∧
      ({ Ref.cfg with board := some { Ref.board with xt := [0x00] } } : Cfg).check = some .wfBoard := by decide +kernel

/-- Instructions whose operands do not exist in REF (R114, R115, R120). -/
theorem test_instr_wf :
    Instr.wf Ref.cfg (.rd (.r 1) .w) = true ∧ Instr.wf Ref.cfg (.rd (.r 2) .w) = false ∧
      Instr.wf Ref.cfg (.dec16 (.map 0)) = false ∧ Instr.wf Ref.cfg (.fetchx 0x02) = false ∧
      Instr.wf Ref.cfg (.refFallback 0 0x3C) = false ∧ Instr.wf Ref.cfg (.refFallback 1 0x3C) = true := by decide +kernel

/-! ## The micro-ops, one step each -/

/-- V10. -/
theorem test_idle :
    after (step ((State.reset.atFrame 5).word 0x00000000)) (fun t =>
      decide (t.timing.framePos = 6 ∧ t.timing.cycles = 1 ∧ t.cpu = State.reset.cpu ∧ t.trace = [])) = true := by
  decide +kernel

/-- V1: the implicit fetch after construction. -/
theorem test_fetch_implicit :
    after (step (code [0x3D])) (fun t =>
      decide (t.cpu.pc = 0x0001 ∧ t.cpu.ir = 0x3D ∧ t.seq = { progId := .table 0 0x3D, cursor := 0 } ∧
        t.trace = [.fetch 0x0000 0x3D 0])) = true := by decide +kernel

/-- V3 (PC wraps) and V4 (BUG). -/
theorem test_fetch_wrap_and_bug :
    after (step ((code []).withPc 0xFFFF |>.word 0x01000000)) (fun t => decide (t.cpu.pc = 0x0000)) = true ∧
      after (exec .fetch { (code [0x08, 0x3C]).withPc 0x0001 with cpu := { ((code []).withPc 0x0001).cpu with bug := true } })
        (fun t => decide (t.cpu.pc = 0x0001 ∧ t.cpu.ir = 0x3C ∧ t.cpu.bug = false)) = true := by decide +kernel

/-- V6, taken though an interrupt is pending. -/
theorem test_fetchx :
    after (step (((code [0xCB, 0x3C]).withPc 0x0001 |>.word 0x02010000).withIc .pending 0x01 0x01 0 true)) (fun t =>
      decide (t.cpu.ir = 0x3C ∧ t.cpu.pc = 0x0002 ∧ t.seq = { progId := .table 1 0x3C, cursor := 0 } ∧
        t.ic.st = .pending)) = true := by decide +kernel

/-- V11. -/
theorem test_dec16 :
    after (step (State.reset.word 0x03810000)) (fun t => decide (t.cpu.sp = 0xFFFF ∧ t.cpu.flags = 0x00)) = true := by
  decide +kernel

/-- V12. -/
theorem test_inc16 :
    after (step ((State.reset.withPc 0xFFFF).word 0x04800000)) (fun t => decide (t.cpu.pc = 0x0000)) = true := by
  decide +kernel

/-- V15: the address is read before PCL is written. -/
theorem test_rd_pcl :
    after (step (((boot Ref.cfg (put 0x0102 [0x80] []) []).withPc 0x0102).word 0x05F08000)) (fun t =>
      decide (t.cpu.pc = 0x0180 ∧ t.trace = [.memR 0x0102 0x80 0])) = true := by decide +kernel

/-- V30: the wait comes before the read; the tick lasts three cycles. -/
theorem test_rd_contended :
    after (step ((((boot Ref.cfg [] (put (5 * 16384) [0x55] [])).withW 0x4000).atFrame 5).word 0x05008200)) (fun t =>
      decide (t.readSel (.r 0) = 0x55 ∧ t.timing.framePos = 8 ∧ Memory.read 0xFF t.timing.buslog 7 = 0x55 ∧
        t.trace = [.memR 0x4000 0x55 2])) = true := by decide +kernel

/-- V17: the stored byte is the low byte of the address register itself. -/
theorem test_wr_spl :
    after (step ((State.reset.withSp 0xC005).word 0x06F28100)) (fun t =>
      decide (t.readRam 0 5 = 0x05 ∧ t.trace = [.memW 0xC005 0x05 true 0])) = true := by decide +kernel

/-- V18: a write to ROM is discarded, and still drives the bus log. -/
theorem test_wr_rom :
    after (step ((((boot Ref.cfg (put 0x0100 [0xAB] []) []).withW 0x0100).withA 0x77).word 0x06008200)) (fun t =>
      decide (t.readBus 0x0100 = 0xAB ∧ Memory.read 0xFF t.timing.buslog 0 = 0x77 ∧
        t.trace = [.memW 0x0100 0x77 false 0])) = true := by decide +kernel

/-- V19. -/
theorem test_mov :
    after (step ((State.reset.writeSel (.r 1) 0x07).word 0x07000100)) (fun t => decide (t.cpu.r8 = [0x07, 0x07])) = true := by
  decide +kernel

/-- V20. -/
theorem test_setpc :
    after (step ((State.reset.withW 0x1234).word 0x08820000)) (fun t => decide (t.cpu.pc = 0x1234)) = true := by
  decide +kernel

/-- V68. -/
theorem test_setvec :
    after (step ((State.reset.withIc .dispatching 0x03 0x03 1 false).word 0x09000000)) (fun t =>
      decide (t.cpu.pc = 0x0048 ∧ t.ic = { st := .idle, ifr := 0x01, ier := 0x03, src := 1 } ∧ t.trace = [.ack 1])) = true := by
  decide +kernel

/-- V65 and V66. -/
theorem test_irqchk :
    after (step ((State.reset.withIc .dispatching 0x01 0x01 0 false).word 0x0A000000)) (fun t =>
      decide (t.seq = { progId := .dispatch 0, cursor := 3 })) = true ∧
    after (step ((State.reset.withIc .dispatching 0x00 0x01 0 false).word 0x0A000000)) (fun t =>
      decide (t.seq = { progId := .cancelled 0, cursor := 3 } ∧ t.trace = [.cancel 0])) = true := by decide +kernel

/-- V67: a disabled source cancels too. V69: the end of a cancelled entry. -/
theorem test_irqend :
    after (step ((State.reset.withIc .dispatching 0x01 0x00 0 false).word 0x0A000000)) (fun t =>
      decide (t.seq.progId = .cancelled 0)) = true ∧
    after (step (((State.reset.withIc .dispatching 0x01 0x01 0 false).withPc 0x0008).word 0x0B000000)) (fun t =>
      decide (t.ic = { st := .idle, ifr := 0x01, ier := 0x01, src := 0 } ∧ t.cpu.pc = 0x0008 ∧ t.cpu.ime = false)) = true := by
  decide +kernel

/-- V41: the floating bus. V48: the board's port. -/
theorem test_in :
    after (step ((({ State.reset with timing := { State.reset.timing with framePos := 6, buslog := [(5, 0x12)] } } : State).withW
      0x1234).word 0x0C008200)) (fun t => decide (t.readSel (.r 0) = 0x12 ∧ t.trace = [.portR 0x1234 0x12 .none])) = true ∧
    after (step ((({ State.reset with board := { bank := 0x01, prot := 0x00, key := 0x00 } } : State).withW
      0x00F0).word 0x0C008200)) (fun t => decide (t.readSel (.r 0) = 0x01 ∧ t.trace = [.portR 0x00F0 0x01 .board])) = true := by
  decide +kernel

/-- V34, V47: the paging port. V45: the interrupt port, odd, so that the beeper is not written. -/
theorem test_out :
    after (step (((State.reset.withW 0x0020).withA 0x13).word 0x0D008200)) (fun t =>
      decide (t.paging.preg = [0x13] ∧ t.paging.sel.get 3 = .ram 3 ∧ t.ostate 0 = [1] ∧
        t.trace = [.portW 0x0020 0x13 (.periph 1)])) = true ∧
    after (step (((State.reset.withW 0x0011).withA 0xFF).word 0x0D008200)) (fun t =>
      decide (t.ic.ifr = 0x03 ∧ t.ostate 0 = [] ∧ t.trace = [.portW 0x0011 0xFF (.periph 0)])) = true := by decide +kernel

/-- V23, V24. -/
theorem test_alu :
    after (step ((State.reset.withA 0xFF).word 0x0E000001)) (fun t =>
      decide (t.readSel (.r 0) = 0x00 ∧ t.cpu.flags = 0x80)) = true ∧
    after (step (({ State.reset.withA 0x12 with cpu := { (State.reset.withA 0x12).cpu with flags := 0x5A } } : State).word
      0x0E000002)) (fun t => decide (t.readSel (.r 0) = 0x12 ∧ t.cpu.flags = 0x5A)) = true := by decide +kernel

/-- V25: FLAGS is written last. -/
theorem test_alu_flags_last :
    after (step (({ State.reset with cpu := { State.reset.cpu with flags := 0x01 } } : State).word 0x0EF7F700)) (fun t =>
      decide (t.cpu.flags = 0x80)) = true := by decide +kernel

/-- V26. -/
theorem test_ei :
    after (step ((State.reset.withIc .idle 0x01 0x01 0 false).word 0x0F000000)) (fun t =>
      decide (t.cpu.ime = true ∧ t.ic.st = .pending)) = true := by decide +kernel

/-- V27. -/
theorem test_di :
    after (step ((State.reset.withIc .pending 0x01 0x01 0 true).word 0x10000000)) (fun t =>
      decide (t.cpu.ime = false ∧ t.ic.st = .idle)) = true := by decide +kernel

/-- V28. -/
theorem test_halt :
    after (step (State.reset.word 0x11000000)) (fun t => decide (t.cpu.halted = true ∧ t.seq.cursor = 1)) = true := by
  decide +kernel

/-- V29. -/
theorem test_setbug : after (step (State.reset.word 0x12000000)) (fun t => decide (t.cpu.bug = true)) = true := by
  decide +kernel

/-! ## Interrupts and the halt state -/

/-- V5, V63, V64: the splice takes the least enabled source, PC and BUG stay. -/
theorem test_splice :
    after (exec .fetch { (State.reset.withIc .pending 0x03 0x02 0 true).withPc 0x0008 with
        cpu := { State.reset.cpu with pc := 0x0008, ime := true, bug := true } }) (fun t =>
      decide (t.trace = [.splice 1] ∧ t.cpu.pc = 0x0008 ∧ t.cpu.bug = true ∧ t.cpu.ime = false ∧ t.ic.src = 1 ∧
        t.ic.ifr = 0x03 ∧ t.seq = { progId := .dispatch 0, cursor := 0 })) = true ∧
    after (exec .fetch (State.reset.withIc .pending 0x03 0x03 0 true)) (fun t => decide (t.ic.src = 0)) = true := by
  decide +kernel

def halted (s : State) : State := { s with cpu := { s.cpu with halted := true } }

/-- V71, V72, V73. -/
theorem test_halt_tick :
    after (step (halted State.reset)) (fun t => decide (t.cpu.halted = true ∧ t.trace = [])) = true ∧
    after (step (halted (State.reset.withIc .idle 0x01 0x01 0 false))) (fun t =>
      decide (t.cpu.halted = false ∧ t.trace = [])) = true ∧
    after (step (halted (State.reset.withIc .pending 0x01 0x01 0 true))) (fun t =>
      decide (t.cpu.halted = false ∧ t.trace = [.splice 0])) = true := by decide +kernel

/-- V60, V61, V62. -/
theorem test_irq_lines :
    (State.reset.withIc .idle 0x00 0x03 0 true).assertIrq 1 = State.reset.withIc .pending 0x02 0x03 0 true ∧
    (State.reset.withIc .idle 0x00 0x03 0 false).assertIrq 0 = State.reset.withIc .idle 0x01 0x03 0 false ∧
    (State.reset.withIc .pending 0x01 0x01 0 true).clearIrq 0 = State.reset.withIc .idle 0x00 0x01 0 true := by
  decide +kernel

/-- V70: the entry program of variant 1. -/
theorem test_variant_one :
    (ProgId.dispatch 1).prog Ref.cfg =
      [0x00000000, 0x03810000, 0x06F18100, 0x0A000000, 0x03810000, 0x06F08100, 0x09000000, 0x01000000] := by decide

/-! ## Memory, time and the board -/

/-- V32: a video write. -/
theorem test_video_write :
    after (step ((((State.reset.withW 0x4001).withA 0x55).atFrame 13).word 0x06008200)) (fun t =>
      decide (t.readRam 5 1 = 0x55 ∧ t.trace = [.videoW 0x4001 0x55 13, .memW 0x4001 0x55 true 0])) = true := by
  decide +kernel

/-- V36: an unmapped window reads the floating bus. -/
theorem test_unmapped_read :
    after (step ((({ boot Ref.cfg16 [] [] with
        timing := { State.reset.timing with framePos := 6, buslog := [(5, 0x12)] } } : State).withW 0x4000).word 0x05008200))
      (fun t => decide (t.readSel (.r 0) = 0x12 ∧ Memory.read 0xFF t.timing.buslog 6 = 0x12)) = true := by decide +kernel

/-- V38: the frame boundary takes the input. -/
theorem test_frame_boundary :
    after (step (((State.reset.setInput { buttons := [true], axes := [-3] }).atFrame 15).word 0x00000000)) (fun t =>
      decide (t.timing.framePos = 0 ∧ t.timing.frame = 1 ∧ t.input.cur = { buttons := [true], axes := [-3] })) = true := by
  decide +kernel

/-- V50 to V53. -/
theorem test_board_protection :
    ((State.reset.writeBus 0x3FFE 0x3C).1.readBus 0x3FFE, (State.reset.writeBus 0x3FFE 0x3C).1.readBus 0x3FFC) = (0x66, 0x99) ∧
      ((State.reset.writeBus 0x3FFD 0x05).1.writeBus 0x3FFE 0x3C).1.board.prot = 0x63 := by decide +kernel

/-- V54, V56, V57: the banked ROM inside the window, ROM 0 outside it. -/
theorem test_board_bank :
    let s := boot Ref.cfg (put (16384 + 0x2000) [0x21] (put 0x1FFF [0x0F] [])) []
    (s.writeBus 0x3FFF 0xFF).1.readBus 0x2000 = 0x21 ∧ (s.writeBus 0x3FFF 0xFF).1.readBus 0x1FFF = 0x0F ∧
      s.readBus 0x2000 = 0x00 := by decide +kernel

/-! ## Host operations and snapshots -/

/-- V80, V81. -/
theorem test_cpu_reset :
    let s := { (State.reset.withIc .dispatching 0x01 0x01 0 false).withSp 0xFFFF with
      board := { bank := 0x01, prot := 0x00, key := 0x00 }, timing := { State.reset.timing with cycles := 16 } }
    s.cpuReset.cpu = State.reset.cpu ∧ s.cpuReset.ic = State.reset.ic ∧ s.cpuReset.board.bank = 0x01 ∧
      s.cpuReset.timing.cycles = 16 := by decide +kernel

/-- V82. -/
theorem test_save_order :
    State.reset.save.map (fun x => x.tag) = [.cfg, .cpu, .seq, .ic, .paging, .board, .periph, .timing, .input, .fail] := by
  decide

/-- V83: swapped sections. V85: a trailing section. The digest is not reached. -/
theorem test_restore_format :
    failedWith (State.reset.restore ((sectionNames Ref.cfg).map fun t =>
      ⟨if t = .seq then .ic else if t = .ic then .seq else t, []⟩)) (fun e => decide (e = .snapFormat (some .seq) (some .ic))) = true ∧
    failedWith (State.reset.restore ((sectionNames Ref.cfg).map (fun t => ⟨t, []⟩) ++ [⟨.fail, []⟩])) (fun e =>
      decide (e = .snapFormat none (some .fail))) = true := by decide +kernel

/-- The codecs of the sections read back what they write. -/
theorem test_codec_round_trip :
    cpuCodec.whole (cpuCodec.put { State.reset.cpu with pc := 0x1234, r8 := [0xFF, 0x01], halted := true }) =
        some { State.reset.cpu with pc := 0x1234, r8 := [0xFF, 0x01], halted := true } ∧
      failCodec.whole (failCodec.put (some (.step 300))) = some (some (.step 300)) := by decide +kernel

/-- 10_state.md R54, "little-endian", with the widths of log entry 9: a number without a width, IC, FAIL while FAILED is 0. -/
theorem test_codec_bytes :
    Codec.nat.put 200 = [0x01, 0xC8] ∧ Codec.nat.put 0 = [0x01, 0x00] ∧ Codec.nat.put 0x1234 = [0x02, 0x34, 0x12] ∧
      icCodec.put ⟨.pending, 0x03, 0x01, 2⟩ = [0x01, 0x03, 0x01, 0x01, 0x02] ∧ selCodec.put (.ram 5) = [0x01, 0x01, 0x05] ∧
      (failCodec.put none).take 3 = [0x00, 0x00, 0x00] ∧ (failCodec.put (some (.step 7))).take 2 = [0x01, 0x04] := by
  decide +kernel

/-- 41_bus.md R193, 43_board.md R234: a board that stores into the RAM behind its window reports a byte written only where
there is RAM. -/
theorem test_board_stored :
    let b : BoardCfg := { Ref.board with hi := 0x7FFF, writes := [⟨.lit 1, .ram (.atom .addr), .atom .value⟩] }
    (State.reset.boardWrite b 0x4000 0xA5).2 = true ∧ (State.reset.boardWrite b 0x4000 0xA5).1.readRam 5 0 = 0xA5 ∧
      State.reset.boardWrite b 0x3FFF 0xA5 = (State.reset, false) := by decide +kernel

/-! ## The REF opcodes, from the state their fetch leaves -/

theorem test_ref_nop : after (exec .refNop (code [])) (fun t => decide (t.trace = [] ∧ t.timing.cycles = 0)) = true := by
  decide +kernel

theorem test_ref_dec_b :
    after (exec .refDecB (State.reset.writeSel (.r 1) 0x01)) (fun t =>
      decide (t.cpu.r8 = [0x00, 0x00] ∧ t.cpu.flags = 0x80 ∧ t.timing.cycles = 1)) = true := by decide +kernel

/-- P9a. -/
theorem test_ref_bugnop : after (exec .refBugnop (code [])) (fun t => decide (t.cpu.bug = true)) = true := by decide +kernel

/-- P2: the load from RAM, PC past the operand. -/
theorem test_ref_ld_a_nn :
    after (exec .refLdANn ((boot Ref.cfg (put 0 [0x3A, 0x00, 0xC0] []) (put 0 [0xB0] [])).withPc 0x0001)) (fun t =>
      decide (t.readSel (.r 0) = 0xB0 ∧ t.cpu.pc = 0x0003 ∧ t.cpu.w = 0xC000 ∧ t.timing.cycles = 5)) = true := by
  decide +kernel

/-- P2: the store. -/
theorem test_ref_ld_nn_a :
    after (exec .refLdNnA (((code [0x32, 0x00, 0x80]).withPc 0x0001).withA 0xB4)) (fun t =>
      decide (t.readRam 2 0 = 0xB4 ∧ t.trace.getLast? = some (.memW 0x8000 0xB4 true 0))) = true := by decide +kernel

theorem test_ref_inc_a :
    after (exec .refIncA (State.reset.withA 0xFF)) (fun t => decide (t.readSel (.r 0) = 0x00 ∧ t.cpu.flags = 0x80)) = true := by
  decide +kernel

/-- P1. -/
theorem test_ref_dec_a :
    after (exec .refDecA State.reset) (fun t => decide (t.readSel (.r 0) = 0xFF ∧ t.cpu.flags = 0x00)) = true := by
  decide +kernel

/-- P2. -/
theorem test_ref_ld_a_n :
    after (exec .refLdAN ((code [0x3E, 0x03]).withPc 0x0001)) (fun t =>
      decide (t.readSel (.r 0) = 0x03 ∧ t.cpu.pc = 0x0002 ∧ t.timing.cycles = 2)) = true := by decide +kernel

theorem test_ref_halt : after (exec .refHalt State.reset) (fun t => decide (t.cpu.halted = true)) = true := by decide +kernel

theorem test_ref_ld_a_b :
    after (exec .refLdAB (State.reset.writeSel (.r 1) 0x07)) (fun t => decide (t.cpu.r8 = [0x07, 0x07])) = true := by
  decide +kernel

/-- P1. -/
theorem test_ref_jp :
    after (exec .refJpNn ((code [0x3D, 0xC3, 0x34, 0x12]).withPc 0x0002)) (fun t =>
      decide (t.cpu.pc = 0x1234 ∧ t.timing.cycles = 5)) = true := by decide +kernel

/-- P3: the return pops low byte first; SP wraps. -/
theorem test_ref_ret :
    after (exec .refRet ((boot Ref.cfg [] (put 0x3FFE [0x09, 0x01] [])).withSp 0xFFFE)) (fun t =>
      decide (t.cpu.pc = 0x0109 ∧ t.cpu.sp = 0x0000)) = true := by decide +kernel

/-- P9b. -/
theorem test_ref_prefix :
    after (exec .refPrefixCb ((code [0xCB, 0x3C]).withPc 0x0001)) (fun t =>
      decide (t.cpu.pc = 0x0002 ∧ t.seq = { progId := .table 1 0x3C, cursor := 0 })) = true := by decide +kernel

/-- P4: the interrupt enables. -/
theorem test_ref_out :
    after (exec .refOutNnA (((code [0xD3, 0x10, 0x00]).withPc 0x0001).withA 0x01)) (fun t =>
      decide (t.ic.ier = 0x01 ∧ t.cpu.pc = 0x0003)) = true := by decide +kernel

/-- P7: the interrupt controller reads IE = 0; an unclaimed port floats. -/
theorem test_ref_in :
    after (exec .refInANn (((code [0xDB, 0x10, 0x00]).withPc 0x0001).withA 0x55)) (fun t =>
      decide (t.readSel (.r 0) = 0x00 ∧ t.trace.getLast? = some (.portR 0x0010 0x00 (.periph 0)))) = true := by decide +kernel

theorem test_ref_di :
    after (exec .refDi (State.reset.withIc .pending 0x01 0x01 0 true)) (fun t =>
      decide (t.cpu.ime = false ∧ t.ic.st = .idle)) = true := by decide +kernel

theorem test_ref_ei :
    after (exec .refEi (State.reset.withIc .idle 0x01 0x01 0 false)) (fun t =>
      decide (t.cpu.ime = true ∧ t.ic.st = .pending)) = true := by decide +kernel

/-- V7. -/
theorem test_ref_fallback :
    after (exec (.refFallback 0 0x77) State.reset) (fun t =>
      decide (t = State.reset.load 0 0x77)) = true := by decide +kernel

/-! ## Witnesses: for each obligation with hypotheses, a state and operands that meet them, clause by clause -/

theorem exists_of_after {o : Machine.Outcome} {p : State → Bool} (h : after o p = true) : ∃ t, o = .next t ∧ p t = true := by
  cases o <;> simp_all [after]

/-- A peripheral that claims port 0x1234, with one cell, whose writes are pushed after it. -/
def dev : Device where
  claims := Ref.onPort 0x1234
  readFail := .lit 0
  readOk := .lit 1
  readVal := .atom (.cell 0)
  readActs := []
  writeFail := .lit 0
  writeActs := [⟨.lit 1, .push (.atom .value)⟩]
  tickFail := .lit 0
  tickActs := []
  tickLines := [⟨0, .lit 1, .lit 1⟩]
  presetActs := [⟨.lit 1, .dropFirst (.lit 1)⟩]
  init := [0x5A]

def withDevice (d : Device) : Cfg := { Ref.cfg with periph := [.ic, .paging, .device d] }

def withPair : Cfg := { Ref.cfg with pairMap := [⟨0, .r 0, .r 1⟩] }

/-- In the middle of an interrupt entry, at the end of a frame, with memory and the bus log in use. -/
def mid : State :=
  { (boot Ref.cfg (put 0 [0x3E, 0x01] []) (put 0x3FFF [0x12] [])).withIc .dispatching 0x01 0x03 0 false with
    seq := { progId := .dispatch 0, cursor := 2 }
    timing := { cycles := 15, framePos := 15, frame := 0, buslog := [(3, 0x12)] } }

theorem mid_inv : mid.Inv where
  cfgWf := by decide +kernel
  queuedWf := by decide +kernel
  ramWf := by decide +kernel
  buslogWf := by decide +kernel
  ramBelow := by decide +kernel
  buslogBelow := by decide +kernel
  cursorLe := by decide +kernel
  entry := rfl
  pending := fun h => by cases h
  framePosLt := by decide +kernel
  ifMasked := by decide +kernel
  ieMasked := by decide +kernel
  r8Length := by decide +kernel
  pregLength := by decide +kernel
  mapping := by unfold State.mapped; decide +kernel
  srcLt := by decide +kernel
  periphLength := by decide +kernel
  observerLength := by decide +kernel

theorem isRef_of {s : State} (h1 : s.cfg = { Ref.cfg with rom := s.cfg.rom }) (h2 : s.failed = none) (h3 : s.queue = [])
    (h4 : s.cpu.r8.length = 2) (h5 : s.paging.sel.toList.all (· != .unmapped) = true) : s.IsRef := by
  refine ⟨h1, h2, h3, h4, fun w => ?_⟩
  simp only [Quad.toList, List.all_cons, List.all_nil, Bool.and_true, Bool.and_eq_true, bne_iff_ne] at h5
  unfold Quad.get
  split <;> simp_all

theorem test_hyp_DecodeOfEncode :
    Instr.wf Ref.cfg (.alu .flags (.r 1) 0xFF) = true ∧ Instr.wf Ref.cfg (.refFallback 0 0xFF) = true := by decide +kernel

theorem test_hyp_EncodeOfDecode :
    decode (.uop 0x0EF7F7FF) = some (.alu .flags .flags 0xFF) ∧ decode (.op8 1 0xFF) = some (.refFallback 1 0xFF) := by
  decide +kernel

/-- One word for each clause, at the edge of its range. -/
theorem test_hyp_ReservedWordsRefused :
    (0x13 ≤ (uTag 0x13000000).toNat ∧ 0x13 ≤ (uTag 0xFFFFFFFF).toNat) ∧ (uTag 0x0F000001 ≠ 0x0E ∧ uC 0x0F000001 ≠ 0) ∧
    (uTag 0x08820100 ∉ [0x05, 0x06, 0x07, 0x0C, 0x0D, 0x0E] ∧ uB 0x08820100 ≠ 0) ∧
    (uTag 0x12010000 ∈ [0x00, 0x01, 0x09, 0x0A, 0x0B, 0x0F, 0x10, 0x11, 0x12] ∧ uA 0x12010000 ≠ 0) ∧
    (uTag 0x04830000 ∈ [0x03, 0x04, 0x08] ∧ decodePair (uA 0x04830000) = none) ∧
    (uTag 0x05EF8000 ∈ [0x05, 0x06, 0x0C, 0x0D] ∧ decodeSel8 (uA 0x05EF8000) = none ∧ decodePair (uB 0x0D007F00) = none) ∧
    (uTag 0x07800000 ∈ [0x07, 0x0E] ∧ decodeSel8 (uA 0x07800000) = none ∧ decodeSel8 (uB 0x0E00F800) = none) ∧
    ([0x13000000] ∈ (withProgram 0x77 [0x13000000]).programs ∧ decodeUop 0x13000000 = none) := by decide +kernel

theorem test_hyp_WellFormedProgramsDecode :
    Ref.cfg.wf = true ∧
    Ref.cfg.prog? 0 0xC9 = some [0x05F58100, 0x04810000, 0x05F68100, 0x04810000, 0x08820000, 0x01000000] ∧
    Ref.cfg.prog? 1 0xFF = some [0x01000000] ∧ decodeUop 0x02010000 = some (.fetchx 1) ∧
    (Ref.cfg.table? 1).isSome = true := by decide +kernel

/-- Each clause: an ill-formed configuration, one without its paging unit; a bank one byte short; the last ROM and RAM bank in
full. -/
theorem test_hyp_ConstructionRefusesIllFormed :
    ({ Ref.cfg with iePort := 0x0011 } : Cfg).wf = false ∧ ({ Ref.cfg with periph := [.ic] } : Cfg).wf = false ∧
    Ref.cfg.wf = true ∧
    (List.replicate 16383 (0xFF : Byte)).length ≠ 16384 ∧ 1 < Ref.cfg.romBanks ∧ 7 < Ref.cfg.ramBanks ∧
    (List.replicate 16384 (0xFF : Byte)).length = 16384 := by
  refine ⟨by decide +kernel, by decide +kernel, by decide +kernel, ?_, by decide, by decide, List.length_replicate⟩
  rw [List.length_replicate]
  decide

theorem test_hyp_ConstructedState :
    (∃ s, construct Ref.cfg16 { rom := [], ram := [] } noInput = .ok s) ∧
    ∃ s, construct Ref.cfg { rom := [(1, List.replicate 16384 0xFF)], ram := [(7, List.replicate 16384 0x01)] } noInput =
      .ok s := by
  have h3 : Ref.cfg.romBanks = 2 := rfl
  have h4 : Ref.cfg.ramBanks = 8 := rfl
  refine ⟨⟨_, construct_of_good _ (by decide +kernel) rfl rfl⟩, _, construct_of_good _ (by decide +kernel) ?_ ?_⟩ <;>
  · simp only [banksOk, List.all_cons, List.all_nil, List.length_replicate, h3, h4, windowSize]
    decide

/-- A device, the two built-in peripherals, a unit that does not exist, an observer. -/
theorem test_hyp_CpuResetFields :
    let s := boot (withDevice dev) [] []
    s.cfg.periph[2]? = some (.device dev) ∧ 2 < s.units.periph.length ∧ s.cfg.periph[0]? = some .ic ∧
      s.cfg.periph[1]? = some .paging ∧ s.cfg.periph[3]? = none ∧ s.cfg.observers[0]? = some Ref.beeper ∧
      0 < s.units.observer.length := by decide +kernel

theorem test_hyp_FirstTickFetches :
    mid.cpuReset.failed = none ∧ ∃ s, construct Ref.cfg16 { rom := [], ram := [] } noInput = .ok s ∧ s.failed = none := by
  exact ⟨by decide +kernel, _, construct_of_good _ (by decide +kernel) rfl rfl, rfl⟩

/-- A word that runs. -/
def running (w : Nat) : State := (code []).word w

/-- A word that runs under a configuration with peripheral `d` behind port 0x1234. -/
def deviceWord (d : Device) (w : Nat) : State := ((boot (withDevice d) [] []).withW 0x1234).word w

/-- Each clause of a tick: it completes, a hook fails, the word fails, it faults, it is refused. -/
theorem test_hyp_StepRunsNextWord :
    (((running 0x00000000).prog[(running 0x00000000).seq.cursor]? = some 0x00000000) ∧
      after (exec .idle (running 0x00000000).bumpCursor) (fun t => done t.endTick fun _ => true) = true) ∧
    (after (exec .idle (deviceWord { dev with tickFail := .lit 1 } 0x00000000).bumpCursor)
      (fun t => decide (t.failed = none) && failedWith t.endTick fun e => decide (e = .step 2)) = true) ∧
    (after (exec (.inp (.r 0) .w) (deviceWord { dev with readFail := .lit 1 } 0x0C008200).bumpCursor)
      (fun t => decide (t.failed = some (.step 2))) = true) ∧
    ((exec .fetch ((running 0x01000000).withIc .pending 0x00 0x00 0 true).bumpCursor).ctorIdx = 1) ∧
    (exec (.rd (.r 2) .w) ({ boot (withProgram 0x00 [0x05028200]) [] [] with
      seq := { progId := .table 0 0x00, cursor := 0 } } : State).bumpCursor).ctorIdx = 2 := by decide +kernel

theorem test_hyp_ImplicitFetch :
    ((code []).failed = none ∧ (code []).cpu.halted = false ∧ (code []).seq.cursor = (code []).prog.length) ∧
    (running 0x01000000).prog[(running 0x01000000).seq.cursor]? = some 0x01000000 := by decide +kernel

theorem test_hyp_FailureRule :
    (∃ t, step (deviceWord { dev with writeFail := .lit 1 } 0x0D008200) = .next t ∧ decide (t.failed = some (.step 2)) = true) ∧
    (mid.raise (.step 0)).failed = some (.step 0) ∧
    done ((mid.raise (.step 0)).host .reset) (fun _ => true) = true ∧
    ∃ s, construct Ref.cfg16 { rom := [], ram := [] } noInput = .ok s := by
  refine ⟨exists_of_after (by decide +kernel), by decide +kernel, by decide +kernel, test_hyp_ConstructedState.1⟩

/-- The last clause: a device that claims the port and reports failure of the read, or of the write of this byte. -/
theorem test_hyp_FailureRule_port :
    let d : Device := { dev with readFail := .lit 1, writeFail := .op .eq (.atom .value) (.lit 0xFE) }
    let s := ((boot (withDevice d) [] []).withW 0x1234).withA 0xFE
    s.hasSel (.r 0) = true ∧ s.hasPair .w = true ∧ s.timing.framePos < s.cfg.frameCycles ∧
      s.claimant (s.readPair .w) = .periph 2 ∧ s.cfg.periph[2]? = some (.device d) ∧
      s.devEval (s.pstate 2) 0x1234 0 d.readFail ≠ 0 ∧
      (s.logBus 0xFE).devEval (s.pstate 2) 0x1234 0xFE d.writeFail ≠ 0 := by decide +kernel

/-- `TickTime`, `MappingChangesOnlyByPort`, `StepKeepsInv`, `StepMakesProgress`: a state of the invariant that steps. -/
theorem test_hyp_TickTime : mid.Inv ∧ mid.failed = none ∧ ∃ t, step mid = .next t ∧ decide (t.failed = none) = true :=
  ⟨mid_inv, rfl, exists_of_after (by decide +kernel)⟩

theorem test_hyp_OneAccessPerTick : ∃ t, step (halted mid) = .next t ∧ decide (t.failed = none) = true :=
  exists_of_after (by decide +kernel)

/-- Just short of the frame's end, and reaching it exactly. -/
theorem test_hyp_AdvanceLoopAndFrameBoundary :
    ((mid.atFrame 14).timing.framePos < Ref.cfg.frameCycles ∧ (mid.atFrame 14).timing.framePos + 1 < Ref.cfg.frameCycles) ∧
    mid.timing.framePos < mid.cfg.frameCycles ∧ mid.cfg.frameCycles ≤ mid.timing.framePos + 1 := by decide +kernel

/-- Both instructions, the second while an interrupt is pending; an address whose read takes no floating byte. -/
theorem test_hyp_FetchResults :
    (mid.cfg.table? 0).isSome = true ∧ mid.ic.st ≠ .pending ∧ (mid.cfg.table? 1).isSome = true ∧
      mid.steady mid.cpu.pc = true ∧ mid.steady 0x3FFF = true := by decide +kernel

theorem test_hyp_SpliceEntersLowestSource :
    (mid.withIc .pending 0x03 0x03 0 true).ic.st = .pending ∧ (mid.withIc .pending 0x03 0x03 0 true).winner = some 0 ∧
      (mid.withIc .pending 0x02 0x03 0 true).winner = some 1 := by decide +kernel

/-- The five rows of the rule. -/
theorem test_hyp_IcUpdateRule :
    (mid.withIc .idle 0x02 0x02 0 true).requesting = true ∧ (mid.withIc .idle 0x04 0x04 0 true).requesting = false ∧
      (mid.withIc .pending 0x02 0x02 0 true).requesting = true ∧ (mid.withIc .pending 0x02 0x02 0 false).requesting = false ∧
      mid.ic.st = .dispatching := by decide +kernel

theorem test_hyp_CheckpointAndVectorResults :
    (bit mid.ic.ifr mid.ic.src = true ∧ bit mid.ic.ier mid.ic.src = true) ∧
      ¬((mid.withIc .dispatching 0x01 0x02 0 false).stillPending = true) ∧
      (mid.withIc .dispatching 0x02 0x02 1 false).cfg.vector[1]? = some 0x0048 := by decide +kernel

theorem test_hyp_ControlResults :
    mid.hasPair .w = true ∧ mid.hasPair .pc = true ∧ (boot withPair [] []).hasPair (.map 0) = true ∧ withPair.wf = true := by
  decide +kernel

theorem test_hyp_HaltTickRule :
    (halted mid).failed = none ∧ (halted mid).cpu.halted = true ∧
      ((halted (mid.withIc .pending 0x02 0x02 0 true)).ic.st = .pending ∧
        (halted (mid.withIc .pending 0x02 0x02 0 true)).winner = some 1) ∧
      ((halted (mid.withIc .idle 0x02 0x02 0 false)).ic.st ≠ .pending ∧ 1 < mid.cfg.nIrq ∧
        (halted (mid.withIc .idle 0x02 0x02 0 false)).ic.ifr.getLsbD 1 = true) ∧
      (halted (mid.withIc .idle 0x01 0x02 0 true)).requests = 0 := by decide +kernel

/-- A transition of each kind. -/
theorem test_hyp_IcStateTransitions :
    (∃ t, step ((code []).withIc .idle 0x01 0x01 0 true) = .next t ∧ decide (t.ic.st = .pending) = true) ∧
    (∃ t, step ((code []).withIc .pending 0x01 0x01 0 true) = .next t ∧ decide (t.ic.st = .dispatching) = true) ∧
    (∃ t, step (((code []).withIc .pending 0x01 0x01 0 true).word 0x10000000) = .next t ∧
      decide (t.ic.st = .idle ∧ t.requesting = false) = true) ∧
    (∃ t, step (((code []).withIc .dispatching 0x01 0x01 0 false).word 0x09000000) = .next t ∧
      decide (t.ic.st = .idle) = true) :=
  ⟨exists_of_after (by decide +kernel), exists_of_after (by decide +kernel), exists_of_after (by decide +kernel), exists_of_after (by decide +kernel)⟩

/-- A change of each kind. -/
theorem test_hyp_ControlBitsChangeOnlyBy :
    (∃ t, step (running 0x0F000000) = .next t ∧ decide (t.cpu.ime = true) = true) ∧
    (∃ t, step ((code []).withIc .pending 0x01 0x01 0 true) = .next t ∧ decide (t.cpu.ime = false) = true) ∧
    (∃ t, step (running 0x11000000) = .next t ∧ decide (t.cpu.halted = true) = true) ∧
    (∃ t, step (halted ((code []).withIc .idle 0x01 0x01 0 false)) = .next t ∧ decide (t.cpu.halted = false) = true) ∧
    (∃ t, step (running 0x12000000) = .next t ∧ decide (t.cpu.bug = true) = true) ∧
    ∃ t, step { code [] with cpu := { (code []).cpu with bug := true } } = .next t ∧ decide (t.cpu.bug = false) = true :=
  ⟨exists_of_after (by decide +kernel), exists_of_after (by decide +kernel), exists_of_after (by decide +kernel),
    exists_of_after (by decide +kernel), exists_of_after (by decide +kernel), exists_of_after (by decide +kernel)⟩

theorem test_hyp_PairStepResults :
    (mid.pairSels .sp = some (.sph, .spl) ∧ mid.hasSel .sph = true ∧ mid.hasSel .spl = true) ∧
    (boot withPair [] []).pairSels (.map 0) = some (.r 0, .r 1) ∧ (boot withPair [] []).hasSel (.r 1) = true := by
  decide +kernel

/-- The last byte register, and a byte view; a configured pair and a fixed one, of two bytes that exist and differ. -/
theorem test_hyp_SelectorViews :
    mid.hasSel (.r 1) = true ∧ mid.hasSel .pch = true ∧
      (boot withPair [] []).pairSels (.map 0) = some (.r 0, .r 1) ∧ (boot withPair [] []).hasSel (.r 0) = true ∧
      (boot withPair [] []).hasSel (.r 1) = true ∧ (Sel8.r 0 ≠ .r 1) ∧ mid.pairSels .pc = some (.pch, .pcl) ∧
      mid.hasSel .pcl = true ∧ (Sel8.pch ≠ .pcl) := by decide +kernel

/-- 00_scope.md R11 on a configured pair: the high byte comes first. -/
theorem test_pair_bytes :
    (((boot withPair [] []).writePair (.map 0) 0x12FE).cpu.r8 = [0x12, 0xFE]) ∧
      ((boot withPair [] []).writePair (.map 0) 0x12FE).readPair (.map 0) = 0x12FE := by decide +kernel

/-- `MovResult`, `AluResult`: the last byte register, and a byte view. -/
theorem test_hyp_MovResult : mid.hasSel (.r 1) = true ∧ mid.hasSel (.r 2) = false ∧ mid.hasSel .flags = true := by
  decide +kernel

theorem test_hyp_ReadResult :
    mid.hasSel (.r 1) = true ∧ mid.hasPair .w = true ∧ mid.steady (mid.readPair .w) = true ∧
      (mid.withW 0xFFFF).steady ((mid.withW 0xFFFF).readPair .w) = true := by decide +kernel

/-- RAM, ROM and an unmapped window; another RAM byte; a backed address elsewhere. -/
theorem test_hyp_WriteResult :
    (mid.withW 0xFFFF).resolve ((mid.withW 0xFFFF).readPair .w) = .ramByte 0 16383 ∧
    (mid.withW 0x1FFF).resolve ((mid.withW 0x1FFF).readPair .w) = .romByte 0 0x1FFF ∧
    ((boot Ref.cfg16 [] []).withW 0x4000).resolve 0x4000 = .none ∧
    (((5, 0) : Nat × Nat) ≠ (0, 16383)) ∧ mid.backed 0x4000 = true ∧ mid.resolve 0x4000 ≠ .ramByte 0 16383 := by
  decide +kernel

theorem test_hyp_BoardWriteConfined :
    (mid.withW 0x3FFE).resolve ((mid.withW 0x3FFE).readPair .w) = .board Ref.board ∧ mid.hasPair .w = true ∧
      mid.hasSel (.r 1) = true ∧ Ref.board.lo ≤ 0x3FFE ∧ 0x3FFE ≤ Ref.board.hi ∧
      (mid.withW 0x2000).resolve ((mid.withW 0x2000).readPair .w) = .board Ref.board := by decide +kernel

/-- A WRAM overlay (43_board.md R230, R231, R234) over the paged window: the board stores a transform of the value in the RAM bank
that PREG selects, and reads the byte back at the same address; under another bank it reads that bank's byte. -/
theorem test_board_overlay_reads_back :
    let b : BoardCfg := { Ref.board with
      lo := 0xC000, hi := 0xCFFF, read := .look .base (.atom .addr) (.lit 0)
      writes := [⟨.lit 1, .ram (.atom .addr), .op .xor (.atom .value) (.look .xt (.atom .key) (.lit 0))⟩] }
    let s := boot { Ref.cfg with board := some b } [] []
    let t := ({ s with paging := { s.paging with preg := [0x03] } } : State).remap
    (t.writeBus 0xC001 0x3C).2 = true ∧ (t.writeBus 0xC001 0x3C).1.readBus 0xC001 = 0x66 ∧
      (t.writeBus 0xC001 0x3C).1.readRam 3 1 = 0x66 ∧
      ({ (t.writeBus 0xC001 0x3C).1 with paging := { (t.writeBus 0xC001 0x3C).1.paging with preg := [0x04] } } : State).remap.readBus
        0xC001 = 0x00 := by decide +kernel

/-- The edges of the board's window. -/
theorem test_hyp_ResolveRule :
    mid.cfg.board = some Ref.board ∧ mid.resolve 0x2000 = .board Ref.board ∧ mid.resolve 0x3FFF = .board Ref.board ∧
      mid.resolve 0x1FFF = .romByte 0 0x1FFF ∧ mid.resolve 0x4000 = .ramByte 5 0 ∧ mid.resolve 0xFFFF = .ramByte 0 0x3FFF ∧
      (boot Ref.cfg16 [] []).resolve 0x2000 = .romByte 0 0x2000 := by decide +kernel

theorem test_hyp_BusReadAndWaitRule :
    mid.resolve 0x1FFF = .romByte 0 0x1FFF ∧ mid.resolve 0x8000 = .ramByte 2 0 ∧ mid.resolve 0x2000 = .board Ref.board ∧
      (boot Ref.cfg16 [] []).resolve 0xFFFF = .none ∧ mid.cfg.ct[7]? = some (.valid 2 6) ∧
      mid.cfg.ct[mid.timing.framePos]? = some .sentinel ∧ mid.paging.cont.get (win 0x8000) = false := by decide +kernel

/-- The claimants: the board, the two built-in peripherals, a device, none. -/
theorem test_hyp_PortReadResult :
    let s := boot (withDevice dev) [] []
    s.timing.framePos < s.cfg.frameCycles ∧ s.hasPair .w = true ∧ s.claimant 0x00F0 = .board ∧
      s.claimant 0x0010 = .periph 0 ∧ s.claimant 0x0011 = .periph 0 ∧ s.claimant 0x0020 = .periph 1 ∧
      Cfg.pagingReg s.cfg 0x0020 = some 0 ∧ s.claimant 0x1234 = .periph 2 ∧ s.claimant 0x1235 = .none ∧
      s.devEval (s.pstate 2) 0x1234 0 dev.readFail = 0 := by decide +kernel

/-- The claimants of `test_hyp_PortReadResult`; a device that reports no failure of this write, though it does of others. -/
theorem test_hyp_PortWriteResult :
    let d : Device := { dev with writeFail := .op .eq (.atom .value) (.lit 0xFF) }
    let s := ((boot (withDevice d) [] []).withW 0x1234).withA 0xFE
    s.timing.framePos < s.cfg.frameCycles ∧ s.claimant (s.readPair .w) = .periph 2 ∧
      s.cfg.periph[2]? = some (.device d) ∧ (s.logBus 0xFE).devEval (s.pstate 2) 0x1234 0xFE d.writeFail = 0 ∧
      (s.withW 0x00F0).claimant 0x00F0 = .board := by decide +kernel

theorem test_hyp_ObserversSeeEveryWrite :
    mid.timing.framePos < mid.cfg.frameCycles ∧ mid.units.observer.length = mid.cfg.observers.length ∧
      done (mid.portWrite 0x0020 0x13) (fun t => decide (t.ostate 0 = [1])) = true ∧
      mid.cfg.observers[0]? = some Ref.beeper ∧ done ((mid.logBus 0x13).unitWrite .none 0x1234 0x13) (fun _ => true) = true :=
  by decide +kernel

/-- A tick's end with a device whose hook records the PC and drives source 0 from `R8[0]`, and an observer that records
CYCLES; the units that have no hook. -/
theorem test_hyp_EndTickRunsHooks :
    let d : Device := { dev with
      tickActs := [⟨.lit 1, .push (.atom .pc)⟩], tickLines := [⟨0, .lit 1, .look .r8 (.lit 0) (.lit 0)⟩] }
    let o : Observer := { Ref.beeper with tickActs := [⟨.lit 1, .push (.atom .cycles)⟩] }
    let c : Cfg := { withDevice d with observers := [o] }
    let s := ((boot c [] []).withPc 0x1234).withA 0x01
    done s.endTick (fun t => decide (t.pstate 2 = [0x5A, 0x1234] ∧ t.ic.ifr = 0x01 ∧ t.ostate 0 = [1])) = true ∧
      done (s.tickPeriph 2 (.device d)) (fun _ => true) = true ∧
      (s.advance 1).cfg.periph[2]? = some (.device d) ∧ 2 < (s.advance 1).units.periph.length ∧
      (s.advance 1).cfg.observers[0]? = some o ∧ 0 < (s.advance 1).units.observer.length ∧
      (s.advance 1).cfg.periph[0]? = some .ic ∧ (s.advance 1).cfg.observers[1]? = none := by decide +kernel

/-- The lines: the last of a device's two lines wired to the last source, raised by its level or cleared, or left by a guard of
0; a hook that reports failure. -/
theorem test_hyp_EndTickRunsHooks_lines :
    let l : LineAct := ⟨1, .op .lt (.atom .framePos) (.lit 3), .look .r8 (.lit 0) (.lit 0)⟩
    let d : Device := { dev with tickLines := [⟨1, .lit 1, .lit 0⟩, l, ⟨0, .lit 1, .lit 1⟩] }
    let s := (boot (withDevice d) [] []).withA 0x01
    l.source < (s.advance 1).cfg.nIrq ∧ (s.advance 1).cfg.periph[2]? = some (.device d) ∧ 2 < (s.advance 1).units.periph.length ∧
      (∀ m ∈ [(⟨0, .lit 1, .lit 1⟩ : LineAct)], m.source ≠ l.source) ∧
      s.tickEval [] l.guard ≠ 0 ∧ (s.atFrame 3).tickEval [] l.guard = 0 ∧
      done s.endTick (fun t => decide (t.ic.ifr = 0x03)) = true ∧
      done (s.withA 0x00).endTick (fun t => decide (t.ic.ifr = 0x01)) = true ∧
      failedWith (boot (withDevice { dev with tickFail := .lit 1 }) [] []).endTick (fun e => decide (e = .step 2)) = true := by
  decide +kernel

/-- The hypothesis of the last clause: no hook of the configuration reports failure in any state. -/
theorem test_hyp_EndTickRunsHooks_completion (u : State) (d : Device) (k : Nat)
    (h : Periph.device d ∈ (boot (withDevice dev) [] []).cfg.periph) : u.tickEval (u.pstate k) d.tickFail = 0 := by
  have h' : Periph.device d ∈ [Periph.ic, .paging, .device dev] := h
  simp only [List.mem_cons, reduceCtorEq, Periph.device.injEq, List.not_mem_nil, or_false, false_or] at h'
  rw [h']
  rfl

theorem test_hyp_RefBoardRule :
    mid.cfg.board = some Ref.board ∧ mid.cfg.romBanks ≠ 0 ∧ 0x2000 ≤ (0x2000 : Addr).toNat ∧
      (0x3FFF : Addr).toNat ≤ 0x3FFF := by decide +kernel

/-- `RefOpcodeRunsItsProgram` and the statements of the REF opcodes: a state of REF at an opcode boundary. -/
theorem test_hyp_RefOpcodeRunsItsProgram :
    (code [0xC9]).IsRef ∧ (code [0xC9]).atOpcodeBoundary = true ∧ (code [0xC9]).ic.st ≠ .pending ∧
      decode (.op8 0 ((code [0xC9]).readBus 0x0000)) = some .refRet ∧ (code [0xC9]).units.observer.length = 1 ∧
      (code [0xC9]).paging.preg.length = 1 :=
  ⟨isRef_of (by decide +kernel) rfl rfl rfl (by decide +kernel), by decide +kernel, by decide +kernel, by decide +kernel,
    rfl, rfl⟩

/-- Operands of every clause of the store: a RAM address, and a backed address elsewhere. -/
theorem test_hyp_RefStoreResult :
    (code [0x00, 0x80]).resolve 0x8000 = .ramByte 2 0 ∧ (code [0x00, 0x80]).backed 0xFFFF = true ∧
      (code [0x00, 0x80]).resolve 0xFFFF ≠ (code [0x00, 0x80]).resolve 0x8000 := by decide +kernel

def entering : State :=
  { (code []).withIc .dispatching 0x03 0x03 1 false with seq := { progId := .dispatch 0, cursor := 0 } }

theorem test_hyp_InterruptEntryPushesPc :
    entering.IsRef ∧ entering.cpu.halted = false ∧ entering.cpu.ime = false ∧ entering.ic.st = .dispatching ∧
      entering.ic.src < 2 ∧ entering.stillPending = true ∧ entering.resolve (entering.cpu.sp - 1) = .ramByte 0 0x3FFF ∧
      entering.resolve (entering.cpu.sp - 2) = .ramByte 0 0x3FFE :=
  ⟨isRef_of (by decide +kernel) rfl rfl rfl (by decide +kernel), rfl, rfl, rfl, by decide +kernel, by decide +kernel,
    by decide +kernel, by decide +kernel⟩

/-- The state of `test_hyp_InterruptEntryPushesPc`, whether or not the source is pending. -/
theorem test_hyp_CancelledEntryKeepsPc :
    entering.IsRef ∧ entering.seq = { progId := .dispatch 0, cursor := 0 } ∧ entering.cpu.halted = false ∧
      entering.cpu.ime = false ∧ entering.ic.st = .dispatching ∧ entering.ic.src < 2 ∧
      entering.resolve (entering.cpu.sp - 1) = .ramByte 0 0x3FFF ∧ entering.resolve (entering.cpu.sp - 2) = .ramByte 0 0x3FFE :=
  ⟨test_hyp_InterruptEntryPushesPc.1, rfl, rfl, rfl, rfl, by decide +kernel, by decide +kernel, by decide +kernel⟩

/-- The last source; changes that are queued; one that would leave the configuration ill-formed. -/
theorem test_hyp_HostOperationResults :
    1 < mid.cfg.nIrq ∧ Change.names mid.queuedCfg (.insertPeriph 2 (.device dev)) = true ∧
      ((Change.insertPeriph 2 (.device dev)).applyCfg mid.queuedCfg).wf = true ∧
      Change.names mid.queuedCfg (.movePeriph 0 1) = true ∧
      (Change.movePeriph 0 1).applyCfg mid.queuedCfg = { mid.cfg with periph := [.paging, .ic] } ∧
      ((Change.movePeriph 0 1).applyCfg mid.queuedCfg).wf = true ∧
      Change.names mid.queuedCfg (.removePeriph 1) = true ∧ ((Change.removePeriph 1).applyCfg mid.queuedCfg).wf = false ∧
      ((Change.icPorts 0x0030 0x0031).applyCfg mid.queuedCfg).wf = true ∧
      ((Change.pagingPorts [(Ref.onPort 0x0021, 0)] true).applyCfg mid.queuedCfg).wf = true ∧
      ((Change.pagingPorts [(Ref.onPort 0x0021, 1)] true).applyCfg mid.queuedCfg).wf = false := by
  decide +kernel

/-- 44_host.md R257, 30_encoding.md R127 (check 8): equal ports are refused by name and never queued; other ports answer from the
next frame boundary on, and the old ones no more; a moved observer keeps its state. -/
theorem test_reconfigure_builtin :
    failedWith (mid.reconfigure (.icPorts 0x0030 0x0030)) (fun e => decide (e = .config .wfPorts)) = true ∧
    done (mid.reconfigure (.icPorts 0x0030 0x0031)) (fun t => decide (t.claimant 0x0010 = .periph 0 ∧
      (t.advance 1).claimant 0x0030 = .periph 0 ∧ (t.advance 1).claimant 0x0010 = .none)) = true ∧
    done (mid.reconfigure (.pagingPorts [(Ref.onPort 0x0021, 0)] true)) (fun t =>
      decide ((t.advance 1).claimant 0x0021 = .periph 1 ∧ (t.advance 1).pagingRead 0x0021 = some 0x00)) = true ∧
    (Change.moveObserver 0 1).applyUnits { periph := [], observer := [[1], [2]] } = { periph := [], observer := [[2], [1]] } := by
  decide +kernel

theorem test_hyp_SnapshotRoundTrip : mid.cfg = (mid.withSp 0x1234).cfg := rfl

theorem test_hyp_SnapshotFormat :
    mid.cfg.board.isSome = true ∧ (boot Ref.cfg16 [] []).cfg.board = none ∧
      (mid.save.drop 1).map (fun x => x.tag) ≠ sectionNames mid.cfg ∧
      sectionNames (withDevice dev) = sectionNames mid.cfg := by decide +kernel

theorem test_hyp_ConstructionEstablishesInv : ∃ s, construct Ref.cfg16 { rom := [], ram := [] } noInput = .ok s :=
  test_hyp_ConstructedState.1

/-- Every operation gives a state. -/
theorem test_hyp_HostKeepsInv :
    mid.Inv ∧ done (mid.host .reset) (fun _ => true) = true ∧ done (mid.host (.assertIrq 1)) (fun _ => true) = true ∧
      done (mid.host (.clearIrq 0)) (fun _ => true) = true ∧ done (mid.host (.setInput noInput)) (fun _ => true) = true ∧
      done (mid.host (.reconfigure (.removeObserver 0))) (fun _ => true) = true :=
  ⟨mid_inv, by decide +kernel, by decide +kernel, by decide +kernel, by decide +kernel, by decide +kernel⟩

end Sys2Proof.Tests
end

section
/-! What a whole tick can do to the mapping, ROM and the configuration (00_scope.md R8, 20_memory.md R81, 44_host.md R257), from the
laws of its retired micro-op (`Retires`) and of the end of the tick. -/

namespace Sys2Proof.Machine

/-! ### The configuration and the queue: kept, or the whole queue applied -/

/-- The queued reconfigurations all wait still, or all have been applied (44_host.md R257). -/
def State.QueueWhole (s t : State) : Prop :=
  t.cfg = s.cfg ∧ t.queue = s.queue ∨ t.cfg = s.queuedCfg ∧ t.queue = []

theorem State.queuedCfg_congr {s t : State} (hc : t.cfg = s.cfg) (hq : t.queue = s.queue) : t.queuedCfg = s.queuedCfg := by
  unfold State.queuedCfg
  rw [hc, hq]

theorem State.queuedCfg_of_queue_nil {s : State} (hq : s.queue = []) : s.queuedCfg = s.cfg := by
  unfold State.queuedCfg
  rw [hq, List.foldl_nil]

/-- Once the queue has been applied nothing is left of it to apply again. -/
theorem State.QueueWhole.trans {s t u : State} (h : s.QueueWhole t) (k : t.QueueWhole u) : s.QueueWhole u := by
  rcases h with ⟨hc, hq⟩ | ⟨hc, hq⟩ <;> rcases k with ⟨kc, kq⟩ | ⟨kc, kq⟩
  · exact .inl ⟨kc.trans hc, kq.trans hq⟩
  · exact .inr ⟨kc.trans (State.queuedCfg_congr hc hq), kq⟩
  · exact .inr ⟨kc.trans hc, kq.trans hq⟩
  · exact .inr ⟨kc.trans ((State.queuedCfg_of_queue_nil hq).trans hc), kq⟩

theorem Timed.queueWhole {s t : State} {evs : List Event} (h : Timed s t evs) : s.QueueWhole t := by
  unfold State.QueueWhole
  rw [h.cfg, h.queue]
  exact s.advance_cfg _

theorem State.endTick_queueWhole {s t : State} (h : s.endTick = .ok t) : s.QueueWhole t := by
  unfold State.QueueWhole
  rw [State.endTick_eq h]
  exact s.advance_cfg 1

/-! ### The mapping: kept, or written by the paging unit's port -/

/-- PREG, SEL, CONT and VID are kept, or the events end in an `OUT` that the paging unit claimed and RAM is kept (20_memory.md
R80, R81). -/
def State.MappedByPort (s t : State) : Prop :=
  t.paging = { s.paging with ram := t.paging.ram } ∨
    ∃ q v k, t.trace = s.trace ++ [.portW q v (.periph k)] ∧ s.cfg.periph[k]? = some .paging ∧
      t.paging.ram = s.paging.ram

theorem State.MappedByPort.endTick {s u t : State} (h : s.MappedByPort u) (hu : u.endTick = .ok t) : s.MappedByPort t := by
  unfold State.MappedByPort at *
  rw [State.endTick_paging hu, State.endTick_trace hu]
  exact h

/-! ### A halt tick (60_exceptions.md R288) -/

theorem State.haltTick_eq {s t : State} (h : s.haltTick = .next t) :
    t = { s with cpu := t.cpu, seq := t.seq, ic := t.ic, trace := t.trace } := by
  rcases State.haltTick_next h with ⟨j, -, -, rfl⟩ | ⟨-, -, rfl⟩ | ⟨-, -, rfl⟩ <;> rfl

/-! ### A whole tick -/

/-- A step was rolled back, or ended the tick of a state that a halt tick or a micro-op left; the micro-op retired in `s` but
for the sequencer's cursor. -/
theorem step_ended {s t : State} (h : step s = .next t) :
    (∃ k, t = s.raise (.step k)) ∨
      ∃ u, u.endTick = .ok t ∧ (s.haltTick = .next u ∨ ∃ q i, Retires { s with seq := q } i u) := by
  obtain ⟨-, hk | ⟨u, -, hu, ⟨-, hh⟩ | ⟨i, s0, -, -, hr, ⟨-, rfl⟩ | ⟨-, rfl⟩⟩⟩⟩ := step_retires h
  · exact .inl hk
  · exact .inr ⟨u, hu, .inl hh⟩
  · exact .inr ⟨u, hu, .inr ⟨s0.seq, i, hr⟩⟩
  · exact .inr ⟨u, hu, .inr ⟨s.bumpCursor.seq, i, hr⟩⟩

theorem step_fixed {s t : State} (h : step s = .next t) : t.cfg.fixed = s.cfg.fixed := by
  rcases step_ended h with ⟨k, rfl⟩ | ⟨u, hu, hh | ⟨q, i, hr⟩⟩
  · rfl
  · rw [State.endTick_fixed hu, State.haltTick_eq hh]
  · exact (State.endTick_fixed hu).trans hr.fixed

theorem step_mappedByPort {s t : State} (hF : s.timing.framePos < s.cfg.frameCycles) (h : step s = .next t) :
    s.MappedByPort t := by
  rcases step_ended h with ⟨k, rfl⟩ | ⟨u, hu, hh | ⟨q, i, hr⟩⟩
  · exact .inl rfl
  · have hm : s.MappedByPort u := .inl (by rw [State.haltTick_eq hh])
    exact hm.endTick hu
  · have hm : s.MappedByPort u := Retires.paging (s := { s with seq := q }) hF hr
    exact hm.endTick hu

theorem step_queueWhole {s t : State} (hF : s.timing.framePos < s.cfg.frameCycles) (h : step s = .next t) :
    s.QueueWhole t := by
  rcases step_ended h with ⟨k, rfl⟩ | ⟨u, hu, hh | ⟨q, i, hr⟩⟩
  · exact .inl ⟨rfl, rfl⟩
  · obtain ⟨evs, ht, -⟩ := State.haltTick_timed hF hh
    exact ht.queueWhole.trans (State.endTick_queueWhole hu)
  · obtain ⟨evs, ht⟩ := Retires.timed (s := { s with seq := q }) hF hr
    exact ht.ofSeq.queueWhole.trans (State.endTick_queueWhole hu)

/-- Settles O36: the micro-op or halt tick and the end of the tick each keep the fixed configuration, apply the queue whole or not
at all, and leave the mapping to the paging unit's ports; a rolled-back tick changes only FAILED. -/
theorem mappingChangesOnlyByPort : Obligations.MappingChangesOnlyByPort := by
  intro s t h
  exact ⟨step_fixed h, State.readRom_congr (step_fixed h), fun hi => step_mappedByPort hi.framePosLt h,
    fun hi => step_queueWhole hi.framePosLt h⟩

end Sys2Proof.Machine
end

section
/-! When construction refuses, and with which check (30_encoding.md R127, 44_host.md R255, R256). -/

namespace Sys2Proof.Machine

/-- The bank arrays pass their part of check 7 exactly when each has WINDOW_SIZE bytes and names a bank that exists. -/
theorem banksOk_media_iff (c : Cfg) (m : Media) :
    (banksOk c.romBanks m.rom && banksOk c.ramBanks m.ram) = true ↔
      (∀ e ∈ m.rom ++ m.ram, e.2.length = 16384) ∧ (∀ e ∈ m.rom, e.1 < c.romBanks) ∧ ∀ e ∈ m.ram, e.1 < c.ramBanks := by
  rw [Bool.and_eq_true, banksOk_iff, banksOk_iff, List.forall_mem_append, forall₂_and, forall₂_and, and_and_and_comm, and_comm]

theorem construct_of_check {c : Cfg} {m : Media} {k : Check} (x : Input)
    (h : c.checkWith (banksOk c.romBanks m.rom && banksOk c.ramBanks m.ram) = some k) :
    construct c m x = .error (.config k) := by
  unfold construct
  rw [h]

/-- What does not pass every check is refused (R127, R256). -/
theorem construct_refused {c : Cfg} {m : Media} (x : Input)
    (h : ¬(c.wf = true ∧ (banksOk c.romBanks m.rom && banksOk c.ramBanks m.ram) = true)) :
    ∃ k, construct c m x = .error (.config k) := by
  obtain ⟨k, hk⟩ := Option.ne_none_iff_exists'.mp fun hn => h ((Cfg.checkWith_eq_none c _).mp hn)
  exact ⟨k, construct_of_check x hk⟩

/-- Settles O8: `construct` answers `Cfg.checkWith` on the arrays' sizes and bank numbers, whose four cases the clauses are. -/
theorem constructionRefusesIllFormed : Obligations.ConstructionRefusesIllFormed := by
  intro c m x
  have arrays := banksOk_media_iff c m
  refine ⟨fun hbad => ?_, fun hwf hsize hname => ?_, fun hwf hsize => ?_, fun hwf hsize hname => ?_⟩
  · obtain ⟨k, hk⟩ : ∃ k, construct c m x = .error (.config k) := construct_refused x fun ⟨hwf, ha⟩ =>
      hbad.elim (fun h => Bool.false_ne_true (h.symm.trans hwf)) (fun h => h (arrays.mp ha).1)
    exact ⟨k, hk, rfl⟩
  · obtain ⟨k, hk⟩ := Cfg.check_of_not_wf hwf
    refine ⟨k, hk, construct_of_check x ?_⟩
    rw [arrays.mpr ⟨hsize, hname⟩, Cfg.checkWith_true, hk]
  · have ha := Bool.eq_false_iff.mpr fun ha => hsize (arrays.mp ha).1
    exact construct_of_check x (by rw [ha, Cfg.checkWith_false hwf])
  · obtain ⟨hr, hm⟩ := Bool.and_eq_true_iff.mp (arrays.mpr ⟨hsize, hname⟩)
    exact ⟨_, construct_of_good x hwf hr hm⟩

end Sys2Proof.Machine
end

section
/-! The bytes that selectors name (00_scope.md R11, 30_encoding.md R114, R115). -/

namespace Sys2Proof.Machine

/-- A register selector that exists names its entry of R8 (R114). -/
theorem State.r8_readSel {s : State} {i : BitVec 7} (h : s.hasSel (.r i) = true) :
    s.cpu.r8[i.toNat]? = some (s.readSel (.r i)) := by
  have hi : i.toNat < s.cpu.r8.length := by simpa [State.hasSel] using h
  simp [State.readSel, Cpu.readSel, hi]

theorem State.writePair_of_sels {s : State} {p : PairSel} {hi lo : Sel8} (h : s.pairSels p = some (hi, lo)) (v : Addr) :
    s.writePair p v = (s.writeSel hi (hi8 v)).writeSel lo (lo8 v) := by
  unfold State.writePair
  rw [h]

theorem State.readSel_writeSel_other (s : State) {d x : Sel8} (v : Byte) (h : x ≠ d) :
    (s.writeSel d v).readSel x = s.readSel x := Cpu.readSel_writeSel_other s.cpu d x v h

/-- Writing a pair gives its first half the high byte: the low one, written last, is another register (R11). -/
theorem State.readSel_hi_writePair {s : State} {p : PairSel} {hi lo : Sel8} (h : s.pairSels p = some (hi, lo)) (hne : hi ≠ lo)
    (hh : s.hasSel hi = true) (v : Addr) : (s.writePair p v).readSel hi = hi8 v := by
  rw [State.writePair_of_sels h, State.readSel_writeSel_other _ _ hne, State.readSel_writeSel_same _ hh]

theorem State.readSel_lo_writePair {s : State} {p : PairSel} {hi lo : Sel8} (h : s.pairSels p = some (hi, lo))
    (hl : s.hasSel lo = true) (v : Addr) : (s.writePair p v).readSel lo = lo8 v := by
  rw [State.writePair_of_sels h, State.readSel_writeSel_same _ (by simpa using hl)]

/-- Settles O29: the named bytes are the definitions' own, and what a write gives and leaves are the laws of byte registers, used
twice for a pair. -/
theorem selectorViews : Obligations.SelectorViews := by
  refine ⟨fun s => ?_, fun s d v hd => ?_, fun s i hi => s.r8_readSel hi, fun s => ?_, fun s p hi lo hp => ?_⟩
  · exact ⟨rfl, rfl, rfl, rfl, rfl, rfl, rfl, rfl, s.readPair_pc, s.readPair_sp, s.readPair_w⟩
  · exact ⟨State.readSel_writeSel_same v hd, s.cpu.writeSel_sameBut d v⟩
  · exact ⟨rfl, rfl, rfl, fun _ => rfl⟩
  · refine ⟨State.readPair_eq hp, fun v hh hl hne => ?_⟩
    exact ⟨State.readSel_hi_writePair hp hne hh v, State.readSel_lo_writePair hp hl v, State.readPair_writePair hp hne hh hl v,
      State.writePair_eq s p v, State.writePair_sameBut hp v⟩

end Sys2Proof.Machine
end

section
/-! The time of a tick (40_microops.md R142, 10_state.md R47): the waits its events record, and the one cycle of its end. -/

namespace Sys2Proof.Machine

/-- A step and its time, said once: it was rolled back, or a timed change of the state was followed by the end of the tick. -/
theorem step_timed {s t : State} (hF : s.timing.framePos < s.cfg.frameCycles) (h : step s = .next t) :
    (∃ k, t = s.raise (.step k)) ∨ ∃ u evs, Timed s u evs ∧ u.endTick = .ok t := by
  rcases step_ended h with hk | ⟨u, hu, hh | ⟨q, i, hr⟩⟩
  · exact .inl hk
  · obtain ⟨evs, ht, -⟩ := State.haltTick_timed hF hh
    exact .inr ⟨u, evs, ht, hu⟩
  · obtain ⟨evs, ht⟩ := Retires.timed (s := { s with seq := q }) hF hr
    exact .inr ⟨u, evs, ht.ofSeq, hu⟩

/-- The wraps of a wait and of a second one that begins where it ended are the wraps of the two as one wait (10_state.md R47). -/
theorem div_add_mod_add_div {f : Nat} (hf : 0 < f) (m n : Nat) : m / f + (m % f + n) / f = (m + n) / f := by
  rw [← Nat.mul_add_div hf, ← Nat.add_assoc, Nat.div_add_mod]

/-- The end of a tick adds its one cycle to the waits before it (40_microops.md R142). -/
theorem Timed.endTick_timing {s u t : State} {evs : List Event} (hF : s.timing.framePos < s.cfg.frameCycles)
    (h : Timed s u evs) (hu : u.endTick = .ok t) :
    t.timing.cycles = (s.advance (waits evs + 1)).timing.cycles ∧
      t.timing.framePos = (s.advance (waits evs + 1)).timing.framePos ∧
      t.timing.frame = (s.advance (waits evs + 1)).timing.frame := by
  have hf : u.cfg.frameCycles = s.cfg.frameCycles := Cfg.frameCycles_of_fixed (by rw [h.cfg, State.advance_fixed])
  simp only [State.endTick_timing hu, State.advance_timing, h.cycles, h.framePos, h.frame, hf, BitVec.add_assoc,
    ← BitVec.ofNat_add, ← Nat.add_assoc, Nat.mod_add_mod, div_add_mod_add_div (Nat.zero_lt_of_lt hF), and_self]

/-- Settles O15: the tick's micro-op waits as its events record (`Timed`), and the end of the tick adds one cycle. -/
theorem tickTime : Obligations.TickTime := by
  intro s t hi h hf
  rcases step_timed hi.framePosLt h with ⟨k, rfl⟩ | ⟨u, evs, ht, hu⟩
  · cases hf
  · obtain ⟨hc, hp, hn⟩ := ht.endTick_timing hi.framePosLt hu
    rw [State.advance_timing, Nat.add_comm] at hc hp hn
    exact ⟨evs, (State.endTick_trace hu).trans ht.trace, hc, hp, hn⟩

end Sys2Proof.Machine
end

section
/-! The control bits IME, HALTED and BUG over a whole tick (10_state.md R28 to R30, 60_exceptions.md R288). -/

namespace Sys2Proof.Machine

/-- What a halt tick does to IME, HALTED and BUG (60_exceptions.md R288). -/
theorem State.haltTick_control {s t : State} (h : s.haltTick = .next t) :
    (t.cpu.ime = s.cpu.ime ∨ t.cpu.ime = false ∧ ∃ j, t.trace = s.trace ++ [.splice j]) ∧
      (t.cpu.halted = s.cpu.halted ∨ t.cpu.halted = false ∧ (s.requests ≠ 0 ∨ s.ic.st = .pending)) ∧
      t.cpu.bug = s.cpu.bug := by
  rcases State.haltTick_next h with ⟨j, hp, -, rfl⟩ | ⟨-, hq, rfl⟩ | ⟨-, -, rfl⟩
  · exact ⟨.inr ⟨rfl, j, rfl⟩, .inr ⟨rfl, .inr hp⟩, rfl⟩
  · exact ⟨.inl rfl, .inr ⟨rfl, .inl hq⟩, rfl⟩
  · exact ⟨.inl rfl, .inl rfl, rfl⟩

/-- A control bit goes from `b` to `b'`: kept, set for the reason `P`, or cleared for the reason `Q`. -/
def BitMoves (b b' : Bool) (P Q : Prop) : Prop := b' = b ∨ (P ∧ b' = true) ∨ (b' = false ∧ Q)

theorem BitMoves.reasons {b b' : Bool} {P Q : Prop} (h : BitMoves b b' P Q) :
    (b = false → b' = true → P) ∧ (b = true → b' = false → Q) := by
  rcases h with rfl | ⟨hp, rfl⟩ | ⟨rfl, hq⟩
  · cases b' <;> simp
  · exact ⟨fun _ _ => hp, by simp⟩
  · exact ⟨by simp, fun _ _ => hq⟩

/-- What a step does to IME, HALTED and BUG: the end of a tick leaves the CPU and the trace, so a bit moves in the halt tick or in
the micro-op retired. -/
theorem step_control {s t : State} (h : step s = .next t) :
    BitMoves s.cpu.ime t.cpu.ime (s.retiring = some .ei) (s.retiring = some .di ∨ ∃ j, t.trace = s.trace ++ [.splice j]) ∧
      BitMoves s.cpu.halted t.cpu.halted (s.retiring = some .halt) (s.requests ≠ 0 ∨ s.ic.st = .pending) ∧
      BitMoves s.cpu.bug t.cpu.bug (s.retiring = some .setbug)
        (s.retiring = some .fetch ∨ ∃ u, s.retiring = some (.fetchx u)) := by
  obtain ⟨-, ⟨k, rfl⟩ | ⟨u, -, hu, ⟨-, ht⟩ | ⟨i, s0, -, hi, hr, hs⟩⟩⟩ := step_retires h
  · exact ⟨.inl rfl, .inl rfl, .inl rfl⟩
  · obtain ⟨hime, hhalted, hbug⟩ := State.haltTick_control ht
    rw [State.endTick_cpu hu, State.endTick_trace hu]
    exact ⟨hime.imp_right fun e => .inr (e.imp_right .inr), hhalted.imp_right .inr, .inl hbug⟩
  · obtain ⟨hime, hhalted, hbug⟩ := hr.control
    have hc : s0.cpu = s.cpu := by rcases hs with ⟨-, rfl⟩ | ⟨-, rfl⟩ <;> rfl
    have ht : s0.trace = s.trace := by rcases hs with ⟨-, rfl⟩ | ⟨-, rfl⟩ <;> rfl
    rw [hc] at hime hhalted hbug
    rw [ht] at hime
    rw [State.endTick_cpu hu, State.endTick_trace hu, hi]
    simp only [Option.some.injEq]
    exact ⟨hime, hhalted.imp_right .inl, hbug.imp_right (.imp_right And.symm)⟩

/-- Settles O25: a bit that changed was moved for one of the reasons of `step_control`. -/
theorem controlBitsChangeOnlyBy : Obligations.ControlBitsChangeOnlyBy := by
  intro s t h
  obtain ⟨hime, hhalted, hbug⟩ := step_control h
  exact ⟨hime.reasons.1, hime.reasons.2, hhalted.reasons.1, hhalted.reasons.2, hbug.reasons⟩

end Sys2Proof.Machine
end

section
/-! `advance(n)` as the loop of 10_state.md R47, and the frame boundary whole (44_host.md R258). -/

namespace Sys2Proof.Machine

theorem State.applyChanges_eq (l : List Change) (s : State) :
    l.foldl State.applyChange s =
      { s with cfg := l.foldl Change.applyCfg s.cfg, units := l.foldl Change.applyUnits s.units } := by
  induction l generalizing s with
  | nil => rfl
  | cons ch l ih => rw [List.foldl_cons, ih]; rfl

/-- What a frame boundary changes, whole (44_host.md R258). -/
theorem State.frameBoundary_eq (s : State) :
    s.frameBoundary =
      { s with
        input := { cur := s.input.next, next := s.input.next }
        queue := []
        cfg := s.queue.foldl Change.applyCfg s.cfg
        units := s.queue.foldl Change.applyUnits s.units } :=
  State.applyChanges_eq s.queue _

/-- Short of the frame's end time is an addition (10_state.md R47). -/
theorem State.advance_of_lt {s : State} {n : Nat} (h : s.timing.framePos + n < s.cfg.frameCycles) :
    s.advance n =
      { s with timing :=
          { s.timing with cycles := s.timing.cycles + BitVec.ofNat 64 n, framePos := s.timing.framePos + n } } := by
  simp only [State.advance, Nat.div_eq_of_lt h, Nat.mod_eq_of_lt h, State.wraps]

/-- The state at the frame's end, its frame counted, before the frame boundary (R47). -/
def State.endFrame (s : State) : State :=
  { s with timing :=
      { s.timing with
        cycles := s.timing.cycles + BitVec.ofNat 64 (s.cfg.frameCycles - s.timing.framePos)
        framePos := 0
        frame := s.timing.frame + 1 } }

/-- One turn of the loop of R47: the first wrap leaves the rest of the wait to be made. -/
theorem State.advance_of_wrap {s : State} {n : Nat} (hF : s.timing.framePos < s.cfg.frameCycles)
    (h : s.cfg.frameCycles ≤ s.timing.framePos + n) :
    s.advance n = s.endFrame.frameBoundary.advance (n - (s.cfg.frameCycles - s.timing.framePos)) := by
  obtain ⟨m, rfl⟩ : ∃ m, n = s.cfg.frameCycles - s.timing.framePos + m := Nat.exists_eq_add_of_le (by omega)
  have hsum : s.timing.framePos + (s.cfg.frameCycles - s.timing.framePos + m) = m + s.cfg.frameCycles := by omega
  have hfix : s.endFrame.frameBoundary.cfg.frameCycles = s.cfg.frameCycles :=
    Cfg.frameCycles_of_fixed (State.frameBoundary_fixed _)
  simp only [State.advance, hfix, hsum, Nat.add_sub_cancel_left, Nat.add_div_right m (Nat.zero_lt_of_lt hF), Nat.add_mod_right]
  simp only [State.wraps, State.frameBoundary_eq, State.endFrame, Nat.zero_add, BitVec.ofNat_add, BitVec.add_assoc]

/-- Settles O17: the two branches of the loop and the frame boundary are the three lemmas above. -/
theorem advanceLoopAndFrameBoundary : Obligations.AdvanceLoopAndFrameBoundary :=
  ⟨fun _ _ hF => ⟨State.advance_of_lt, State.advance_of_wrap hF⟩, State.frameBoundary_eq⟩

end Sys2Proof.Machine
end

section
/-! The section names of a snapshot, and what Restore refuses (10_state.md R54, 44_host.md R261). -/

namespace Sys2Proof.Machine

theorem State.save_tags (s : State) : s.save.map (fun x => x.tag) = sectionNames s.cfg := by
  simp [State.save, Function.comp_def]

theorem checkTags_self (src : Snapshot) : checkTags (src.map fun x => x.tag) src = none := by
  induction src with
  | nil => rfl
  | cons x src ih => simp [checkTags, ih]

/-- Other names than those expected are refused at the first difference (44_host.md R261). -/
theorem checkTags_of_ne {l : List Tag} {src : Snapshot} (h : src.map (fun x => x.tag) ≠ l) :
    ∃ e f, checkTags l src = some (.snapFormat e f) ∧ e ≠ f := by
  induction l generalizing src with
  | nil =>
    cases src with
    | nil => exact absurd rfl h
    | cons x src => exact ⟨_, _, rfl, by simp⟩
  | cons t l ih =>
    cases src with
    | nil => exact ⟨_, _, rfl, by simp⟩
    | cons x src =>
      by_cases hx : x.tag = t
      · obtain ⟨e, f, hef⟩ := ih (src := src) (by simpa [hx] using h)
        exact ⟨e, f, by simpa [checkTags, hx] using hef⟩
      · exact ⟨_, _, if_neg hx, by simpa using Ne.symm hx⟩

theorem restore_of_names {s : State} {src : Snapshot} (h : src.map (fun x => x.tag) = sectionNames s.cfg) {d : U64}
    (hd : readSection src .cfg Codec.u64 = .ok d) :
    s.restore src =
      if d = Config.digest s.cfg then s.readFields src else .error (.snapMismatch (Config.digest s.cfg) d) := by
  unfold State.restore
  rw [← h, checkTags_self, hd]

/-- Settles O55: `Save` writes the sections by their names, and `Restore` compares names, then digests. -/
theorem snapshotFormat : Obligations.SnapshotFormat := by
  refine ⟨fun s => ⟨fun hb => ?_, fun hb => ?_⟩, fun s src h => ?_, fun s t h => ?_⟩
  · rw [State.save_tags, sectionNames, if_pos hb]; rfl
  · rw [State.save_tags, sectionNames, if_neg (by simp [hb])]; rfl
  · obtain ⟨e, f, he, hne⟩ := checkTags_of_ne h
    exact ⟨e, f, by rw [State.restore, he], hne⟩
  · exact restore_of_names (t.save_tags.trans h)
      (readSection_save Codec.lawful_u64 t rfl (by simp [sectionNames]))

end Sys2Proof.Machine
end

section
/-! The invariant's first part over a whole tick: the configuration with its queue, time and the bus log, the number of units
(10_state.md R42, R45, R48, 44_host.md R257). -/

namespace Sys2Proof.Machine

/-! ### Addresses below a bound -/

theorem Memory.below_iff (n : Nat) (m : Memory) : Memory.below n m = true ↔ ∀ c ∈ m, c.1 < n := by simp [Memory.below]

theorem Memory.below_write {n a : Nat} {m : Memory} (d v : Byte) (ha : a < n) (h : Memory.below n m = true) :
    Memory.below n (Memory.write d m a v) = true := by
  rw [Memory.below_iff] at *
  have he : ∀ c ∈ Memory.erase m a, c.1 < n := fun c hc => h c (List.mem_of_mem_filter hc)
  unfold Memory.write
  split
  · exact he
  · intro c hc
    rcases Memory.mem_insert a v _ c hc with rfl | hc
    · exact ha
    · exact he c hc

/-! ### Configuration, time and units -/

/-- What holds of the configuration and its queue, of time and the bus log, and of the number of units. -/
def State.Clocked (s : State) : Prop :=
  (s.cfg.wf = true ∧ s.queuedCfg.wf = true) ∧ s.timing.framePos < s.cfg.frameCycles ∧
    (Memory.wf BusLog.unlisted s.timing.buslog = true ∧ Memory.below s.cfg.frameCycles s.timing.buslog = true) ∧ s.UnitsMatch

theorem State.Clocked.advance {s : State} (h : s.Clocked) (n : Nat) : (s.advance n).Clocked := by
  obtain ⟨⟨hc, hq⟩, hF, hlog, hu⟩ := h
  refine ⟨State.advance_wf n hc hq, ?_, ?_, s.advance_unitsMatch n hu⟩
  · rw [State.advance_timing, Cfg.frameCycles_of_fixed (s.advance_fixed n)]
    exact Nat.mod_lt _ (Nat.zero_lt_of_lt hF)
  · rw [State.advance_buslog, Cfg.frameCycles_of_fixed (s.advance_fixed n)]
    exact hlog

theorem Timed.clocked {s t : State} {evs : List Event} (h : Timed s t evs) (hs : s.Clocked) : t.Clocked := by
  obtain ⟨-, hF, -, hp, ho⟩ := hs.advance (waits evs)
  obtain ⟨⟨hc, hq⟩, -, ⟨hwf, hbelow⟩, -⟩ := hs
  have hlt : t.timing.framePos < t.cfg.frameCycles := by rw [h.framePos, h.cfg]; exact hF
  have hf : t.cfg.frameCycles = s.cfg.frameCycles := by rw [h.cfg, Cfg.frameCycles_of_fixed (s.advance_fixed _)]
  refine ⟨h.wf hc hq, hlt, ?_, ?_⟩
  · rcases h.buslog with e | ⟨v, e⟩ <;> rw [e, hf]
    · exact ⟨hwf, hbelow⟩
    · exact ⟨Memory.wf_write _ _ _ _ hwf, Memory.below_write _ _ (hf ▸ hlt) hbelow⟩
  · rw [State.UnitsMatch, h.unitsP, h.unitsO, h.cfg]
    exact ⟨hp, ho⟩

theorem State.endTick_unit_lengths {s t : State} (h : s.endTick = .ok t) :
    t.units.periph.length = (s.advance 1).units.periph.length ∧
      t.units.observer.length = (s.advance 1).units.observer.length := by
  obtain ⟨u, hu, rfl⟩ := State.endTick_ok h
  obtain ⟨e, hp⟩ := State.tickPeriphs_eq _ hu
  obtain ⟨e', ho⟩ := State.tickObservers_eq u.cfg.observers u 0
  rw [State.icUpdate_eq]
  refine ⟨?_, ho.trans (by rw [e])⟩
  rw [e']
  exact hp

theorem State.Clocked.endTick {s t : State} (hs : s.Clocked) (h : s.endTick = .ok t) : t.Clocked := by
  obtain ⟨hwf, hF, hlog, hp, ho⟩ := hs.advance 1
  obtain ⟨lp, lo⟩ := State.endTick_unit_lengths h
  have hu : t.UnitsMatch := by
    rw [State.UnitsMatch, lp, lo, State.endTick_eq h]
    exact ⟨hp, ho⟩
  refine ⟨?_, ?_, ?_, hu⟩ <;> rw [State.endTick_eq h]
  · exact hwf
  · exact hF
  · exact hlog

theorem step_clocked {s t : State} (hs : s.Clocked) (h : step s = .next t) : t.Clocked := by
  have ⟨_, hF, _, _⟩ := hs
  rcases step_timed hF h with ⟨k, rfl⟩ | ⟨u, evs, ht, hu⟩
  · exact hs
  · exact (ht.clocked hs).endTick hu

end Sys2Proof.Machine
end

section
/-! The invariant's second part over a whole tick: the paging unit with RAM, the interrupt controller, the byte registers
(10_state.md R21, R35 to R40, 20_memory.md R81). -/

namespace Sys2Proof

/-! ### What the configuration's functions and words give -/

/-- A window that `PAGING.update` maps to RAM has a bank that exists (20_memory.md R82). -/
theorem WindowFn.eval_ram {c : Cfg} {preg : List Byte} {f : WindowFn} {n : Nat} (h : (f.eval c preg).1 = .ram n) :
    n < c.ramBanks := by
  simp only [WindowFn.eval, reduceBank] at h
  split at h
  · split at h <;> cases h
  · split at h
    · cases h
    · next hb => cases h; exact Nat.mod_lt _ (Nat.pos_of_ne_zero hb)
  · cases h

theorem Quad.get_map {α β : Type} (f : α → β) (q : Quad α) (w : Nat) : (q.map f).get w = f (q.get w) := by
  unfold Quad.get
  split <;> rfl

theorem Quad.get_ofList {α : Type} (d : α) (l : List α) (w : Nat) :
    (Quad.ofList d l).get w = d ∨ (Quad.ofList d l).get w ∈ l := by
  have key : ∀ k, l.getD k d = d ∨ l.getD k d ∈ l := fun k => by
    cases h : l[k]? with
    | none => simp [List.getD_eq_getElem?_getD, h]
    | some x => simp [List.getD_eq_getElem?_getD, h, List.mem_of_getElem? h]
  unfold Quad.get
  split <;> exact key _

theorem Cfg.and_irqMask_eq_iff (c : Cfg) (v : Byte) : v &&& c.irqMask = v ↔ ∀ j, c.nIrq ≤ j → v.getLsbD j = false := by
  have mask : ∀ j, (v &&& c.irqMask).getLsbD j = (v.getLsbD j && decide (j < c.nIrq)) := fun j => by
    by_cases hj : j < 8
    · rw [BitVec.getLsbD_and, Cfg.irqMask, BitVec.getLsbD_ofNat, Nat.testBit_two_pow_sub_one, decide_eq_true hj, Bool.true_and]
    · simp [BitVec.getLsbD_of_ge _ _ (Nat.le_of_not_lt hj)]
  refine ⟨fun h j hj => ?_, fun h => BitVec.eq_of_getLsbD_eq fun j _ => ?_⟩
  · rw [← h, mask, decide_eq_false (Nat.not_lt.mpr hj), Bool.and_false]
  · by_cases hj : j < c.nIrq
    · rw [mask, decide_eq_true hj, Bool.and_true]
    · rw [mask, h j (Nat.le_of_not_lt hj), Bool.false_and]

end Sys2Proof

namespace Sys2Proof.Machine

/-! ### The paging unit -/

/-- What holds of the paging unit: its registers, the mapping they give, and RAM. -/
def State.Paged (s : State) : Prop :=
  s.paging.preg.length = s.cfg.paging.nRegs ∧ s.mapped ∧ Memory.wf Memory.unlisted s.paging.ram = true ∧
    Memory.below (s.cfg.ramBanks * windowSize) s.paging.ram = true

theorem State.remap_congr {s t : State} (hp : t.paging.preg = s.paging.preg) (hr : t.paging.ram = s.paging.ram)
    (hc : t.cfg.fixed = s.cfg.fixed) : t.remap.paging = s.remap.paging := by
  unfold State.remap
  simp only [hp, hr, Cfg.pagingUpdate_of_fixed hc]

theorem State.mapped_iff (s : State) : s.mapped ↔ s.remap.paging = s.paging := by
  refine ⟨fun h => by rw [h], fun h => ?_⟩
  have e : s.remap = { s with paging := s.remap.paging } := rfl
  rw [State.mapped, e, h]

theorem State.Paged.congr {s t : State} (h : s.Paged) (hp : t.paging = s.paging) (hc : t.cfg.fixed = s.cfg.fixed) :
    t.Paged := by
  obtain ⟨hreg, hmap, hram⟩ := h
  rw [State.mapped_iff] at hmap
  refine ⟨?_, (State.mapped_iff t).mpr ?_, ?_⟩
  · rw [hp, Cfg.nRegs_of_fixed hc, hreg]
  · rw [State.remap_congr (by rw [hp]) (by rw [hp]) hc, hmap, hp]
  · rw [hp, Cfg.ramBanks_of_fixed hc]
    exact hram

theorem State.bank_lt_of_mapped {s : State} (hm : s.mapped) {w n : Nat} (h : s.paging.sel.get w = .ram n) :
    n < s.cfg.ramBanks := by
  rw [State.mapped_iff] at hm
  rw [← hm] at h
  simp only [State.remap, Quad.get_map, Cfg.pagingUpdate] at h
  rcases Quad.get_ofList (Sel.unmapped, false, false) (s.cfg.paging.update.map (WindowFn.eval s.cfg s.paging.preg)) w with e | e
  · rw [e] at h; cases h
  · obtain ⟨f, -, hf⟩ := List.mem_map.mp e
    rw [← hf] at h
    exact WindowFn.eval_ram h

theorem bankKey_lt {n o banks : Nat} (hn : n < banks) (ho : o < windowSize) : bankKey n o < banks * windowSize := by
  unfold bankKey windowSize at *
  omega

/-- RAM answers an address with a byte of its banks (10_state.md R40). -/
theorem State.bankKey_base_lt {s : State} (hm : s.mapped) {a : Addr} {n o : Nat} (h : s.base a = .ramByte n o) :
    bankKey n o < s.cfg.ramBanks * windowSize := by
  rw [State.base_offset h]
  refine bankKey_lt ?_ (off_lt a)
  unfold State.base at h
  split at h
  · cases h
  · next e => cases h; exact State.bank_lt_of_mapped hm e
  · cases h

theorem State.Paged.writeRam {s : State} (h : s.Paged) {a : Addr} {n o : Nat} (hb : s.base a = .ramByte n o) (v : Byte) :
    (s.writeRam n o v).Paged := by
  obtain ⟨hreg, hmap, hwf, hbelow⟩ := h
  have hkey := State.bankKey_base_lt hmap hb
  refine ⟨hreg, ?_, Memory.wf_write _ _ _ _ hwf, Memory.below_write _ _ hkey hbelow⟩
  have e : (s.writeRam n o v).remap = s.remap.writeRam n o v := rfl
  rw [State.mapped, e, hmap]

theorem State.Paged.boardAct {s : State} (h : s.Paged) (b : BoardCfg) (x y : Nat) (t : BoardAct) :
    (s.boardAct b x y t).Paged := by
  unfold State.boardAct State.boardRamWrite
  dsimp only
  split
  · exact h
  · split
    · exact h.congr rfl rfl
    · exact h.congr rfl rfl
    · exact h.congr rfl rfl
    · split
      · next hw =>
        obtain ⟨-, -, hb⟩ := State.boardRamAt_some hw
        exact h.writeRam hb _
      · exact h

theorem State.Paged.boardActs {s : State} (h : s.Paged) (b : BoardCfg) (x y : Nat) (l : List BoardAct) :
    (s.boardActs b x y l).Paged := by
  unfold State.boardActs
  induction l generalizing s with
  | nil => exact h
  | cons t l ih => exact ih (h.boardAct b x y t)

theorem State.base_of_resolve_ram {s : State} {a : Addr} {n o : Nat} (h : s.resolve a = .ramByte n o) :
    s.base a = .ramByte n o := by
  unfold State.resolve at h
  split at h
  · cases h
  · exact h

theorem State.Paged.writeBus {s : State} (h : s.Paged) (a : Addr) (v : Byte) : (s.writeBus a v).1.Paged := by
  cases e : s.resolve a with
  | board b => simp only [State.writeBus, e]; exact h.boardActs b _ _ _
  | romByte n o => rw [State.writeBus_discarded (.inr ⟨n, o, e⟩)]; exact h
  | ramByte n o => rw [State.writeBus_ram e]; exact (h.writeRam (State.base_of_resolve_ram e) v).congr rfl rfl
  | none => rw [State.writeBus_discarded (.inl e)]; exact h

theorem State.Paged.pagingWrite {s : State} (h : s.Paged) (q : Addr) (v : Byte) : (s.pagingWrite q v).Paged := by
  unfold State.pagingWrite
  split
  · obtain ⟨hreg, -, hram⟩ := h
    exact ⟨by simpa [State.remap] using hreg, rfl, hram⟩
  · exact h

/-! ### The interrupt controller -/

/-- What holds of the interrupt controller: no bit of IF or IE and no IC_SRC beyond the implemented sources. -/
def State.SourcesOk (s : State) : Prop :=
  s.ic.ifr &&& s.cfg.irqMask = s.ic.ifr ∧ s.ic.ier &&& s.cfg.irqMask = s.ic.ier ∧ s.ic.src < s.cfg.nIrq

theorem State.SourcesOk.congr {s t : State} (h : s.SourcesOk) (hi : t.ic = s.ic) (hc : t.cfg.fixed = s.cfg.fixed) :
    t.SourcesOk := by
  unfold State.SourcesOk
  rw [hi, Cfg.irqMask_of_fixed hc, Cfg.nIrq_of_fixed hc]
  exact h

theorem State.SourcesOk.acknowledge {s : State} (h : s.SourcesOk) (v : Addr) : (s.acknowledge v).SourcesOk := by
  obtain ⟨hif, hie, hsrc⟩ := h
  refine ⟨?_, hie, hsrc⟩
  rw [Cfg.and_irqMask_eq_iff] at hif ⊢
  exact fun j hj => (getLsbD_clearBit _ _ _).trans (by rw [hif j hj, Bool.false_and])

theorem State.SourcesOk.enter {s : State} (h : s.SourcesOk) {j : Nat} (hj : s.winner = some j) : (s.enter j).SourcesOk := by
  obtain ⟨hif, hie, -⟩ := h
  obtain ⟨hlt, -⟩ := (s.winner_iff j).mp hj
  exact ⟨hif, hie, hlt⟩

theorem State.SourcesOk.icWrite {s : State} (h : s.SourcesOk) (q : Addr) (v : Byte) : (s.icWrite q v).SourcesOk := by
  obtain ⟨hif, hie, hsrc⟩ := h
  have hv : v &&& s.cfg.irqMask &&& s.cfg.irqMask = v &&& s.cfg.irqMask := by rw [BitVec.and_assoc, BitVec.and_self]
  unfold State.icWrite
  split
  · exact ⟨hif, hv, hsrc⟩
  · exact ⟨hv, hie, hsrc⟩

theorem State.endTick_ifr {s t : State} (h : s.endTick = .ok t) (j : Nat) (hj : s.cfg.nIrq ≤ j) :
    t.ic.ifr.getLsbD j = s.ic.ifr.getLsbD j := by
  obtain ⟨u, hu, rfl⟩ := State.endTick_ok h
  obtain ⟨-, -, -, hbits⟩ := State.tickPeriphs_pstate _ hu
  rw [State.icUpdate_eq, (State.tickObservers_eq _ _ _).1]
  exact (hbits j (.inr (by rwa [Cfg.nIrq_of_fixed (s.advance_fixed 1)]))).trans (by rw [State.advance_ic])

theorem State.SourcesOk.endTick {s t : State} (hs : s.SourcesOk) (h : s.endTick = .ok t) : t.SourcesOk := by
  obtain ⟨hif, hie, hsrc⟩ := hs
  have e : t.ic = { s.ic with st := t.ic.st, ifr := t.ic.ifr } := by rw [State.endTick_eq h]
  unfold State.SourcesOk
  rw [Cfg.irqMask_of_fixed (State.endTick_fixed h), Cfg.nIrq_of_fixed (State.endTick_fixed h)]
  refine ⟨?_, by rw [e]; exact hie, by rw [e]; exact hsrc⟩
  rw [Cfg.and_irqMask_eq_iff] at hif ⊢
  exact fun j hj => (State.endTick_ifr h j hj).trans (hif j hj)

/-! ### The registers together -/

/-- What holds of the registers and of RAM: the paging unit, the interrupt controller, and N_REG8 byte registers. -/
def State.RegistersOk (s : State) : Prop := s.Paged ∧ s.SourcesOk ∧ s.cpu.r8.length = s.cfg.nReg8

theorem State.RegistersOk.congr {s t : State} (h : s.RegistersOk) (hp : t.paging = s.paging) (hi : t.ic = s.ic)
    (hr : t.cpu.r8.length = s.cpu.r8.length) (hc : t.cfg.fixed = s.cfg.fixed) : t.RegistersOk := by
  obtain ⟨hpaged, hsources, hlen⟩ := h
  exact ⟨hpaged.congr hp hc, hsources.congr hi hc, by rw [hr, hlen, Cfg.nReg8, Cfg.nReg8, Cfg.resetR8_of_fixed hc]⟩

theorem State.RegistersOk.writeBus {s : State} (h : s.RegistersOk) (a : Addr) (v : Byte) : (s.writeBus a v).1.RegistersOk := by
  obtain ⟨hp, hi, hr⟩ := h
  exact ⟨hp.writeBus a v, hi.congr (by simp) (by simp), by simpa using hr⟩

theorem State.RegistersOk.unitWrite {s t : State} (hs : s.RegistersOk) {c : Claimant} {q : Addr} {v : Byte}
    (h : s.unitWrite c q v = .ok t) : t.RegistersOk := by
  have ⟨hp, hi, hr⟩ := hs
  unfold State.unitWrite at h
  split at h
  · cases h; exact hs
  · split at h
    · next b _ => cases h; exact ⟨hp.boardActs b _ _ _, hi.congr (by simp) (by simp), by simpa using hr⟩
    · cases h; exact hs
  · split at h
    · cases h
      exact ⟨hp.congr (by simp) (by simp), hi.icWrite q v, by simpa using hr⟩
    · cases h
      exact ⟨hp.pagingWrite q v, hi.congr (by simp) (by simp), by simpa using hr⟩
    · dsimp only at h
      split at h
      · cases h
      · cases h; exact hs.congr rfl rfl rfl rfl
    · cases h; exact hs

theorem State.RegistersOk.portWrite {s t : State} (hs : s.RegistersOk) {q : Addr} {v : Byte} (h : s.portWrite q v = .ok t) :
    t.RegistersOk := by
  obtain ⟨u, w, hu, rfl, rfl⟩ := State.portWrite_ok h
  have hok : u.RegistersOk := State.RegistersOk.unitWrite (hs.congr (by simp) (by simp) (by simp) (by simp)) hu
  rw [(State.observe_eq _ _ _ _ _).1]
  exact hok.congr rfl rfl rfl rfl

theorem State.RegistersOk.portRead {s : State} (hs : s.RegistersOk) {q : Addr} {r : State × Byte} (h : s.portRead q = .ok r) :
    r.1.RegistersOk := by
  obtain ⟨x, hx, -, e⟩ := State.portRead_ok h
  rw [e, State.unitRead_eq hx]
  exact hs.congr (by simp) (by simp) (by simp) (by simp)

theorem Retires.registersOk {s t : State} {i : Instr} (h : Retires s i t) (hs : s.RegistersOk) : t.RegistersOk := by
  have ⟨hp, hi, hr⟩ := hs
  cases h
  case splice j _ hj => exact ⟨hp.congr rfl rfl, hi.enter hj, hr⟩
  case setvec v _ => exact ⟨hp.congr rfl rfl, hi.acknowledge v, hr⟩
  case irqend => exact ⟨hp.congr rfl rfl, hi, hr⟩
  case fetch => rw [State.fetchFrom_eq]; exact hs.congr (by simp) (by simp) rfl (by simp)
  case fetchx => rw [State.fetchFrom_eq]; exact hs.congr (by simp) (by simp) rfl (by simp)
  case wr a p _ _ =>
    have hw : ((s.advance (s.memWait (s.readPair p))).logBus (s.readSel a)).RegistersOk :=
      hs.congr (by simp) (by simp) (by simp) (by simp)
    exact (hw.writeBus _ _).congr rfl rfl rfl rfl
  case inp hr => exact (hs.portRead hr).congr rfl rfl (by simp) rfl
  case outp ht => exact hs.portWrite ht
  case dec16 => rw [State.writePair_eq]; exact hs.congr rfl rfl (by simp) rfl
  case inc16 => rw [State.writePair_eq]; exact hs.congr rfl rfl (by simp) rfl
  case rd => exact hs.congr (by simp) (by simp) (by simp) (by simp)
  case mov => exact hs.congr rfl rfl (by simp) rfl
  case alu => exact hs.congr rfl rfl (by simp [State.setFlags]) rfl
  all_goals exact hs.congr rfl rfl rfl rfl

theorem State.RegistersOk.haltTick {s t : State} (hs : s.RegistersOk) (h : s.haltTick = .next t) : t.RegistersOk := by
  have ⟨hp, hi, hr⟩ := hs
  rcases State.haltTick_next h with ⟨j, -, hj, rfl⟩ | ⟨-, -, rfl⟩ | ⟨-, -, rfl⟩
  · exact ⟨hp.congr rfl rfl, State.SourcesOk.enter (s := { s with cpu := { s.cpu with halted := false } }) hi hj, hr⟩
  · exact hs.congr rfl rfl rfl rfl
  · exact hs

theorem State.RegistersOk.endTick {s t : State} (hs : s.RegistersOk) (h : s.endTick = .ok t) : t.RegistersOk := by
  obtain ⟨hp, hi, hr⟩ := hs
  refine ⟨hp.congr (State.endTick_paging h) (State.endTick_fixed h), hi.endTick h, ?_⟩
  rw [State.endTick_cpu h, hr, Cfg.nReg8, Cfg.nReg8, Cfg.resetR8_of_fixed (State.endTick_fixed h)]

theorem step_registersOk {s t : State} (hs : s.RegistersOk) (h : step s = .next t) : t.RegistersOk := by
  rcases step_ended h with ⟨k, rfl⟩ | ⟨u, hu, hh | ⟨q, i, hr⟩⟩
  · exact hs.congr rfl rfl rfl rfl
  · exact (hs.haltTick hh).endTick hu
  · exact (hr.registersOk (hs.congr rfl rfl rfl rfl)).endTick hu

end Sys2Proof.Machine
end

section
/-! The invariant's third part over a whole tick: the cursor is in the program in flight (10_state.md R32), also where `IRQCHK`
replaces an interrupt entry by its cancelled form (60_exceptions.md R279). -/

namespace Sys2Proof

theorem uTag_of_irqchk {w : UWord} (h : decodeUop w = some .irqchk) : uTag w = 0x0A := by
  unfold decodeUop decodeFields at h
  split at h
  · split at h
    case h_11 ht => exact BitVec.eq_of_toNat_eq ht
    all_goals simp [Option.bind_eq_some_iff] at h
  · cases h

end Sys2Proof

namespace Sys2Proof.Machine

/-- The cursor is in the program, and the program is one the sequencer may hold. -/
def State.InProgram (s : State) : Prop := s.seq.cursor ≤ s.prog.length ∧ s.entryVariant

theorem State.InProgram.congr {s t : State} (h : s.InProgram) (hq : t.seq = s.seq) (hc : t.cfg.fixed = s.cfg.fixed) :
    t.InProgram := by
  unfold State.InProgram State.prog State.entryVariant
  rw [hq, ProgId.prog_of_fixed hc, Cfg.irqVariant_of_fixed hc]
  exact h

theorem State.InProgram.enter (s : State) (j : Nat) : (s.enter j).InProgram := ⟨Nat.zero_le _, rfl⟩

theorem State.InProgram.fetchFrom (s : State) (tb : Byte) : (s.fetchFrom tb).InProgram := by
  rw [State.fetchFrom_eq]
  exact ⟨Nat.zero_le _, trivial⟩

theorem State.InProgram.bumpCursor {s : State} (h : s.InProgram) (hn : s.nextWord ≠ none) : s.bumpCursor.InProgram := by
  obtain ⟨-, hv⟩ := h
  have hlt : s.seq.cursor < s.prog.length := by simpa [State.nextWord] using hn
  exact ⟨hlt, hv⟩

/-- The program in flight is an interrupt entry's. -/
def State.InEntry (s : State) : Prop := ∃ v, s.seq.progId = .dispatch v ∨ s.seq.progId = .cancelled v

/-- The cancelled entry is as long as the one it replaces (30_encoding.md R123). -/
theorem State.InProgram.cancel {s : State} (h : s.InProgram) (he : s.InEntry) : s.cancel.InProgram := by
  obtain ⟨hc, hv⟩ := h
  refine ⟨?_, rfl⟩
  have hl : s.cancel.prog.length = s.prog.length := by
    unfold State.entryVariant at hv
    have hc : s.cancel.prog = variantPrefix s.cfg.irqVariant ++ cancelledWords := rfl
    rw [hc, State.prog]
    obtain ⟨v, e | e⟩ := he <;> rw [e] at hv ⊢ <;> subst hv <;> simp [ProgId.prog, dispatchWords, cancelledWords]
  rw [hl]
  exact hc

/-- No program of a table holds `IRQCHK` (30_encoding.md R118). -/
theorem Cfg.not_irqchk_of_table {c : Cfg} (hwf : c.wf = true) {tb b : Byte} {w : UWord} (hw : w ∈ (ProgId.table tb b).prog c) :
    decodeUop w ≠ some .irqchk := by
  obtain ⟨-, -, hplace, -⟩ := (Cfg.wf_iff c).mp hwf
  rw [ProgId.prog] at hw
  cases hp : c.prog? tb b with
  | none => rw [hp] at hw; cases hw
  | some p =>
    rw [hp] at hw
    have hok : programPlaceOk p = true := List.all_eq_true.mp hplace p (Cfg.prog?_mem hp)
    simp only [programPlaceOk, Bool.and_eq_true, List.all_eq_true, decide_eq_true_eq] at hok
    obtain ⟨hplaced, -⟩ := hok
    obtain ⟨-, hne, -⟩ := hplaced w hw
    exact fun hd => hne (uTag_of_irqchk hd)

theorem State.inEntry_of_irqchk {s : State} (hwf : s.cfg.wf = true) (h : s.retiring = some .irqchk) : s.InEntry := by
  unfold State.retiring at h
  split at h
  · cases h
  split at h
  · cases h
  · next w hw =>
    have hmem : w ∈ s.seq.progId.prog s.cfg := List.mem_of_getElem? hw
    unfold State.InEntry
    cases e : s.seq.progId with
    | dispatch v => exact ⟨v, .inl rfl⟩
    | cancelled v => exact ⟨v, .inr rfl⟩
    | empty => rw [e] at hmem; cases hmem
    | table tb b => rw [e] at hmem; exact absurd h (Cfg.not_irqchk_of_table hwf hmem)

/-- A micro-op keeps the sequencer, begins a program, or is the checkpoint that cancels the entry. -/
theorem Retires.seq {s t : State} {i : Instr} (h : Retires s i t) :
    t.seq = s.seq ∨ t.InProgram ∨ i = .irqchk ∧ t = s.cancel := by
  cases h
  case splice j _ _ => exact .inr (.inl (.enter s j))
  case fetch => exact .inr (.inl (.fetchFrom s 0))
  case fetchx tb _ => exact .inr (.inl (.fetchFrom s tb))
  case cancel => exact .inr (.inr ⟨rfl, rfl⟩)
  case inp hr =>
    obtain ⟨x, hx, -, e⟩ := State.portRead_ok hr
    left
    rw [State.writeSel_seq, e, State.unitRead_eq hx]
    simp
  case outp ht =>
    obtain ⟨u, w, hu, rfl, rfl⟩ := State.portWrite_ok ht
    left
    rw [State.emit_seq, (State.observe_eq _ _ _ _ _).1, State.unitWrite_eq hu]
    simp
  case dec16 => left; rw [State.writePair_eq]
  case inc16 => left; rw [State.writePair_eq]
  all_goals
    left
    simp [State.endCancelled, State.acknowledge]

theorem step_inProgram {s t : State} (hwf : s.cfg.wf = true) (hs : s.InProgram) (h : step s = .next t) : t.InProgram := by
  obtain ⟨-, ⟨k, rfl⟩ | ⟨u, -, hu, hh⟩⟩ := step_retires h
  · exact hs
  suffices u.InProgram from this.congr (State.endTick_seq hu) (State.endTick_fixed hu)
  rcases hh with ⟨-, ht⟩ | ⟨i, s0, hh, hi, hr, hs0⟩
  · rcases State.haltTick_next ht with ⟨j, -, -, rfl⟩ | ⟨-, -, rfl⟩ | ⟨-, -, rfl⟩
    · exact .enter _ j
    · exact hs
    · exact hs
  · have h0 : s0.InProgram := by
      rcases hs0 with ⟨-, rfl⟩ | ⟨hn, rfl⟩
      · exact hs
      · exact hs.bumpCursor hn
    rcases hr.seq with e | hp | ⟨rfl, rfl⟩
    · exact h0.congr e hr.fixed
    · exact hp
    · have he : s.InEntry := State.inEntry_of_irqchk hwf hi
      refine h0.cancel ?_
      rcases hs0 with ⟨-, rfl⟩ | ⟨-, rfl⟩ <;> exact he

end Sys2Proof.Machine
end

section
/-! The invariant whole: what `ic_update` adds at the end of a tick (60_exceptions.md R273), and the parts put together. -/

namespace Sys2Proof.Machine

/-! ### `ic_update` -/

/-- `ic_update` leaves Pending only while there is a request (60_exceptions.md R273). -/
theorem State.icUpdate_pendingHasRequest (s : State) : s.icUpdate.PendingHasRequest := by
  have e : s.icUpdate.requesting = s.requesting := by rw [State.icUpdate_eq]; rfl
  intro h
  rw [e]
  unfold State.icUpdate at h
  split at h
  · split at h
    · assumption
    · simp_all
  · split at h
    · assumption
    · cases h
  · simp_all

theorem step_pendingHasRequest {s t : State} (hs : s.PendingHasRequest) (h : step s = .next t) : t.PendingHasRequest := by
  rcases step_ended h with ⟨k, rfl⟩ | ⟨u, hu, -⟩
  · exact hs
  · obtain ⟨v, -, rfl⟩ := State.endTick_ok hu
    exact State.icUpdate_pendingHasRequest _

/-! ### The invariant -/

theorem State.Inv.clocked {s : State} (h : s.Inv) : s.Clocked :=
  ⟨⟨h.cfgWf, h.queuedWf⟩, h.framePosLt, ⟨h.buslogWf, h.buslogBelow⟩, h.periphLength, h.observerLength⟩

theorem State.Inv.registersOk {s : State} (h : s.Inv) : s.RegistersOk :=
  ⟨⟨h.pregLength, h.mapping, h.ramWf, h.ramBelow⟩, ⟨h.ifMasked, h.ieMasked, h.srcLt⟩, h.r8Length⟩

theorem State.Inv.inProgram {s : State} (h : s.Inv) : s.InProgram := ⟨h.cursorLe, h.entry⟩

/-- The four parts are the whole invariant. -/
theorem State.Inv.of_parts {s : State} (hclock : s.Clocked) (hregs : s.RegistersOk) (hprog : s.InProgram)
    (hpend : s.PendingHasRequest) : s.Inv := by
  obtain ⟨⟨hcfg, hqueued⟩, hF, ⟨hlogWf, hlogBelow⟩, hperiph, hobserver⟩ := hclock
  obtain ⟨⟨hpreg, hmap, hramWf, hramBelow⟩, ⟨hif, hie, hsrc⟩, hr8⟩ := hregs
  obtain ⟨hcursor, hentry⟩ := hprog
  exact
    { cfgWf := hcfg, queuedWf := hqueued, ramWf := hramWf, buslogWf := hlogWf, ramBelow := hramBelow, buslogBelow := hlogBelow
      cursorLe := hcursor, entry := hentry, pending := hpend, framePosLt := hF, ifMasked := hif, ieMasked := hie
      r8Length := hr8, pregLength := hpreg, mapping := hmap, srcLt := hsrc, periphLength := hperiph
      observerLength := hobserver }

/-- Settles O56: each of the four parts is kept by the micro-op or halt tick and by the end of the tick, `ic_update` last. -/
theorem stepKeepsInv : Obligations.StepKeepsInv := fun _ _ hi h =>
  .of_parts (step_clocked hi.clocked h) (step_registersOk hi.registersOk h) (step_inProgram hi.cfgWf hi.inProgram h)
    (step_pendingHasRequest hi.pending h)

end Sys2Proof.Machine
end

section
/-! Windows and translation (20_memory.md R77, R78): the board's window first, then SEL. -/

namespace Sys2Proof.Machine

theorem win_eq_extractLsb' (a : Addr) : win a = (a.extractLsb' 14 2).toNat := by
  have ha : a.toNat / windowSize < 2 ^ 2 := win_lt a
  rw [BitVec.extractLsb'_toNat, Nat.shiftRight_eq_div_pow, Nat.mod_eq_of_lt ha]
  rfl

theorem off_eq_extractLsb' (a : Addr) : off a = (a.extractLsb' 0 14).toNat := by
  rw [BitVec.extractLsb'_toNat, Nat.shiftRight_zero]
  rfl

theorem State.boardAt_eq_some_iff (s : State) (a : Addr) (b : BoardCfg) :
    s.boardAt a = some b ↔ s.cfg.board = some b ∧ b.lo ≤ a.toNat ∧ a.toNat ≤ b.hi := by
  simp [State.boardAt, Option.filter_eq_some_iff]

theorem State.boardAt_eq_none_iff (s : State) (a : Addr) :
    s.boardAt a = none ↔ ∀ b, s.cfg.board = some b → a.toNat < b.lo ∨ b.hi < a.toNat := by
  simp only [Option.eq_none_iff_forall_ne_some, ne_eq, State.boardAt_eq_some_iff, not_and_or, Nat.not_le, imp_iff_not_or]

theorem State.resolve_of_board {s : State} {a : Addr} {b : BoardCfg} (h : s.boardAt a = some b) : s.resolve a = .board b := by
  rw [State.resolve, h]

theorem State.resolve_of_no_board {s : State} {a : Addr} (h : s.boardAt a = none) : s.resolve a = s.base a := by
  rw [State.resolve, h]

/-- Settles O33: the board answers where its window holds the address; everywhere else the answer is the base memory's. -/
theorem resolveRule : Obligations.ResolveRule := fun s a =>
  ⟨win_eq_extractLsb' a, off_eq_extractLsb' a,
    fun b hb hlo hhi => State.resolve_of_board ((s.boardAt_eq_some_iff a b).mpr ⟨hb, hlo, hhi⟩),
    fun hout => State.resolve_of_no_board ((s.boardAt_eq_none_iff a).mpr hout)⟩

end Sys2Proof.Machine
end

section
/-! The bus log under timed accesses (20_memory.md R88, R92; 41_bus.md R197, R198). -/

namespace Sys2Proof.Machine

/-- Settles O35: a timed read and a timed write both store their byte into the bus log at the FRAME_POS after the wait,
so the laws of a read after a write decide every offset. -/
theorem busLogRule : Obligations.BusLogRule := by
  intro s a v fetch at'
  rw [State.readMemory_timing, State.writeMemory_timing]
  exact ⟨Memory.read_write_same .., Memory.read_write_same .., rfl, rfl,
    fun f hf => ⟨Memory.read_write_other _ _ _ hf, Memory.read_write_other _ _ _ hf⟩⟩

end Sys2Proof.Machine
end

section
/-! Decoding and encoding: the two round trips, the words that are no micro-op, and what the checks of a configuration give
(30_encoding.md R110, R114 to R118, R127). -/

namespace Sys2Proof

/-! ### Decode of encode -/

/-- The word of a micro-op decodes to the micro-op (30_encoding.md R110, R116). -/
theorem decodeUop_of_encode {i : Instr} {w : UWord} (h : encode i = .uop w) : decodeUop w = some i := by
  cases i <;> cases h
  all_goals simp [decodeUop, tagOk, tagShape, decodeFields]

/-- The opcode byte of a REF opcode decodes to the opcode (R129); a fallback only where its byte is not listed (R122). -/
theorem decodeRef_of_encode {c : Cfg} {i : Instr} {t b : Byte} (hi : i.wf c = true) (h : encode i = .op8 t b) :
    decodeRef t b = some i := by
  cases i <;> cases h
  case refFallback => exact of_decide_eq_true hi
  all_goals rfl

/-- Settles O1: by the shape of the code. -/
theorem decodeOfEncode : Obligations.DecodeOfEncode := by
  intro c i hi
  cases h : encode i with
  | uop w => exact decodeUop_of_encode h
  | op8 t b => exact decodeRef_of_encode hi h

/-! ### Encode of decode -/

/-- What the fields of a word with zero unused fields name, encodes to that word: by the shape of its tag (R110, R116). -/
theorem encode_of_decodeFields {t a b c : Byte} {i : Instr} (hok : tagOk (mkWord t a b c) = true)
    (h : decodeFields t a b c = some i) : encode i = .uop (mkWord t a b c) := by
  rcases tagShape_cases t with
    ⟨hs, ht⟩ | ⟨hs, ht⟩ | ⟨hs, ht⟩ | ⟨hs, ht⟩ | ⟨hs, ht⟩ | ⟨hs, ht⟩ | ⟨hs, ht⟩ <;>
    simp only [tagOk, uTag_mkWord, uA_mkWord, uB_mkWord, uC_mkWord, hs, Bool.and_eq_true, beq_iff_eq] at hok
  · cases hok
  · obtain ⟨⟨rfl, rfl⟩, rfl⟩ := hok
    simp only [List.mem_cons, List.not_mem_nil, or_false] at ht
    rcases ht with rfl | rfl | rfl | rfl | rfl | rfl | rfl | rfl | rfl
    all_goals cases h; rfl
  · obtain ⟨rfl, rfl⟩ := hok
    subst ht
    cases h
    rfl
  · obtain ⟨rfl, rfl⟩ := hok
    simp only [List.mem_cons, List.not_mem_nil, or_false] at ht
    rcases ht with rfl | rfl | rfl
    all_goals
      obtain ⟨p, hp, rfl⟩ := Option.map_eq_some_iff.mp h
      rw [← encodePair_decodePair hp]
      rfl
  · subst hok
    simp only [List.mem_cons, List.not_mem_nil, or_false] at ht
    rcases ht with rfl | rfl | rfl | rfl
    all_goals
      obtain ⟨d, hd, h⟩ := Option.bind_eq_some_iff.mp h
      obtain ⟨p, hp, rfl⟩ := Option.map_eq_some_iff.mp h
      rw [← encodeSel8_decodeSel8 hd, ← encodePair_decodePair hp]
      rfl
  · subst hok ht
    obtain ⟨d, hd, h⟩ := Option.bind_eq_some_iff.mp h
    obtain ⟨x, hx, rfl⟩ := Option.map_eq_some_iff.mp h
    rw [← encodeSel8_decodeSel8 hd, ← encodeSel8_decodeSel8 hx]
    rfl
  · subst ht
    obtain ⟨d, hd, h⟩ := Option.bind_eq_some_iff.mp h
    obtain ⟨x, hx, rfl⟩ := Option.map_eq_some_iff.mp h
    rw [← encodeSel8_decodeSel8 hd, ← encodeSel8_decodeSel8 hx]
    rfl

theorem tagOk_of_decodeUop {w : UWord} {i : Instr} (h : decodeUop w = some i) : tagOk w = true := by
  unfold decodeUop at h
  split at h
  · assumption
  · cases h

theorem encode_of_decodeUop {w : UWord} {i : Instr} (h : decodeUop w = some i) : encode i = .uop w := by
  have hok := tagOk_of_decodeUop h
  rw [decodeUop, if_pos hok] at h
  rw [← mkWord_fields w] at hok ⊢
  exact encode_of_decodeFields hok h

theorem encode_of_decodeRef {t b : Byte} {i : Instr} (h : decodeRef t b = some i) : encode i = .op8 t b := by
  unfold decodeRef at h
  split at h
  · next ht =>
    subst ht
    split at h <;> cases h
    case h_18 => rfl
    all_goals next hb => exact congrArg (Code.op8 0) (BitVec.eq_of_toNat_eq hb.symm)
  · split at h
    · next ht => cases h; rw [ht]; rfl
    · cases h

/-- Settles O2: by the shape of the code. -/
theorem encodeOfDecode : Obligations.EncodeOfDecode := by
  intro k i h
  cases k with
  | uop w => exact encode_of_decodeUop h
  | op8 t b => exact encode_of_decodeRef h

/-! ### What is no micro-op -/

/-- What decodes has a tag of R116, and zero in each field that its tag does not use (R110, R117). -/
theorem fields_of_decodes {w : UWord} (h : decodeUop w ≠ none) :
    (uTag w).toNat < 0x13 ∧ (uTag w ≠ 0x0E → uC w = 0) ∧ (uTag w ∉ [0x05, 0x06, 0x07, 0x0C, 0x0D, 0x0E] → uB w = 0) ∧
      (uTag w ∈ [0x00, 0x01, 0x09, 0x0A, 0x0B, 0x0F, 0x10, 0x11, 0x12] → uA w = 0) := by
  obtain ⟨i, hi⟩ := Option.ne_none_iff_exists'.mp h
  have he := encode_of_decodeUop hi
  cases i <;> cases he
  all_goals simp

/-- The selectors of what decodes are none of the reserved ones (R114, R115). -/
theorem selectors_of_decodes {w : UWord} (h : decodeUop w ≠ none) :
    (uTag w ∈ [0x03, 0x04, 0x08] → decodePair (uA w) ≠ none) ∧
      (uTag w ∈ [0x05, 0x06, 0x0C, 0x0D] → decodeSel8 (uA w) ≠ none ∧ decodePair (uB w) ≠ none) ∧
      (uTag w ∈ [0x07, 0x0E] → decodeSel8 (uA w) ≠ none ∧ decodeSel8 (uB w) ≠ none) := by
  obtain ⟨i, hi⟩ := Option.ne_none_iff_exists'.mp h
  have he := encode_of_decodeUop hi
  cases i <;> cases he
  all_goals simp

theorem decodeSel8_eq_none_iff : ∀ b : Byte, decodeSel8 b = none ↔ 0x80 ≤ b.toNat ∧ ¬(0xF0 ≤ b.toNat ∧ b.toNat ≤ 0xF7) := by
  decide +kernel

theorem decodePair_eq_none_iff : ∀ b : Byte, decodePair b = none ↔ 0x40 ≤ b.toNat ∧ ¬(0x80 ≤ b.toNat ∧ b.toNat ≤ 0x82) := by
  decide +kernel

/-! ### The words of a well-formed configuration -/

/-- What the checks `wf_tag`, `wf_sel`, `wf_place` and `wf_tables` say of one program (30_encoding.md R127). -/
structure ProgramOk (c : Cfg) (p : List UWord) : Prop where
  tags : ∀ w ∈ p, tagOk w = true
  sels : ∀ w ∈ p, wordSelOk c w = true
  noEntry : ∀ w ∈ p, uTag w ≠ 0x09 ∧ uTag w ≠ 0x0A ∧ uTag w ≠ 0x0B
  fetchLast : ∀ w ∈ p.dropLast, uTag w ≠ 0x01 ∧ uTag w ≠ 0x02
  tables : ∀ w ∈ p, uTag w = 0x02 → (c.table? (uA w)).isSome = true

theorem Cfg.programOk {c : Cfg} {p : List UWord} (hwf : c.wf = true) (hp : p ∈ c.programs) : ProgramOk c p := by
  obtain ⟨htag, hsel, hplace, htables, -⟩ := (Cfg.wf_iff c).mp hwf
  simp only [Cfg.wfTag, Cfg.wfSel, Cfg.wfPlace, Cfg.wfTables, programPlaceOk, Bool.and_eq_true, List.all_eq_true,
    decide_eq_true_eq, Bool.or_eq_true, bne_iff_ne] at htag hsel hplace htables
  obtain ⟨⟨hsel, -⟩, -⟩ := hsel
  obtain ⟨-, htables⟩ := htables
  obtain ⟨hentry, hlast⟩ := hplace p hp
  exact ⟨htag p hp, hsel p hp, hentry, hlast, fun w hw ht => (htables p hp w hw).resolve_left fun hne => hne ht⟩

theorem ProgramOk.decodes {c : Cfg} {p : List UWord} {w : UWord} (hp : ProgramOk c p) (hw : w ∈ p) :
    ∃ i, decodeUop w = some i :=
  Option.isSome_iff_exists.mp (word_decodes (hp.tags w hw) (hp.sels w hw))

/-- The operands of a word that passes `wf_sel` and `wf_tables` exist (R114, R115, R120). -/
theorem Instr.wf_of_word {c : Cfg} {w : UWord} {i : Instr} (h : decodeUop w = some i) (hsel : wordSelOk c w = true)
    (htable : uTag w = 0x02 → (c.table? (uA w)).isSome = true) : i.wf c = true := by
  have he := encode_of_decodeUop h
  cases i <;> cases he
  all_goals simp_all [wordSelOk, tagShape, Instr.wf]

/-- The last word is the one that no other follows. -/
theorem eq_length_of_not_mem_dropLast {α : Type} {l : List α} {k : Nat} {x : α} (hx : l[k]? = some x)
    (h : x ∉ l.dropLast) : k + 1 = l.length := by
  obtain ⟨hk, hkx⟩ := List.getElem?_eq_some_iff.mp hx
  by_contra hne
  refine h (List.mem_of_getElem? (i := k) ?_)
  rw [List.getElem?_dropLast, if_pos (by omega), hx]

/-- Settles O5: what decodes has none of the faults listed, and every word of a well-formed configuration decodes. -/
theorem reservedWordsRefused : Obligations.ReservedWordsRefused := by
  refine ⟨fun w hw => ?_, fun w ht hw => ?_, fun w ht hw => ?_, fun w ht hw => ?_, fun w ht hw => ?_, fun w ht hw => ?_,
    fun w ht hw => ?_, decodeSel8_eq_none_iff, decodePair_eq_none_iff, fun c p w hp hw hn => ?_⟩
  case refine_8 =>
    by_contra hwf
    obtain ⟨i, hi⟩ := (Cfg.programOk (Bool.not_eq_false _ ▸ hwf) hp).decodes hw
    simp [hi] at hn
  all_goals
    by_contra hn
    obtain ⟨htag, hc, hb, ha⟩ := fields_of_decodes hn
    obtain ⟨hpair, hselPair, hselSel⟩ := selectors_of_decodes hn
  · exact Nat.not_le.mpr htag hw
  · exact hw (hc ht)
  · exact hw (hb ht)
  · exact hw (ha ht)
  · exact hpair ht hw
  · exact hw.elim (hselPair ht).1 (hselPair ht).2
  · exact hw.elim (hselSel ht).1 (hselSel ht).2

/-- Settles O6: each clause is one of the checks that the program passes. -/
theorem wellFormedProgramsDecode : Obligations.WellFormedProgramsDecode := by
  intro c t b p hwf hp k w hk
  have hw : w ∈ p := List.mem_of_getElem? hk
  have hok := Cfg.programOk hwf (Cfg.prog?_mem hp)
  obtain ⟨i, hi⟩ := hok.decodes hw
  have he := encode_of_decodeUop hi
  obtain ⟨hsetvec, hirqchk, hirqend⟩ := hok.noEntry w hw
  refine ⟨i, hi, Instr.wf_of_word hi (hok.sels w hw) (hok.tables w hw), ?_, ?_, ?_, fun hf => ?_⟩
  · rintro rfl; cases he; simp at hsetvec
  · rintro rfl; cases he; simp at hirqchk
  · rintro rfl; cases he; simp at hirqend
  · refine eq_length_of_not_mem_dropLast hk fun hlast => ?_
    obtain ⟨hfetch, hfetchx⟩ := hok.fetchLast w hlast
    rcases hf with rfl | ⟨u, rfl, -⟩ <;> cases he
    · simp at hfetch
    · simp at hfetchx

end Sys2Proof
end

section
/-! The words the spec writes out: one of each tag, the interrupt-entry programs, REF's program tables (30_encoding.md R116,
R123, R129). -/

namespace Sys2Proof.Machine

/-- Settles O3: each word is evaluated. -/
theorem specWordsDecode : Obligations.SpecWordsDecode := by
  unfold Obligations.SpecWordsDecode
  decide +kernel

/-- The words of the two entries of variant 1 decode to the micro-ops of the table of R123. -/
theorem entryWords_decode :
    (variantPrefix 1 ++ dispatchWords).map decodeUop =
        [some .idle, some (.dec16 .sp), some (.wr .pch .sp), some .irqchk, some (.dec16 .sp), some (.wr .pcl .sp), some .setvec,
          some .fetch] ∧
      (variantPrefix 1 ++ cancelledWords).map decodeUop =
        [some .idle, some (.dec16 .sp), some (.wr .pch .sp), some .irqchk, some (.dec16 .sp), some (.wr .pcl .sp), some .irqend,
          some .fetch] := by
  decide +kernel

/-- Settles O4: the programs are their definitions' words. -/
theorem entryProgramWords : Obligations.EntryProgramWords := by
  intro c entry
  obtain ⟨hd, hc⟩ := entryWords_decode
  exact ⟨rfl, rfl, rfl, rfl, hd, hc, fun _ _ => rfl⟩

/-- Table 0 of REF holds the program of each byte (R129). -/
theorem Ref.prog?_table0 (b : Byte) : Ref.cfg.prog? 0 b = some (Ref.program b.toNat) := by
  have hb : b.toNat < 256 := b.isLt
  have e : Ref.cfg.prog? 0 b = ((List.range 256).map Ref.program)[b.toNat]? := rfl
  rw [e, List.getElem?_map, List.getElem?_range hb]
  rfl

/-- Table 1 of REF holds the fallback alone (R122, R129). -/
theorem Ref.prog?_table1 (b : Byte) : Ref.cfg.prog? 1 b = some Ref.fallback := by
  have hb : b.toNat < 256 := b.isLt
  have e : Ref.cfg.prog? 1 b = (List.replicate 256 Ref.fallback)[b.toNat]? := rfl
  rw [e, List.getElem?_replicate_of_lt hb]

/-- Settles O7: the list of R129 and the definition of the programs agree on each of the 256 bytes. -/
theorem refProgramTables : Obligations.RefProgramTables := by
  intro b
  refine ⟨(Ref.prog?_table0 b).trans (congrArg some ?_), Ref.prog?_table1 b⟩
  revert b
  decide +kernel

end Sys2Proof.Machine
end

section
/-! A REF opcode from its fetch to the end of its program, one step a word (40_microops.md R141, R146 to R148; 30_encoding.md
R129). -/

namespace Sys2Proof.Machine

/-! ### A tick that leaves a REF state -/

theorem State.IsRef.commit {t : State} (ht : t.IsRef) (s : State) : s.commit (.next t) = .next (t.advance 1).icUpdate := by
  simp only [State.commit, ht.failed, State.endTick_ref ht.cfg ht.queue]

/-- The end of a tick is quiet after a micro-op that moved no more than CPU, sequencer, time and the trace. -/
theorem State.IsRef.quiet {s t : State} (ht : t.IsRef) (hic : t.ic = s.ic) (hime : t.cpu.ime = s.cpu.ime)
    (hu : t.units = s.units) (hc : t.cfg = s.cfg) (hp : t.paging = s.paging) (hb : t.board = s.board) :
    s.Quiet (t.advance 1).icUpdate := by
  obtain ⟨hr, ecpu, -, eic, eunits, ecfg, epaging, eboard, -⟩ := ht.afterTick
  refine ⟨hr, eic.trans ?_, ?_, eunits.trans hu, ecfg.trans hc, epaging.trans hp, eboard.trans hb⟩
  · exact State.icUpdate_ic_congr hic hime (by rw [hc])
  · rw [ecpu, hime]

/-- A timed read in REF gives what `ReadBus` gives, whatever the wait (41_bus.md R191). -/
theorem State.IsRef.readMemory_value {s : State} (hs : s.IsRef) (f : Bool) (a : Addr) : (s.readMemory f a).2 = s.readBus a :=
  State.readBus_steady (s.advance_sameMemory _) a (hs.steady a)

/-! ### The fetch -/

theorem State.readMemory_withSeq (s : State) (q : Seq) (f : Bool) (a : Addr) :
    ({ s with seq := q } : State).readMemory f a = ({ (s.readMemory f a).1 with seq := q }, (s.readMemory f a).2) := by
  have e : ({ s with seq := q } : State).memWait a = s.memWait a := rfl
  unfold State.readMemory
  simp only [e, State.advance_withSeq]
  rfl

/-- A fetch begins a program, so it does not depend on the one before (R146, R148). -/
theorem State.fetchFrom_withSeq (s : State) (q : Seq) (tb : Byte) :
    ({ s with seq := q } : State).fetchFrom tb = s.fetchFrom tb := by
  simp only [State.fetchFrom_eq, State.readMemory_withSeq]

/-- What the tick of a `FETCH` or `FETCHX` leaves in REF. -/
theorem State.IsRef.fetchTick {s : State} (hs : s.IsRef) (tb : Byte) :
    ∃ u, s.commit (.next (s.fetchFrom tb)) = .next u ∧
      u.cpu = { s.cpu with
        ir := s.readBus s.cpu.pc, bug := false, pc := if s.cpu.bug then s.cpu.pc else s.cpu.pc + 1 } ∧
      u.seq = { progId := .table tb (s.readBus s.cpu.pc), cursor := 0 } ∧ s.Quiet u := by
  obtain ⟨eunits, ecfg, equeue, -⟩ := s.advance_of_queue_nil (s.memWait s.cpu.pc) hs.queue
  have hc : (s.fetchFrom tb).cfg = s.cfg := by rw [State.fetchFrom_eq]; exact ecfg
  have hp : (s.fetchFrom tb).paging = s.paging := by simp [State.fetchFrom_eq]
  have hr : (s.fetchFrom tb).IsRef := by
    refine ⟨?_, ?_, ?_, ?_, ?_⟩
    · rw [hc]; exact hs.cfg
    · simpa [State.fetchFrom_eq] using hs.failed
    · rw [State.fetchFrom_eq]; exact equeue
    · rw [State.fetchFrom_eq]; exact hs.r8
    · rw [hp]; exact hs.windows
  refine ⟨_, hr.commit s, ?_, ?_, hr.quiet ?_ ?_ ?_ hc hp ?_⟩
  · simp [State.fetchFrom_eq, hs.readMemory_value]
  · simp [State.fetchFrom_eq, hs.readMemory_value]
  · simp [State.fetchFrom_eq]
  · simp [State.fetchFrom_eq]
  · rw [State.fetchFrom_eq]; exact eunits
  · simp [State.fetchFrom_eq]

/-- At an opcode boundary the implicit and the explicit `FETCH` do the same (R148). -/
theorem step_fetch {s : State} (hf : s.failed = none) (hb : s.atOpcodeBoundary = true) (hp : s.ic.st ≠ .pending)
    (ht : (s.cfg.table? 0).isSome = true) : step s = s.commit (.next (s.fetchFrom 0)) := by
  have hfetch : ∀ q : Seq, exec .fetch { s with seq := q } = .next (s.fetchFrom 0) := fun q => by
    rw [← s.fetchFrom_withSeq q]
    exact (if_neg hp).trans (if_pos ht)
  have hd : decodeUop 0x01000000 = some .fetch := by decide +kernel
  simp only [State.atOpcodeBoundary, Bool.and_eq_true, Bool.not_eq_true', Bool.or_eq_true, beq_iff_eq] at hb
  obtain ⟨hh, hn | hn⟩ := hb
  · simp only [step, State.stepWith, hf, hh, hn]
    exact congrArg s.commit (hfetch s.seq)
  · simp only [step, State.stepWith, hf, hh, hn, hd, State.tick]
    exact congrArg s.commit (hfetch s.bumpCursor.seq)

/-! ### The words of a program, one a step -/

theorem step_word {s : State} {w : UWord} {i : Instr} (hh : s.cpu.halted = false) (hw : s.nextWord = some w)
    (hd : decodeUop w = some i) : step s = s.tick (exec i) := by
  cases hf : s.failed <;> simp [step, State.stepWith, State.tick, hf, hh, hw, hd]

theorem State.ticks_singleton (s : State) (m : State → Outcome) : s.ticks [m] = s.tick m := by
  unfold State.ticks
  cases s.tick m <;> rfl

theorem core_run_succ {M : Host.Core} {s u : M.State} (h : M.step s = .next u) (n : Nat) : M.run (n + 1) s = M.run n u := by
  rw [Host.Core.run, h]

/-- A micro-op after whose tick REF retires the next word of the program. -/
def Sequential (i : Instr) : Prop :=
  ∀ s : State, s.IsRef → ∃ u, s.tick (exec i) = .next u ∧ u.IsRef ∧ u.cpu.halted = s.cpu.halted ∧ u.cfg = s.cfg ∧
    u.seq = { s.seq with cursor := s.seq.cursor + 1 }

theorem sequential_rd {d : Sel8} {p : PairSel} (hd : ∀ s : State, s.IsRef → s.hasSel d = true)
    (hp : ∀ s : State, s.hasPair p = true) : Sequential (.rd d p) := fun s hs => by
  obtain ⟨u, ht, hcpu, hseq, hq⟩ := hs.rdTick d p (hd s hs) (hp s)
  exact ⟨u, ht, hq.isRef, by simp [hcpu], hq.cfg, hseq⟩

theorem sequential_inc16_pc : Sequential (.inc16 .pc) := fun s hs => by
  obtain ⟨u, ht, hcpu, hseq, hq⟩ := hs.incPcTick
  exact ⟨u, ht, hq.isRef, by rw [hcpu], hq.cfg, hseq⟩

theorem sequential_inc16_sp : Sequential (.inc16 .sp) := fun s hs => by
  obtain ⟨u, ht, hcpu, hseq, hq⟩ := hs.incSpTick
  exact ⟨u, ht, hq.isRef, by rw [hcpu], hq.cfg, hseq⟩

/-- Steps retire the words of a program as `ticks` does, when each but the last is followed by the next. -/
theorem run_of_ticks {l : List Instr} {s t : State} (hs : s.IsRef) (hh : s.cpu.halted = false)
    (hw : l.map some <+: (s.prog.drop s.seq.cursor).map decodeUop) (hl : ∀ i ∈ l.dropLast, Sequential i)
    (h : s.ticks (l.map exec) = .next t) : Host.Core.run Sys2Proof.core l.length s = .next t := by
  induction l generalizing s with
  | nil => exact h
  | cons i l ih =>
    obtain ⟨rest, hw⟩ := hw
    obtain ⟨w, ws, hdrop, hd, hws⟩ := List.map_eq_cons_iff.mp hw.symm
    have hn : s.nextWord = some w := by
      have e := congrArg (·[0]?) hdrop
      simpa [State.nextWord] using e
    have hstep : step s = s.tick (exec i) := step_word hh hn hd
    cases l with
    | nil =>
      exact core_run_succ (M := Sys2Proof.core) (hstep.trans ((State.ticks_singleton s (exec i)).symm.trans h)) 0
    | cons j l =>
      obtain ⟨u, hu, hr, hhu, hc, hseq⟩ := hl i (by simp) s hs
      refine (core_run_succ (M := Sys2Proof.core) (hstep.trans hu) _).trans
        (ih hr (hhu.trans hh) ⟨rest, ?_⟩ (fun k hk => hl k (by simp [hk])) ?_)
      · have hp : u.prog = s.prog := by rw [State.prog, State.prog, hc, hseq]
        rw [hp, hseq, ← List.drop_drop, hdrop]
        exact hws.symm
      · rw [List.map_cons, State.ticks_cons hu] at h
        exact h

/-! ### The programs of the REF opcodes (30_encoding.md R129) -/

/-- `RD WL,PC; INC16 PC; RD WH,PC; INC16 PC`. -/
def imm16Words : List Instr := [.rd .wl .pc, .inc16 .pc, .rd .wh .pc, .inc16 .pc]

/-- The micro-ops of a REF opcode's program, without the final `FETCH` (R129): none for `NOP`, a fallback and what is no REF
opcode. -/
def refWords : Instr → List Instr
  | .refDecB => [.alu refB refB 0x00]
  | .refBugnop => [.setbug]
  | .refLdANn => imm16Words ++ [.rd refA .w]
  | .refLdNnA => imm16Words ++ [.wr refA .w]
  | .refIncA => [.alu refA refA 0x01]
  | .refDecA => [.alu refA refA 0x00]
  | .refLdAN => [.rd refA .pc, .inc16 .pc]
  | .refHalt => [.halt]
  | .refLdAB => [.mov refA refB]
  | .refJpNn => imm16Words ++ [.setpc .w]
  | .refRet => [.rd .wl .sp, .inc16 .sp, .rd .wh .sp, .inc16 .sp, .setpc .w]
  | .refPrefixCb => [.fetchx 0x01]
  | .refOutNnA => imm16Words ++ [.outp refA .w]
  | .refInANn => imm16Words ++ [.inp refA .w]
  | .refDi => [.di]
  | .refEi => [.ei]
  | _ => []

/-- The meaning of a REF opcode is its fetch's load and the ticks of those micro-ops. -/
theorem exec_eq_runProgram {i : Instr} {t b : Byte} (h : encode i = .op8 t b) (s : State) :
    exec i s = s.runProgram t b ((refWords i).map exec) := by
  cases i <;> cases h <;> rfl

/-- The words of the program of table 0 decode to them, and are all its words but `FETCH`. -/
theorem program_decodes : ∀ b : Byte, ∀ i ∈ decodeRef 0 b,
    (refWords i).map some <+: (Ref.program b.toNat).map decodeUop ∧
      ((Ref.program b.toNat).filter (fun w => decide (w ≠ 0x01000000))).length = (refWords i).length := by
  decide +kernel

theorem refWords_sequential (i : Instr) : ∀ j ∈ (refWords i).dropLast, Sequential j := by
  have hwl : Sequential (.rd .wl .pc) := sequential_rd (fun _ _ => rfl) fun _ => rfl
  have hwh : Sequential (.rd .wh .pc) := sequential_rd (fun _ _ => rfl) fun _ => rfl
  have hspl : Sequential (.rd .wl .sp) := sequential_rd (fun _ _ => rfl) fun _ => rfl
  have hsph : Sequential (.rd .wh .sp) := sequential_rd (fun _ _ => rfl) fun _ => rfl
  have hA : Sequential (.rd refA .pc) := sequential_rd (fun s hs => hs.hasSel refA (by simp [refA])) fun _ => rfl
  cases i <;> simp [refWords, imm16Words, hwl, hwh, hspl, hsph, hA, sequential_inc16_pc, sequential_inc16_sp]

theorem State.IsRef.prog {s : State} (hs : s.IsRef) {b : Byte} {n : Nat} (h : s.seq = { progId := .table 0 b, cursor := n }) :
    s.prog = Ref.program b.toNat := by
  have e : s.prog = ((Ref.cfg.prog? 0 b).getD []) := by
    rw [State.prog, h, hs.cfg]
    rfl
  rw [e, Ref.prog?_table0]
  rfl

/-- Settles O43: the fetch is one tick, and the steps after it retire the program's words. -/
theorem refOpcodeRunsItsProgram : Obligations.RefOpcodeRunsItsProgram := by
  intro s i hs hb hp hi
  have ht : (s.cfg.table? 0).isSome = true := by rw [hs.cfg]; rfl
  obtain ⟨u, hu, hcpu, hseq, hq⟩ := hs.fetchTick 0
  have hstep : step s = .next u := (step_fetch hs.failed hb hp ht).trans hu
  have hir : u.cpu.ir = s.readBus s.cpu.pc := by rw [hcpu]
  rw [← hir] at hi hseq
  refine ⟨u, hstep, hir, by rw [hcpu], hseq, fun t h => ?_⟩
  obtain ⟨hwords, hlen⟩ := program_decodes u.cpu.ir i hi
  have hprog : u.prog = Ref.program u.cpu.ir.toNat := hq.isRef.prog hseq
  have hload : u.load 0 u.cpu.ir = u := by rw [State.load, ← hseq]
  have hh : u.cpu.halted = false := by
    simp only [State.atOpcodeBoundary, Bool.and_eq_true, Bool.not_eq_true'] at hb
    rw [hcpu]
    exact hb.1
  rw [exec_eq_runProgram (encode_of_decodeRef hi), State.runProgram, hload] at h
  rw [hprog, hlen, Nat.add_comm, core_run_succ (M := Sys2Proof.core) hstep]
  refine run_of_ticks hq.isRef hh ?_ (refWords_sequential i) h
  rw [hprog, hseq]
  exact hwords

end Sys2Proof.Machine
end

section
/-! The REF opcodes of at most one tick (30_encoding.md R122, R128, R129). -/

namespace Sys2Proof.Machine

/-- Settles O44: no tick follows the fetch's load. -/
theorem refNopResults : Obligations.RefNopResults := fun _ => ⟨rfl, fun _ _ => rfl⟩

/-- `ic_update` takes no part in the sequencing. -/
theorem State.icUpdate_withSeq (s : State) (q : Seq) :
    ({ s with seq := q } : State).icUpdate = { s.icUpdate with seq := q } := by
  have hic : ({ s with seq := q } : State).icUpdate.ic = s.icUpdate.ic := State.icUpdate_ic_congr rfl rfl rfl
  rw [State.icUpdate_eq { s with seq := q }, hic, State.icUpdate_eq s]

/-- An opcode of one tick: the cycle and `ic_update` after what its micro-op left of the CPU. -/
theorem State.IsRef.oneTick {s : State} (hs : s.IsRef) {op : Byte} {m : State → Outcome} {c : Cpu} (hr8 : c.r8.length = 2)
    (hm : m (s.load 0 op).bumpCursor = .next { (s.load 0 op).bumpCursor with cpu := { c with ir := op } }) :
    ∃ t, s.runProgram 0 op [m] = .next t ∧
      t = { (({ s with cpu := { c with ir := op } } : State).advance 1).icUpdate with
            seq := { progId := .table 0 op, cursor := 1 } } ∧ s.MemoryKept t := by
  have ht : ({ (s.load 0 op).bumpCursor with cpu := { c with ir := op } } : State).IsRef :=
    ⟨hs.cfg, hs.failed, hs.queue, hr8, hs.windows⟩
  have hrun : s.runProgram 0 op [m] = _ := (State.ticks_singleton _ m).trans (State.IsRef.tick hs.failed hm ht)
  refine ⟨_, hrun, ?_, State.SameMemory.kept ⟨?_, ?_, ?_⟩⟩
  · rw [← State.icUpdate_withSeq, ← State.advance_withSeq]
    rfl
  all_goals simp

/-- The registers A and B of REF are all of its byte registers (30_encoding.md R128). -/
theorem State.IsRef.r8_eq {s : State} (hs : s.IsRef) : s.cpu.r8 = [s.readSel (.r 0), s.readSel (.r 1)] := by
  obtain ⟨a, b, h⟩ := List.length_eq_two.mp hs.r8
  simp [State.readSel, Cpu.readSel, h]

/-- REF's zero flag (R128). -/
def refZero (r : Byte) : Byte := if r = 0 then 0x80 else 0x00

/-- DEC and INC of REF (R128). -/
theorem State.IsRef.aluFn_dec {s : State} (hs : s.IsRef) (d a f : Byte) :
    s.cfg.aluFn 0x00 d a f = (d - 1, refZero (d - 1)) := by
  have e : s.cfg.aluFn 0x00 d a f = Ref.cfg.aluFn 0x00 d 0 0 := by rw [hs.cfg]; rfl
  have key : ∀ d : Byte, Ref.cfg.aluFn 0x00 d 0 0 = (d - 1, refZero (d - 1)) := by decide +kernel
  rw [e, key]

theorem State.IsRef.aluFn_inc {s : State} (hs : s.IsRef) (d a f : Byte) :
    s.cfg.aluFn 0x01 d a f = (d + 1, refZero (d + 1)) := by
  have e : s.cfg.aluFn 0x01 d a f = Ref.cfg.aluFn 0x01 d 0 0 := by rw [hs.cfg]; rfl
  have key : ∀ d : Byte, Ref.cfg.aluFn 0x01 d 0 0 = (d + 1, refZero (d + 1)) := by decide +kernel
  rw [e, key]

theorem execAlu_of_sels {s : State} {d a : Sel8} {c r f : Byte} (hd : s.hasSel d = true) (ha : s.hasSel a = true)
    (h : s.cfg.aluFn c (s.readSel d) (s.readSel a) s.cpu.flags = (r, f)) :
    execAlu d a c s = .next { s with cpu := { s.cpu.writeSel d r with flags := f } } := by
  unfold execAlu State.aluResult
  rw [hd, ha, h]
  rfl

/-- Settles O45: each opcode is one tick of its micro-op. -/
theorem refOneTickResults : Obligations.RefOneTickResults := by
  intro s hs
  have hA : s.hasSel refA = true := hs.hasSel refA (by simp [refA])
  have hB : s.hasSel refB = true := hs.hasSel refB (by simp [refB])
  have setA : ∀ v, s.cpu.r8.set 0 v = [v, s.readSel (.r 1)] := fun v => by rw [hs.r8_eq]; rfl
  have setB : ∀ v, s.cpu.r8.set 1 v = [s.readSel (.r 0), v] := fun v => by rw [hs.r8_eq]; rfl
  refine ⟨hs.oneTick rfl ?_, hs.oneTick rfl ?_, hs.oneTick rfl ?_, hs.oneTick rfl ?_, hs.oneTick hs.r8 rfl,
    hs.oneTick hs.r8 rfl, hs.oneTick hs.r8 rfl, hs.oneTick hs.r8 rfl⟩
  · rw [← setB]; exact execAlu_of_sels hB hB (hs.aluFn_dec _ _ _)
  · rw [← setA]; exact execAlu_of_sels hA hA (hs.aluFn_inc _ _ _)
  · rw [← setA]; exact execAlu_of_sels hA hA (hs.aluFn_dec _ _ _)
  · have hm : execMov refA refB (s.load 0 0x78).bumpCursor =
        .next ((s.load 0 0x78).bumpCursor.writeSel refA (s.readSel refB)) :=
      if_pos (Bool.and_eq_true_iff.mpr ⟨hA, hB⟩)
    rw [← setA]
    exact hm

end Sys2Proof.Machine
end

section
/-! The REF opcodes that load and jump: quiet ticks, which leave memory, the mapping, the units and the configuration
(30_encoding.md R126, R129). -/

namespace Sys2Proof.Machine

/-! ### The CPU -/

theorem Cpu.sameBut_pc (c : Cpu) (v : Addr) : c.SameBut [.pcl, .pch] { c with pc := v } :=
  ⟨fun x hx => by cases x <;> simp_all [Cpu.readSel], rfl, rfl, rfl, rfl, rfl⟩

theorem Cpu.sameBut_sp (c : Cpu) (v : Addr) : c.SameBut [.spl, .sph] { c with sp := v } :=
  ⟨fun x hx => by cases x <;> simp_all [Cpu.readSel], rfl, rfl, rfl, rfl, rfl⟩

theorem Cpu.sameBut_w (c : Cpu) (v : Addr) : c.SameBut [.wl, .wh] { c with w := v } :=
  ⟨fun x hx => by cases x <;> simp_all [Cpu.readSel], rfl, rfl, rfl, rfl, rfl⟩

/-- An operand read into W leaves every register but PC and W. -/
theorem Cpu.sameBut_pc_w (c : Cpu) (v n : Addr) : c.SameBut [.pcl, .pch, .wl, .wh] { c with pc := v, w := n } :=
  (c.sameBut_pc v).trans (Cpu.sameBut_w { c with pc := v } n)

theorem State.IsRef.hasSel_refA {s : State} (hs : s.IsRef) : s.hasSel refA = true := hs.hasSel refA (by simp [refA])

/-- A written into A. -/
theorem State.IsRef.readSel_writeSel_refA {s : State} (hs : s.IsRef) (v : Byte) : (s.cpu.writeSel refA v).readSel (.r 0) = v :=
  Cpu.readSel_writeSel_same s.cpu refA v (by rw [← State.hasSel_eq]; exact hs.hasSel_refA)

/-! ### Runs of quiet ticks -/

/-- What quiet ticks leave, as the statements on REF opcodes say it. -/
theorem State.Quiet.frame {s t : State} (h : s.Quiet t) :
    t.ic = s.icUpdate.ic ∧ t.units = s.units ∧ t.failed = none ∧ t.cfg = s.cfg ∧ t.paging = s.paging ∧ s.MemoryKept t :=
  ⟨h.ic, h.units, h.isRef.failed, h.cfg, h.paging, h.sameMemory.kept⟩

/-- The operand word of an opcode, read into W by the first four ticks of its program (30_encoding.md R126). -/
theorem State.IsRef.operand {s : State} (hs : s.IsRef) (op : Byte) :
    ∃ u, (s.load 0 op).ticks Machine.imm16Ticks = .next u ∧
      u.cpu = { s.cpu with ir := op, pc := s.cpu.pc + 2, w := s.readBus (s.cpu.pc + 1) ++ s.readBus s.cpu.pc } ∧
      u.seq = { progId := .table 0 op, cursor := 4 } ∧ s.Quiet u := by
  obtain ⟨u, ht, hcpu, hseq, hq⟩ := (hs.load 0 op).imm16Ticks []
  exact ⟨u, ht, hcpu, hseq, hq.ofLoad⟩

/-- After its operand an opcode's program has one tick left. -/
theorem runProgram_operand {s u : State} {op : Byte} (h : (s.load 0 op).ticks Machine.imm16Ticks = .next u)
    (m : State → Outcome) : s.runProgram 0 op (Machine.imm16Ticks ++ [m]) = u.tick m :=
  (State.ticks_append [m] h).trans (u.ticks_singleton m)

/-- `LD A,n`: the operand byte is read into A, and PC passes it. -/
theorem execRefLdAN_ref {s : State} (hs : s.IsRef) :
    ∃ t, execRefLdAN s = .next t ∧
      t.cpu = { ({ s.cpu with ir := 0x3E } : Cpu).writeSel refA (s.readBus s.cpu.pc) with pc := s.cpu.pc + 1 } ∧
      t.seq = { progId := .table 0 0x3E, cursor := 2 } ∧ s.Quiet t := by
  have hl := hs.load 0 0x3E
  obtain ⟨u, a1, a2, a3, a4⟩ := hl.rdTick refA .pc hl.hasSel_refA rfl
  obtain ⟨t, b1, b2, b3, b4⟩ := a4.isRef.incPcTick
  refine ⟨t, (State.ticks_cons a1).trans ((u.ticks_singleton _).trans b1), ?_, by rw [b3, a3]; rfl, (a4.trans b4).ofLoad⟩
  rw [b2, a2, State.readPair_pc]
  rfl

/-- Settles O46: quiet ticks, the last but one or the last of which reads into A. -/
theorem refLoadResults : Obligations.RefLoadResults := by
  intro s hs
  constructor
  · obtain ⟨t, ht, hcpu, hseq, hq⟩ := execRefLdAN_ref hs
    refine ⟨t, ht, ?_, by rw [hcpu], ?_, hseq, hq.frame⟩
    · rw [State.readSel, hcpu]
      exact (hs.load 0 0x3E).readSel_writeSel_refA _
    · rw [hcpu]
      exact (Cpu.writeSel_sameBut _ refA _).trans (Cpu.sameBut_pc _ _)
  · obtain ⟨u, hu, hcpu, hseq, hq⟩ := hs.operand 0x3A
    obtain ⟨t, ht, hcpu', hseq', hq'⟩ := hq.isRef.rdTick refA .w hq.isRef.hasSel_refA rfl
    rw [State.readPair_w, hq.readBus hs] at hcpu'
    refine ⟨t, (runProgram_operand hu _).trans ht, ?_, ?_, ?_, ?_, by rw [hseq', hseq], (hq.trans hq').frame⟩
    · rw [State.readSel, hcpu', hq.isRef.readSel_writeSel_refA, hcpu]
    · rw [hcpu', hcpu]; rfl
    · rw [hcpu', hcpu]; rfl
    · rw [hcpu', hcpu]
      exact ((Cpu.sameBut_pc_w { s.cpu with ir := 0x3A } _ _).trans (Cpu.writeSel_sameBut _ refA _)).mono (by decide)

/-! ### Jumps -/

/-- `RET`: the address popped goes to PC by W, and SP passes it. -/
theorem execRefRet_ref {s : State} (hs : s.IsRef) :
    ∃ t, execRefRet s = .next t ∧
      t.cpu = { s.cpu with
        ir := 0xC9, sp := s.cpu.sp + 2, w := s.readBus (s.cpu.sp + 1) ++ s.readBus s.cpu.sp
        pc := s.readBus (s.cpu.sp + 1) ++ s.readBus s.cpu.sp } ∧
      t.seq = { progId := .table 0 0xC9, cursor := 5 } ∧ s.Quiet t := by
  have hl := hs.load 0 0xC9
  obtain ⟨u1, a1, a2, a3, a4⟩ := hl.rdTick .wl .sp rfl rfl
  obtain ⟨u2, b1, b2, b3, b4⟩ := a4.isRef.incSpTick
  obtain ⟨u3, c1, c2, c3, c4⟩ := b4.isRef.rdTick .wh .sp rfl rfl
  obtain ⟨u4, d1, d2, d3, d4⟩ := c4.isRef.incSpTick
  obtain ⟨t, e1, e2, e3, e4⟩ := d4.isRef.setpcTick
  have hq2 := a4.trans b4
  refine ⟨t, ?_, ?_, by rw [e3, d3, c3, b3, a3]; rfl, ((hq2.trans c4).trans (d4.trans e4)).ofLoad⟩
  · exact (State.ticks_cons a1).trans ((State.ticks_cons b1).trans ((State.ticks_cons c1).trans ((State.ticks_cons d1).trans
      ((u4.ticks_singleton _).trans e1))))
  · rw [e2, d2, c2, State.readPair_sp, hq2.readBus hl, b2, a2, State.readPair_sp]
    simp only [Cpu.writeSel, lo8_join, BitVec.add_assoc]
    rfl

/-- Byte 0xCB: the byte after it is fetched from table 1. -/
theorem execRefPrefixCb_ref {s : State} (hs : s.IsRef) :
    ∃ t, execRefPrefixCb s = .next t ∧
      t.cpu = { s.cpu with ir := s.readBus s.cpu.pc, bug := false, pc := if s.cpu.bug then s.cpu.pc else s.cpu.pc + 1 } ∧
      t.seq = { progId := .table 1 (s.readBus s.cpu.pc), cursor := 0 } ∧ s.Quiet t := by
  have hl := hs.load 0 0xCB
  obtain ⟨t, ht, hcpu, hseq, hq⟩ := hl.fetchTick 1
  have ht1 : (s.cfg.table? 1).isSome = true := by rw [hs.cfg]; rfl
  have hm : execFetchx 0x01 (s.load 0 0xCB).bumpCursor = .next ((s.load 0 0xCB).fetchFrom 1) :=
    (if_pos ht1).trans (congrArg Host.Outcome.next ((s.load 0 0xCB).fetchFrom_withSeq _ 1))
  have htick : (s.load 0 0xCB).tick (execFetchx 0x01) = .next t := by
    unfold State.tick
    rw [hl.failed, hm]
    exact ht
  exact ⟨t, (State.ticks_singleton _ _).trans htick, hcpu, hseq, hq.ofLoad⟩

/-- Settles O48: quiet ticks, the last of which writes PC. -/
theorem refJumpResults : Obligations.RefJumpResults := by
  intro s hs
  refine ⟨?_, ?_, ?_⟩
  · obtain ⟨u, hu, hcpu, hseq, hq⟩ := hs.operand 0xC3
    obtain ⟨t, ht, hcpu', hseq', hq'⟩ := hq.isRef.setpcTick
    rw [hcpu] at hcpu'
    refine ⟨t, (runProgram_operand hu _).trans ht, by rw [hcpu'], by rw [hcpu'], ?_, by rw [hseq', hseq], (hq.trans hq').frame⟩
    rw [hcpu']
    exact Cpu.sameBut_pc_w { s.cpu with ir := 0xC3 } _ _
  · obtain ⟨t, ht, hcpu, hseq, hq⟩ := execRefRet_ref hs
    refine ⟨t, ht, by rw [hcpu], by rw [hcpu], by rw [hcpu], ?_, hseq, hq.frame⟩
    rw [hcpu]
    exact ((Cpu.sameBut_sp { s.cpu with ir := 0xC9 } _).trans (Cpu.sameBut_pc_w _ _ _)).mono (by decide)
  · obtain ⟨t, ht, hcpu, hseq, hq⟩ := execRefPrefixCb_ref hs
    refine ⟨t, ht, by rw [hcpu], by rw [hcpu], by rw [hcpu], ?_, hseq, hq.frame⟩
    rw [hcpu]
    exact Cpu.sameBut_pc { s.cpu with ir := s.readBus s.cpu.pc, bug := false } _

end Sys2Proof.Machine
end

section
/-! The store of REF (30_encoding.md R129, 41_bus.md R193): a bus write depends on memory and the mapping alone, and leaves
every other byte. -/

namespace Sys2Proof.Machine

/-! ### A bus write where no lookup of the board takes a floating-bus byte -/

/-- In REF every bank and every window exists. -/
theorem State.IsRef.lookSteady {s : State} (hs : s.IsRef) (k : BoardLook) : s.lookSteady k = true := by
  have hw := hs.windows
  cases k with
  | xt => rfl
  | rom => rw [State.lookSteady, hs.cfg]; rfl
  | ram => rw [State.lookSteady, hs.cfg]; rfl
  | base =>
    simp only [State.lookSteady, Quad.toList, List.all_cons, List.all_nil, Bool.and_true, Bool.and_eq_true, decide_eq_true_eq]
    exact ⟨hw 0, hw 1, hw 2, hw 3⟩

theorem State.SameMemory.base {s t : State} (h : s.SameMemory t) (a : Addr) : t.base a = s.base a :=
  State.base_of_sel (by rw [h.1]) a

theorem State.SameMemory.writeRam {s t : State} (h : s.SameMemory t) (n o : Nat) (v : Byte) :
    (s.writeRam n o v).SameMemory (t.writeRam n o v) := by
  obtain ⟨hp, hb, hc⟩ := h
  exact ⟨by simp only [State.writeRam, hp], hb, hc⟩

theorem State.SameMemory.boardRamWrite {s t : State} (h : s.SameMemory t) (b : BoardCfg) (a : Nat) (v : Byte) :
    (s.boardRamWrite b a v).SameMemory (t.boardRamWrite b a v) := by
  have e : t.boardRamAt b a = s.boardRamAt b a := by
    unfold State.boardRamAt
    rw [h.base]
  unfold State.boardRamWrite
  rw [e]
  split
  · exact h.writeRam _ _ _
  · exact h

theorem State.SameMemory.boardAct {s t : State} (h : s.SameMemory t) (hl : ∀ k, s.lookSteady k = true) (b : BoardCfg)
    (x y : Nat) (a : BoardAct) : (s.boardAct b x y a).SameMemory (t.boardAct b x y a) := by
  have ev : ∀ f, t.boardEval b x y f = s.boardEval b x y f := fun f => State.boardEval_congr h b x y f (Fn.allLooks_of_all hl f)
  have ⟨hp, hb, hc⟩ := h
  unfold State.boardAct
  simp only [ev, hb]
  split
  · exact h
  · split
    · exact ⟨hp, rfl, hc⟩
    · exact ⟨hp, rfl, hc⟩
    · exact ⟨hp, rfl, hc⟩
    · exact h.boardRamWrite b _ _

theorem State.lookSteady_boardAct (s : State) (b : BoardCfg) (x y : Nat) (a : BoardAct) (k : BoardLook) :
    (s.boardAct b x y a).lookSteady k = s.lookSteady k := by
  unfold State.lookSteady
  rw [State.boardAct_cfg, (s.boardAct_step b x y a).sel]

theorem State.SameMemory.boardActs {s t : State} (h : s.SameMemory t) (hl : ∀ k, s.lookSteady k = true) (b : BoardCfg)
    (x y : Nat) (l : List BoardAct) : (s.boardActs b x y l).SameMemory (t.boardActs b x y l) := by
  unfold State.boardActs
  induction l generalizing s t with
  | nil => exact h
  | cons a l ih => exact ih (h.boardAct hl b x y a) fun k => (s.lookSteady_boardAct b x y a k).trans (hl k)

theorem State.SameMemory.writeBus {s t : State} (h : s.SameMemory t) (hl : ∀ k, s.lookSteady k = true) (a : Addr) (v : Byte) :
    (s.writeBus a v).1.SameMemory (t.writeBus a v).1 := by
  have er : t.resolve a = s.resolve a := State.resolve_congr h a
  cases e : s.resolve a with
  | board b => simp only [State.writeBus, er, e]; exact h.boardActs hl b _ _ _
  | romByte n o =>
    rw [State.writeBus_discarded (.inr ⟨n, o, e⟩), State.writeBus_discarded (.inr ⟨n, o, er.trans e⟩)]
    exact h
  | ramByte n o =>
    rw [State.writeBus_ram e, State.writeBus_ram (er.trans e)]
    exact h.writeRam n o v
  | none =>
    rw [State.writeBus_discarded (.inl e), State.writeBus_discarded (.inl (er.trans e))]
    exact h

/-! ### What a bus write leaves in REF -/

/-- A ROM or RAM byte depends on the paging unit and ROM alone (41_bus.md R190). -/
theorem State.readBus_backed {s t : State} (hp : t.paging = s.paging) (hc : t.cfg.fixed = s.cfg.fixed) {a : Addr}
    (h : s.backed a = true) : t.readBus a = s.readBus a := by
  have hm : s.SameMemory { t with board := s.board } := ⟨hp, rfl, hc⟩
  have er : t.resolve a = s.resolve a := State.resolve_congr hm a
  cases e : s.resolve a with
  | board b => simp [State.backed, e] at h
  | romByte n o => rw [State.readBus_rom e, State.readBus_rom (er.trans e), State.readRom_congr hc]
  | ramByte n o => rw [State.readBus_ram e, State.readBus_ram (er.trans e)]; exact State.readRam_congr hm n o
  | none => simp [State.backed, e] at h

theorem State.boardAct_paging {a : BoardAct} (h : ∀ f, a.target ≠ .ram f) (s : State) (b : BoardCfg) (x y : Nat) :
    (s.boardAct b x y a).paging = s.paging := by
  unfold State.boardAct
  dsimp only
  split
  · rfl
  · split
    · rfl
    · rfl
    · rfl
    · next f hf => exact absurd hf (h f)

/-- REF's board writes no RAM (43_board.md R240). -/
theorem State.boardActs_ref_paging (s : State) (x y : Nat) :
    (s.boardActs Ref.board x y Ref.board.writes).paging = s.paging := by
  simp [State.boardActs, Ref.board, State.boardAct_paging]

theorem State.IsRef.board_of_resolve {s : State} (hs : s.IsRef) {a : Addr} {b : BoardCfg} (h : s.resolve a = .board b) :
    b = Ref.board := by
  have hb : s.boardAt a = some b := by
    unfold State.resolve State.base at h
    split at h
    · cases h; assumption
    · split at h <;> cases h
  obtain ⟨hc, -⟩ := (s.boardAt_eq_some_iff a b).mp hb
  rw [hs.cfg] at hc
  exact (Option.some.inj hc).symm

/-- A write in REF stores its byte where RAM answers, and leaves every other byte. -/
theorem State.IsRef.readBus_of_writeBus {s t : State} (hs : s.IsRef) {a : Addr} {v : Byte}
    (hp : t.paging = (s.writeBus a v).1.paging) (hc : t.cfg = s.cfg) :
    (∀ n o, s.resolve a = .ramByte n o → t.readBus a = v) ∧
      ∀ b, s.backed b = true → s.resolve b ≠ s.resolve a → t.readBus b = s.readBus b := by
  have hf : t.cfg.fixed = s.cfg.fixed := by rw [hc]
  cases e : s.resolve a with
  | ramByte n o =>
    rw [State.writeBus_ram e] at hp
    obtain ⟨hv, -, hr, hother⟩ := State.readBus_of_ramWrite (State.resolve_ram_offset e) hp hf
    exact ⟨fun _ _ _ => by rw [State.readBus_ram ((hr a).trans e), hv], hother⟩
  | board b =>
    obtain rfl := hs.board_of_resolve e
    simp only [State.writeBus, e, State.boardWrite, State.boardActs_ref_paging] at hp
    exact ⟨nofun, fun b hb _ => State.readBus_backed hp hf hb⟩
  | romByte n o =>
    rw [State.writeBus_discarded (.inr ⟨n, o, e⟩)] at hp
    exact ⟨nofun, fun b hb _ => State.readBus_backed hp hf hb⟩
  | none =>
    rw [State.writeBus_discarded (.inl e)] at hp
    exact ⟨nofun, fun b hb _ => State.readBus_backed hp hf hb⟩

/-! ### `WR` as a tick of REF -/

/-- `WR a, p` as a tick of REF (40_microops.md R154). -/
theorem State.IsRef.wrTick {s : State} (hs : s.IsRef) {a : Sel8} {p : PairSel} (ha : s.hasSel a = true)
    (hp : s.hasPair p = true) :
    ∃ u, s.tick (execWr a p) = .next u ∧ u.IsRef ∧ u.cpu = s.cpu ∧ u.seq = { s.seq with cursor := s.seq.cursor + 1 } ∧
      u.ic = s.icUpdate.ic ∧ u.units = s.units ∧ u.cfg = s.cfg ∧
      u.paging = (s.writeBus (s.readPair p) (s.readSel a)).1.paging ∧
      u.board = (s.writeBus (s.readPair p) (s.readSel a)).1.board := by
  have hm : execWr a p s.bumpCursor = .next (s.bumpCursor.writeMemory (s.readPair p) (s.readSel a)) := by
    have hp' : s.bumpCursor.hasPair p = true := by rw [← hp]; cases p <;> rfl
    have hrp : s.bumpCursor.readPair p = s.readPair p := by cases p <;> rfl
    rw [← hrp]
    exact if_pos (Bool.and_eq_true_iff.mpr ⟨by rwa [State.hasSel_eq] at ha ⊢, hp'⟩)
  generalize s.readPair p = q at hm ⊢
  generalize s.readSel a = v at hm ⊢
  obtain ⟨eunits, ecfg, equeue, -⟩ := s.bumpCursor.advance_of_queue_nil (s.bumpCursor.memWait q) hs.queue
  have hmem : s.SameMemory ((s.bumpCursor.advance (s.bumpCursor.memWait q)).logBus v) := ⟨by simp, by simp, by simp⟩
  obtain ⟨hpaging, hboard, -⟩ := hmem.writeBus hs.lookSteady q v
  have hcfg : (s.bumpCursor.writeMemory q v).cfg = s.cfg := (State.writeMemory_cfg _ _ _).trans ecfg
  have hx : (s.bumpCursor.writeMemory q v).IsRef := by
    refine ⟨by rw [hcfg]; exact hs.cfg, by simpa using hs.failed, ?_, by simpa using hs.r8, ?_⟩
    · simpa [State.writeMemory] using equeue
    · simpa [State.writeMemory] using hs.windows
  obtain ⟨hr, -, -, hic, hunits, hcfg', hpaging', hboard', -⟩ := hx.afterTick
  refine ⟨_, State.IsRef.tick hs.failed hm hx, hr, by simp, by simp [State.bumpCursor], hic.trans ?_, ?_, hcfg'.trans hcfg,
    hpaging'.trans hpaging, hboard'.trans hboard⟩
  · exact State.icUpdate_ic_congr (by simp) (by simp) (by rw [hcfg])
  · exact hunits.trans ((State.writeMemory_units _ _ _).trans eunits)

/-- After quiet ticks `ic_update` gives what it gave before them (60_exceptions.md R273). -/
theorem State.Quiet.icUpdate_ic {s u : State} (h : s.Quiet u) : u.icUpdate.ic = s.icUpdate.ic := by
  rw [State.icUpdate_ic_congr h.ic (by simpa using h.ime) (by simp [h.cfg]), State.icUpdate_icUpdate_ic]

/-- Settles O47: the operand's ticks are quiet, and the write is a bus write on the memory they left. -/
theorem refStoreResult : Obligations.RefStoreResult := by
  intro s hs
  obtain ⟨u, hu, hcpu, hseq, hq⟩ := hs.operand 0x32
  obtain ⟨t, ht, hr, hcpu', hseq', hic, hunits, hcfg, hpaging, hboard⟩ := hq.isRef.wrTick hq.isRef.hasSel_refA rfl (p := .w)
  have hA : u.readSel refA = s.readSel (.r 0) := by rw [State.readSel, hcpu]; rfl
  obtain ⟨wpaging, wboard, -⟩ := hq.sameMemory.writeBus hs.lookSteady u.cpu.w (s.readSel (.r 0))
  rw [State.readPair_w, hA, wpaging] at hpaging
  rw [State.readPair_w, hA, wboard] at hboard
  rw [hcpu] at hcpu' hpaging hboard
  have hc : t.cfg = s.cfg := hcfg.trans hq.cfg
  refine ⟨t, (runProgram_operand hu _).trans ht, by rw [hcpu'], by rw [hcpu'], ?_, by rw [hseq', hseq],
    hic.trans hq.icUpdate_ic, hunits.trans hq.units, hr.failed, hc, hpaging, hboard, hs.readBus_of_writeBus hpaging hc⟩
  rw [hcpu']
  exact Cpu.sameBut_pc_w { s.cpu with ir := 0x32 } _ _

end Sys2Proof.Machine
end

section
/-! The ports of REF: `OUT (nn),A` and `IN A,(nn)` (30_encoding.md R128, R129; 42_ports.md R213 to R218). -/

namespace Sys2Proof.Machine

/-! ### What the claimant of a port does -/

/-- The board's port, the peripherals and the interrupt controller's registers of REF (30_encoding.md R128). -/
theorem State.ports_ref {s : State} (hc : s.cfg = { Ref.cfg with rom := s.cfg.rom }) :
    s.boardPort 0x00F0#16 = some Ref.board ∧ s.cfg.periph = [.ic, .paging] ∧ s.cfg.irqMask = 0x03 ∧
      s.cfg.iePort = 0x0010 := by
  unfold State.boardPort
  rw [hc]
  exact ⟨rfl, rfl, rfl, rfl⟩

/-- What REF's units do with a byte written to a port (60_exceptions.md R283, 20_memory.md R84, 43_board.md R241). -/
def State.refOut (s : State) (q : Addr) (v : Byte) : State :=
  if q = 0x00F0 then { s with board := { s.board with key := v } }
  else if q = 0x0010 then { s with ic := { s.ic with ier := v &&& 0x03 } }
  else if q = 0x0011 then { s with ic := { s.ic with ifr := v &&& 0x03 } }
  else if q = 0x0020 then ({ s with paging := { s.paging with preg := s.paging.preg.set 0 v } } : State).remap
  else s

theorem State.boardActs_ref_port (s : State) (q : Nat) (v : Byte) :
    s.boardActs Ref.board q v.toNat Ref.board.portWrites = { s with board := { s.board with key := v } } := by
  simp [State.boardActs, Ref.board, State.boardAct, State.boardEval, Fn.eval, State.boardArg]

theorem State.unitWrite_ref {s : State} (hc : s.cfg = { Ref.cfg with rom := s.cfg.rom }) (q : Addr) (v : Byte) :
    s.unitWrite (s.claimant q) q v = .ok (s.refOut q v) := by
  obtain ⟨hboard, hperiph, hmask, hie⟩ := State.ports_ref hc
  have hreg : Cfg.pagingReg s.cfg 0x0020#16 = some 0 := by rw [hc]; rfl
  rw [State.claimant_ref hc]
  unfold State.refOut
  by_cases h : q = 0x00F0
  · subst h
    simp [State.unitWrite, hboard, State.boardActs_ref_port s 240 v]
  by_cases h1 : q = 0x0010
  · subst h1
    simp [State.unitWrite, hperiph, State.icWrite, hie, hmask]
  by_cases h2 : q = 0x0011
  · subst h2
    simp [State.unitWrite, hperiph, State.icWrite, hie, hmask]
  by_cases h3 : q = 0x0020
  · subst h3
    simp [State.unitWrite, hperiph, State.pagingWrite, hreg]
  · simp only [h, h1, h2, h3, if_false, or_self, State.unitWrite]

/-- What REF's units answer to a read of a port, `none` where they have no value (60_exceptions.md R283, 43_board.md R241). -/
def State.refIn (s : State) (q : Addr) : Option Byte :=
  if q = 0x00F0 then some s.board.bank
  else if q = 0x0010 then some (s.ic.ier &&& 0x03)
  else if q = 0x0011 then some (s.ic.ifr &&& 0x03)
  else none

theorem State.unitRead_ref {s : State} (hc : s.cfg = { Ref.cfg with rom := s.cfg.rom }) (q : Addr) :
    s.unitRead (s.claimant q) q = .ok (s, s.refIn q) := by
  obtain ⟨hboard, hperiph, hmask, hie⟩ := State.ports_ref hc
  have hback : s.cfg.paging.readback = false := by rw [hc]; rfl
  have hbank : ∀ q, s.boardEval Ref.board q 0 Ref.board.portVal = s.board.bank.toNat := fun _ => rfl
  have hok : ∀ q, s.boardEval Ref.board q 0 Ref.board.portOk = 1 := fun _ => rfl
  rw [State.claimant_ref hc]
  unfold State.refIn
  by_cases h : q = 0x00F0
  · subst h
    simp [State.unitRead, hboard, hbank, hok]
  by_cases h1 : q = 0x0010
  · subst h1
    simp [State.unitRead, hperiph, State.icRead, hie, hmask]
  by_cases h2 : q = 0x0011
  · subst h2
    simp [State.unitRead, hperiph, State.icRead, hie, hmask]
  by_cases h3 : q = 0x0020
  · subst h3
    simp [State.unitRead, hperiph, State.pagingRead, hback]
  · simp only [h, h1, h2, h3, if_false, or_self, State.unitRead]

/-! ### What a write leaves, part by part -/

theorem State.refOut_eq (s : State) (q : Addr) (v : Byte) :
    s.refOut q v =
      { s with board := (s.refOut q v).board, ic := (s.refOut q v).ic, paging := (s.refOut q v).paging } := by
  unfold State.refOut
  split_ifs <;> rfl

@[simp] theorem State.refOut_cpu (s : State) (q : Addr) (v : Byte) : (s.refOut q v).cpu = s.cpu := by rw [State.refOut_eq]
@[simp] theorem State.refOut_seq (s : State) (q : Addr) (v : Byte) : (s.refOut q v).seq = s.seq := by rw [State.refOut_eq]
@[simp] theorem State.refOut_units (s : State) (q : Addr) (v : Byte) : (s.refOut q v).units = s.units := by rw [State.refOut_eq]
@[simp] theorem State.refOut_failed (s : State) (q : Addr) (v : Byte) : (s.refOut q v).failed = s.failed := by
  rw [State.refOut_eq]
@[simp] theorem State.refOut_queue (s : State) (q : Addr) (v : Byte) : (s.refOut q v).queue = s.queue := by rw [State.refOut_eq]
@[simp] theorem State.refOut_cfg (s : State) (q : Addr) (v : Byte) : (s.refOut q v).cfg = s.cfg := by rw [State.refOut_eq]

theorem State.refOut_congr {s t : State} (hp : t.paging = s.paging) (hb : t.board = s.board) (hi : t.ic = s.ic)
    (hc : t.cfg = s.cfg) (q : Addr) (v : Byte) :
    (t.refOut q v).paging = (s.refOut q v).paging ∧ (t.refOut q v).board = (s.refOut q v).board ∧
      (t.refOut q v).ic = (s.refOut q v).ic := by
  unfold State.refOut State.remap
  split_ifs <;> simp [hp, hb, hi, hc]

theorem State.refOut_board (s : State) (q : Addr) (v : Byte) :
    (s.refOut q v).board = if q = 0x00F0 then { s.board with key := v } else s.board := by
  unfold State.refOut
  split_ifs <;> rfl

theorem State.refOut_ier (s : State) (q : Addr) (v : Byte) :
    (s.refOut q v).ic.ier = if q = 0x0010 then v &&& 0x03 else s.ic.ier := by
  unfold State.refOut
  split_ifs <;> simp_all

theorem State.refOut_ifr (s : State) (q : Addr) (v : Byte) :
    (s.refOut q v).ic.ifr = if q = 0x0011 then v &&& 0x03 else s.ic.ifr := by
  unfold State.refOut
  split_ifs <;> simp_all

theorem State.refOut_preg (s : State) (q : Addr) (v : Byte) :
    (s.refOut q v).paging.preg = if q = 0x0020 then s.paging.preg.set 0 v else s.paging.preg := by
  unfold State.refOut State.remap
  split_ifs <;> simp_all

theorem State.refOut_ram (s : State) (q : Addr) (v : Byte) : (s.refOut q v).paging.ram = s.paging.ram := by
  unfold State.refOut State.remap
  split_ifs <;> rfl

theorem State.refOut_paging_of_ne (s : State) {q : Addr} (h : q ≠ 0x0020) (v : Byte) : (s.refOut q v).paging = s.paging := by
  unfold State.refOut
  split_ifs <;> rfl

/-- The paging register of REF selects the RAM bank of window 3 (20_memory.md R84). -/
theorem State.IsRef.refOut_sel {s : State} (hs : s.IsRef) (hl : s.paging.preg.length = 1) (v : Byte) :
    (s.refOut 0x0020 v).paging.sel = ⟨.rom 0, .ram 5, .ram 2, .ram (v.toNat % 8)⟩ := by
  obtain ⟨r, hr⟩ := List.length_eq_one_iff.mp hl
  have e : (s.refOut 0x0020 v).paging.sel = (s.cfg.pagingUpdate (s.paging.preg.set 0 v)).map (·.1) := rfl
  rw [e, hr, hs.cfg]
  show (⟨.rom 0, .ram 5, .ram 2, .ram (v.toNat % 8 % 8)⟩ : Quad Sel) = _
  rw [Nat.mod_mod]

theorem State.IsRef.refOut_windows {s : State} (hs : s.IsRef) (hl : s.paging.preg.length = 1) (q : Addr) (v : Byte) (w : Nat) :
    (s.refOut q v).paging.sel.get w ≠ .unmapped := by
  by_cases h : q = 0x0020
  · subst h
    rw [hs.refOut_sel hl]
    unfold Quad.get
    split <;> nofun
  · rw [s.refOut_paging_of_ne h]
    exact hs.windows w

/-! ### `OUT` and `IN` as ticks of REF -/

/-- What the beeper holds after a write to a port: bit 4 of the byte where the port is even (30_encoding.md R128). -/
def beeped (ps : List Nat) (q : Addr) (v : Byte) : List Nat := if q.toNat % 2 = 0 then ps ++ [v.toNat / 16 % 2] else ps

/-- What a port write of REF leaves: the claimant's change, then the beeper's, then the event (42_ports.md R217, R218). -/
def State.refPortWrite (s : State) (q : Addr) (v : Byte) : State :=
  let s1 := (s.advance 0).logBus v
  ((s1.refOut q v).setOstate 0 (beeped (s.ostate 0) q v)).emit (.portW q v (s1.claimant q))

theorem State.portWrite_ref {s : State} (hc : s.cfg = { Ref.cfg with rom := s.cfg.rom }) (hq : s.queue = []) (q : Addr)
    (v : Byte) : s.portWrite q v = .ok (s.refPortWrite q v) := by
  obtain ⟨eunits, ecfg, -, -⟩ := s.advance_of_queue_nil 0 hq
  have hc1 : ((s.advance 0).logBus v).cfg = { Ref.cfg with rom := ((s.advance 0).logBus v).cfg.rom } := by
    rw [State.logBus_cfg, ecfg]
    exact hc
  have hwrite := State.unitWrite_ref hc1 q v
  unfold State.portWrite State.refPortWrite
  simp only [portWait, hwrite]
  generalize hr : ((s.advance 0).logBus v).refOut q v = r
  have hobs : r.cfg.observers = [Ref.beeper] := by rw [← hr, State.refOut_cfg, hc1]; rfl
  have hps : r.ostate 0 = s.ostate 0 := by
    rw [← hr, State.ostate, State.refOut_units, State.logBus_units, eunits]
    rfl
  have hobserve : r.observe q v 0 [Ref.beeper] = r.setOstate 0 (beeped (s.ostate 0) q v) := by
    rw [beeped, ← State.devActs_beeper r, ← hps]
    rfl
  rw [hobs, hobserve]

theorem State.refPortWrite_parts {s : State} (hq : s.queue = []) (q : Addr) (v : Byte) :
    let x := s.refPortWrite q v
    x.cpu = s.cpu ∧ x.seq = s.seq ∧ x.failed = s.failed ∧ x.queue = [] ∧ x.cfg = s.cfg ∧
      x.units = { s.units with observer := s.units.observer.set 0 (beeped (s.ostate 0) q v) } ∧
      x.paging = (s.refOut q v).paging ∧ x.board = (s.refOut q v).board ∧ x.ic = (s.refOut q v).ic := by
  obtain ⟨eunits, ecfg, equeue, -⟩ := s.advance_of_queue_nil 0 hq
  have hr := State.refOut_congr (s := s) (t := (s.advance 0).logBus v) (by simp) (by simp) (by simp) ecfg q v
  unfold State.refPortWrite
  exact ⟨by simp, by simp, by simp, by simpa using equeue, by simpa using ecfg, by simp [State.setOstate, eunits], hr⟩

theorem execOutp_of_ok {s t : State} {a : Sel8} {p : PairSel} (ha : s.hasSel a = true) (hp : s.hasPair p = true)
    (h : s.portWrite (s.readPair p) (s.readSel a) = .ok t) : execOutp a p s = .next t := by
  rw [execOutp, ha, hp, h]
  rfl

/-- `OUT A,W` as a tick of REF (40_microops.md R159). -/
theorem State.IsRef.outTick {s : State} (hs : s.IsRef) (hl : s.paging.preg.length = 1) :
    let q := s.cpu.w
    let v := s.readSel refA
    ∃ t, s.tick (execOutp refA .w) = .next t ∧ t.cpu = s.cpu ∧ t.seq = { s.seq with cursor := s.seq.cursor + 1 } ∧
      t.failed = none ∧ t.cfg = s.cfg ∧
      t.units = { s.units with observer := s.units.observer.set 0 (beeped (s.ostate 0) q v) } ∧
      t.paging = (s.refOut q v).paging ∧ t.board = (s.refOut q v).board ∧ t.ic.ier = (s.refOut q v).ic.ier ∧
      t.ic.ifr = (s.refOut q v).ic.ifr := by
  intro q v
  have hm : execOutp refA .w s.bumpCursor = .next (s.bumpCursor.refPortWrite q v) := by
    refine execOutp_of_ok hs.hasSel_refA rfl ?_
    rw [State.readPair_w]
    exact State.portWrite_ref (s := s.bumpCursor) hs.cfg hs.queue q v
  obtain ⟨xcpu, xseq, xfailed, xqueue, xcfg, xunits, hx⟩ := State.refPortWrite_parts (s := s.bumpCursor) hs.queue q v
  obtain ⟨epaging, eboard, eic⟩ := State.refOut_congr (s := s) (t := s.bumpCursor) rfl rfl rfl rfl q v
  rw [epaging, eboard, eic] at hx
  generalize s.bumpCursor.refPortWrite q v = x at *
  obtain ⟨xpaging, xboard, xic⟩ := hx
  have hr : x.IsRef := by
    refine ⟨by rw [xcfg]; exact hs.cfg, xfailed.trans hs.failed, xqueue, by rw [xcpu]; exact hs.r8, fun w => ?_⟩
    rw [xpaging]
    exact hs.refOut_windows hl q v w
  obtain ⟨ht, hcpu, hseq, hic, hunits, hcfg, hpaging, hboard, -⟩ := hr.afterTick
  have hie : x.icUpdate.ic.ier = x.ic.ier ∧ x.icUpdate.ic.ifr = x.ic.ifr := by rw [State.icUpdate_eq]; exact ⟨rfl, rfl⟩
  rw [← hic, xic] at hie
  exact ⟨_, State.IsRef.tick hs.failed hm hr, hcpu.trans xcpu, hseq.trans xseq, ht.failed, hcfg.trans xcfg, hunits.trans xunits,
    hpaging.trans xpaging, hboard.trans xboard, hie⟩

/-- Settles O49: the operand's ticks are quiet, and the last tick writes the port. -/
theorem refOutResult : Obligations.RefOutResult := by
  intro s hs ho hl
  obtain ⟨u, hu, hcpu, hseq, hq⟩ := hs.operand 0xD3
  have hlu : u.paging.preg.length = 1 := by rw [hq.paging]; exact hl
  obtain ⟨t, ht, hcpu', hseq', hfailed, hcfg, hunits, hpaging, hboard, hier, hifr⟩ := hq.isRef.outTick hlu
  have hA : u.readSel refA = s.readSel (.r 0) := by rw [State.readSel, hcpu]; rfl
  have hw : u.cpu.w = s.readBus (s.cpu.pc + 1) ++ s.readBus s.cpu.pc := by rw [hcpu]
  rw [hcpu] at hcpu'
  rw [hA, hw] at hunits hpaging hboard hier hifr
  have hie : u.ic.ier = s.ic.ier ∧ u.ic.ifr = s.ic.ifr := by rw [hq.ic, State.icUpdate_eq]; exact ⟨rfl, rfl⟩
  have hset : ∀ v : Byte, s.paging.preg.set 0 v = [v] := fun v => by
    obtain ⟨r, hr⟩ := List.length_eq_one_iff.mp hl
    rw [hr]
    rfl
  refine ⟨t, (runProgram_operand hu _).trans ht, by rw [hcpu'], by rw [hcpu'], ?_, by rw [hseq', hseq], hfailed,
    hcfg.trans hq.cfg, by rw [hunits, hq.units], fun n o => ?_, ?_, ?_, ?_, fun h => ?_, fun h => ?_, ?_, ?_⟩
  · rw [hcpu']
    exact Cpu.sameBut_pc_w { s.cpu with ir := 0xD3 } _ _
  · unfold State.readRam
    rw [hpaging, State.refOut_ram, hq.paging]
  · rw [hier, State.refOut_ier, hie.1]
  · rw [hifr, State.refOut_ifr, hie.2]
  · rw [hpaging, State.refOut_preg, hq.paging, hset]
  · rw [hpaging, h]
    exact hq.isRef.refOut_sel hlu _
  · rw [hpaging, State.refOut_paging_of_ne u h, hq.paging]
  · rw [hboard, State.refOut_board, hq.board]
  · have hps : u.ostate 0 = s.ostate 0 := by rw [State.ostate, hq.units]; rfl
    obtain ⟨ps, hps'⟩ := List.length_eq_one_iff.mp ho
    rw [State.ostate, hunits, hq.units, hps, hps']
    rfl

end Sys2Proof.Machine
end

section
/-! `IN A,(nn)` of REF (30_encoding.md R129, 42_ports.md R214 to R216). -/

namespace Sys2Proof.Machine

/-- After ticks, at least one, that gave a state, FRAME_POS lies in the frame (10_state.md R45). -/
theorem State.ticks_framePos {s t : State} {m : State → Outcome} {ms : List (State → Outcome)} (h : s.ticks (m :: ms) = .next t)
    (hf : t.failed = none) (hc : 0 < t.cfg.frameCycles) : t.timing.framePos < t.cfg.frameCycles := by
  induction ms generalizing s m with
  | nil => exact State.tick_framePos ((State.ticks_singleton s m).symm.trans h) hf hc
  | cons n ms ih =>
    unfold State.ticks at h
    split at h
    · exact ih h
    · cases h
    · cases h

/-- A port read of REF inside the frame: the claimant's value or the floating bus's, logged and traced (R214 to R216). -/
theorem State.portRead_ref {s : State} (hc : s.cfg = { Ref.cfg with rom := s.cfg.rom })
    (hF : s.timing.framePos < s.cfg.frameCycles) (q : Addr) :
    let v := (s.refIn q).getD s.floating
    s.portRead q = .ok ((s.logBus v).emit (.portR q v (s.claimant q)), v) := by
  unfold State.portRead
  simp only [portWait, s.advance_zero hF, State.unitRead_ref hc]

theorem execInp_of_ok {s : State} {r : State × Byte} {d : Sel8} {p : PairSel} (hd : s.hasSel d = true) (hp : s.hasPair p = true)
    (h : s.portRead (s.readPair p) = .ok r) : execInp d p s = .next (r.1.writeSel d r.2) := by
  rw [execInp, hd, hp, h]
  rfl

/-- `IN A,W` as a tick of REF (40_microops.md R158). -/
theorem State.IsRef.inTick {s : State} (hs : s.IsRef) (hF : s.timing.framePos < s.cfg.frameCycles) :
    let q := s.cpu.w
    let v := (s.refIn q).getD s.floating
    ∃ t, s.tick (execInp refA .w) = .next t ∧ t.cpu = s.cpu.writeSel refA v ∧
      t.seq = { s.seq with cursor := s.seq.cursor + 1 } ∧ t.trace = s.trace ++ [.portR q v (s.claimant q)] ∧ s.Quiet t := by
  intro q v
  have hm : execInp refA .w s.bumpCursor =
      .next (((s.bumpCursor.logBus v).emit (.portR q v (s.claimant q))).writeSel refA v) := by
    refine execInp_of_ok (r := (_, v)) hs.hasSel_refA rfl ?_
    rw [State.readPair_w]
    exact State.portRead_ref (s := s.bumpCursor) hs.cfg hF q
  exact hs.quietTick hm (by simp) (by simpa using hs.r8) (by simp) (by simp) (by simp) (by simp) (by simp) (by simp)
    (by simpa using hs.queue) (by simpa using hs.failed)

/-- Settles O50: the operand's ticks are quiet, and the last tick reads the port. -/
theorem refInResult : Obligations.RefInResult := by
  intro s hs
  obtain ⟨m, hm, hcpu, hseq, hq⟩ := hs.operand 0xDB
  have hF : m.timing.framePos < m.cfg.frameCycles :=
    State.ticks_framePos hm hq.isRef.failed (by rw [hq.isRef.cfg]; exact Nat.succ_pos 15)
  obtain ⟨t, ht, hcpu', hseq', htrace, hq'⟩ := hq.isRef.inTick hF
  have hw : m.cpu.w = s.readBus (s.cpu.pc + 1) ++ s.readBus s.cpu.pc := by rw [hcpu]
  have hA : t.readSel (.r 0) = (m.refIn m.cpu.w).getD m.floating := by
    rw [State.readSel, hcpu', hq.isRef.readSel_writeSel_refA]
  have hie : m.ic.ier = s.ic.ier ∧ m.ic.ifr = s.ic.ifr := by rw [hq.ic, State.icUpdate_eq]; exact ⟨rfl, rfl⟩
  have hclaim := State.claimant_ref hq.isRef.cfg m.cpu.w
  refine ⟨t, m.claimant m.cpu.w, m, (runProgram_operand hm _).trans ht, ?_, ?_, ?_, by rw [hseq', hseq], ?_⟩
  · rw [hcpu', hcpu]; rfl
  · rw [hcpu', hcpu]; rfl
  · rw [hcpu', hcpu]
    exact ((Cpu.sameBut_pc_w { s.cpu with ir := 0xDB } _ _).trans (Cpu.writeSel_sameBut _ refA _)).mono (by decide)
  obtain ⟨hic, hunits, hfailed, hcfg, hpaging, hkept⟩ := (hq.trans hq').frame
  rw [← hw, State.readPair_w, hA, htrace]
  refine ⟨hic, hunits, hfailed, hcfg, hpaging, hkept, by simp, fun h => ?_, fun h => ?_, hm, rfl, fun h => ?_, fun h => ?_,
    fun h => ?_⟩
  · rw [hclaim, h]
    simp [State.refIn, hie]
  · rw [hclaim, h]
    simp [State.refIn, hie]
  · rw [hclaim, h]
    simp [State.refIn]
  · rw [hclaim, h]
    simp [State.refIn, hq.board]
  · simp only [List.mem_cons, List.not_mem_nil, or_false, not_or] at h
    obtain ⟨hie, hif, hpage, hboard⟩ := h
    rw [hclaim]
    simp only [State.refIn, hie, hif, hpage, hboard, if_false, or_self, Option.getD_none, and_self]

end Sys2Proof.Machine
end

section
/-! Progress (40_microops.md R140): every word the sequencer meets is a micro-op whose operands exist, and such a micro-op always
gives a next state. -/

namespace Sys2Proof.Machine

/-! ### What retires, said from the state -/

/-- Each case of `Retires` is what `exec` answers. -/
theorem Retires.exec_eq {s t : State} {i : Instr} (h : Retires s i t) : exec i s = .next t := by
  cases h
  case splice j hp hw => simp [exec, execFetch, State.splice, hp, hw]
  case fetch hp ht => exact (if_neg hp).trans (if_pos ht)
  case fetchx tb ht => exact if_pos ht
  case dec16 p hp => simp [exec, execDec16, hp]
  case inc16 p hp => simp [exec, execInc16, hp]
  case rd d p hd hp => simp [exec, execRd, hd, hp]
  case wr a p ha hp => simp [exec, execWr, ha, hp]
  case mov d a hd ha => simp [exec, execMov, hd, ha]
  case setpc p hp => simp [exec, execSetpc, hp]
  case setvec v hv => simp [exec, execSetvec, hv]
  case irqchk hp => simp [exec, execIrqchk, hp]
  case cancel hp => simp [exec, execIrqchk, hp]
  case inp d p hd hp r hr => exact execInp_of_ok hd hp hr
  case outp a p ha hp ht => exact execOutp_of_ok ha hp ht
  case alu d a c hd ha => simp [exec, execAlu, hd, ha]
  all_goals rfl

/-! ### Operands and words -/

theorem State.Inv.hasSel {s : State} (hs : s.Inv) {d : Sel8} (h : d.wf s.cfg = true) : s.hasSel d = true := by
  rw [State.hasSel_eq, hs.r8Length]
  cases d <;> exact h

theorem State.Inv.hasPair {s : State} (hs : s.Inv) {p : PairSel} (h : p.wf s.cfg = true) : s.hasPair p = true := by
  rw [State.hasPair_iff]
  cases p with
  | map j =>
    obtain ⟨-, hsel, -⟩ := (Cfg.wf_iff s.cfg).mp hs.cfgWf
    simp only [Cfg.wfSel, Bool.and_eq_true, List.all_eq_true] at hsel
    obtain ⟨⟨-, hpairs⟩, -⟩ := hsel
    obtain ⟨⟨hi, lo⟩, hj⟩ := Option.isSome_iff_exists.mp h
    obtain ⟨e, he, heq⟩ := Option.map_eq_some_iff.mp hj
    cases heq
    have hwf := hpairs e (List.mem_of_find?_eq_some he)
    simp only [PairEntry.wf, Bool.and_eq_true] at hwf
    obtain ⟨⟨hhi, hlo⟩, -⟩ := hwf
    exact ⟨e.hi, e.lo, hj, hs.hasSel hhi, hs.hasSel hlo⟩
  | pc => exact ⟨.pch, .pcl, rfl, rfl, rfl⟩
  | sp => exact ⟨.sph, .spl, rfl, rfl, rfl⟩
  | w => exact ⟨.wh, .wl, rfl, rfl, rfl⟩

/-- The words of the entry programs are micro-ops whose operands every configuration has (30_encoding.md R123). -/
theorem entryWord_decodes {w : UWord} (c : Cfg)
    (h : w ∈ variantPrefix 1 ++ dispatchWords ∨ w ∈ variantPrefix 1 ++ cancelledWords) :
    ∃ i, decodeUop w = some i ∧ i.wf c = true := by
  obtain ⟨hd, hc⟩ := entryWords_decode
  rcases h with h | h
  all_goals
    have hm := List.mem_map_of_mem (f := decodeUop) h
    simp only [hd, hc, List.mem_cons, List.not_mem_nil, or_false] at hm
    rcases hm with e | e | e | e | e | e | e | e <;> exact ⟨_, e, rfl⟩

theorem mem_variantPrefix {v : Nat} {l : List UWord} {w : UWord} (h : w ∈ variantPrefix v ++ l) : w ∈ variantPrefix 1 ++ l := by
  unfold variantPrefix at *
  split at h <;> simp_all

/-- The word the sequencer meets is a micro-op whose operands exist (R117, R127). -/
theorem State.Inv.nextWord_decodes {s : State} (hs : s.Inv) {w : UWord} (h : s.nextWord = some w) :
    ∃ i, decodeUop w = some i ∧ i.wf s.cfg = true := by
  have hw : w ∈ s.seq.progId.prog s.cfg := List.mem_of_getElem? h
  cases e : s.seq.progId with
  | table t b =>
    rw [e, ProgId.prog] at hw
    cases hp : s.cfg.prog? t b with
    | none => rw [hp] at hw; cases hw
    | some p =>
      rw [hp] at hw
      have hok := Cfg.programOk hs.cfgWf (Cfg.prog?_mem hp)
      obtain ⟨i, hi⟩ := hok.decodes hw
      exact ⟨i, hi, Instr.wf_of_word hi (hok.sels w hw) (hok.tables w hw)⟩
  | dispatch v => rw [e] at hw; exact entryWord_decodes s.cfg (.inl (mem_variantPrefix hw))
  | cancelled v => rw [e] at hw; exact entryWord_decodes s.cfg (.inr (mem_variantPrefix hw))
  | empty => rw [e] at hw; cases hw

/-! ### Every micro-op completes -/

theorem State.Inv.winner {s : State} (hs : s.Inv) (h : s.ic.st = .pending) : ∃ j, s.winner = some j := by
  have hr := hs.pending h
  simp only [State.requesting, Bool.and_eq_true, bne_iff_ne] at hr
  exact State.winner_of_requests hr.2

theorem State.Inv.fetch_completes {s : State} (hs : s.Inv) : ∃ t, exec .fetch s = .next t := by
  by_cases hp : s.ic.st = .pending
  · obtain ⟨j, hj⟩ := hs.winner hp
    exact ⟨_, (Retires.splice j hp hj).exec_eq⟩
  · obtain ⟨-, -, -, htables, -⟩ := (Cfg.wf_iff s.cfg).mp hs.cfgWf
    simp only [Cfg.wfTables, Bool.and_eq_true] at htables
    obtain ⟨⟨h0, -⟩, -⟩ := htables
    exact ⟨_, (Retires.fetch hp h0).exec_eq⟩

theorem State.Inv.setvec_completes {s : State} (hs : s.Inv) : ∃ t, exec .setvec s = .next t := by
  obtain ⟨-, -, -, -, hirq, -⟩ := (Cfg.wf_iff s.cfg).mp hs.cfgWf
  simp only [Cfg.wfIrq, Bool.and_eq_true, decide_eq_true_eq] at hirq
  obtain ⟨⟨-, hlen⟩, -⟩ := hirq
  have hlt : s.ic.src < s.cfg.vector.length := hlen ▸ hs.srcLt
  exact ⟨_, (Retires.setvec _ (List.getElem?_eq_getElem hlt)).exec_eq⟩

/-- `IN` gives a next state whether or not a peripheral reports failure (60_exceptions.md R293). -/
theorem exec_inp_completes {s : State} {d : Sel8} {p : PairSel} (hd : s.hasSel d = true) (hp : s.hasPair p = true) :
    ∃ t, exec (.inp d p) s = .next t := by
  cases hr : s.portRead (s.readPair p) with
  | ok r => exact ⟨_, (Retires.inp d p hd hp r hr).exec_eq⟩
  | error e => exact ⟨s.raise e, by simp [exec, execInp, hd, hp, hr]⟩

theorem exec_outp_completes {s : State} {a : Sel8} {p : PairSel} (ha : s.hasSel a = true) (hp : s.hasPair p = true) :
    ∃ t, exec (.outp a p) s = .next t := by
  cases ht : s.portWrite (s.readPair p) (s.readSel a) with
  | ok t => exact ⟨t, (Retires.outp a p ha hp t ht).exec_eq⟩
  | error e => exact ⟨s.raise e, by simp [exec, execOutp, ha, hp, ht]⟩

/-- A micro-op whose operands exist completes in every state of the invariant. -/
theorem State.Inv.exec_completes {s : State} (hs : s.Inv) {w : UWord} {i : Instr} (hd : decodeUop w = some i)
    (hi : i.wf s.cfg = true) : ∃ t, exec i s = .next t := by
  have he := encode_of_decodeUop hd
  cases i <;> cases he
  case fetch => exact hs.fetch_completes
  case setvec => exact hs.setvec_completes
  case fetchx t => exact ⟨_, (Retires.fetchx t hi).exec_eq⟩
  case dec16 p => exact ⟨_, (Retires.dec16 p (hs.hasPair hi)).exec_eq⟩
  case inc16 p => exact ⟨_, (Retires.inc16 p (hs.hasPair hi)).exec_eq⟩
  case setpc p => exact ⟨_, (Retires.setpc p (hs.hasPair hi)).exec_eq⟩
  case irqchk =>
    cases h : s.stillPending with
    | true => exact ⟨_, (Retires.irqchk h).exec_eq⟩
    | false => exact ⟨_, (Retires.cancel h).exec_eq⟩
  case rd d p =>
    obtain ⟨h1, h2⟩ := Bool.and_eq_true_iff.mp hi
    exact ⟨_, (Retires.rd d p (hs.hasSel h1) (hs.hasPair h2)).exec_eq⟩
  case wr a p =>
    obtain ⟨h1, h2⟩ := Bool.and_eq_true_iff.mp hi
    exact ⟨_, (Retires.wr a p (hs.hasSel h1) (hs.hasPair h2)).exec_eq⟩
  case inp d p =>
    obtain ⟨h1, h2⟩ := Bool.and_eq_true_iff.mp hi
    exact exec_inp_completes (hs.hasSel h1) (hs.hasPair h2)
  case outp a p =>
    obtain ⟨h1, h2⟩ := Bool.and_eq_true_iff.mp hi
    exact exec_outp_completes (hs.hasSel h1) (hs.hasPair h2)
  case mov d a =>
    obtain ⟨h1, h2⟩ := Bool.and_eq_true_iff.mp hi
    exact ⟨_, (Retires.mov d a (hs.hasSel h1) (hs.hasSel h2)).exec_eq⟩
  case alu d a c =>
    obtain ⟨h1, h2⟩ := Bool.and_eq_true_iff.mp hi
    exact ⟨_, (Retires.alu d a c (hs.hasSel h1) (hs.hasSel h2)).exec_eq⟩
  all_goals exact ⟨_, rfl⟩

/-! ### The tick -/

theorem State.Inv.bumpCursor {s : State} (hs : s.Inv) (h : s.nextWord ≠ none) : s.bumpCursor.Inv :=
  .of_parts hs.clocked (hs.registersOk.congr rfl rfl rfl rfl) (hs.inProgram.bumpCursor h) hs.pending

theorem State.Inv.haltTick_completes {s : State} (hs : s.Inv) : ∃ t, s.haltTick = .next t := by
  unfold State.haltTick
  dsimp only
  split
  · next hp =>
    obtain ⟨j, hj⟩ := hs.winner hp
    have hw : ({ s with cpu := { s.cpu with halted := false } } : State).winner = some j := hj
    exact ⟨_, by rw [State.splice, hw]⟩
  · split
    · exact ⟨_, rfl⟩
    · exact ⟨_, rfl⟩

/-- The end of a tick gives a next state, a failed one where a peripheral reports failure (60_exceptions.md R295). -/
theorem State.commit_completes (s u : State) : ∃ t, s.commit (.next u) = .next t := by
  unfold State.commit
  dsimp only
  split
  · exact ⟨_, rfl⟩
  · split
    · exact ⟨_, rfl⟩
    · exact ⟨_, rfl⟩

/-- Settles O60: by what the tick does: the halt tick, the implicit fetch and the next word's micro-op each complete, and so does
the end of the tick. -/
theorem stepMakesProgress : Obligations.StepMakesProgress := by
  intro s hs hf
  cases hh : s.cpu.halted with
  | true =>
    obtain ⟨u, hu⟩ := hs.haltTick_completes
    simp only [step, State.stepWith, hf, hh, if_true, hu]
    exact s.commit_completes u
  | false =>
    cases hw : s.nextWord with
    | none =>
      obtain ⟨u, hu⟩ := hs.fetch_completes
      simp only [step, State.stepWith, hf, hh, hw, hu]
      exact s.commit_completes u
    | some w =>
      obtain ⟨i, hd, hi⟩ := hs.nextWord_decodes hw
      obtain ⟨u, hu⟩ := (hs.bumpCursor (by simp [hw])).exec_completes hd hi
      rw [step_word hh hw hd]
      simp only [State.tick, hf, hu]
      exact s.commit_completes u

end Sys2Proof.Machine
end

section
/-! The tick (40_microops.md R141 to R143, R148): the word it retires, the implicit fetch, and its accesses. -/

namespace Sys2Proof.Machine

/-! ### The word retired -/

/-- A tick that retires a word is the end of the tick of its micro-op, with the cursor advanced (R141). -/
theorem step_commit {s : State} {w : UWord} {i : Instr} (hf : s.failed = none) (hh : s.cpu.halted = false)
    (hw : s.nextWord = some w) (hd : decodeUop w = some i) : step s = s.commit (exec i s.bumpCursor) := by
  rw [step_word hh hw hd, State.tick, hf]

/-- Settles O12: the branches of `commit`. -/
theorem stepRunsNextWord : Obligations.StepRunsNextWord := by
  intro s w i hf hh hw hd s1
  have hs : step s = s.commit (exec i s1) := step_commit hf hh hw hd
  rw [hs]
  refine ⟨fun t ht hn u hu => ?_, fun t ht hn e he => ?_, fun t e ht he => ?_, fun f hx => ?_, fun r hx => ?_⟩
  · simp only [ht, State.commit, hn, hu]
  · simp only [ht, State.commit, hn, he, State.raise]
  · simp only [ht, State.commit, he, State.raise]
  · rw [hx, State.commit]
  · rw [hx, State.commit]

/-! ### The implicit fetch -/

/-- `FETCH` begins a program or an interrupt entry, so it does not depend on the program in flight (R146, R148). -/
theorem exec_fetch_withSeq (s : State) (q : Seq) : exec .fetch { s with seq := q } = exec .fetch s := by
  have hw : ({ s with seq := q } : State).winner = s.winner := rfl
  by_cases hp : s.ic.st = .pending
  · simp only [exec, execFetch, hp, if_true, State.splice, hw]
    cases s.winner <;> rfl
  · simp only [exec, execFetch, hp, if_false, State.fetchFrom_withSeq]

/-- Settles O13: an exhausted program and a `FETCH` word both retire `FETCH`, which the cursor takes no part in. -/
theorem implicitFetch : Obligations.ImplicitFetch := by
  intro s hf hh
  refine ⟨fun hc => ?_, fun hw => ?_, exec_fetch_withSeq s⟩
  · have hn : s.nextWord = none := List.getElem?_eq_none (Nat.le_of_eq hc.symm)
    simp only [step, State.stepWith, hf, hh, hn]
    rfl
  · have hd : decodeUop 0x01000000 = some .fetch := by decide +kernel
    rw [step_commit hf hh hw hd]
    exact congrArg s.commit (exec_fetch_withSeq s _)

/-! ### One access a tick -/

/-- The trace grows by events of which at most one is an access (R143). -/
def State.OneAccess (s t : State) : Prop :=
  ∃ evs : List Event, t.trace = s.trace ++ evs ∧ (evs.filter Event.isAccess).length ≤ 1

theorem Timed.oneAccess {s t : State} {evs : List Event} (h : Timed s t evs) : s.OneAccess t := ⟨evs, h.trace, h.access⟩

/-- One event is at most one access. -/
theorem State.OneAccess.emit {s u : State} (h : u.trace = s.trace) (e : Event) : s.OneAccess (u.emit e) :=
  ⟨[e], by rw [State.emit, h], List.length_filter_le _ _⟩

theorem State.OneAccess.of_trace {s t : State} (h : t.trace = s.trace) : s.OneAccess t :=
  ⟨[], by rw [h, List.append_nil], by simp⟩

theorem State.portRead_oneAccess {s : State} {q : Addr} {r : State × Byte} (h : s.portRead q = .ok r) : s.OneAccess r.1 := by
  obtain ⟨x, hx, -, e⟩ := State.portRead_ok h
  have hx' : x.1.trace = s.trace := by rw [State.unitRead_eq hx]; simp
  rw [e]
  exact .emit hx' _

theorem State.portWrite_oneAccess {s t : State} {q : Addr} {v : Byte} (h : s.portWrite q v = .ok t) : s.OneAccess t := by
  obtain ⟨u, w, hu, rfl, rfl⟩ := State.portWrite_ok h
  refine .emit ?_ _
  rw [(State.observe_eq _ _ _ _ _).1, State.unitWrite_eq hu]
  simp

/-- Every retired micro-op makes at most one access, wherever FRAME_POS is (R143). -/
theorem Retires.oneAccess {s t : State} {i : Instr} (h : Retires s i t) : s.OneAccess t := by
  cases h
  case splice j _ _ => exact .emit rfl (.splice j)
  case cancel => exact .emit rfl (.cancel s.ic.src)
  case setvec v _ => exact .emit rfl (.ack s.ic.src)
  case fetch =>
    obtain ⟨evs, h⟩ := s.fetchFrom_timed 0
    exact h.oneAccess
  case fetchx tb _ =>
    obtain ⟨evs, h⟩ := s.fetchFrom_timed tb
    exact h.oneAccess
  case rd p _ _ => exact (s.readMemory_timed false (s.readPair p)).oneAccess
  case wr a p _ _ =>
    obtain ⟨evs, h⟩ := s.writeMemory_timed (s.readPair p) (s.readSel a)
    exact h.oneAccess
  case inp hr => exact State.portRead_oneAccess hr
  case outp ht => exact State.portWrite_oneAccess ht
  case dec16 => exact .of_trace (by simp)
  case inc16 => exact .of_trace (by simp)
  all_goals exact .of_trace rfl

/-- Settles O16: a rolled-back tick leaves the trace, a halt tick records at most a `Splice`, and otherwise the micro-op's events
are the tick's. -/
theorem oneAccessPerTick : Obligations.OneAccessPerTick := by
  intro s t h
  obtain ⟨-, ⟨k, rfl⟩ | ⟨u, -, hu, ⟨-, hh⟩ | ⟨i, s0, hh, -, hr, hs0⟩⟩⟩ := step_retires h
  · exact ⟨[], by simp, by simp, fun _ => rfl⟩
  · rw [State.endTick_trace hu]
    rcases State.haltTick_next hh with ⟨j, -, -, rfl⟩ | ⟨-, -, rfl⟩ | ⟨-, -, rfl⟩
    · exact ⟨[.splice j], rfl, by simp [Event.isAccess], fun _ => rfl⟩
    · exact ⟨[], by simp, by simp, fun _ => rfl⟩
    · exact ⟨[], by simp, by simp, fun _ => rfl⟩
  · obtain ⟨evs, ht, ha⟩ := hr.oneAccess
    have h0 : s0.trace = s.trace := by rcases hs0 with ⟨-, rfl⟩ | ⟨-, rfl⟩ <;> rfl
    exact ⟨evs, by rw [State.endTick_trace hu, ht, h0], ha, by simp [hh]⟩

end Sys2Proof.Machine
end

section
/-! The data and control micro-ops, which change only CPU registers or IC_STATE (40_microops.md R150 to R157, R160 to R162). -/

namespace Sys2Proof.Machine

/-- Settles O22: no other field is named by the definitions. -/
theorem controlResults : Obligations.ControlResults :=
  fun _ => ⟨rfl, rfl, rfl, rfl, rfl, rfl, fun p hp => (Retires.setpc p hp).exec_eq⟩

/-- The CPU takes no part in what the bus reads (41_bus.md R190). -/
theorem State.readBus_withCpu (s : State) (c : Cpu) (a : Addr) : ({ s with cpu := c } : State).readBus a = s.readBus a :=
  readBus_alike ⟨rfl, rfl, rfl, rfl, rfl, rfl⟩ a

theorem State.writePair_readBus (s : State) (p : PairSel) (v a : Addr) : (s.writePair p v).readBus a = s.readBus a := by
  rw [State.writePair_eq]
  exact s.readBus_withCpu _ a

/-- Settles O26: a pair with distinct halves reads back what is written to it, and the write changes its halves alone. -/
theorem pairStepResults : Obligations.PairStepResults := by
  intro s p hi lo hp hne hhi hlo
  have hpair : s.hasPair p = true := (s.hasPair_iff p).mpr ⟨hi, lo, hp, hhi, hlo⟩
  have result : ∀ v : Addr, (s.writePair p v).readPair p = v ∧ s.writePair p v = { s with cpu := (s.writePair p v).cpu } ∧
      s.cpu.SameBut [hi, lo] (s.writePair p v).cpu ∧ ∀ a, (s.writePair p v).readBus a = s.readBus a := fun v =>
    ⟨State.readPair_writePair hp hne hhi hlo v, s.writePair_eq p v, State.writePair_sameBut hp v, s.writePair_readBus p v⟩
  exact ⟨⟨_, (Retires.dec16 p hpair).exec_eq, result _⟩, ⟨_, (Retires.inc16 p hpair).exec_eq, result _⟩⟩

/-- Settles O27: `MOV` is one byte register written. -/
theorem movResult : Obligations.MovResult := fun s d x hd hx =>
  ⟨_, (Retires.mov d x hd hx).exec_eq, State.readSel_writeSel_same _ hd, rfl, s.cpu.writeSel_sameBut d _, s.readBus_withCpu _⟩

/-- FLAGS is the byte register of its selector (30_encoding.md R114). -/
theorem State.setFlags_eq_writeSel (s : State) (f : Byte) : s.setFlags f = s.writeSel .flags f := rfl

/-- Settles O28: `ALU` is two byte registers written, FLAGS last, so a destination FLAGS holds the flags. -/
theorem aluResult : Obligations.AluResult := by
  intro s d x c hd hx r
  refine ⟨_, (Retires.alu d x c hd hx).exec_eq, rfl, ?_, rfl, ?_, s.readBus_withCpu _⟩
  · rw [State.setFlags_eq_writeSel]
    split
    · next h => subst h; rfl
    · next h => rw [State.readSel_writeSel_other _ _ h, State.readSel_writeSel_same _ hd]; rfl
  · exact (s.cpu.writeSel_sameBut d _).trans (Cpu.writeSel_sameBut _ .flags _)

end Sys2Proof.Machine
end

section
/-! The fetch and the timed read and write as micro-ops: what each leaves, whole (40_microops.md R146, R147, R153, R154; 41_bus.md
R193, R197, R198; 43_board.md R232 to R235). -/

namespace Sys2Proof.Machine

/-! ### The timed read -/

/-- A timed read, whole: the wait, then the bus log and the event (R197). -/
theorem State.readMemory_eq (s : State) (f : Bool) (a : Addr) :
    let u := s.advance (s.memWait a)
    let v := u.readBus a
    s.readMemory f a =
      ({ u with
          timing := { u.timing with buslog := Memory.write BusLog.unlisted s.timing.buslog u.timing.framePos v }
          trace := s.trace ++ [if f then .fetch a v (s.memWait a) else .memR a v (s.memWait a)] }, v) := by
  simp [State.readMemory, State.emit, State.logBus]

/-- A byte read after a wait is the byte before it, where no floating-bus byte enters it (41_bus.md R191). -/
theorem State.readBus_advance {s : State} {a : Addr} (h : s.steady a = true) (n : Nat) : (s.advance n).readBus a = s.readBus a :=
  State.readBus_steady (s.advance_sameMemory n) a h

/-- Settles O18: a fetch is a timed read, which then writes PC, BUG, IR and the sequencer. -/
theorem fetchResults : Obligations.FetchResults := by
  intro s tb i ht hi a u b
  have hr : Retires s i (s.fetchFrom tb) := by
    rcases hi with ⟨rfl, rfl, hp⟩ | rfl
    · exact .fetch hp ht
    · exact .fetchx tb ht
  have e := s.fetchFrom_eq tb
  simp only [State.readMemory_eq] at e
  rw [e] at hr
  exact ⟨_, hr.exec_eq, rfl, s.advance_ic _, s.advance_failed _, s.advance_fixed _,
    State.SameMemory.kept ⟨s.advance_paging _, s.advance_board _, s.advance_fixed _⟩, fun h => State.readBus_advance h _⟩

/-- Settles O30: a timed read and one byte register written. -/
theorem readResult : Obligations.ReadResult := by
  intro s d p hd hp a u v
  have hr := Retires.rd d p hd hp
  simp only [State.readMemory_eq] at hr
  have hu : u.cpu = s.cpu := s.advance_cpu _
  refine ⟨_, hr.exec_eq, ?_, ?_, rfl, s.advance_seq _, s.advance_ic _, s.advance_failed _, s.advance_fixed _,
    State.SameMemory.kept ⟨s.advance_paging _, s.advance_board _, s.advance_fixed _⟩, fun h => State.readBus_advance h _⟩
  · exact State.readSel_writeSel_same _ (by rw [State.hasSel_eq] at hd ⊢; rwa [← hu] at hd)
  · rw [← hu]
    exact Cpu.writeSel_sameBut _ d _

/-! ### The timed write -/

/-- What answers an address does not depend on the wait or the bus log (20_memory.md R78). -/
theorem State.resolve_waited (s : State) (n : Nat) (v : Byte) (a : Addr) : ((s.advance n).logBus v).resolve a = s.resolve a :=
  State.resolve_congr ⟨by simp, by simp, by simp⟩ a

/-- A timed write that RAM takes, whole (R193, R196, R198). -/
theorem State.writeMemory_ram {s : State} {a : Addr} {n o : Nat} (h : s.resolve a = .ramByte n o) (v : Byte) :
    let w := s.memWait a
    let u := s.advance w
    s.writeMemory a v =
      { u with
        paging := { s.paging with ram := Memory.write Memory.unlisted s.paging.ram (bankKey n o) v }
        timing := { u.timing with buslog := Memory.write BusLog.unlisted s.timing.buslog u.timing.framePos v }
        trace := s.trace ++ ((if s.paging.vid.get (win a) then [.videoW a v u.timing.framePos] else []) ++
          [.memW a v true w]) } := by
  simp only [State.writeMemory, State.writeBus_ram ((s.resolve_waited _ v a).trans h)]
  simp [State.emit, State.writeRam, State.logBus]

/-- A timed write that is discarded, whole (R194, R198). -/
theorem State.writeMemory_discarded {s : State} {a : Addr} (h : s.resolve a = .none ∨ ∃ n o, s.resolve a = .romByte n o)
    (v : Byte) :
    let w := s.memWait a
    let u := s.advance w
    s.writeMemory a v =
      { u with
        timing := { u.timing with buslog := Memory.write BusLog.unlisted s.timing.buslog u.timing.framePos v }
        trace := s.trace ++ [.memW a v false w] } := by
  rw [← s.resolve_waited (s.memWait a) v a] at h
  simp only [State.writeMemory, State.writeBus_discarded h]
  simp [State.emit, State.logBus]

/-- Settles O31: by what answers the address; after a store to RAM its byte holds the value and every other byte is kept. -/
theorem writeResult : Obligations.WriteResult := by
  intro s x p hx hp a v w u
  have hr : exec (.wr x p) s = .next (s.writeMemory a v) := (Retires.wr x p hx hp).exec_eq
  refine ⟨fun n o h => ?_, fun h => ?_⟩
  · have e := State.writeMemory_ram h v
    obtain ⟨hram, hother, hresolve, hbus⟩ := State.readBus_of_ramWrite (t := s.writeMemory a v) (v := v)
      (State.resolve_ram_offset h) (by rw [e]) (s.writeMemory_fixed a v)
    exact ⟨_, hr, by rw [e], s.writeMemory_cpu a v, s.writeMemory_seq a v, s.writeMemory_ic a v,
      by rw [e]; exact s.advance_board w, s.writeMemory_failed a v, s.writeMemory_fixed a v,
      (State.readBus_ram ((hresolve a).trans h)).trans hram, hram, hother, hbus⟩
  · have e := State.writeMemory_discarded h v
    exact ⟨_, hr, e, s.writeMemory_cpu a v, s.writeMemory_seq a v, s.writeMemory_ic a v, s.writeMemory_failed a v,
      s.writeMemory_fixed a v, State.SameMemory.kept ⟨by simp [e], by simp [e], by simp⟩⟩

/-! ### The timed write into the board's window -/

/-- A timed write that the board takes: its actions after the wait, the bus log and the event (43_board.md R235, R198). -/
theorem State.writeMemory_board {s : State} {a : Addr} {b : BoardCfg} (h : s.resolve a = .board b) (v : Byte) :
    let u := (s.advance (s.memWait a)).logBus v
    s.writeMemory a v =
      (u.boardActs b a.toNat v.toNat b.writes).emit (.memW a v (u.boardStores b a.toNat v.toNat b.writes) (s.memWait a)) := by
  simp only [State.writeMemory, State.writeBus, s.resolve_waited, h, State.boardWrite]

/-- A board's actions leave the mapping: of the paging unit they change RAM alone (43_board.md R234). -/
theorem State.boardActs_paging (s : State) (b : BoardCfg) (x y : Nat) (l : List BoardAct) :
    (s.boardActs b x y l).paging = { s.paging with ram := (s.boardActs b x y l).paging.ram } := by
  obtain ⟨hpreg, hsel, hcont, hvid, -, -⟩ := s.boardActs_step b x y l
  change _ = Paging.mk s.paging.preg s.paging.sel s.paging.cont s.paging.vid _
  rw [← hpreg, ← hsel, ← hcont, ← hvid]

/-- A RAM byte behind no address of the board's window is kept by the board's actions (R234). -/
theorem State.readRam_boardActs {s u : State} (hp : u.paging = s.paging) {b : BoardCfg} (x y : Nat) (l : List BoardAct) {n o : Nat}
    (ho : o < windowSize) (h : ∀ c : Nat, b.lo ≤ c → c ≤ b.hi → s.base (BitVec.ofNat 16 c) ≠ .ramByte n o) :
    (u.boardActs b x y l).readRam n o = s.readRam n o := by
  have hu : ¬u.InWindow b n o := fun ⟨c, hlo, hhi, hc⟩ => h c hlo hhi ((State.base_of_sel (by rw [hp]) _).symm.trans hc)
  rw [(u.boardActs_step b x y l).ram n o ho hu, State.readRam, State.readRam, hp]

/-- Settles O32: the board's actions after the wait change the board's registers and RAM of its window, and nothing else. -/
theorem boardWriteConfined : Obligations.BoardWriteConfined := by
  intro s x p b hx hp h a v w u
  have hr : exec (.wr x p) s = .next ((u.boardActs b a.toNat v.toNat b.writes).emit
      (.memW a v (u.boardStores b a.toNat v.toNat b.writes) (s.memWait a))) :=
    (Retires.wr x p hx hp).exec_eq.trans (congrArg Host.Outcome.next (State.writeMemory_board h v))
  have hboard : u.board = s.board := s.advance_board _
  have hpaging : u.paging = s.paging := s.advance_paging _
  have hfixed : (u.boardActs b a.toNat v.toNat b.writes).cfg.fixed = s.cfg.fixed := by simp [u, w]
  refine ⟨_, _, hr, by simp [u, w], by simp [u, w], by simp [u, w], by simp [u, w], rfl, rfl, rfl, fun hn => ?_, hfixed, ?_,
    by simp [State.emit, u, w], ?_, fun n o ho hout => State.readRam_boardActs hpaging _ _ _ ho hout, State.readRom_congr hfixed⟩
  · have hs : u.boardActs b a.toNat v.toNat b.writes = u := State.boardActs_of_not_stores b _ _ _ hn
    exact ⟨(congrArg State.board hs).trans hboard, (congrArg State.paging hs).trans hpaging⟩
  · rw [← hpaging]
    exact u.boardActs_paging b _ _ _
  · have e := u.boardActs_eq b a.toNat v.toNat b.writes
    simp only [State.emit, State.boardActs_trace]
    rw [e]
    simp [u, w, State.logBus]

end Sys2Proof.Machine
end

section
/-! The port micro-ops: what each claimant answers or takes, the observers, and what is left alone (40_microops.md R158, R159;
42_ports.md R212 to R219). -/

namespace Sys2Proof.Machine

/-! ### The claimant -/

/-- The board claims a port only where one is configured and its port window holds the port (R212). -/
theorem State.boardPort_of_claimant {s : State} {q : Addr} (h : s.claimant q = .board) :
    ∃ b, s.cfg.board = some b ∧ s.boardPort q = some b := by
  unfold State.claimant at h
  split at h
  · next b hb => exact ⟨b, (Option.filter_eq_some_iff.mp hb).1, hb⟩
  · split at h <;> cases h

/-! ### What a claimant answers (R211, R215) -/

theorem State.unitRead_board {s : State} {q : Addr} {b : BoardCfg} (h : s.boardPort q = some b) :
    s.unitRead .board q = .ok (s, if s.boardEval b q.toNat 0 b.portOk = 0 then none
      else some (BitVec.ofNat 8 (s.boardEval b q.toNat 0 b.portVal))) := by
  simp only [State.unitRead, h]

theorem State.unitRead_ic {s : State} {k : Nat} (h : s.cfg.periph[k]? = some .ic) (q : Addr) :
    s.unitRead (.periph k) q = .ok (s, some (s.icRead q)) := by
  simp only [State.unitRead, h]

theorem State.unitRead_paging {s : State} {k : Nat} (h : s.cfg.periph[k]? = some .paging) (q : Addr) :
    s.unitRead (.periph k) q = .ok (s, s.pagingRead q) := by
  simp only [State.unitRead, h]

theorem State.unitRead_device {s : State} {k : Nat} {d : Device} {q : Addr} (h : s.cfg.periph[k]? = some (.device d))
    (hf : s.devEval (s.pstate k) q.toNat 0 d.readFail = 0) :
    s.unitRead (.periph k) q = .ok (s.setPstate k (s.devActs q.toNat 0 d.readActs (s.pstate k)),
      if s.devEval (s.pstate k) q.toNat 0 d.readOk = 0 then none
        else some (BitVec.ofNat 8 (s.devEval (s.pstate k) q.toNat 0 d.readVal))) := by
  simp only [State.unitRead, h, hf, ne_eq, not_true_eq_false, if_false]

/-- A claimant answers unless it is a peripheral that reports failure (60_exceptions.md R293). -/
theorem State.unitRead_completes {s : State} {c : Claimant} {q : Addr}
    (h : ∀ k d, c = .periph k → s.cfg.periph[k]? = some (.device d) → s.devEval (s.pstate k) q.toNat 0 d.readFail = 0) :
    ∃ x, s.unitRead c q = .ok x := by
  cases c with
  | none => exact ⟨_, rfl⟩
  | board =>
    cases hb : s.boardPort q with
    | some b => exact ⟨_, State.unitRead_board hb⟩
    | none => exact ⟨(s, none), by simp only [State.unitRead, hb]⟩
  | periph k =>
    match hp : s.cfg.periph[k]? with
    | some .ic => exact ⟨_, State.unitRead_ic hp q⟩
    | some .paging => exact ⟨_, State.unitRead_paging hp q⟩
    | some (.device d) => exact ⟨_, State.unitRead_device hp (h k d rfl hp)⟩
    | none => exact ⟨(s, none), by simp only [State.unitRead, hp]⟩

theorem State.pagingRead_of_reg {s : State} {q : Addr} {r : Nat} (h : Cfg.pagingReg s.cfg q = some r)
    (hr : r < s.paging.preg.length) :
    s.pagingRead q = if s.cfg.paging.readback then some (s.paging.preg.getD r 0) else none := by
  simp [State.pagingRead, h, hr]

/-- A port read inside the frame, whole: the claimant's value or the floating bus's, the bus log and the event (R214 to R216). -/
theorem State.portRead_of_unitRead {s : State} {q : Addr} {x : State × Option Byte} (hF : s.timing.framePos < s.cfg.frameCycles)
    (h : s.unitRead (s.claimant q) q = .ok x) :
    let v := x.2.getD s.floating
    s.portRead q =
      .ok ({ s with
              units := { s.units with periph := x.1.units.periph }
              timing := { s.timing with buslog := Memory.write BusLog.unlisted s.timing.buslog s.timing.framePos v }
              trace := s.trace ++ [.portR q v (s.claimant q)] }, v) := by
  have e := State.unitRead_eq h
  have hfl : x.1.floating = s.floating := by rw [e]; rfl
  simp only [State.portRead, portWait, s.advance_zero hF, h, hfl]
  rw [e]
  rfl

/-- Settles O38: by the claimant, whose answer decides the value and its own state. -/
theorem portReadResult : Obligations.PortReadResult := by
  intro s d p hd hp hF q c hfail
  obtain ⟨x, hx⟩ := State.unitRead_completes hfail
  refine ⟨_, _, (Retires.inp d p hd hp _ (State.portRead_of_unitRead hF hx)).exec_eq, State.readSel_writeSel_same _ hd,
    s.cpu.writeSel_sameBut d _, rfl, State.SameMemory.kept ⟨rfl, rfl, rfl⟩, fun hc => ?_, fun hc => ?_, fun k hc hk => ?_,
    fun k r hc hk hr hlt => ?_, fun k dev hc hk => ?_⟩
  all_goals rw [hc] at hx
  · cases hx
    exact ⟨rfl, rfl⟩
  · obtain ⟨b, hb, hport⟩ := State.boardPort_of_claimant hc
    rw [State.unitRead_board hport] at hx
    cases hx
    refine ⟨rfl, fun b' hb' => ?_⟩
    cases hb.symm.trans hb'
    dsimp only
    split <;> rfl
  · rw [State.unitRead_ic hk] at hx
    cases hx
    refine ⟨rfl, ?_⟩
    dsimp only [State.icRead]
    split <;> rfl
  · rw [State.unitRead_paging hk, State.pagingRead_of_reg hr hlt] at hx
    cases hx
    refine ⟨rfl, ?_⟩
    dsimp only
    split <;> rfl
  · rw [State.unitRead_device hk (hfail k dev hc hk)] at hx
    cases hx
    refine ⟨rfl, ?_⟩
    dsimp only
    split <;> rfl

end Sys2Proof.Machine
end

section
/-! The port write: what each claimant takes, then the observers (40_microops.md R159; 42_ports.md R217 to R219). -/

namespace Sys2Proof.Machine

/-! ### What a claimant takes (R211, R217) -/

theorem State.unitWrite_board {s : State} {q : Addr} {b : BoardCfg} (h : s.boardPort q = some b) (v : Byte) :
    s.unitWrite .board q v = .ok (s.boardActs b q.toNat v.toNat b.portWrites) := by
  simp only [State.unitWrite, h]

theorem State.unitWrite_ic {s : State} {k : Nat} (h : s.cfg.periph[k]? = some .ic) (q : Addr) (v : Byte) :
    s.unitWrite (.periph k) q v = .ok (s.icWrite q v) := by
  simp only [State.unitWrite, h]

theorem State.unitWrite_paging_eq {s : State} {k : Nat} (h : s.cfg.periph[k]? = some .paging) (q : Addr) (v : Byte) :
    s.unitWrite (.periph k) q v = .ok (s.pagingWrite q v) := by
  simp only [State.unitWrite, h]

theorem State.unitWrite_device {s : State} {k : Nat} {d : Device} {q : Addr} {v : Byte}
    (h : s.cfg.periph[k]? = some (.device d)) (hf : s.devEval (s.pstate k) q.toNat v.toNat d.writeFail = 0) :
    s.unitWrite (.periph k) q v = .ok (s.setPstate k (s.devActs q.toNat v.toNat d.writeActs (s.pstate k))) := by
  simp only [State.unitWrite, h, hf, ne_eq, not_true_eq_false, if_false]

/-- A claimant takes the byte unless it is a peripheral that reports failure (60_exceptions.md R293). -/
theorem State.unitWrite_completes {s : State} {c : Claimant} {q : Addr} {v : Byte}
    (h : ∀ k d, c = .periph k → s.cfg.periph[k]? = some (.device d) →
      s.devEval (s.pstate k) q.toNat v.toNat d.writeFail = 0) : ∃ u, s.unitWrite c q v = .ok u := by
  cases c with
  | none => exact ⟨_, rfl⟩
  | board =>
    cases hb : s.boardPort q with
    | some b => exact ⟨_, State.unitWrite_board hb v⟩
    | none => exact ⟨s, by simp only [State.unitWrite, hb]⟩
  | periph k =>
    match hp : s.cfg.periph[k]? with
    | some .ic => exact ⟨_, State.unitWrite_ic hp q v⟩
    | some .paging => exact ⟨_, State.unitWrite_paging_eq hp q v⟩
    | some (.device d) => exact ⟨_, State.unitWrite_device hp (h k d rfl hp)⟩
    | none => exact ⟨s, by simp only [State.unitWrite, hp]⟩

theorem State.icWrite_ic (s : State) (q : Addr) (v : Byte) :
    (s.icWrite q v).ic =
      if q = s.cfg.iePort then { s.ic with ier := v &&& s.cfg.irqMask } else { s.ic with ifr := v &&& s.cfg.irqMask } := by
  unfold State.icWrite
  split <;> rfl

/-- The paging unit's write: the register the port names, and the mapping it then gives (20_memory.md R80). -/
theorem State.pagingWrite_paging {s : State} {q : Addr} {r : Nat} (h : Cfg.pagingReg s.cfg q = some r) (v : Byte) :
    let preg := s.paging.preg.set r v
    let u := s.cfg.pagingUpdate preg
    (s.pagingWrite q v).paging =
      { preg := preg, sel := u.map (·.1), cont := u.map (·.2.1), vid := u.map (·.2.2), ram := s.paging.ram } := by
  rw [State.pagingWrite, h]
  rfl

/-! ### The port write, whole -/

/-- What a port write leaves once its claimant left `u`: the observers' states and the event (R217, R218). -/
def State.observed (s u : State) (q : Addr) (v : Byte) : State :=
  (u.observe q v 0 u.cfg.observers).emit (.portW q v (s.claimant q))

theorem State.portWrite_of_unitWrite {s u : State} {q : Addr} {v : Byte} (hF : s.timing.framePos < s.cfg.frameCycles)
    (h : (s.logBus v).unitWrite (s.claimant q) q v = .ok u) : s.portWrite q v = .ok (s.observed u q v) := by
  have hc : (s.logBus v).claimant q = s.claimant q := rfl
  simp only [State.portWrite, portWait, s.advance_zero hF, hc, h, State.observed]

/-- The observers change their own states alone, and the event is recorded (R218). -/
theorem State.observed_eq {s u : State} {q : Addr} {v : Byte} (h : (s.logBus v).unitWrite (s.claimant q) q v = .ok u) :
    s.observed u q v =
        { u with
          units := { u.units with observer := (s.observed u q v).units.observer }
          trace := s.trace ++ [.portW q v (s.claimant q)] } ∧
      u.units.observer = s.units.observer := by
  have e := State.unitWrite_eq h
  have ht : u.trace = s.trace := by rw [e]; rfl
  refine ⟨?_, by rw [e]; rfl⟩
  rw [← ht]
  exact congrArg (State.emit · _) (State.observe_eq q v u.cfg.observers u 0).1

/-- Each observer runs its actions on its own state (R218). -/
theorem State.observed_ostate {s u : State} {q : Addr} {v : Byte} (hl : s.units.observer.length = s.cfg.observers.length)
    (h : (s.logBus v).unitWrite (s.claimant q) q v = .ok u) {k : Nat} {o : Observer} (hk : s.cfg.observers[k]? = some o) :
    (s.observed u q v).ostate k = u.devActs q.toNat v.toNat o.writeActs (s.ostate k) := by
  have hc : u.cfg = s.cfg := by rw [State.unitWrite_eq h]; rfl
  have hu : u.units.observer = s.units.observer := (State.observed_eq h).2
  have hlt : k < u.units.observer.length := by
    rw [hu, hl]
    exact (List.getElem?_eq_some_iff.mp hk).1
  have ho : u.ostate k = s.ostate k := by rw [State.ostate, State.ostate, hu]
  have hrun := (u.observe_ostate q v u.cfg.observers 0).2 k o (by rw [hc]; exact hk) (by rwa [Nat.zero_add])
  rw [Nat.zero_add, ho] at hrun
  exact hrun

/-- Settles O40: a port write completes exactly when its claimant takes the byte, and leaves what the observers make of it. -/
theorem observersSeeEveryWrite : Obligations.ObserversSeeEveryWrite := by
  refine ⟨fun s t q v hF hl h => ?_, fun s u x p hx hp hF hl hu => ?_⟩
  · obtain ⟨u, -, hu, -, -⟩ := State.portWrite_ok h
    simp only [portWait, s.advance_zero hF] at hu
    cases h.symm.trans (State.portWrite_of_unitWrite hF hu)
    obtain ⟨he, ho⟩ := State.observed_eq hu
    exact ⟨u, hu, he, ho, fun k o => State.observed_ostate hl hu⟩
  · refine ⟨_, (Retires.outp x p hx hp _ (State.portWrite_of_unitWrite hF hu)).exec_eq, (State.observed_eq hu).1, fun hc => ?_,
      fun k o => State.observed_ostate hl hu⟩
    rw [hc] at hu
    cases hu
    rfl

/-- Settles O39: by the claimant, whose write decides what changes beside the observers' states. -/
theorem portWriteResult : Obligations.PortWriteResult := by
  intro s x p hx hp hF q v c hfail m
  obtain ⟨u, hu⟩ := State.unitWrite_completes (s := s.logBus v) (v := v) hfail
  have hr := (Retires.outp x p hx hp _ (State.portWrite_of_unitWrite hF hu)).exec_eq
  rw [(State.observed_eq hu).1] at hr
  have e := State.unitWrite_eq hu
  refine ⟨_, hr, by rw [e]; rfl, by rw [e]; rfl, by rw [e]; rfl, by rw [e]; rfl, by rw [e]; rfl, by rw [e]; rfl, rfl,
    by rw [e]; rfl, fun hc => ?_, fun k hc hk => ?_, fun k r hc hk hreg => ?_, fun k dev hc hk => ?_, fun hc => ?_⟩
  all_goals rw [hc] at hu
  · cases hu
    exact ⟨rfl, State.SameMemory.kept ⟨rfl, rfl, rfl⟩, rfl, rfl⟩
  · rw [State.unitWrite_ic (s := s.logBus v) hk] at hu
    cases hu
    exact ⟨State.icWrite_ic _ _ _, State.SameMemory.kept ⟨by simp, by simp, by simp⟩, by simp, by simp⟩
  · rw [State.unitWrite_paging_eq (s := s.logBus v) hk] at hu
    cases hu
    exact ⟨State.pagingWrite_paging (s := s.logBus v) hreg v, by simp, by simp, by simp⟩
  · rw [State.unitWrite_device (s := s.logBus v) hk (hfail k dev hc hk)] at hu
    cases hu
    exact ⟨rfl, rfl, State.SameMemory.kept ⟨rfl, rfl, rfl⟩, rfl⟩
  · obtain ⟨b, hb, hport⟩ := State.boardPort_of_claimant hc
    rw [State.unitWrite_board (s := s.logBus v) hport] at hu
    cases hu
    refine ⟨by simp, by simp, (s.logBus v).boardActs_paging b _ _ _, fun b' hb' => ?_⟩
    cases hb.symm.trans hb'
    exact ⟨rfl, rfl, fun n o ho hout => State.readRam_boardActs (u := s.logBus v) rfl _ _ _ ho hout⟩

end Sys2Proof.Machine
end

section
/-! The end of a tick (40_microops.md R142, 42_ports.md R222): the peripherals' hooks, then the observers', then `ic_update`, each
unit's part read off the laws of the hooks. -/

namespace Sys2Proof.Machine

/-! ### The three parts -/

/-- What a tick's end leaves, from the state `u` in which the peripherals' hooks have run and the observers' have not. -/
theorem State.endTick_parts {s t : State} (h : s.endTick = .ok t) :
    ∃ u, (s.advance 1).tickPeriphs 0 (s.advance 1).cfg.periph = .ok u ∧
      u = { s.advance 1 with
        ic := { s.ic with ifr := t.ic.ifr }
        units := { (s.advance 1).units with periph := t.units.periph } } ∧
      t.units = (u.tickObservers 0 (s.advance 1).cfg.observers).units := by
  obtain ⟨u, hu, rfl⟩ := State.endTick_ok h
  have e := (State.tickPeriphs_eq _ hu).1
  rw [State.advance_ic] at e
  have hc : u.cfg = (s.advance 1).cfg := by rw [e]
  obtain ⟨ho, -⟩ := State.tickObservers_eq u.cfg.observers u 0
  refine ⟨u, hu, ?_, by rw [State.icUpdate_units, hc]⟩
  rw [State.icUpdate_eq, ho]
  exact e

/-- `ic_update` is the last thing a tick's end does: it alone moves IC_STATE (60_exceptions.md R273). -/
theorem State.endTick_icUpdate {s t : State} (h : s.endTick = .ok t) :
    t = ({ t with ic := { t.ic with st := s.ic.st } } : State).icUpdate := by
  obtain ⟨u, hu, rfl⟩ := State.endTick_ok h
  have hst : (u.tickObservers 0 u.cfg.observers).ic.st = s.ic.st := by
    rw [(State.tickObservers_eq _ _ _).1, (State.tickPeriphs_eq _ hu).1]
    simp
  generalize u.tickObservers 0 u.cfg.observers = w at hst
  have e : w = { w.icUpdate with ic := { w.icUpdate.ic with st := s.ic.st } } := by rw [State.icUpdate_eq w, ← hst]
  exact congrArg State.icUpdate e

/-! ### The peripherals -/

theorem State.endTick_ifr_kept {s t : State} (h : s.endTick = .ok t) {j : Nat}
    (hj : (∀ d l, Periph.device d ∈ (s.advance 1).cfg.periph → l ∈ d.tickLines → l.source ≠ j) ∨ (s.advance 1).cfg.nIrq ≤ j) :
    t.ic.ifr.getLsbD j = s.ic.ifr.getLsbD j := by
  obtain ⟨u, hu, e, -⟩ := State.endTick_parts h
  obtain ⟨-, -, -, hbits⟩ := State.tickPeriphs_pstate _ hu
  have := hbits j hj
  rw [State.advance_ic, e] at this
  exact this

/-- A device's hook sees the devices before it after their hooks and the others before theirs (R222). -/
theorem State.endTick_device {s t : State} (h : s.endTick = .ok t) {k : Nat} {d : Device}
    (hd : (s.advance 1).cfg.periph[k]? = some (.device d)) (hk : k < (s.advance 1).units.periph.length) :
    let a := s.advance 1
    ∃ u : State, u = { a with ic := { s.ic with ifr := u.ic.ifr }, units := { a.units with periph := u.units.periph } } ∧
      (∀ j, j < k → u.pstate j = t.pstate j) ∧ (∀ j, k ≤ j → u.pstate j = a.pstate j) ∧
      u.tickEval (a.pstate k) d.tickFail = 0 ∧ t.pstate k = u.tickActs d.tickActs (a.pstate k) := by
  obtain ⟨u, hu, e, -⟩ := State.endTick_parts h
  obtain ⟨-, -, hdev, -⟩ := State.tickPeriphs_pstate _ hu
  have ht : ∀ j, u.pstate j = t.pstate j := fun j => by rw [e]; rfl
  have := hdev k d hd (by rwa [Nat.zero_add])
  simp only [Nat.zero_add, ht, State.advance_ic] at this
  exact this

theorem State.endTick_pstate_kept {s t : State} (h : s.endTick = .ok t) {k : Nat}
    (hk : (s.advance 1).cfg.periph[k]? = some .ic ∨ (s.advance 1).cfg.periph[k]? = some .paging ∨
      (s.advance 1).cfg.periph[k]? = none) : t.pstate k = (s.advance 1).pstate k := by
  obtain ⟨u, hu, e, -⟩ := State.endTick_parts h
  obtain ⟨-, hkept, -, -⟩ := State.tickPeriphs_pstate _ hu
  have ht : ∀ j, u.pstate j = t.pstate j := fun j => by rw [e]; rfl
  have := hkept k hk
  rwa [Nat.zero_add, ht] at this

/-- The last line wired to a source decides its IF bit (R222, log entry 8). -/
theorem State.endTick_source {s t : State} (h : s.endTick = .ok t) {k : Nat} {d : Device} {before later : List LineAct}
    {l : LineAct} (hd : (s.advance 1).cfg.periph[k]? = some (.device d)) (hk : k < (s.advance 1).units.periph.length)
    (hls : d.tickLines = before ++ l :: later) (hn : l.source < (s.advance 1).cfg.nIrq) (h8 : l.source < 8)
    (hlater : ∀ m ∈ later, m.source ≠ l.source)
    (hrest : ∀ i e m, k < i → (s.advance 1).cfg.periph[i]? = some (.device e) → m ∈ e.tickLines → m.source ≠ l.source) :
    let a := s.advance 1
    ∃ u : State, u = { a with ic := { s.ic with ifr := u.ic.ifr }, units := { a.units with periph := u.units.periph } } ∧
      (∀ j, j ≤ k → u.pstate j = t.pstate j) ∧ (∀ j, k < j → u.pstate j = a.pstate j) ∧
      t.ic.ifr.getLsbD l.source = (if u.tickEval (t.pstate k) l.guard = 0 then u.ic.ifr.getLsbD l.source
        else decide (u.tickEval (t.pstate k) l.level ≠ 0)) := by
  obtain ⟨u, hu, e, -⟩ := State.endTick_parts h
  have ht : ∀ j, u.pstate j = t.pstate j := fun j => by rw [e]; rfl
  have hifr : u.ic.ifr = t.ic.ifr := by rw [e]
  have := State.tickPeriphs_source _ hu hd (by rwa [Nat.zero_add]) hls hn h8 hlater hrest
  simp only [Nat.zero_add, ht, hifr, State.advance_ic] at this
  exact this

/-! ### The observers -/

theorem State.endTick_observer {s t : State} (h : s.endTick = .ok t) {k : Nat} {o : Observer}
    (ho : (s.advance 1).cfg.observers[k]? = some o) (hk : k < (s.advance 1).units.observer.length) :
    let a := s.advance 1
    ∃ u : State, u = { a with ic := { s.ic with ifr := t.ic.ifr }, units := u.units } ∧ u.units.periph = t.units.periph ∧
      (∀ j, j < k → u.ostate j = t.ostate j) ∧ (∀ j, k ≤ j → u.ostate j = a.ostate j) ∧
      t.ostate k = u.tickActs o.tickActs (a.ostate k) := by
  obtain ⟨v, -, e, ht⟩ := State.endTick_parts h
  have hv : ∀ j, v.ostate j = (s.advance 1).ostate j := fun j => by rw [e]; rfl
  have hto : ∀ j, (v.tickObservers 0 (s.advance 1).cfg.observers).ostate j = t.ostate j := fun j => by
    rw [State.ostate, ← ht, State.ostate]
  obtain ⟨-, -, hobs⟩ := v.tickObservers_ostate (s.advance 1).cfg.observers 0
  obtain ⟨u, hu, hbefore, hafter, hrun⟩ := hobs k o ho (by rw [Nat.zero_add, e]; exact hk)
  simp only [Nat.zero_add, hv, hto] at hbefore hafter hrun
  refine ⟨u, ?_, ?_, hbefore, hafter, hrun⟩ <;> rw [hu, e]

theorem State.endTick_ostate_kept {s t : State} (h : s.endTick = .ok t) {k : Nat}
    (hk : (s.advance 1).cfg.observers[k]? = none) : t.ostate k = (s.advance 1).ostate k := by
  obtain ⟨v, -, e, ht⟩ := State.endTick_parts h
  obtain ⟨-, hkept, -⟩ := v.tickObservers_ostate (s.advance 1).cfg.observers 0
  have := hkept k hk
  rw [Nat.zero_add] at this
  rw [State.ostate, ht]
  refine this.trans ?_
  rw [e]
  rfl

/-! ### A hook that fails -/

theorem State.endTick_failing {s : State} {e : Error} (h : s.endTick = .error e) :
    let a := s.advance 1
    ∃ (k : Nat) (d : Device) (u : State), e = .step k ∧ a.cfg.periph[k]? = some (.device d) ∧
      u.tickEval (a.pstate k) d.tickFail ≠ 0 ∧
      u = { a with ic := { s.ic with ifr := u.ic.ifr }, units := { a.units with periph := u.units.periph } } := by
  unfold State.endTick at h
  dsimp only at h
  split at h
  · next e' he =>
    cases h
    have := State.tickPeriphs_failing _ he
    simp only [Nat.zero_add, State.advance_ic] at this
    exact this
  · cases h

theorem State.endTick_completes {s : State}
    (h : ∀ (u : State) (d : Device) (k : Nat), .device d ∈ (s.advance 1).cfg.periph → u.tickEval (u.pstate k) d.tickFail = 0) :
    ∃ t, s.endTick = .ok t := by
  obtain ⟨u, hu⟩ := State.tickPeriphs_of_no_failure _ (s.advance 1) 0 h
  exact ⟨(u.tickObservers 0 u.cfg.observers).icUpdate, by simp only [State.endTick, hu]⟩

/-- Settles O41: each clause is one of the lemmas above, or the law of one hook or of one line. -/
theorem endTickRunsHooks : Obligations.EndTickRunsHooks := by
  refine ⟨fun s t h => ?_, State.driveLine_spec, fun _ _ _ => rfl, fun _ _ => State.endTick_failing, fun u t k d h => ?_,
    fun _ => State.endTick_completes⟩
  · exact ⟨State.endTick_eq h, State.endTick_icUpdate h, fun _ => State.endTick_ifr_kept h, fun _ _ => State.endTick_device h,
      fun _ => State.endTick_pstate_kept h, fun _ _ => State.endTick_observer h, fun _ => State.endTick_ostate_kept h,
      fun _ _ _ _ _ => State.endTick_source h⟩
  · obtain ⟨-, he, hbits⟩ := State.tickPeriph_device h
    exact ⟨he, hbits⟩

end Sys2Proof.Machine
end

section
/-! A read by the bus, the floating-bus value and the contention wait (41_bus.md R190, 42_ports.md R216, 20_memory.md R86, R87):
what backs the address answers the read, and `CT` at FRAME_POS the other two. -/

namespace Sys2Proof.Machine

/-! ### What answers a read (R190) -/

theorem State.readBus_board {s : State} {a : Addr} {b : BoardCfg} (h : s.resolve a = .board b) :
    s.readBus a = s.boardRead b a := by
  unfold State.readBus
  rw [h]

/-- An unmapped window yields the floating-bus value (41_bus.md R192). -/
theorem State.readBus_unmapped {s : State} {a : Addr} (h : s.resolve a = .none) : s.readBus a = s.floating := by
  unfold State.readBus
  rw [h]

/-! ### The contention table's entry at FRAME_POS (R85) -/

theorem State.ctNow_of_entry {s : State} {e : CtEntry} (h : s.cfg.ct[s.timing.framePos]? = some e) : s.ctNow = e := by
  unfold State.ctNow
  rw [h, Option.getD_some]

theorem State.floating_valid {s : State} {w f : Nat} (h : s.ctNow = .valid w f) :
    s.floating = Memory.read BusLog.unlisted s.timing.buslog f := by
  unfold State.floating
  rw [h]

theorem State.floating_sentinel {s : State} (h : s.ctNow = .sentinel) : s.floating = 0xFF := by
  unfold State.floating
  rw [h]

/-! ### The wait (R86, R87) -/

theorem State.memWait_valid {s : State} {w f : Nat} (h : s.ctNow = .valid w f) (a : Addr) :
    s.memWait a = if s.paging.cont.get (win a) then w else 0 := by
  unfold State.memWait
  rw [h]
  cases s.paging.cont.get (win a) <;> rfl

theorem State.memWait_sentinel {s : State} (h : s.ctNow = .sentinel) (a : Addr) : s.memWait a = 0 := by
  unfold State.memWait
  rw [h]
  cases s.paging.cont.get (win a) <;> rfl

/-- A window with `CONT = 0` has wait 0 at every FRAME_POS (R87). -/
theorem State.memWait_uncontended {s : State} {a : Addr} (h : s.paging.cont.get (win a) = false) : s.memWait a = 0 := by
  unfold State.memWait
  rw [h]

/-- Settles O34: the read by what the address resolves to, the floating bus and the wait by the table's entry, and the least wait,
0, where the window is uncontended. -/
theorem busReadAndWaitRule : Obligations.BusReadAndWaitRule := by
  refine fun s a => ⟨fun _ _ => State.readBus_rom, fun _ _ => State.readBus_ram, fun _ => State.readBus_board,
    State.readBus_unmapped, fun w f h => ?_, fun h => ?_, fun b hb => ?_⟩
  · have hct : s.ctNow = .valid w f := State.ctNow_of_entry h
    exact ⟨State.floating_valid hct, State.memWait_valid hct a⟩
  · have hct : s.ctNow = .sentinel := State.ctNow_of_entry h
    exact ⟨State.floating_sentinel hct, State.memWait_sentinel hct a⟩
  · rw [State.memWait_uncontended hb]
    exact Nat.zero_le _

end Sys2Proof.Machine
end

section
/-! The claimant search (42_ports.md R210, R212): each of its three answers, said by what the board and the peripherals claim. -/

namespace Sys2Proof.Machine

/-! ### The board claims or not -/

theorem State.boardPort_eq_some_iff {s : State} {q : Addr} {b : BoardCfg} :
    s.boardPort q = some b ↔ s.cfg.board = some b ∧ b.portWindow.holds q = true :=
  Option.filter_eq_some_iff

theorem State.boardPort_eq_none_iff {s : State} {q : Addr} :
    s.boardPort q = none ↔ ∀ b, s.cfg.board = some b → b.portWindow.holds q = false := by
  simp only [State.boardPort, Option.filter_eq_none_iff, Bool.not_eq_true]

/-! ### The search, with the board and without -/

theorem State.claimant_of_boardPort {s : State} {q : Addr} {b : BoardCfg} (h : s.boardPort q = some b) :
    s.claimant q = .board := by
  simp only [State.claimant, h]

theorem State.claimant_of_findIdx {s : State} {q : Addr} {k : Nat} (hb : s.boardPort q = none)
    (hk : s.cfg.periph.findIdx? (Periph.claims s.cfg q) = some k) : s.claimant q = .periph k := by
  simp only [State.claimant, hb, hk]

theorem State.claimant_of_unclaimed {s : State} {q : Addr} (hb : s.boardPort q = none)
    (hn : s.cfg.periph.findIdx? (Periph.claims s.cfg q) = none) : s.claimant q = .none := by
  simp only [State.claimant, hb, hn]

/-! ### Each answer -/

theorem State.claimant_eq_board_iff {s : State} {q : Addr} : s.claimant q = .board ↔ ∃ b, s.boardPort q = some b :=
  ⟨fun h => (State.boardPort_of_claimant h).imp fun _ hb => hb.2, fun ⟨_, hb⟩ => State.claimant_of_boardPort hb⟩

theorem State.claimant_eq_periph_iff {s : State} {q : Addr} {k : Nat} :
    s.claimant q = .periph k ↔ s.boardPort q = none ∧ s.cfg.periph.findIdx? (Periph.claims s.cfg q) = some k := by
  cases hb : s.boardPort q with
  | some b => simp [State.claimant_of_boardPort hb]
  | none =>
    cases hf : s.cfg.periph.findIdx? (Periph.claims s.cfg q) with
    | some j => simp [State.claimant_of_findIdx hb hf]
    | none => simp [State.claimant_of_unclaimed hb hf]

theorem State.claimant_eq_none_iff {s : State} {q : Addr} :
    s.claimant q = .none ↔ s.boardPort q = none ∧ s.cfg.periph.findIdx? (Periph.claims s.cfg q) = none := by
  cases hb : s.boardPort q with
  | some b => simp [State.claimant_of_boardPort hb]
  | none =>
    cases hf : s.cfg.periph.findIdx? (Periph.claims s.cfg q) with
    | some j => simp [State.claimant_of_findIdx hb hf]
    | none => simp [State.claimant_of_unclaimed hb hf]

/-- The first peripheral that claims the port, by its index: it claims, and none before it does (R210). -/
theorem Cfg.findIdx_claims_eq_some_iff {c : Cfg} {q : Addr} {k : Nat} :
    c.periph.findIdx? (Periph.claims c q) = some k ↔
      (∃ p, c.periph[k]? = some p ∧ Periph.claims c q p = true) ∧
        ∀ j p, j < k → c.periph[j]? = some p → Periph.claims c q p = false := by
  rw [List.findIdx?_eq_some_iff_getElem]
  constructor
  · rintro ⟨hlt, hk, hbefore⟩
    refine ⟨⟨_, List.getElem?_eq_getElem hlt, hk⟩, fun j p hj hp => ?_⟩
    obtain ⟨_, rfl⟩ := List.getElem?_eq_some_iff.mp hp
    exact Bool.eq_false_of_not_eq_true (hbefore j hj)
  · rintro ⟨⟨p, hp, hk⟩, hbefore⟩
    obtain ⟨hlt, rfl⟩ := List.getElem?_eq_some_iff.mp hp
    exact ⟨hlt, hk, fun j hj => ne_true_of_eq_false (hbefore j _ hj (List.getElem?_eq_getElem _))⟩

/-- Settles O37: the board by its window, a peripheral as the first that claims, none where every one declines. -/
theorem claimantRule : Obligations.ClaimantRule := by
  refine fun s q => ⟨?_, fun k => ?_, ?_⟩
  · simp only [State.claimant_eq_board_iff, State.boardPort_eq_some_iff]
  · rw [State.claimant_eq_periph_iff, State.boardPort_eq_none_iff, Cfg.findIdx_claims_eq_some_iff]
  · rw [State.claimant_eq_none_iff, State.boardPort_eq_none_iff, List.findIdx?_eq_none_iff]

end Sys2Proof.Machine
end

section
/-! The board of REF: what a read and a write do at each offset of its window, and its port (43_board.md R240, R241). -/

namespace Sys2Proof.Machine

/-! ### The functions of REF's board -/

@[simp] theorem State.boardEval_atAddr (s : State) (b : BoardCfg) (x y n : Nat) :
    s.boardEval b x y (Ref.atAddr n) = if x = n then 1 else 0 := rfl

theorem State.boardEval_value (s : State) (b : BoardCfg) (x : Nat) (v : Byte) :
    BitVec.ofNat 8 (s.boardEval b x v.toNat (.atom .value)) = v :=
  (BitVec.ofNat_toNat 8 v).trans (BitVec.setWidth_eq v)

/-- A write of PROT stores the value xored with `XT[KEY]` (43_board.md R240). -/
theorem State.boardEval_ref_prot (s : State) (x : Nat) (v : Byte) :
    BitVec.ofNat 8 (s.boardEval Ref.board x v.toNat (.op .xor (.atom .value) (.look .xt (.atom .key) (.lit 0)))) =
      v ^^^ (s.board.key ^^^ 0x5A) := by
  show BitVec.ofNat 8 (v.toNat ^^^ (Ref.board.xt.getD (s.board.key.toNat % 256) 0).toNat) = _
  rw [Ref.board_xt, ofNat_xor_toNat]

/-! ### The window, offset by offset (R240) -/

theorem State.writeBus_board {s : State} {a : Addr} {b : BoardCfg} (h : s.resolve a = .board b) (v : Byte) :
    s.writeBus a v = s.boardWrite b a v := by
  rw [State.writeBus, h]

theorem State.boardWrite_ref (s : State) (a : Addr) (v : Byte) :
    s.boardWrite Ref.board a v =
      if a = 0x3FFF then ({ s with board := { s.board with bank := v } }, true)
      else if a = 0x3FFE then ({ s with board := { s.board with prot := v ^^^ (s.board.key ^^^ 0x5A) } }, true)
      else if a = 0x3FFD then ({ s with board := { s.board with key := v } }, true)
      else (s, false) := by
  have hw : Ref.board.writes = [⟨Ref.atAddr 0x3FFF, .bank, .atom .value⟩,
    ⟨Ref.atAddr 0x3FFE, .prot, .op .xor (.atom .value) (.look .xt (.atom .key) (.lit 0))⟩,
    ⟨Ref.atAddr 0x3FFD, .key, .atom .value⟩] := rfl
  simp only [State.boardWrite, hw, State.boardActs, List.foldl, State.boardStores, State.boardAct, State.boardActStores,
    State.boardEval_atAddr]
  by_cases h1 : a = 0x3FFF#16
  · simp [h1, State.boardEval_value]
  by_cases h2 : a = 0x3FFE#16
  · simp [h2, State.boardEval_ref_prot]
  by_cases h3 : a = 0x3FFD#16
  · simp [h3, State.boardEval_value]
  · simp [h1, h2, h3, addr_toNat_eq]

theorem State.boardRead_ref {s : State} (hr : s.cfg.romBanks ≠ 0) (a : Addr) :
    s.boardRead Ref.board a =
      if a = 0x3FFE then s.board.prot
      else if a = 0x3FFC then s.board.prot ^^^ 0xFF
      else s.readRom (s.board.bank.toNat % s.cfg.romBanks) (off a) := by
  have hv : s.boardEval Ref.board a.toNat 0 Ref.board.read =
      if (if a.toNat = 0x3FFE then 1 else 0) = 0 then
        if (if a.toNat = 0x3FFC then 1 else 0) = 0 then s.boardLook Ref.board .rom s.board.bank.toNat (off a)
        else (s.board.prot ^^^ 0xFF).toNat
      else s.board.prot.toNat := rfl
  rw [State.boardRead, hv]
  by_cases h1 : a = 0x3FFE#16
  · simp [h1]
  by_cases h2 : a = 0x3FFC#16
  · simp [h2]
  · simp [h1, h2, addr_toNat_eq, State.boardLook, hr, off]

/-! ### The port (R241) -/

theorem State.boardPort_ref {s : State} (hb : s.cfg.board = some Ref.board) : s.boardPort 0x00F0 = some Ref.board :=
  State.boardPort_eq_some_iff.mpr ⟨hb, by decide⟩

/-- Settles O42: the window and the port are the board's, and REF's board functions say what each does. -/
theorem refBoardRule : Obligations.RefBoardRule := by
  intro s a v hb hr hlo hhi
  have ha : s.resolve a = .board Ref.board := State.resolve_of_board ((s.boardAt_eq_some_iff a _).mpr ⟨hb, hlo, hhi⟩)
  have hport : s.boardPort 0x00F0 = some Ref.board := State.boardPort_ref hb
  refine ⟨?_, ?_, State.claimant_of_boardPort hport, ?_, ?_⟩
  · exact (State.writeBus_board ha v).trans (s.boardWrite_ref a v)
  · rw [State.readBus_board ha, State.boardRead_ref hr, off_eq_extractLsb']
  · rw [State.unitWrite_board hport, State.boardActs_ref_port]
  · rw [State.unitRead_board hport]
    simp [Ref.board, State.boardEval, Fn.eval, State.boardArg]

end Sys2Proof.Machine
end

section
/-! What Restore reads from the snapshot of a saved state (44_host.md R260 to R262). -/

namespace Sys2Proof.Machine

/-- The sections of a saved state give every field of 10_state.md R54 back; the trace and the queue are the reader's. -/
theorem State.readFields_save {s t : State} (hc : t.cfg = s.cfg) :
    t.readFields s.save =
      .ok { s with board := if s.cfg.board.isSome then s.board else t.board, trace := t.trace, queue := t.queue } := by
  have hnames : ∀ tag ∈ [Tag.cpu, .seq, .ic, .paging, .periph, .timing, .input, .fail], tag ∈ sectionNames s.cfg := by
    simp [sectionNames]
  unfold State.readFields
  rw [hc,
    readSection_save (t := .cpu) lawful_cpuCodec s rfl (hnames _ (by decide)),
    readSection_save (t := .seq) lawful_seqCodec s rfl (hnames _ (by decide)),
    readSection_save (t := .ic) lawful_icCodec s rfl (hnames _ (by decide)),
    readSection_save (t := .paging) lawful_pagingCodec s rfl (hnames _ (by decide)),
    readSection_save (t := .periph) lawful_unitsCodec s rfl (hnames _ (by decide)),
    readSection_save (t := .timing) lawful_timingCodec s rfl (hnames _ (by decide)),
    readSection_save (t := .input) lawful_inputLatchCodec s rfl (hnames _ (by decide)),
    readSection_save (t := .fail) lawful_failCodec s rfl (hnames _ (by decide))]
  split
  · next hb => rw [readSection_save lawful_boardCodec s rfl (by simp [sectionNames, hb])]; rfl
  · rfl

/-- Settles O54: names and digest are those of the one configuration, and every section reads back what was written. -/
theorem snapshotRoundTrip : Obligations.SnapshotRoundTrip := by
  intro s t hc
  have hnames : s.save.map (fun x => x.tag) = sectionNames t.cfg := by rw [State.save_tags, hc]
  rw [restore_of_names hnames (readSection_save Codec.lawful_u64 s rfl (by simp [sectionNames])), if_pos (by rw [hc]),
    State.readFields_save hc]

end Sys2Proof.Machine
end

section
/-! The invariant after a construction: what the checks say of a configuration at its start, and that the media loader keeps it
(30_encoding.md R127, 44_host.md R255, R256, 70_reset_and_hazards.md R311). -/

namespace Sys2Proof

/-! ### What a well-formed configuration gives -/

theorem Cfg.nIrq_pos {c : Cfg} (h : c.wf = true) : 0 < c.nIrq := by
  obtain ⟨-, -, -, -, hirq, -⟩ := (Cfg.wf_iff c).mp h
  simp only [Cfg.wfIrq, Bool.and_eq_true, decide_eq_true_eq] at hirq
  omega

theorem Cfg.frameCycles_pos {c : Cfg} (h : c.wf = true) : 0 < c.frameCycles := by
  obtain ⟨-, -, -, -, -, hct, -⟩ := (Cfg.wf_iff c).mp h
  simp only [Cfg.wfCt, Bool.and_eq_true, decide_eq_true_eq] at hct
  omega

/-- What check 7 says of the initial registers, the initial mapping and the initial memory (20_memory.md R79). -/
structure Cfg.PagingStart (c : Cfg) : Prop where
  regs : c.paging.initRegs.length = c.paging.nRegs
  sel : c.paging.initSel = ((c.pagingUpdate c.paging.initRegs).map (·.1)).toList
  cont : c.paging.initCont = ((c.pagingUpdate c.paging.initRegs).map (·.2.1)).toList
  vid : c.paging.initVid = ((c.pagingUpdate c.paging.initRegs).map (·.2.2)).toList
  romWf : Machine.Memory.wf Machine.Memory.unlisted c.rom = true
  romBelow : Machine.Memory.below (c.romBanks * windowSize) c.rom = true
  ramWf : Machine.Memory.wf Machine.Memory.unlisted c.ramInit = true
  ramBelow : Machine.Memory.below (c.ramBanks * windowSize) c.ramInit = true

theorem Cfg.pagingStart {c : Cfg} (h : c.wf = true) : c.PagingStart := by
  obtain ⟨-, -, -, -, -, -, hp, -⟩ := (Cfg.wf_iff c).mp h
  simp only [Cfg.wfPaging, Bool.and_eq_true, decide_eq_true_eq] at hp
  obtain ⟨⟨⟨⟨⟨⟨⟨⟨⟨⟨hregs, -⟩, hsel⟩, hcont⟩, hvid⟩, -⟩, -⟩, hromWf⟩, hromBelow⟩, hramWf⟩, hramBelow⟩ := hp
  exact ⟨hregs, hsel, hcont, hvid, hromWf, hromBelow, hramWf, hramBelow⟩

/-- Other ROM contents that lie in their banks keep a configuration well-formed (44_host.md R256). -/
theorem Cfg.wf_withRom {c : Cfg} {rom : Memory} (h : c.wf = true) (hwf : Machine.Memory.wf Machine.Memory.unlisted rom = true)
    (hbelow : Machine.Memory.below (c.romBanks * windowSize) rom = true) : ({ c with rom := rom } : Cfg).wf = true := by
  obtain ⟨htag, hsel, hplace, htables, hirq, hct, hpaging, hports, hboard⟩ := (Cfg.wf_iff c).mp h
  refine (Cfg.wf_iff _).mpr ⟨htag, hsel, hplace, htables, hirq, hct, ?_, hports, hboard⟩
  simp only [Cfg.wfPaging, Bool.and_eq_true] at hpaging ⊢
  obtain ⟨⟨⟨⟨hrest, -⟩, -⟩, hramWf⟩, hramBelow⟩ := hpaging
  exact ⟨⟨⟨⟨hrest, hwf⟩, hbelow⟩, hramWf⟩, hramBelow⟩

@[simp] theorem Quad.ofList_toList {α : Type} (d : α) (q : Quad α) : Quad.ofList d q.toList = q := rfl

end Sys2Proof

namespace Sys2Proof.Machine

/-! ### The media loader's arrays (44_host.md R256) -/

theorem Memory.below_load {n : Nat} (d : Byte) (bs : List Byte) {m : Memory} {a : Nat} (ha : a + bs.length ≤ n)
    (h : Memory.below n m = true) : Memory.below n (Memory.load d m a bs) = true := by
  induction bs generalizing m a with
  | nil => exact h
  | cons b bs ih =>
    rw [List.length_cons] at ha
    exact ih (by omega) (Memory.below_write d b (by omega) h)

/-- The loaded arrays keep the canonical form and stay in their banks. -/
theorem loadBanks_kept {banks : Nat} {l : List (Nat × List Byte)} (hl : ∀ e ∈ l, e.1 < banks ∧ e.2.length = 16384) {m : Memory}
    (hwf : Memory.wf Memory.unlisted m = true) (hbelow : Memory.below (banks * windowSize) m = true) :
    Memory.wf Memory.unlisted (loadBanks m l) = true ∧ Memory.below (banks * windowSize) (loadBanks m l) = true := by
  unfold loadBanks
  induction l generalizing m with
  | nil => exact ⟨hwf, hbelow⟩
  | cons e l ih =>
    obtain ⟨hbank, hsize⟩ := hl e List.mem_cons_self
    refine ih (fun x hx => hl x (List.mem_cons_of_mem _ hx)) (Memory.wf_load _ _ _ _ hwf) (Memory.below_load _ _ ?_ hbelow)
    unfold bankKey windowSize
    omega

/-! ### The parts of the invariant after either reset (70_reset_and_hazards.md R311) -/

theorem State.Paged.of_reset {s : State} (hc : s.cfg.wf = true) (hreg : s.paging.preg = s.cfg.paging.initRegs)
    (hmap : s.remap.paging = s.paging) (hwf : Memory.wf Memory.unlisted s.paging.ram = true)
    (hbelow : Memory.below (s.cfg.ramBanks * windowSize) s.paging.ram = true) : s.Paged :=
  ⟨by rw [hreg, (Cfg.pagingStart hc).regs], (State.mapped_iff s).mpr hmap, hwf, hbelow⟩

theorem State.SourcesOk.of_reset {s : State} (hc : s.cfg.wf = true) (h : s.ic = { st := .idle, ifr := 0, ier := 0, src := 0 }) :
    s.SourcesOk := by
  rw [State.SourcesOk, h]
  exact ⟨BitVec.zero_and, BitVec.zero_and, Cfg.nIrq_pos hc⟩

/-- A new engine on a well-formed configuration and RAM that lies in its banks. -/
theorem State.init_inv {c : Cfg} {ram : Memory} (x : Input) (hc : c.wf = true)
    (hwf : Memory.wf Memory.unlisted ram = true) (hbelow : Memory.below (c.ramBanks * windowSize) ram = true) :
    (State.init c ram x).Inv := by
  obtain ⟨-, hsel, hcont, hvid, -⟩ := Cfg.pagingStart hc
  have hpaged : (State.init c ram x).Paged := by
    refine .of_reset hc rfl ?_ hwf hbelow
    simp only [State.remap, State.init, hsel, hcont, hvid, Quad.ofList_toList]
  have hunits : (State.init c ram x).UnitsMatch := ⟨List.length_map .., List.length_map ..⟩
  exact .of_parts ⟨⟨hc, hc⟩, Cfg.frameCycles_pos hc, ⟨rfl, rfl⟩, hunits⟩ ⟨hpaged, .of_reset hc rfl, rfl⟩
    ⟨Nat.zero_le _, trivial⟩ nofun

/-- Settles O57: the loaded ROM keeps the configuration well-formed, the loaded RAM stays in its banks, and a new engine on them has
every part of the invariant. -/
theorem constructionEstablishesInv : Obligations.ConstructionEstablishesInv := by
  intro c m x s h
  obtain ⟨hc, hrom, hram, rfl⟩ := construct_ok h
  have start := Cfg.pagingStart hc
  obtain ⟨hromWf, hromBelow⟩ := loadBanks_kept hrom start.romWf start.romBelow
  obtain ⟨hramWf, hramBelow⟩ := loadBanks_kept hram start.ramWf start.ramBelow
  exact State.init_inv x (Cfg.wf_withRom hc hromWf hromBelow) hramWf hramBelow

end Sys2Proof.Machine
end

section
/-! What the host's operations on a running engine do, and that each but Restore keeps the invariant (44_host.md R251 to R259). -/

namespace Sys2Proof.Machine

/-! ### `Reconfigure` (R257) -/

/-- A change of a unit that exists, whose configuration passes every check, is queued. -/
theorem State.reconfigure_of_wf {s : State} {ch : Change} (hn : ch.names s.queuedCfg = true)
    (hwf : (ch.applyCfg s.queuedCfg).wf = true) : s.reconfigure ch = .ok { s with queue := s.queue ++ [ch] } := by
  rw [State.reconfigure, if_pos hn, Cfg.check_of_wf hwf]

/-- One whose configuration fails a check is refused by that check's name. -/
theorem State.reconfigure_of_check {s : State} {ch : Change} {k : Check} (hn : ch.names s.queuedCfg = true)
    (hk : (ch.applyCfg s.queuedCfg).check = some k) : s.reconfigure ch = .error (.config k) := by
  rw [State.reconfigure, if_pos hn, hk]

/-- What was queued passes every check. -/
theorem State.reconfigure_ok {s t : State} {ch : Change} (h : s.reconfigure ch = .ok t) :
    (ch.applyCfg s.queuedCfg).wf = true ∧ t = { s with queue := s.queue ++ [ch] } := by
  unfold State.reconfigure at h
  split at h
  · split at h
    · cases h
    · next hk => cases h; exact ⟨by rw [Cfg.wf, hk]; rfl, rfl⟩
  · cases h

/-- A change queued last is applied last (R258). -/
theorem State.queuedCfg_append (s : State) (ch : Change) :
    ({ s with queue := s.queue ++ [ch] } : State).queuedCfg = ch.applyCfg s.queuedCfg := by
  simp [State.queuedCfg]

/-! ### `AssertIrq` and `ClearIrq` (R253, R254) -/

theorem State.assertIrq_of_lt {s : State} {i : Nat} (h : i < s.cfg.nIrq) :
    s.assertIrq i = ({ s with ic := { s.ic with ifr := setBit s.ic.ifr i } } : State).icUpdate := by
  rw [State.assertIrq, if_pos h]

theorem State.clearIrq_of_lt {s : State} {i : Nat} (h : i < s.cfg.nIrq) :
    s.clearIrq i = ({ s with ic := { s.ic with ifr := clearBit s.ic.ifr i } } : State).icUpdate := by
  rw [State.clearIrq, if_pos h]

/-- Settles O53: an interrupt line sets or clears its own bit before `ic_update`, and `Reconfigure` answers what the checks say of the
configuration the change would leave. -/
theorem hostOperationResults : Obligations.HostOperationResults := by
  refine ⟨fun s i hi _ => ⟨?_, ?_⟩, fun s x ch => ⟨rfl, State.reconfigure_of_wf, fun hn hwf => ?_⟩⟩
  · exact ⟨_, State.assertIrq_of_lt hi, getLsbD_setBit _ _⟩
  · exact ⟨_, State.clearIrq_of_lt hi, fun j _ => getLsbD_clearBit _ _ j⟩
  · obtain ⟨k, hk⟩ := Cfg.check_of_not_wf hwf
    exact ⟨k, State.reconfigure_of_check hn hk, hk⟩

/-! ### The invariant after `Reset()` (R251) -/

theorem State.Inv.cpuReset {s : State} (hs : s.Inv) : s.cpuReset.Inv := by
  obtain ⟨hperiph, hobserver⟩ := s.cpuReset_units
  rw [State.cpuReset_eq]
  exact .of_parts
    ⟨⟨hs.cfgWf, hs.queuedWf⟩, hs.framePosLt, ⟨hs.buslogWf, hs.buslogBelow⟩, hperiph.trans hs.periphLength,
      hobserver.trans hs.observerLength⟩
    ⟨.of_reset hs.cfgWf rfl rfl hs.ramWf hs.ramBelow, .of_reset hs.cfgWf rfl, rfl⟩ ⟨Nat.zero_le _, trivial⟩ nofun

/-! ### The invariant after the other operations -/

/-- An operation that changes the interrupt controller, the input latch and the queue alone keeps the rest of the invariant. -/
theorem State.Inv.of_host {s t : State} (hs : s.Inv) (e : t = { s with ic := t.ic, input := t.input, queue := t.queue })
    (hq : t.queuedCfg.wf = true) (hsources : t.SourcesOk) (hpending : t.PendingHasRequest) : t.Inv := by
  have hcfg : t.cfg = s.cfg := by rw [e]
  have hclock : t.Clocked := by
    refine ⟨⟨hcfg ▸ hs.cfgWf, hq⟩, ?_⟩
    rw [State.UnitsMatch, e]
    exact ⟨hs.framePosLt, ⟨hs.buslogWf, hs.buslogBelow⟩, hs.periphLength, hs.observerLength⟩
  obtain ⟨hpaged, -, hr8⟩ := hs.registersOk
  refine .of_parts hclock ⟨hpaged.congr (by rw [e]) (by rw [hcfg]), hsources, ?_⟩
    (hs.inProgram.congr (by rw [e]) (by rw [hcfg])) hpending
  rw [e]
  exact hr8

/-- `ic_update` after IF got a value without bits of sources that do not exist. -/
theorem State.Inv.icUpdate_withIfr {s : State} (hs : s.Inv) {f : Byte} (hf : f &&& s.cfg.irqMask = f) :
    ({ s with ic := { s.ic with ifr := f } } : State).icUpdate.Inv := by
  refine hs.of_host ?_ ?_ ?_ (State.icUpdate_pendingHasRequest _)
  · rw [State.icUpdate_eq]
  · rw [State.icUpdate_eq]; exact hs.queuedWf
  · rw [State.icUpdate_eq]; exact ⟨hf, hs.ieMasked, hs.srcLt⟩

theorem Cfg.setBit_and_irqMask {c : Cfg} {v : Byte} (h : v &&& c.irqMask = v) {i : Nat} (hi : i < c.nIrq) :
    setBit v i &&& c.irqMask = setBit v i := by
  rw [Cfg.and_irqMask_eq_iff] at h ⊢
  intro j hj
  by_cases h8 : j < 8
  · rw [getLsbD_setBit _ _ _ h8, h j hj, decide_eq_false (by omega), Bool.false_or]
  · exact BitVec.getLsbD_of_ge _ _ (by omega)

theorem Cfg.clearBit_and_irqMask {c : Cfg} {v : Byte} (h : v &&& c.irqMask = v) (i : Nat) :
    clearBit v i &&& c.irqMask = clearBit v i := by
  rw [Cfg.and_irqMask_eq_iff] at h ⊢
  exact fun j hj => by rw [getLsbD_clearBit, h j hj, Bool.false_and]

theorem State.Inv.assertIrq {s : State} (hs : s.Inv) (i : Nat) : (s.assertIrq i).Inv := by
  refine hs.icUpdate_withIfr ?_
  split
  · next hi => exact Cfg.setBit_and_irqMask hs.ifMasked hi
  · exact hs.ifMasked

theorem State.Inv.clearIrq {s : State} (hs : s.Inv) (i : Nat) : (s.clearIrq i).Inv := by
  refine hs.icUpdate_withIfr ?_
  split
  · exact Cfg.clearBit_and_irqMask hs.ifMasked i
  · exact hs.ifMasked

theorem State.Inv.setInput {s : State} (hs : s.Inv) (x : Input) : (s.setInput x).Inv :=
  hs.of_host rfl hs.queuedWf ⟨hs.ifMasked, hs.ieMasked, hs.srcLt⟩ hs.pending

theorem State.Inv.reconfigure {s t : State} (hs : s.Inv) {ch : Change} (h : s.reconfigure ch = .ok t) : t.Inv := by
  obtain ⟨hwf, rfl⟩ := State.reconfigure_ok h
  exact hs.of_host rfl (by rwa [State.queuedCfg_append]) ⟨hs.ifMasked, hs.ieMasked, hs.srcLt⟩ hs.pending

/-- Settles O59: Reset establishes the registers' part anew; the other operations change only the controller, the input latch and the
queue. -/
theorem hostKeepsInv : Obligations.HostKeepsInv := by
  intro s t op hop hs h
  cases op with
  | reset => cases h; exact hs.cpuReset
  | assertIrq i => cases h; exact hs.assertIrq i
  | clearIrq i => cases h; exact hs.clearIrq i
  | setInput x => cases h; exact hs.setInput x
  | reconfigure ch => exact hs.reconfigure h
  | restore src => exact absurd rfl (hop src)

end Sys2Proof.Machine
end

section
/-! Where IC_STATE moves in a whole tick (60_exceptions.md R273, R274), and what `ic_update`, the splice, the checkpoint, the vector
and the halt tick leave (R275 to R281, R288). -/

namespace Sys2Proof.Machine

/-! ### `ic_update` (R273) -/

theorem State.icUpdate_requesting (s : State) : s.icUpdate.requesting = s.requesting := by
  rw [State.icUpdate_eq]
  rfl

theorem State.icUpdate_of_dispatching {s : State} (h : s.ic.st = .dispatching) : s.icUpdate = s := by
  simp only [State.icUpdate, h]

/-- Outside an interrupt entry `ic_update` leaves Pending on a request and Idle without one. -/
theorem State.icUpdate_st {s : State} (h : s.ic.st ≠ .dispatching) :
    s.icUpdate.ic.st = if s.requesting then .pending else .idle := by
  unfold State.icUpdate
  split
  · next hi => split <;> simp_all
  · next hp => split <;> simp_all
  · next hd => exact absurd hd h

/-- Settles O20: the rows of the rule are the branches of the definition. -/
theorem icUpdateRule : Obligations.IcUpdateRule := by
  intro s req
  have hreq : s.requesting = true ↔ req := s.requesting_iff
  rw [← hreq]
  refine ⟨fun hs hr => ?_, fun hs hr => ?_, fun hs hr => ?_, fun hs hr => ?_, fun hs => ?_⟩
  · simp only [State.icUpdate, hs, hr, if_true]
  · simp only [State.icUpdate, hs, hr, Bool.false_eq_true, if_false]
  · simp only [State.icUpdate, hs, hr, if_true]
  · simp only [State.icUpdate, hs, hr, Bool.false_eq_true, if_false]
  · exact State.icUpdate_of_dispatching hs

/-! ### IC_STATE over a whole tick (R274) -/

/-- The end of a tick that is in no entry leaves Pending on a request and Idle without one. -/
theorem State.endTick_st {s t : State} (h : s.endTick = .ok t) (hs : s.ic.st ≠ .dispatching) :
    t.ic.st = if t.requesting then .pending else .idle := by
  rw [State.endTick_icUpdate h, State.icUpdate_requesting]
  exact State.icUpdate_st hs

/-- What a halt tick does to IC_STATE (R288). -/
theorem State.haltTick_st {s t : State} (h : s.haltTick = .next t) :
    t.ic.st = s.ic.st ∨ s.ic.st = .pending ∧ t.ic.st = .dispatching := by
  rcases State.haltTick_next h with ⟨j, hp, -, rfl⟩ | ⟨-, -, rfl⟩ | ⟨-, -, rfl⟩
  · exact .inr ⟨hp, rfl⟩
  · exact .inl rfl
  · exact .inl rfl

/-- What a step does to IC_STATE before the end of its tick: nothing, the entry of a pending interrupt, or the end of an entry. -/
theorem step_icState {s t : State} (h : step s = .next t) :
    (∃ k, t = s.raise (.step k)) ∨
      ∃ u : State, u.endTick = .ok t ∧
        (u.ic.st = s.ic.st ∨
          s.ic.st = .pending ∧ u.ic.st = .dispatching ∧ (s.cpu.halted = true ∨ s.retiring = some .fetch) ∨
          u.ic.st = .idle ∧ (s.retiring = some .setvec ∨ s.retiring = some .irqend)) := by
  obtain ⟨-, hk | ⟨u, -, hu, ⟨hh, ht⟩ | ⟨i, s0, -, hi, hr, hs0⟩⟩⟩ := step_retires h
  · exact .inl hk
  · refine .inr ⟨u, hu, ?_⟩
    rcases State.haltTick_st ht with e | ⟨hp, hd⟩
    · exact .inl e
    · exact .inr (.inl ⟨hp, hd, .inl hh⟩)
  · have hic : s0.ic = s.ic := by rcases hs0 with ⟨-, rfl⟩ | ⟨-, rfl⟩ <;> rfl
    refine .inr ⟨u, hu, ?_⟩
    rw [hi, ← hic]
    rcases hr.icState with e | ⟨rfl, hp, hd⟩ | ⟨hi', he⟩
    · exact .inl e
    · exact .inr (.inl ⟨hp, hd, .inr rfl⟩)
    · exact .inr (.inr ⟨he, hi'.imp (congrArg some) (congrArg some)⟩)

/-- Settles O24: an entry begins and ends only in the halt tick or in the micro-op retired, and the end of a tick that is in none
decides between Idle and Pending. -/
theorem icStateTransitions : Obligations.IcStateTransitions := by
  intro s t h
  rcases step_icState h with ⟨k, rfl⟩ | ⟨u, hu, hmove⟩
  · exact ⟨.inl, fun hp hi => absurd (hp.symm.trans hi) nofun, fun hp hd => absurd (hp.symm.trans hd) nofun,
      fun hd hn => absurd hd hn⟩
  have hdispatch : t.ic.st = .dispatching ↔ u.ic.st = .dispatching := State.endTick_dispatching hu
  have hfree : t.ic.st ≠ .dispatching → t.ic.st = if t.requesting then .pending else .idle :=
    fun hn => State.endTick_st hu (mt hdispatch.mpr hn)
  refine ⟨fun hs => ?_, fun _ ht => ?_, fun hs ht => ?_, fun hs ht => ?_⟩
  · have hn : t.ic.st ≠ .dispatching := by
      rw [ne_eq, hdispatch]
      rcases hmove with e | ⟨hp, -⟩ | ⟨he, -⟩
      · simp [e, hs]
      · simp [hs] at hp
      · simp [he]
    cases hr : t.requesting
    · exact .inl (by simpa [hr] using hfree hn)
    · exact .inr ⟨by simpa [hr] using hfree hn, rfl⟩
  · have e := hfree (by simp [ht])
    cases hr : t.requesting
    · rfl
    · simp [ht, hr] at e
  · rw [hdispatch] at ht
    rcases hmove with e | ⟨-, -, hby⟩ | ⟨he, -⟩
    · simp [e, hs] at ht
    · exact hby
    · simp [he] at ht
  · rw [ne_eq, hdispatch] at ht
    rcases hmove with e | ⟨-, hd, -⟩ | ⟨-, hby⟩
    · exact absurd (e.trans hs) ht
    · exact absurd hd ht
    · exact hby

/-! ### The splice, the checkpoint, the vector and the halt tick -/

/-- Settles O19: the winner is the least source pending and enabled, and a `FETCH` then retires as its entry. -/
theorem spliceEntersLowestSource : Obligations.SpliceEntersLowestSource :=
  fun s i hp => ⟨s.winner_iff i, fun hw => (Retires.splice i hp hw).exec_eq⟩

theorem State.stillPending_iff (s : State) :
    s.stillPending = true ↔ s.ic.ifr.getLsbD s.ic.src = true ∧ s.ic.ier.getLsbD s.ic.src = true := by
  simp [State.stillPending, bit]

/-- Settles O21: `IRQCHK` retires by the two cases of "still pending"; `SETVEC` clears the one IF bit. -/
theorem checkpointAndVectorResults : Obligations.CheckpointAndVectorResults := by
  refine ⟨fun s => ⟨fun h => ?_, fun h => ?_⟩, fun s v hv => ?_⟩
  · exact (Retires.irqchk (s.stillPending_iff.mpr h)).exec_eq
  · rw [← s.stillPending_iff, Bool.not_eq_true] at h
    exact (Retires.cancel h).exec_eq
  · exact ⟨_, (Retires.setvec v hv).exec_eq, rfl, getLsbD_clearBit s.ic.ifr s.ic.src⟩

/-- Settles O23: the branches of `haltTick`. -/
theorem haltTickRule : Obligations.HaltTickRule := by
  intro s hf hh
  refine ⟨?_, fun hp i hw => ?_, fun hp hex => ?_, fun hp hall => ?_⟩
  · simp only [step, State.stepWith, hf, hh, if_true]
  · have hw' : ({ s with cpu := { s.cpu with halted := false } } : State).winner = some i := hw
    simp only [State.haltTick, hp, if_true, State.splice, hw']
    rfl
  · have hr : s.requests ≠ 0 := s.requests_ne_zero.mpr hex
    simp only [State.haltTick, hp, hr, ne_eq, not_false_eq_true, if_true, if_false]
  · have hr : ¬s.requests ≠ 0 := mt s.requests_ne_zero.mp fun ⟨j, hj, hb⟩ => hall j hj hb
    simp only [State.haltTick, hp, hr, if_false]

end Sys2Proof.Machine
end

section
/-! What a reported failure does (60_exceptions.md R293 to R295). -/

namespace Sys2Proof.Machine

/-! ### A port function that reports failure (R293) -/

theorem State.portRead_of_failure {s : State} {q : Addr} {k : Nat} {d : Device} (hF : s.timing.framePos < s.cfg.frameCycles)
    (hc : s.claimant q = .periph k) (hd : s.cfg.periph[k]? = some (.device d))
    (hfail : s.devEval (s.pstate k) q.toNat 0 d.readFail ≠ 0) : s.portRead q = .error (.step k) := by
  have hu : s.unitRead (.periph k) q = .error (.step k) := by
    simp only [State.unitRead, hd, hfail, ne_eq, not_false_eq_true, if_true]
  simp only [State.portRead, portWait, s.advance_zero hF, hc, hu]

theorem State.portWrite_of_failure {s : State} {q : Addr} {v : Byte} {k : Nat} {d : Device}
    (hF : s.timing.framePos < s.cfg.frameCycles) (hc : s.claimant q = .periph k) (hd : s.cfg.periph[k]? = some (.device d))
    (hfail : (s.logBus v).devEval (s.pstate k) q.toNat v.toNat d.writeFail ≠ 0) : s.portWrite q v = .error (.step k) := by
  have hc' : (s.logBus v).claimant q = .periph k := hc
  have hu : (s.logBus v).unitWrite (.periph k) q v = .error (.step k) := by
    have hd' : (s.logBus v).cfg.periph[k]? = some (.device d) := hd
    have hfail' : (s.logBus v).devEval ((s.logBus v).pstate k) q.toNat v.toNat d.writeFail ≠ 0 := hfail
    simp only [State.unitWrite, hd', hfail', ne_eq, not_false_eq_true, if_true]
  simp only [State.portWrite, portWait, s.advance_zero hF, hc', hu]

theorem execInp_of_error {s : State} {e : Error} {d : Sel8} {p : PairSel} (hd : s.hasSel d = true) (hp : s.hasPair p = true)
    (h : s.portRead (s.readPair p) = .error e) : execInp d p s = .next (s.raise e) := by
  simp only [execInp, hd, hp, h, Bool.and_self, if_true]

theorem execOutp_of_error {s : State} {e : Error} {a : Sel8} {p : PairSel} (ha : s.hasSel a = true) (hp : s.hasPair p = true)
    (h : s.portWrite (s.readPair p) (s.readSel a) = .error e) : execOutp a p s = .next (s.raise e) := by
  simp only [execOutp, ha, hp, h, Bool.and_self, if_true]

/-! ### FAILED and ERR (R295) -/

/-- A step from a state that has not failed fails only by the roll-back with E_STEP. -/
theorem step_failed {s t : State} {e : Error} (h : step s = .next t) (he : t.failed = some e) :
    ∃ k, t = s.raise (.step k) ∧ e = .step k := by
  obtain ⟨-, ⟨k, rfl⟩ | ⟨u, hn, hu, -⟩⟩ := step_retires h
  · exact ⟨k, rfl, (Option.some.inj he).symm⟩
  · rw [State.endTick_failed hu, hn] at he
    cases he

/-- Every host operation but Restore leaves FAILED and ERR. -/
theorem State.host_failed {s t : State} {op : HostOp} (hop : ∀ src, op ≠ .restore src) (h : s.host op = .ok t) :
    t.failed = s.failed := by
  cases op with
  | reset => cases h; rw [State.cpuReset_eq]
  | assertIrq i => cases h; exact State.icUpdate_failed _
  | clearIrq i => cases h; exact State.icUpdate_failed _
  | setInput x => cases h; rfl
  | reconfigure ch => obtain ⟨-, rfl⟩ := State.reconfigure_ok h; rfl
  | restore src => exact absurd rfl (hop src)

/-- Settles O14: a step fails by the roll-back alone, no operation but Restore names FAILED, and a claimant's failure is the
micro-op's. -/
theorem failureRule : Obligations.FailureRule := by
  refine ⟨fun s t e _ h he => ?_, fun s e he => ?_, fun s t op hop h => State.host_failed hop h, fun c m x t h => ?_,
    fun s r p k d hr hp hF hc hd => ⟨fun hfail => ?_, fun hfail => ?_⟩⟩
  · obtain ⟨k, rfl, rfl⟩ := step_failed h he
    exact ⟨rfl, k, rfl, rfl⟩
  · simp only [step, State.stepWith, he]
  · obtain ⟨-, -, -, rfl⟩ := construct_ok h
    rfl
  · exact execInp_of_error hr hp (State.portRead_of_failure hF hc hd hfail)
  · exact execOutp_of_error hr hp (State.portWrite_of_failure hF hc hd hfail)

end Sys2Proof.Machine
end

section
/-! The whole interrupt entry of REF, completed and cancelled (60_exceptions.md R278 to R282): two pushes of a byte of PC about the
checkpoint, and the micro-op that ends the entry. -/

namespace Sys2Proof.Machine

/-! ### Runs one after the other -/

/-- A run of the machine goes on from the state a run gave. -/
theorem core_run_add {M : Host.Core} {s u : M.State} {m : Nat} (h : M.run m s = .next u) (n : Nat) :
    M.run (m + n) s = M.run n u := by
  induction m generalizing s with
  | zero => cases h; rw [Nat.zero_add]
  | succ m ih =>
    unfold Host.Core.run at h
    split at h
    · next t ht => rw [Nat.add_right_comm, core_run_succ ht, ih h]
    · cases h
    · cases h

/-! ### The programs (30_encoding.md R123) -/

theorem dispatchWords_decode :
    dispatchWords.map decodeUop = [some (.dec16 .sp), some (.wr .pch .sp), some .irqchk, some (.dec16 .sp),
      some (.wr .pcl .sp), some .setvec, some .fetch] :=
  (List.cons.inj entryWords_decode.1).2

theorem cancelledWords_decode :
    cancelledWords.map decodeUop = [some (.dec16 .sp), some (.wr .pch .sp), some .irqchk, some (.dec16 .sp),
      some (.wr .pcl .sp), some .irqend, some .fetch] :=
  (List.cons.inj entryWords_decode.2).2

theorem sequential_dec16_sp : Sequential (.dec16 .sp) := fun s hs => by
  obtain ⟨u, ht, hcpu, hseq, hq⟩ := hs.decSpTick
  exact ⟨u, ht, hq.isRef, by rw [hcpu], hq.cfg, hseq⟩

theorem sequential_wr_sp {a : Sel8} (ha : ∀ s : State, s.hasSel a = true) : Sequential (.wr a .sp) := fun s hs => by
  obtain ⟨u, ht, hr, hcpu, hseq, -, -, hcfg, -, -⟩ := hs.wrTick (ha s) (p := .sp) rfl
  exact ⟨u, ht, hr, by rw [hcpu], hcfg, hseq⟩

/-! ### The push of a byte -/

/-- Two ticks of REF pushed the byte `v`: SP is one lower, and the address it names was written. -/
structure State.Pushed (s u : State) (v : Byte) : Prop where
  isRef : u.IsRef
  cpu : u.cpu = { s.cpu with sp := s.cpu.sp - 1 }
  seq : u.seq = { s.seq with cursor := s.seq.cursor + 2 }
  ic : u.ic = s.icUpdate.ic
  cfg : u.cfg = s.cfg
  paging : u.paging = (s.writeBus (s.cpu.sp - 1) v).1.paging

/-- `DEC16 SP; WR x,SP` for a half `x` of PC. -/
theorem State.IsRef.pushTicks {s : State} (hs : s.IsRef) {a : Sel8} (ha : a = .pch ∨ a = .pcl) :
    ∃ u, s.ticks [exec (.dec16 .sp), exec (.wr a .sp)] = .next u ∧ s.Pushed u (s.readSel a) := by
  obtain ⟨m, hm, hcpu, hseq, hq⟩ := hs.decSpTick
  have hsel : m.hasSel a = true := by rcases ha with rfl | rfl <;> rfl
  have hread : m.readSel a = s.readSel a := by
    rw [State.readSel, State.readSel, hcpu]
    rcases ha with rfl | rfl <;> rfl
  obtain ⟨u, hu, hr, hcpu', hseq', hic, -, hcfg, hpaging, -⟩ := hq.isRef.wrTick hsel (p := .sp) rfl
  have hwrite := (hq.sameMemory.writeBus hs.lookSteady (s.cpu.sp - 1) (s.readSel a)).1
  refine ⟨u, (State.ticks_cons hm).trans ((State.ticks_singleton _ _).trans hu), hr, hcpu'.trans hcpu, ?_,
    hic.trans hq.icUpdate_ic, hcfg.trans hq.cfg, ?_⟩
  · rw [hseq', hseq]
  · rw [hpaging, State.readPair_sp, hread, hcpu, hwrite]

/-! ### The two bytes in memory -/

theorem State.resolve_of_sel {s t : State} (h : t.paging.sel = s.paging.sel) (hc : t.cfg = s.cfg) (a : Addr) :
    t.resolve a = s.resolve a := by
  unfold State.resolve State.boardAt
  rw [hc, State.base_of_sel h]

theorem off_sub_one_ne (a : Addr) : off (a - 1) ≠ off a := by
  unfold off windowSize
  bv_omega

/-- RAM bytes behind neighbouring addresses are different bytes (20_memory.md R77). -/
theorem State.resolve_sub_one_ne {s : State} {a : Addr} {n o : Nat} (h : s.resolve a = .ramByte n o) :
    s.resolve (a - 1) ≠ s.resolve a := by
  intro he
  have ho := State.base_offset (State.base_of_resolve_ram h)
  have ho' := State.base_offset (State.base_of_resolve_ram (he.trans h))
  exact off_sub_one_ne a (ho'.symm.trans ho)

/-- Two writes to neighbouring addresses that RAM answers leave both bytes. -/
theorem State.IsRef.readBus_of_two_writes {s c t : State} (hs : s.IsRef) (hc : c.IsRef) {a : Addr} {v v' : Byte}
    (hp : c.paging = (s.writeBus a v).1.paging) (hcfg : c.cfg = s.cfg) (hp' : t.paging = (c.writeBus (a - 1) v').1.paging)
    (hcfg' : t.cfg = c.cfg) (ha : ∃ n o, s.resolve a = .ramByte n o) (hb : ∃ n o, s.resolve (a - 1) = .ramByte n o) :
    t.readBus a = v ∧ t.readBus (a - 1) = v' := by
  obtain ⟨n, o, ha⟩ := ha
  obtain ⟨n', o', hb⟩ := hb
  have hres : ∀ x, c.resolve x = s.resolve x := State.resolve_of_sel (by rw [hp, State.writeBus_sel]) hcfg
  have hbacked : c.backed a = true := by rw [State.backed, hres, ha]
  obtain ⟨hfirst, -⟩ := hs.readBus_of_writeBus hp hcfg
  obtain ⟨hsecond, hkept⟩ := hc.readBus_of_writeBus hp' hcfg'
  refine ⟨(hkept a hbacked ?_).trans (hfirst n o ha), hsecond n' o' ((hres _).trans hb)⟩
  rw [hres, hres]
  exact (State.resolve_sub_one_ne ha).symm

/-! ### Ticks whose `ic_update` changes nothing -/

theorem State.icUpdate_of_masked {s : State} (h : s.ic.st = .idle) (hi : s.cpu.ime = false) : s.icUpdate = s := by
  simp [State.icUpdate, State.requesting, h, hi]

/-- What makes a state one of REF is neither sequencer, controller nor trace, and of the CPU the number of registers alone. -/
theorem State.IsRef.of_eq {s t : State} (hs : s.IsRef)
    (h : t = { s with cpu := t.cpu, seq := t.seq, ic := t.ic, trace := t.trace }) (hr8 : t.cpu.r8 = s.cpu.r8) : t.IsRef := by
  rw [h]
  exact ⟨hs.cfg, hs.failed, hs.queue, by rw [← hs.r8, ← hr8], hs.windows⟩

/-- A tick of REF whose micro-op left `x`, where `ic_update` has nothing to do. -/
theorem State.IsRef.tick_of_icUpdate {s x : State} {m : State → Outcome} (hs : s.IsRef) (h : m s.bumpCursor = .next x)
    (hx : x.IsRef) (hi : x.icUpdate = x) :
    ∃ t, s.tick m = .next t ∧ t.IsRef ∧ t.cpu = x.cpu ∧ t.seq = x.seq ∧ t.ic = x.ic ∧ t.cfg = x.cfg ∧
      t.paging = x.paging ∧ t.board = x.board := by
  obtain ⟨hr, hcpu, hseq, hic, -, hcfg, hpaging, hboard, -⟩ := hx.afterTick
  exact ⟨_, State.IsRef.tick hs.failed h hx, hr, hcpu, hseq, by rw [hic, hi], hcfg, hpaging, hboard⟩

/-- `SETVEC` as a tick of REF with interrupts masked (R280). -/
theorem State.IsRef.setvecTick {s : State} (hs : s.IsRef) (hime : s.cpu.ime = false) {v : Addr}
    (hv : s.cfg.vector[s.ic.src]? = some v) :
    ∃ t, s.tick (exec .setvec) = .next t ∧ t.cpu = { s.cpu with pc := v } ∧
      t.seq = { s.seq with cursor := s.seq.cursor + 1 } ∧ t.ic = { s.ic with st := .idle, ifr := clearBit s.ic.ifr s.ic.src } ∧
      t.cfg = s.cfg ∧ t.paging = s.paging := by
  have hx : (s.bumpCursor.acknowledge v).IsRef := hs.of_eq rfl rfl
  obtain ⟨t, ht, -, hcpu, hseq, hic, hcfg, hpaging, -⟩ :=
    hs.tick_of_icUpdate (Retires.setvec (s := s.bumpCursor) v hv).exec_eq hx (State.icUpdate_of_masked rfl hime)
  exact ⟨t, ht, hcpu, hseq, hic, hcfg, hpaging⟩

/-- `IRQEND` as a tick of REF with interrupts masked (R281). -/
theorem State.IsRef.irqendTick {s : State} (hs : s.IsRef) (hime : s.cpu.ime = false) :
    ∃ t, s.tick (exec .irqend) = .next t ∧ t.cpu = s.cpu ∧ t.seq = { s.seq with cursor := s.seq.cursor + 1 } ∧
      t.ic = { s.ic with st := .idle } ∧ t.cfg = s.cfg ∧ t.paging = s.paging := by
  have hx : s.bumpCursor.endCancelled.IsRef := hs.of_eq rfl rfl
  obtain ⟨t, ht, -, hcpu, hseq, hic, hcfg, hpaging, -⟩ :=
    hs.tick_of_icUpdate (Retires.irqend (s := s.bumpCursor)).exec_eq hx (State.icUpdate_of_masked rfl hime)
  exact ⟨t, ht, hcpu, hseq, hic, hcfg, hpaging⟩

/-! ### The entry up to the checkpoint, and from it -/

/-- The first two ticks of an entry push the high byte of PC (R278). -/
theorem State.IsRef.runToCheckpoint {s : State} (hs : s.IsRef) (hseq : s.seq = { progId := .dispatch 0, cursor := 0 })
    (hh : s.cpu.halted = false) :
    ∃ u : State, Host.Core.run Sys2Proof.core 2 s = .next u ∧ s.Pushed u (hi8 s.cpu.pc) := by
  obtain ⟨u, hu, hpush⟩ := hs.pushTicks (.inl rfl)
  refine ⟨u, run_of_ticks (l := [.dec16 .sp, .wr .pch .sp]) hs hh ?_ (by simp [sequential_dec16_sp]) hu, hpush⟩
  rw [State.prog, hseq]
  exact ⟨_, dispatchWords_decode.symm⟩

/-- The checkpoint changes the sequencer and the trace alone (R279). -/
theorem Retires.irqchk_eq {s x : State} (h : Retires s .irqchk x) : x = { s with seq := x.seq, trace := x.trace } := by
  cases h <;> rfl

/-- The checkpoint leaves `x`; then the program `x` has in flight pushes the low byte of PC and ends by the micro-op `last`. -/
theorem State.IsRef.runFromCheckpoint {v x : State} {last : Instr} (hv : v.IsRef) (hh : v.cpu.halted = false)
    (hd : v.ic.st = .dispatching) (hseq : v.seq = { progId := .dispatch 0, cursor := 2 }) (hr : Retires v.bumpCursor .irqchk x)
    (hw : [.dec16 .sp, .wr .pcl .sp, last].map some <+: (x.prog.drop x.seq.cursor).map decodeUop) :
    ∃ w, x.Pushed w (lo8 x.cpu.pc) ∧ ∀ t, w.tick (exec last) = .next t → Host.Core.run Sys2Proof.core 4 v = .next t := by
  have ex : x = { v with seq := x.seq, trace := x.trace } := hr.irqchk_eq
  have hx : x.IsRef := hv.of_eq (by rw [ex]) (by rw [ex])
  have hxd : x.ic.st = .dispatching := by rw [ex]; exact hd
  have hi : x.icUpdate = x := State.icUpdate_of_dispatching hxd
  obtain ⟨c, hc, hcr, ecpu, eseq, eic, ecfg, epaging, eboard⟩ := hv.tick_of_icUpdate hr.exec_eq hx hi
  have hnext : v.nextWord = some 0x0A000000 := by rw [State.nextWord, State.prog, hseq]; rfl
  have hstep : step v = .next c := (step_word hh hnext (by decide +kernel)).trans hc
  obtain ⟨w, hticks, hpush⟩ := hcr.pushTicks (.inr rfl)
  have hsame : x.SameMemory c := ⟨epaging, eboard, by rw [ecfg]⟩
  have hwrite := (hsame.writeBus hx.lookSteady (x.cpu.sp - 1) (lo8 x.cpu.pc)).1
  refine ⟨w, ⟨hpush.isRef, ?_, ?_, ?_, hpush.cfg.trans ecfg, ?_⟩, fun t ht => ?_⟩
  · rw [hpush.cpu, ecpu]
  · rw [hpush.seq, eseq]
  · rw [hpush.ic, hi, State.icUpdate_of_dispatching (by rw [eic, hxd]), eic]
  · rw [hpush.paging, ← hwrite, State.readSel, ecpu]
    rfl
  · refine (core_run_succ (M := Sys2Proof.core) hstep 3).trans
      (run_of_ticks (l := [.dec16 .sp, .wr .pcl .sp, last]) hcr ?_ ?_ ?_ ?_)
    · rw [ecpu, ex]
      exact hh
    · rw [State.prog, eseq, ecfg]
      exact hw
    · simp [sequential_dec16_sp, sequential_wr_sp (a := .pcl) fun _ => rfl]
    · exact (State.ticks_append [exec last] hticks).trans ((State.ticks_singleton w _).trans ht)

/-- With the source still pending the entry goes on to `SETVEC`. -/
theorem State.IsRef.runStillPending {v : State} (hv : v.IsRef) (hh : v.cpu.halted = false) (hd : v.ic.st = .dispatching)
    (hseq : v.seq = { progId := .dispatch 0, cursor := 2 }) (hp : v.stillPending = true) :
    ∃ w, v.bumpCursor.Pushed w (lo8 v.cpu.pc) ∧ w.seq = { progId := .dispatch 0, cursor := 5 } ∧ w.ic = v.ic ∧
      ∀ t, w.tick (exec .setvec) = .next t → Host.Core.run Sys2Proof.core 4 v = .next t := by
  have hxseq : v.bumpCursor.seq = { progId := .dispatch 0, cursor := 3 } := by simp [State.bumpCursor, hseq]
  obtain ⟨w, hw, hlast⟩ := hv.runFromCheckpoint (last := .setvec) hh hd hseq (.irqchk hp) (by
    rw [State.prog, hxseq]
    exact ⟨[some .fetch], congrArg (List.drop 3) dispatchWords_decode.symm⟩)
  refine ⟨w, hw, by rw [hw.seq, hxseq], ?_, hlast⟩
  rw [hw.ic, State.icUpdate_of_dispatching (s := v.bumpCursor) hd]
  rfl

/-- With the source no longer pending the entry is cancelled, and goes on to `IRQEND` (R279). -/
theorem State.IsRef.runCancelled {v : State} (hv : v.IsRef) (hh : v.cpu.halted = false) (hd : v.ic.st = .dispatching)
    (hseq : v.seq = { progId := .dispatch 0, cursor := 2 }) (hp : v.stillPending = false) :
    ∃ w, v.bumpCursor.cancel.Pushed w (lo8 v.cpu.pc) ∧ w.seq = { progId := .cancelled 0, cursor := 5 } ∧
      ∀ t, w.tick (exec .irqend) = .next t → Host.Core.run Sys2Proof.core 4 v = .next t := by
  have hvariant : v.cfg.irqVariant = 0 := by rw [hv.cfg]; rfl
  have hxseq : v.bumpCursor.cancel.seq = { progId := .cancelled 0, cursor := 3 } := by
    simp [State.cancel, State.bumpCursor, hseq, hvariant]
  obtain ⟨w, hw, hlast⟩ := hv.runFromCheckpoint (last := .irqend) hh hd hseq (.cancel hp) (by
    rw [State.prog, hxseq]
    exact ⟨[some .fetch], congrArg (List.drop 3) cancelledWords_decode.symm⟩)
  exact ⟨w, hw, by rw [hw.seq, hxseq], hlast⟩

/-! ### The entry whole -/

/-- Both bytes of PC pushed, with nothing between but a change of sequencer, controller and trace: SP is two lower, and PC stands
below it, little-endian, where RAM backs the two bytes (20_memory.md R72). -/
theorem State.Pushed.twice {s u x w : State} (hs : s.IsRef) (hu : s.Pushed u (hi8 s.cpu.pc))
    (ex : x = { u with seq := x.seq, ic := x.ic, trace := x.trace }) (hw : x.Pushed w (lo8 u.cpu.pc)) :
    w.cpu = { s.cpu with sp := s.cpu.sp - 2 } ∧
      ∀ t : State, t.paging = w.paging → t.cfg = w.cfg → (∃ n o, s.resolve (s.cpu.sp - 1) = .ramByte n o) →
        (∃ n o, s.resolve (s.cpu.sp - 2) = .ramByte n o) →
          t.readBus (s.cpu.sp - 1) = hi8 s.cpu.pc ∧ t.readBus (s.cpu.sp - 2) = lo8 s.cpu.pc := by
  have hsp : s.cpu.sp - 2 = s.cpu.sp - 1 - 1 := by bv_omega
  have hx : x.IsRef := hu.isRef.of_eq (by rw [ex]) (by rw [ex])
  have hxcpu : x.cpu = { s.cpu with sp := s.cpu.sp - 1 } := by rw [ex]; exact hu.cpu
  have hxpaging : x.paging = (s.writeBus (s.cpu.sp - 1) (hi8 s.cpu.pc)).1.paging := by rw [ex]; exact hu.paging
  have hxcfg : x.cfg = s.cfg := by rw [ex]; exact hu.cfg
  have hwpaging := hw.paging
  rw [hxcpu, hu.cpu] at hwpaging
  rw [hsp]
  refine ⟨by rw [hw.cpu, hxcpu], fun t htp htc ha hb => ?_⟩
  exact hs.readBus_of_two_writes hx hxpaging hxcfg (htp.trans hwpaging) (htc.trans hw.cfg) ha hb

/-- REF's vectors (30_encoding.md R128). -/
theorem State.IsRef.vector {s : State} (hs : s.IsRef) (h : s.ic.src < 2) :
    s.cfg.vector[s.ic.src]? = some (if s.ic.src = 0 then 0x0040 else 0x0048) := by
  rw [hs.cfg]
  generalize s.ic.src = i at h ⊢
  interval_cases i <;> rfl

/-- Settles O51: the checkpoint finds the source pending and leaves the program, whose last micro-op acknowledges it. -/
theorem interruptEntryPushesPc : Obligations.InterruptEntryPushesPc := by
  intro s hs hseq hh hime hst hsrc hpend
  obtain ⟨u, hrun, hu⟩ := hs.runToCheckpoint hseq hh
  have huic : u.ic = s.ic := by rw [hu.ic, State.icUpdate_of_dispatching hst]
  obtain ⟨w, hw, hwseq, hwic, hlast⟩ := hu.isRef.runStillPending (by rw [hu.cpu, hh]) (by rw [huic, hst]) (by rw [hu.seq, hseq])
    (by rwa [State.stillPending, huic])
  obtain ⟨hwcpu, hbytes⟩ := hu.twice hs rfl hw
  rw [huic] at hwic
  obtain ⟨t, ht, hcpu, htseq, hic, hcfg, hpaging⟩ :=
    hw.isRef.setvecTick (by rw [hwcpu, hime]) (hw.isRef.vector (by rwa [hwic]))
  rw [hwic] at hic
  refine ⟨t, (core_run_add (M := Sys2Proof.core) hrun 4).trans (hlast t ht), by rw [hcpu, hwcpu], by rw [hcpu, hwic],
    by rw [hcpu, hwcpu, hime], by rw [hic], fun j => ?_, by rw [hic], by rw [htseq, hwseq], hbytes t hpaging hcfg⟩
  rw [hic]
  exact getLsbD_clearBit _ _ j

/-- During an entry `ClearIrq` clears the bit alone (44_host.md R254, R273). -/
theorem State.clearIrq_of_dispatching {s : State} {i : Nat} (hi : i < s.cfg.nIrq) (h : s.ic.st = .dispatching) :
    s.clearIrq i = { s with ic := { s.ic with ifr := clearBit s.ic.ifr i } } :=
  (State.clearIrq_of_lt hi).trans (State.icUpdate_of_dispatching h)

/-- Settles O52: the checkpoint finds the source cleared and replaces the rest of the program, whose last micro-op leaves PC. -/
theorem cancelledEntryKeepsPc : Obligations.CancelledEntryKeepsPc := by
  intro s hs hseq hh hime hst hsrc
  obtain ⟨u, hrun, hu⟩ := hs.runToCheckpoint hseq hh
  have huic : u.ic = s.ic := by rw [hu.ic, State.icUpdate_of_dispatching hst]
  have hnirq : s.ic.src < u.cfg.nIrq := by rw [hu.isRef.cfg]; exact hsrc
  have eclear := State.clearIrq_of_dispatching hnirq (by rw [huic, hst])
  have hbit : (clearBit u.ic.ifr s.ic.src).getLsbD s.ic.src = false := by simp [getLsbD_clearBit]
  rw [huic] at eclear hbit
  have hcleared : (u.clearIrq s.ic.src).IsRef := hu.isRef.of_eq (by rw [eclear]) (by rw [eclear])
  obtain ⟨w, hw, hwseq, hlast⟩ := hcleared.runCancelled (by rw [eclear, hu.cpu, hh]) (by rw [eclear, hst])
    (by rw [eclear, hu.seq, hseq]) (by rw [eclear]; simp [State.stillPending, bit, hbit])
  rw [eclear] at hw
  obtain ⟨hwcpu, hbytes⟩ := hu.twice hs rfl hw
  obtain ⟨t, ht, hcpu, htseq, hic, hcfg, hpaging⟩ := hw.isRef.irqendTick (by rw [hwcpu, hime])
  exact ⟨u, t, hrun, hlast t ht, by rw [hcpu, hwcpu], by rw [hcpu, hwcpu], by rw [hcpu, hwcpu, hime], by rw [hic],
    by rw [htseq, hwseq], hbytes t hpaging hcfg⟩

end Sys2Proof.Machine
end

section
/-! The state after a construction and after `Reset()`, and the first tick from either (70_reset_and_hazards.md R311, R312; 44_host.md
R251, R255, R256). -/

namespace Sys2Proof

theorem Quad.toList_ofList {α : Type} (d : α) {l : List α} {q : Quad α} (h : l = q.toList) : (Quad.ofList d l).toList = l := by
  rw [h, Quad.ofList_toList]

end Sys2Proof

namespace Sys2Proof.Machine

/-! ### After construction (R255, R256) -/

/-- The board of a new engine, where one is configured. -/
theorem State.init_board {c : Cfg} {b : BoardCfg} (h : c.board = some b) (ram : Memory) (x : Input) :
    (State.init c ram x).board = { bank := b.initBank, prot := b.initProt, key := b.initKey } := by
  simp only [State.init, h]

/-- The units of a new engine: each peripheral starts as `Periph.init` says. -/
theorem State.init_periph (c : Cfg) (ram : Memory) (x : Input) :
    (State.init c ram x).units.periph = c.periph.map Periph.init :=
  List.map_congr_left fun p _ => by cases p <;> rfl

/-- Settles O9: a construction gives `State.init` on the loaded banks; the mapping it starts with is the one check 7 asks for, so
`remap` leaves it. -/
theorem constructedState : Obligations.ConstructedState := by
  intro c m x s h
  have hmapped : s.remap = s := (constructionEstablishesInv c m x s h).mapping
  obtain ⟨hc, hrom, hram, rfl⟩ := construct_ok h
  obtain ⟨-, hsel, hcont, hvid, -⟩ := Cfg.pagingStart hc
  have romSize : ∀ e ∈ m.rom, e.2.length = 16384 := fun e he => (hrom e he).2
  have ramSize : ∀ e ∈ m.ram, e.2.length = 16384 := fun e he => (hram e he).2
  refine ⟨rfl, rfl, rfl, rfl, Quad.toList_ofList _ hsel, Quad.toList_ofList _ hcont, Quad.toList_ofList _ hvid, hmapped,
    fun b hb => ?_, State.init_periph .., rfl, rfl, rfl, rfl, fun _ => rfl, rfl, rfl, rfl, rfl, rfl,
    fun e he hd o ho => ?_, fun e he hd o ho => ?_, fun n o ho hn => ?_, fun n o ho hn => ?_⟩
  · exact State.init_board (c := { c with rom := loadBanks c.rom m.rom }) hb _ x
  · exact read_loadBanks_same _ _ e he o ho romSize hd
  · exact read_loadBanks_same _ _ e he o ho ramSize hd
  · exact read_loadBanks_other _ _ n o ho romSize hn
  · exact read_loadBanks_other _ _ n o ho ramSize hn

/-- Settles O58: REF passes every check, and media without arrays leave its memory. -/
theorem invAtReset : Obligations.InvAtReset := by
  have built : construct Ref.cfg { rom := [], ram := [] } { buttons := [], axes := [] } = .ok State.reset :=
    construct_of_good _ (by decide +kernel) rfl rfl
  exact ⟨built, constructionEstablishesInv _ _ _ _ built⟩

/-! ### After `Reset()` (R251) -/

theorem State.presetPeriphs_observer (s : State) (k : Nat) (l : List Periph) :
    (s.presetPeriphs k l).units.observer = s.units.observer := by
  rw [(presetPeriphs_eq l s k).1]

theorem State.presetPeriphs_ostate (s : State) (k : Nat) (l : List Periph) (j : Nat) :
    (s.presetPeriphs k l).ostate j = s.ostate j := by
  rw [State.ostate, State.presetPeriphs_observer, State.ostate]

theorem State.presetPeriphs_alike (s : State) (k : Nat) (l : List Periph) : State.Alike s (s.presetPeriphs k l) := by
  rw [(presetPeriphs_eq l s k).1]
  exact ⟨rfl, rfl, rfl, rfl, rfl, rfl⟩

theorem State.presetObservers_pstate (s : State) (k : Nat) (l : List Observer) (j : Nat) :
    (s.presetObservers k l).pstate j = s.pstate j := by
  rw [(presetObservers_eq l s k).1]
  rfl

/-- The hooks run last, on a state that differs in the units alone from the one `Reset()` leaves; a hook sees no unit's state but its
own (R211; log entry 26). -/
theorem State.cpuReset_hooks (s : State) :
    ∃ u : State, State.Alike u s.cpuReset ∧ u.units = s.units ∧
      s.cpuReset = (u.presetPeriphs 0 s.cfg.periph).presetObservers 0 s.cfg.observers := by
  refine ⟨_, ?_, ?_, rfl⟩
  · rw [State.cpuReset_eq]
    exact ⟨rfl, rfl, rfl, rfl, rfl, rfl⟩
  · rfl

/-- `PRESET` of the peripherals: a device runs its own, every other state is kept (R211, R311). -/
theorem State.cpuReset_pstate (s : State) (k : Nat) :
    (∀ d, s.cfg.periph[k]? = some (.device d) → k < s.units.periph.length →
      s.cpuReset.pstate k = s.cpuReset.devActs 0 0 d.presetActs (s.pstate k)) ∧
    (s.cfg.periph[k]? = some .ic ∨ s.cfg.periph[k]? = some .paging ∨ s.cfg.periph[k]? = none →
      s.cpuReset.pstate k = s.pstate k) := by
  obtain ⟨u, halike, hunits, e⟩ := s.cpuReset_hooks
  have hbefore : u.pstate k = s.pstate k := by rw [State.pstate, hunits, State.pstate]
  have hafter : s.cpuReset.pstate k = (u.presetPeriphs 0 s.cfg.periph).pstate (0 + k) := by
    rw [e, State.presetObservers_pstate, Nat.zero_add]
  obtain ⟨-, -, -, hkept, hdevice⟩ := presetPeriphs_eq s.cfg.periph u 0
  refine ⟨fun d hd hk => ?_, fun hd => ?_⟩
  · rw [hafter, hdevice k d hd (by rwa [hunits, Nat.zero_add]), Nat.zero_add, hbefore, devActs_alike halike]
  · rw [hafter, hkept k hd, Nat.zero_add, hbefore]

/-- `PRESET` of the observers, each on its own state (R218, R311). -/
theorem State.cpuReset_ostate (s : State) {k : Nat} {o : Observer} (ho : s.cfg.observers[k]? = some o)
    (hk : k < s.units.observer.length) : s.cpuReset.ostate k = s.cpuReset.devActs 0 0 o.presetActs (s.ostate k) := by
  obtain ⟨u, halike, hunits, e⟩ := s.cpuReset_hooks
  obtain ⟨-, -, -, hobserver⟩ := presetObservers_eq s.cfg.observers (u.presetPeriphs 0 s.cfg.periph) 0
  have hlength : 0 + k < (u.presetPeriphs 0 s.cfg.periph).units.observer.length := by
    rwa [State.presetPeriphs_observer, hunits, Nat.zero_add]
  calc s.cpuReset.ostate k
      = (u.presetPeriphs 0 s.cfg.periph).devActs 0 0 o.presetActs (u.ostate k) := by
        rw [← State.presetPeriphs_ostate u 0 s.cfg.periph, e, ← Nat.zero_add k, hobserver k o ho hlength]
    _ = s.cpuReset.devActs 0 0 o.presetActs (s.ostate k) := by
        rw [devActs_alike (u.presetPeriphs_alike 0 _), devActs_alike halike, State.ostate, hunits, State.ostate]

/-- Settles O10: what is reset is reset before the hooks, which change the units' states alone. -/
theorem cpuResetFields : Obligations.CpuResetFields := by
  intro s t u
  have e : t = _ := s.cpuReset_eq
  refine ⟨?_, ?_, ?_, ?_, ?_, ?_, ?_, ?_, ?_, ?_, ?_, fun k => (s.cpuReset_pstate k).1, fun k => (s.cpuReset_pstate k).2,
    fun k o => s.cpuReset_ostate⟩ <;>
    rw [e]

/-! ### The first tick (R312) -/

/-- With nothing in flight and the engine neither failed nor halted, the tick retires `FETCH` (R141, R148). -/
theorem State.fetches_of_empty {t : State} (hseq : t.seq = { progId := .empty, cursor := 0 }) (hf : t.failed = none)
    (hh : t.cpu.halted = false) : t.prog = [] ∧ t.retiring = some .fetch ∧ step t = t.commit (exec .fetch t) := by
  have hprog : t.prog = [] := by rw [State.prog, hseq, ProgId.prog]
  have hnext : t.nextWord = none := by rw [State.nextWord, hprog, List.getElem?_nil]
  refine ⟨hprog, by simp [State.retiring, hh, hnext], (implicitFetch t hf hh).1 ?_⟩
  rw [hseq, hprog, List.length_nil]

/-- Settles O11: either reset leaves the empty program, PC 0x0000, IME and IE clear. -/
theorem firstTickFetches : Obligations.FirstTickFetches := by
  intro s t hreset hf
  obtain ⟨hpc, hime, hh, hseq, hic⟩ : t.cpu.pc = 0x0000 ∧ t.cpu.ime = false ∧ t.cpu.halted = false ∧
      t.seq = { progId := .empty, cursor := 0 } ∧ t.ic = { st := .idle, ifr := 0x00, ier := 0x00, src := 0 } := by
    rcases hreset with rfl | ⟨c, m, x, h⟩
    · obtain ⟨hcpu, hseq, hic, -⟩ := cpuResetFields s
      exact ⟨by rw [hcpu], by rw [hcpu], by rw [hcpu], hseq, hic⟩
    · obtain ⟨hcpu, hseq, hic, -⟩ := constructedState c m x t h
      exact ⟨by rw [hcpu], by rw [hcpu], by rw [hcpu], hseq, hic⟩
  obtain ⟨hprog, hretiring, hstep⟩ := State.fetches_of_empty hseq hf hh
  exact ⟨by rw [hseq], hprog, hpc, hime, by rw [hic], hretiring, hstep⟩

end Sys2Proof.Machine
end
